-- ==== Sys2Proof/Word.lean ====
section
/-! DEFINITION. The words, bytes, lines and indices of the machine (spec 00_scope.md R8 to R11). -/

namespace Sys2Proof

/-- A 64-bit register value or byte address (R8, R34, R60). -/
abbrev Word := BitVec 64

/-- Eight bits (R9). -/
abbrev Byte := BitVec 8

/-- The 56-bit tag of a line frame (R8, R23). -/
abbrev Tag := BitVec 56

/-- The 32-byte payload of a line, byte `i` at line offset `i` (R9, R11, R23). -/
abbrev LineData := Vector Byte 32

/-- A PE id, which also names that PE's port and cache (R8, R20). -/
abbrev PeId := Fin 4

/-- A general register index, `R0` to `R7` (R34). -/
abbrev Reg := Fin 8

/-- A set index of a cache (R8). -/
abbrev SetIx := Fin 8

/-- A way index of a set (R8). -/
abbrev WayIx := Fin 2

end Sys2Proof
end

