-- ==== Sys2Proof/Config.lean ====
section
/-! DEFINITION. What the spec fixes for the machine (00_scope.md R8) and the free values it leaves open. -/

namespace Sys2Proof

/-- Capacity of the shared memory in bytes (R8, R120). -/
def Config.shmBytes : Nat := 4096

/-- Bytes of a line (R8). -/
def Config.lineBytes : Nat := 32

/-- `STORE_HIT_TOUCHES_LRU`: a store hit marks its way most recently used (R8, R142, D17; log 15). -/
def Config.storeHitTouchesLru : Bool := true

/-- The scheduler's `n`-th choice of the agent preferred for the next step, choice 0 being the first step's. Free: the spec
fixes no order among enabled agents (R191, R284, R343, D26, U18; log 5). -/
opaque Config.schedule : Nat → PeId

/-- The bits an FMUL with a NaN result is made from: a sign bit above 52 fraction bits, a function of the operands.
Free: which NaN results is not fixed (R257, D23, U15; log 9). -/
opaque Config.mulNaN : Word → Word → BitVec 53

/-- The bits an FADD with a NaN result is made from, as `Config.mulNaN` (R257, D23, U15; log 9). -/
opaque Config.addNaN : Word → Word → BitVec 53

end Sys2Proof
end

