-- ==== Sys2Proof/Syntax.lean ====
section
/-! DEFINITION. The instructions, bus transactions and commands of the opcode table (spec 30_encoding.md R93 to R107). -/

namespace Sys2Proof

/-- The five record formats of the opcode table. A record does not say its own format: the interface it arrives at
does (R99, R94, R105, R106, R107). -/
inductive Format where
  /-- A PE instruction word (R99). -/
  | i32
  /-- A bus transaction record (R94). -/
  | txn
  /-- A command of a PE or the host to a memory port (R105). -/
  | portcmd
  /-- A command of a port to its cache (R106). -/
  | cachecmd
  /-- A request of the interconnect or the host to the shared memory (R107). -/
  | shmcmd
  deriving DecidableEq, Repr

/-- One constructor for each row of the opcode table. Fields an operation does not use are not kept (R98, R102, D39).
Immediates are the signed integers of R98 and R101. -/
inductive Instr where
  /-- `LOAD d, a` (R244). -/
  | load (d a : Reg)
  /-- `STORE d, a`: `d` names the data, `a` the address (R245). -/
  | store (d a : Reg)
  /-- `FMUL d, a, b` (R246). -/
  | fmul (d a b : Reg)
  /-- `FADD d, a, b` (R247). -/
  | fadd (d a b : Reg)
  /-- `INC d` (R248). -/
  | inc (d : Reg)
  /-- `DEC d` (R249). -/
  | dec (d : Reg)
  /-- `JNZ d, imm` (R250). -/
  | jnz (d : Reg) (imm : Int)
  /-- `LEA d, a, b, imm` (R251). -/
  | lea (d a b : Reg) (imm : Int)
  /-- `HALT` (R252). -/
  | halt
  /-- BusRd, read-shared, emitted by cache `src` (R194). -/
  | busRd (src : PeId) (addr : Word)
  /-- BusRdX, read-for-ownership (R195). -/
  | busRdX (src : PeId) (addr : Word)
  /-- BusUpgr, upgrade shared-to-modified (R199). -/
  | busUpgr (src : PeId) (addr : Word)
  /-- Flush, write-back of a dirty line (R196). -/
  | flush (src : PeId) (addr : Word) (payload : LineData)
  /-- Inv, invalidate peers (R200). -/
  | inv (src : PeId) (addr : Word)
  /-- `load64(addr)` at a port (R231). -/
  | load64 (addr : Word)
  /-- `store64(addr, wdata)` at a port (R232). -/
  | store64 (addr wdata : Word)
  /-- One `load` attempt at a cache (R144). -/
  | cacheLoad (addr : Word)
  /-- One `store` attempt at a cache (R145). -/
  | cacheStore (addr wdata : Word)
  /-- `ShmRead(addr, size, req)` (R121). -/
  | shmRead (addr : Word) (size : Nat) (req : Option PeId)
  /-- `ShmWrite(addr, bytes, size, req)` (R122). -/
  | shmWrite (addr : Word) (bytes : List Byte) (size : Nat) (req : Option PeId)
  deriving DecidableEq, Repr

/-- The format of the record that carries an instruction. -/
def Instr.format : Instr → Format
  | .load _ _ | .store _ _ | .fmul _ _ _ | .fadd _ _ _ | .inc _ | .dec _ | .jnz _ _ | .lea _ _ _ _ | .halt => .i32
  | .busRd _ _ | .busRdX _ _ | .busUpgr _ _ | .flush _ _ _ | .inv _ _ => .txn
  | .load64 _ | .store64 _ _ => .portcmd
  | .cacheLoad _ | .cacheStore _ _ => .cachecmd
  | .shmRead _ _ _ | .shmWrite _ _ _ _ => .shmcmd

/-- The spelling of a register operand in assembly (R104). -/
def regName (r : Reg) : String := "R" ++ toString r.val

/-- The assembly text of a PE instruction (R104, D36); the other records have no assembly form. -/
def Instr.asm : Instr → Option String
  | .load d a => some ("LOAD " ++ regName d ++ ", " ++ regName a)
  | .store d a => some ("STORE " ++ regName d ++ ", " ++ regName a)
  | .fmul d a b => some ("FMUL " ++ regName d ++ ", " ++ regName a ++ ", " ++ regName b)
  | .fadd d a b => some ("FADD " ++ regName d ++ ", " ++ regName a ++ ", " ++ regName b)
  | .inc d => some ("INC " ++ regName d)
  | .dec d => some ("DEC " ++ regName d)
  | .jnz d imm => some ("JNZ " ++ regName d ++ ", " ++ toString imm)
  | .lea d a b imm => some ("LEA " ++ regName d ++ ", " ++ regName a ++ ", " ++ regName b ++ ", " ++ toString imm)
  | .halt => some "HALT"
  | .busRd _ _ | .busRdX _ _ | .busUpgr _ _ | .flush _ _ _ | .inv _ _ => none
  | .load64 _ | .store64 _ _ | .cacheLoad _ | .cacheStore _ _ => none
  | .shmRead _ _ _ | .shmWrite _ _ _ _ => none

end Sys2Proof
end

