-- ==== Sys2Proof/WellFormed.lean ====
section
/-! DEFINITION. Which instructions are well formed: those whose fields the record layouts can hold and, for LEA, whose
shift amount the spec gives a meaning (spec 30_encoding.md R99, R101, R107; 44_pe_isa.md R251). -/

namespace Sys2Proof

/-- A signed immediate that the 16-bit field of an instruction word can hold (R99). -/
def immFits (imm : Int) : Bool := decide (-32768 ≤ imm) && decide (imm ≤ 32767)

/-- A shift amount to which LEA gives a meaning (R101, R251, D21). -/
def shiftAmountOk (imm : Int) : Bool := decide (0 ≤ imm) && decide (imm ≤ 63)

/-- The well-formedness check. Register and PE indices are in range by their types (R242). -/
def Instr.wellFormed : Instr → Bool
  | .load _ _ | .store _ _ | .fmul _ _ _ | .fadd _ _ _ | .inc _ | .dec _ | .halt => true
  | .jnz _ imm => immFits imm
  | .lea _ _ _ imm => shiftAmountOk imm
  | .busRd _ _ | .busRdX _ _ | .busUpgr _ _ | .flush _ _ _ | .inv _ _ => true
  | .load64 _ | .store64 _ _ | .cacheLoad _ | .cacheStore _ _ => true
  | .shmRead _ size _ => decide (size < 2 ^ 64)
  | .shmWrite _ bytes size _ => decide (size < 2 ^ 64) && decide (bytes.length < 2 ^ 64)

end Sys2Proof
end

