-- ==== Sys2Proof/Decode.lean ====
section
/-! DEFINITION. The decoder, total on any bytes and rejecting by name, and the encoder, both from the layouts of spec
30_encoding.md (R94 to R107, D11 to D13, D37). -/

namespace Sys2Proof

/-- `v[hi:lo]` of R9, as an unsigned number. -/
def slice (v hi lo : Nat) : Nat := v / 2 ^ lo % 2 ^ (hi + 1 - lo)

/-- The number a list of bytes holds, least significant byte first (R11, R99). -/
def natLE : List Byte → Nat
  | [] => 0
  | b :: t => b.toNat + 256 * natLE t

/-- The low `n` bytes of a number, least significant first (R11, R99). -/
def bytesLE : Nat → Nat → List Byte
  | 0, _ => []
  | n + 1, v => BitVec.ofNat 8 v :: bytesLE n (v / 256)

/-- The line a list of bytes holds; a missing byte is zero (R11, D37). -/
def lineOfBytes (l : List Byte) : LineData := Vector.ofFn fun i => l.getD i.val 0

/-- `sext_16` of R9 and R101. -/
def sext16 (v : Nat) : Int := (BitVec.ofNat 16 v).toInt

/-- Why a record is not an instruction. -/
inductive DecodeError where
  /-- Opcode 9 to 15 of an instruction word (R102); executing one halts the PE (R253). -/
  | undefinedOpcode (op : Nat)
  /-- Type code 5 to 7 of a transaction record: not a transaction (R96, U13). -/
  | reservedTxnType (type : Nat)
  /-- Fewer bytes than the record has. -/
  | truncated
  /-- An instruction word given where a command is expected: a PE takes its instructions from its program (R36). -/
  | notACommand
  deriving DecidableEq, Repr

/-- Register field of an instruction word whose lowest bit is `lo` (R99). -/
def regField (w lo : Nat) : Reg := Fin.ofNat 8 (slice w (lo + 2) lo)

/-- The instruction an `I32` word holds (R99 to R102). -/
def decodeI32 (w : Nat) : Except DecodeError Instr :=
  let d := regField w 25
  let a := regField w 22
  let b := regField w 19
  let imm := sext16 (slice w 15 0)
  match slice w 31 28 with
  | 0 => .ok (.load d a)
  | 1 => .ok (.store d a)
  | 2 => .ok (.fmul d a b)
  | 3 => .ok (.fadd d a b)
  | 4 => .ok (.inc d)
  | 5 => .ok (.dec d)
  | 6 => .ok (.jnz d imm)
  | 7 => .ok (.lea d a b imm)
  | 8 => .ok .halt
  | op => .error (.undefinedOpcode op)

/-- The transaction a `TXN` record holds (R94, R96). -/
def decodeTxn (n : Nat) : Except DecodeError Instr :=
  let src : PeId := Fin.ofNat 4 (slice n 4 3)
  let addr : Word := BitVec.ofNat 64 (slice n 68 5)
  match slice n 2 0 with
  | 0 => .ok (.busRd src addr)
  | 1 => .ok (.busRdX src addr)
  | 2 => .ok (.busUpgr src addr)
  | 3 => .ok (.flush src addr (lineOfBytes (bytesLE 32 (slice n 324 69))))
  | 4 => .ok (.inv src addr)
  | type => .error (.reservedTxnType type)

/-- The command a `PORTCMD` record holds (R105). -/
def decodePort (n : Nat) : Instr :=
  let addr : Word := BitVec.ofNat 64 (slice n 64 1)
  if slice n 0 0 = 0 then .load64 addr else .store64 addr (BitVec.ofNat 64 (slice n 128 65))

/-- The command a `CACHECMD` record holds (R106). -/
def decodeCache (n : Nat) : Instr :=
  let addr : Word := BitVec.ofNat 64 (slice n 64 1)
  if slice n 0 0 = 0 then .cacheLoad addr else .cacheStore addr (BitVec.ofNat 64 (slice n 128 65))

/-- The request a `SHMCMD` header and the payload after it hold. R107 places only `cmd`; the other places are the
model's: addr [64:1], size [128:65], req present [129], req id [131:130], payload length [199:136] (DESIGN CHOICE, log 8). -/
def decodeShm (n : Nat) (payload : List Byte) : Instr :=
  let addr : Word := BitVec.ofNat 64 (slice n 64 1)
  let size := slice n 128 65
  let req : Option PeId := if slice n 129 129 = 0 then none else some (Fin.ofNat 4 (slice n 131 130))
  if slice n 0 0 = 0 then .shmRead addr size req else .shmWrite addr payload size req

/-- The bytes a record takes, less the payload of a SHMCMD: 32, 325, 129, 129 and 200 bits in whole bytes
(R94, R99, R105, R106; log 8). -/
def Format.headerBytes : Format → Nat
  | .i32 => 4
  | .txn => 41
  | .portcmd => 17
  | .cachecmd => 17
  | .shmcmd => 25

/-- The instruction at the front of a list of bytes that arrives at the interface of a format, and the bytes after it.
Padding bits above a record's last bit are ignored (log 17). -/
def decode (f : Format) (bytes : List Byte) : Except DecodeError (Instr × List Byte) :=
  if bytes.length < f.headerBytes then .error .truncated
  else
    let n := natLE (bytes.take f.headerBytes)
    let rest := bytes.drop f.headerBytes
    match f with
    | .i32 => (decodeI32 n).map (·, rest)
    | .txn => (decodeTxn n).map (·, rest)
    | .portcmd => .ok (decodePort n, rest)
    | .cachecmd => .ok (decodeCache n, rest)
    | .shmcmd =>
      let len := slice n 199 136
      if rest.length < len then .error .truncated
      else .ok (decodeShm n (rest.take len), rest.drop len)

/-- An instruction word from its fields, reserved bits written 0 (R99). -/
def wordI32 (op d a b : Nat) (imm : Int) : Nat :=
  op * 2 ^ 28 + d * 2 ^ 25 + a * 2 ^ 22 + b * 2 ^ 19 + (imm % 65536).toNat

/-- A transaction record from its fields (R94). -/
def wordTxn (type : Nat) (src : PeId) (addr : Word) (payload : Nat) : Nat :=
  type + src.val * 2 ^ 3 + addr.toNat * 2 ^ 5 + payload * 2 ^ 69

/-- A port or cache command record from its fields (R105, R106). -/
def wordCmd (op : Nat) (addr : Word) (wdata : Nat) : Nat :=
  op + addr.toNat * 2 + wdata * 2 ^ 65

/-- The header of a shared memory request from its fields (R107; log 8). -/
def wordShm (cmd : Nat) (addr : Word) (size : Nat) (req : Option PeId) (len : Nat) : Nat :=
  let reqBits := match req with
    | none => 0
    | some p => 1 + p.val * 2
  cmd + addr.toNat * 2 + size * 2 ^ 65 + reqBits * 2 ^ 129 + len * 2 ^ 136

/-- The record of an instruction as a number, bit 0 least significant, without the payload of a SHMCMD. -/
def encodeNat : Instr → Nat
  | .load d a => wordI32 0 d.val a.val 0 0
  | .store d a => wordI32 1 d.val a.val 0 0
  | .fmul d a b => wordI32 2 d.val a.val b.val 0
  | .fadd d a b => wordI32 3 d.val a.val b.val 0
  | .inc d => wordI32 4 d.val 0 0 0
  | .dec d => wordI32 5 d.val 0 0 0
  | .jnz d imm => wordI32 6 d.val 0 0 imm
  | .lea d a b imm => wordI32 7 d.val a.val b.val imm
  | .halt => wordI32 8 0 0 0 0
  | .busRd src addr => wordTxn 0 src addr 0
  | .busRdX src addr => wordTxn 1 src addr 0
  | .busUpgr src addr => wordTxn 2 src addr 0
  | .flush src addr payload => wordTxn 3 src addr (natLE payload.toList)
  | .inv src addr => wordTxn 4 src addr 0
  | .load64 addr => wordCmd 0 addr 0
  | .store64 addr wdata => wordCmd 1 addr wdata.toNat
  | .cacheLoad addr => wordCmd 0 addr 0
  | .cacheStore addr wdata => wordCmd 1 addr wdata.toNat
  | .shmRead addr size req => wordShm 0 addr size req 0
  | .shmWrite addr bytes size req => wordShm 1 addr size req bytes.length

/-- The bytes of an instruction's record, lowest address first: each record in little-endian order (R99), a SHMCMD's
payload after its header. -/
def encode (i : Instr) : List Byte :=
  bytesLE i.format.headerBytes (encodeNat i) ++
    match i with
    | .shmWrite _ bytes _ _ => bytes
    | _ => []

/-- The data response an interconnect sends to a cache (R97). -/
structure Rsp where
  addr : Word
  line : LineData
  shared : Bool
  deriving DecidableEq, Repr

/-- The `RSP` record as a number: addr [63:0], shared [64], line [320:65] (R97). -/
def Rsp.encodeNat (r : Rsp) : Nat :=
  r.addr.toNat + (if r.shared then 2 ^ 64 else 0) + natLE r.line.toList * 2 ^ 65

/-- The data response a `RSP` number holds (R97). -/
def Rsp.decodeNat (n : Nat) : Rsp where
  addr := BitVec.ofNat 64 (slice n 63 0)
  shared := slice n 64 64 == 1
  line := lineOfBytes (bytesLE 32 (slice n 320 65))

/-- The format of a table row from its width in whole bytes; a row without a width is a SHMCMD. PORTCMD and CACHECMD have
one layout, so a width alone cannot tell them apart: 129 bits are read as a PORTCMD (log 7). -/
def tableFormat (nbits : Nat) : Format :=
  if nbits = 32 then .i32
  else if nbits = 325 ∨ nbits = 328 then .txn
  else if nbits = 129 ∨ nbits = 136 then .portcmd
  else .shmcmd

/-- The bytes of a table word `w` of `nbits` bits, every bit above `nbits` zero up to the record's length. -/
def tableBytes (nbits w : Nat) : List Byte :=
  bytesLE (max (tableFormat nbits).headerBytes (nbits / 8)) w

/-- The instruction the decoder reads from a table word: the host's question. -/
def decodeTableWord (nbits w : Nat) : Option Instr :=
  match decode (tableFormat nbits) (tableBytes nbits w) with
  | .ok (i, _) => some i
  | .error _ => none

end Sys2Proof
end

