-- ==== Sys2Proof/Machine/State.lean ====
section
/-! DEFINITION. The state of the machine as plain data (spec 10_state.md R20 to R39), the reasons a step can stop, and the
state after reset (70_reset_and_hazards.md R341). -/

namespace Sys2Proof.Machine

/-- MESI state of a line (R91). -/
inductive Mesi where
  | I
  | S
  | E
  | M
  deriving DecidableEq, Repr

/-- One line frame (R23). -/
structure Line where
  valid : Bool
  dirty : Bool
  state : Mesi
  tag : Tag
  data : LineData
  deriving DecidableEq, Repr

/-- One set: two frames and the one-bit LRU indicator naming the victim way (R23, R24). -/
structure CacheSet where
  ways : Vector Line 2
  lru : WayIx
  deriving DecidableEq, Repr

/-- The nine event counters of a cache (R26). -/
structure CacheCounters where
  loads : Nat
  stores : Nat
  rwAccesses : Nat
  cacheMisses : Nat
  invalidations : Nat
  busRd : Nat
  busRdX : Nat
  busUpgr : Nat
  flush : Nat
  deriving DecidableEq, Repr

/-- One cache: its sets, counters, transition matrix (indexed by the codes of R91) and transition log (R23 to R26). -/
structure Cache where
  sets : Vector CacheSet 8
  ctr : CacheCounters
  trans : Vector (Vector Nat 4) 4
  log : List (Mesi × Mesi)
  deriving DecidableEq, Repr

/-- The request state of a memory port (R33). -/
inductive PortFsm where
  | idle
  | busyLoad (addr : Word)
  | busyStore (addr v : Word)
  deriving DecidableEq, Repr

/-- One memory port (R32, R33). -/
structure Port where
  loads : Nat
  stores : Nat
  fsm : PortFsm
  deriving DecidableEq, Repr

/-- One processing element (R34 to R37). `written i` says whether anything has written `x i` since reset (R318), `started`
whether the host has started the PE since reset (R255, R340, R346). -/
structure Pe where
  x : Vector Word 8
  written : Vector Bool 8
  pc : Int
  program : List (BitVec 32)
  halted : Bool
  started : Bool
  steps : Nat
  maxSteps : Option Nat
  deriving DecidableEq, Repr

/-- The per-PE counters of the shared memory (R22). -/
structure ShmPeCounters where
  readOps : Nat
  readBytes : Nat
  writeOps : Nat
  writeBytes : Nat
  deriving DecidableEq, Repr

/-- The shared memory: its bytes as a canonical list of address and byte, and its counters (R21, R22). -/
structure Shm where
  mem : List Host.Cell
  totalReads : Nat
  totalWrites : Nat
  pe : Vector ShmPeCounters 4
  deriving DecidableEq, Repr

/-- The statuses of the shared memory (R107, R310). -/
inductive Status where
  | ok
  | outOfRange
  | shortPayload
  deriving DecidableEq, Repr

/-- The fault mark's records (R316 to R319). -/
inductive FaultMark where
  | lineCross (k : PeId) (addr : Word)
  | unwrittenRegister (k : PeId) (i : Reg)
  | illFormedInstruction (k : PeId) (pc : Int)
  deriving DecidableEq, Repr

/-- Which of the two treatments the spec allows for a read of an unwritten register is in force: the value it holds
(U8), or the fault mark (R318). The model's own field (log 1). -/
inductive RegPolicy where
  | anyValue
  | faultUnwritten
  deriving DecidableEq, Repr

/-- A record the host or a test bench has queued at an interface (R346, R350, R351). `port` names the port or cache a
PORTCMD or CACHECMD is given to; a TXN names its own source. The model's own (log 6). -/
structure HostCmd where
  fmt : Format
  port : PeId
  bytes : List Byte
  deriving DecidableEq, Repr

/-- The response to a host command (R105 to R107). The model's own field holds it (log 6). -/
inductive Response where
  /-- A completed port access; `rdata` for a load only (R105). -/
  | port (rdata : Option Word)
  /-- One cache attempt; `rdata` for a completed load only (R106). -/
  | cache (done : Bool) (rdata : Option Word)
  /-- A shared memory request; `bytes` for a successful read only (R107). -/
  | shm (status : Status) (bytes : List Byte)
  deriving DecidableEq, Repr

/-- The whole machine (R281). The last five fields are the model's own (log 1, 5, 6). -/
structure State where
  shm : Shm
  caches : Vector Cache 4
  staging : List (Nat × LineData)
  shmFault : Bool
  ports : Vector Port 4
  pes : Vector Pe 4
  fault : Option FaultMark
  regPolicy : RegPolicy
  turn : PeId
  tick : Nat
  cmds : List HostCmd
  resp : Option Response
  deriving DecidableEq, Repr

/-- Why the machine stops. -/
inductive Fault where
  /-- Raised by step when no PE has been started and nothing is queued: nothing runs until the host starts the PEs (R340).
  Safe: the spec gives no step. -/
  | notStarted
  /-- Raised by step when no agent has an enabled step and the fault mark is empty: the run is over (R288). Safe: the
  spec gives no further step. -/
  | runOver
  /-- Raised by step when the fault mark is set: no agent has a step any more (R282, R316). Safe: the spec gives no
  further step. -/
  | marked (f : FaultMark)
  deriving DecidableEq, Repr

/-- Why a step has no meaning. -/
inductive Refusal where
  /-- Answered only by an arm of exec whose instruction has no meaning yet. Safe. -/
  | notModelled (mnemonic : String)
  /-- Answered by load64, store64, LOAD and STORE when the port already serves another access: a port serves one access
  at a time (R233). Safe: no run that keeps the host's duties reaches it (log 12). -/
  | portBusy (k : PeId)
  /-- Answered by step when the host's queued shm.write would change bytes of a line that a cache or a staging slot holds
  (R348, U24). Safe: the spec says to refuse it (log 18). -/
  | heldLine
  /-- Answered by step when a queued record is not an instruction (R96, U13). Safe: the record is rejected and nothing
  changes (log 13). -/
  | badRecord (e : DecodeError)
  deriving DecidableEq, Repr

/-- A frame as reset leaves it (R23, R341). -/
def Line.reset : Line where
  valid := false
  dirty := false
  state := .I
  tag := 0
  data := Vector.replicate 32 0

/-- A set as reset leaves it (R24, R341). -/
def CacheSet.reset : CacheSet where
  ways := Vector.replicate 2 Line.reset
  lru := 0

/-- Counters at zero (R26, R341). -/
def CacheCounters.reset : CacheCounters where
  loads := 0
  stores := 0
  rwAccesses := 0
  cacheMisses := 0
  invalidations := 0
  busRd := 0
  busRdX := 0
  busUpgr := 0
  flush := 0

/-- A cache as reset leaves it (R341). -/
def Cache.reset : Cache where
  sets := Vector.replicate 8 CacheSet.reset
  ctr := CacheCounters.reset
  trans := Vector.replicate 4 (Vector.replicate 4 0)
  log := []

/-- A port as reset leaves it (R341). -/
def Port.reset : Port where
  loads := 0
  stores := 0
  fsm := .idle

/-- A PE as reset leaves it: registers unwritten (R341), holding zero (DESIGN CHOICE, log 1); not started (R340); no
program and no budget until the host gives them (log 3). -/
def Pe.reset : Pe where
  x := Vector.replicate 8 0
  written := Vector.replicate 8 false
  pc := 0
  program := []
  halted := false
  started := false
  steps := 0
  maxSteps := none

/-- Per-PE counters at zero (R22, R341). -/
def ShmPeCounters.reset : ShmPeCounters where
  readOps := 0
  readBytes := 0
  writeOps := 0
  writeBytes := 0

/-- The shared memory as reset leaves it: nothing listed (R341; log 2). -/
def Shm.reset : Shm where
  mem := []
  totalReads := 0
  totalWrites := 0
  pe := Vector.replicate 4 ShmPeCounters.reset

/-- The machine right after reset (R341). Which agent goes first is the first free choice of the schedule (R343; log 5). -/
def State.reset : State where
  shm := Shm.reset
  caches := Vector.replicate 4 Cache.reset
  staging := []
  shmFault := false
  ports := Vector.replicate 4 Port.reset
  pes := Vector.replicate 4 Pe.reset
  fault := none
  regPolicy := .anyValue
  turn := Config.schedule 0
  tick := 1
  cmds := []
  resp := none

end Sys2Proof.Machine
end

