-- ==== Sys2Proof/Machine/Float.lean ====
section
/-! DEFINITION. The binary64 product and sum of R257: one rounding to nearest, ties to even, subnormals exact, infinities
and signed zeros of IEEE-754, no flags, NaN patterns free (D23, U15; log 9, log 14). -/

namespace Sys2Proof.Machine

/-- The sign bit of a pattern. -/
def fpSign (p : Word) : Nat := slice p.toNat 63 63

/-- The exponent field of a pattern. -/
def fpExp (p : Word) : Nat := slice p.toNat 62 52

/-- The fraction field of a pattern. -/
def fpFrac (p : Word) : Nat := slice p.toNat 51 0

/-- The pattern is a NaN. -/
def fpIsNaN (p : Word) : Bool := fpExp p == 2047 && fpFrac p != 0

/-- The pattern is an infinity. -/
def fpIsInf (p : Word) : Bool := fpExp p == 2047 && fpFrac p == 0

/-- The pattern is a zero. -/
def fpIsZero (p : Word) : Bool := fpExp p == 0 && fpFrac p == 0

/-- The magnitude of a finite pattern as a count of units of 2^-1074, the smallest subnormal. -/
def fpMag (p : Word) : Nat :=
  if fpExp p = 0 then fpFrac p else (2 ^ 52 + fpFrac p) * 2 ^ (fpExp p - 1)

/-- The value of a finite pattern in units of 2^-1074. -/
def fpInt (p : Word) : Int := if fpSign p = 1 then -(fpMag p : Int) else (fpMag p : Int)

/-- The magnitude bits of an infinity. -/
def fpInfBits : Nat := 2047 * 2 ^ 52

/-- `m` divided by `2^k`, rounded to nearest, ties to even. -/
def divRoundEven (m k : Nat) : Nat :=
  let q := m / 2 ^ k
  let r := m % 2 ^ k
  if 2 * r > 2 ^ k ∨ (2 * r = 2 ^ k ∧ q % 2 = 1) then q + 1 else q

/-- The magnitude bits of the binary64 number nearest to `m` units of `2^-(1074+g)`, ties to even, overflow to infinity.
With `k` low bits dropped, the kept part (a carry included) added to the exponent's place is the pattern. -/
def fpRound (m g : Nat) : Nat :=
  let k := max (Nat.log2 m - 52) g
  min ((k - g) * 2 ^ 52 + divRoundEven m k) fpInfBits

/-- A pattern from a sign and magnitude bits. -/
def fpPack (sign mag : Nat) : Word := BitVec.ofNat 64 (sign * 2 ^ 63 + mag)

/-- A NaN from 53 free bits: the top one the sign, the rest the fraction, a zero fraction standing for the quiet bit
alone; every NaN pattern is the image of some value (U15, log 9). -/
def fpNaN (raw : BitVec 53) : Word :=
  let frac := slice raw.toNat 51 0
  fpPack (slice raw.toNat 52 52) (fpInfBits + if frac = 0 then 2 ^ 51 else frac)

/-- `fp_mul(p, q)` (R257). -/
def fpMul (p q : Word) : Word :=
  let sign := (fpSign p + fpSign q) % 2
  if fpIsNaN p || fpIsNaN q then fpNaN (Config.mulNaN p q)
  else if fpIsInf p || fpIsInf q then
    if fpIsZero p || fpIsZero q then fpNaN (Config.mulNaN p q) else fpPack sign fpInfBits
  else fpPack sign (fpRound (fpMag p * fpMag q) 1074)

/-- `fp_add(p, q)` (R257). -/
def fpAdd (p q : Word) : Word :=
  if fpIsNaN p || fpIsNaN q then fpNaN (Config.addNaN p q)
  else if fpIsInf p then
    if fpIsInf q && fpSign p != fpSign q then fpNaN (Config.addNaN p q) else p
  else if fpIsInf q then q
  else
    let sum := fpInt p + fpInt q
    let sign := if sum = 0 then fpSign p * fpSign q else if sum < 0 then 1 else 0
    fpPack sign (fpRound sum.natAbs 0)

/-- The binary64 pattern of a natural number of halves, for the dot-product layout's doubles (R349). -/
def fpOfHalves (n : Nat) : Word := fpPack 0 (fpRound (n * 2 ^ 1073) 0)

end Sys2Proof.Machine
end

