-- ==== Sys2Proof/Machine/Flags.lean ====
section
/-! DEFINITION. Flags. The machine has none: no flags, condition codes, predicate registers or floating-point status exist
(R38, R246, R257). What an observer reads in their place are the counters, whose laws stand in Safety.lean, and the one
sticky bit of the interconnect, below. -/

namespace Sys2Proof.Machine

/-- `bus.shm_fault` after a shared memory request of the interconnect: set by a failure, never cleared (R30). -/
def stickyFault (before : Bool) (st : Status) : Bool :=
  match st with
  | .ok => before
  | .outOfRange => true
  | .shortPayload => true

end Sys2Proof.Machine
end

