-- ==== Sys2Proof/Machine/Operands.lean ====
section
/-! DEFINITION. Operand forms: the parts of an address (R10), byte packing (R11), the codes of states and statuses (R91,
R107), and the integer operations on register values (R243, R251). -/

namespace Sys2Proof.Machine

/-- `off(a) = a & 31` (R10). -/
def off (a : Word) : Nat := a.toNat % 32

/-- `set(a) = (a >> 5) & 7` (R10). -/
def setOf (a : Word) : SetIx := Fin.ofNat 8 (a.toNat / 32)

/-- `tag(a) = a >> 8` (R10). -/
def tagOf (a : Word) : Tag := BitVec.ofNat 56 (a.toNat / 256)

/-- `base(a) = a & ~31`, the line base (R10). -/
def baseOf (a : Word) : Word := BitVec.ofNat 64 (a.toNat / 32 * 32)

/-- `linebase(t, s) = (t << 8) | (s << 5)` (R10). -/
def lineBase (t : Tag) (s : SetIx) : Word := BitVec.ofNat 64 (t.toNat * 256 + s.val * 32)

/-- The last offset at which an 8-byte access lies inside its line (R66). -/
def lastOffset : Nat := 24

/-- Byte `i` of a line (R11, R23). -/
def lineByte (l : LineData) (i : Nat) : Byte := l[i]?.getD 0

/-- `LE64` of the eight bytes of a line at offset `o` (R11, R65). -/
def lineWord (l : LineData) (o : Nat) : Word :=
  BitVec.ofNat 64 (natLE ((List.range 8).map fun i => lineByte l (o + i)))

/-- `bytes64(v)` (R11). -/
def bytes64 (v : Word) : List Byte := bytesLE 8 v.toNat

/-- A line with bytes written from offset `o` on (R145). -/
def lineWrite (l : LineData) (o : Nat) : List Byte → LineData
  | [] => l
  | b :: t => lineWrite (l.setIfInBounds o b) (o + 1) t

/-- A line with `bytes64(v)` at offset `o` (R145). -/
def lineStore (l : LineData) (o : Nat) (v : Word) : LineData := lineWrite l o (bytes64 v)

/-- The code of a MESI state (R91). -/
def mesiCode : Mesi → Fin 4
  | .I => 0
  | .S => 1
  | .E => 2
  | .M => 3

/-- The status codes (R107). -/
def statusCode : Status → Nat
  | .ok => 0
  | .outOfRange => 1
  | .shortPayload => 2

/-- INC's value (R243, R248). -/
def incWord (v : Word) : Word := v + 1

/-- DEC's value (R243, R249). -/
def decWord (v : Word) : Word := v - 1

/-- LEA's value: `a + (b << imm)`, bits past bit 63 lost (R243, R251). -/
def leaWord (a b : Word) (imm : Int) : Word := a + (b <<< imm.toNat)

/-- Where JNZ goes (R250): relative to its own index, unscaled. -/
def jnzTarget (v : Word) (pc imm : Int) : Int := if v = 0 then pc + 1 else pc + imm

end Sys2Proof.Machine
end

