-- ==== Sys2Proof/Machine/Ops.lean ====
section
/-! DEFINITION. The named operations over memory, the staging map, registers and the components, raising the fault mark
(R316), and the shared memory's two requests (R121, R122). -/

namespace Sys2Proof.Machine

/-! ### Finite maps from Nat: lists of key and value, keys strictly rising -/

/-- The value at a key. -/
def mapFind {α : Type} (key : Nat) : List (Nat × α) → Option α
  | [] => none
  | (k, v) :: t => if k = key then some v else mapFind key t

/-- A map with a key set to a value. -/
def mapInsert {α : Type} (key : Nat) (val : α) : List (Nat × α) → List (Nat × α)
  | [] => [(key, val)]
  | (k, v) :: t =>
    if key < k then (key, val) :: (k, v) :: t
    else if key = k then (key, val) :: t
    else (k, v) :: mapInsert key val t

/-- A map without a key. -/
def mapErase {α : Type} (key : Nat) : List (Nat × α) → List (Nat × α)
  | [] => []
  | (k, v) :: t => if k = key then t else (k, v) :: mapErase key t

/-- The keys are strictly rising. -/
def mapSorted {α : Type} : List (Nat × α) → Bool
  | [] => true
  | [_] => true
  | (k, _) :: (k', v') :: t => decide (k < k') && mapSorted ((k', v') :: t)

/-! ### Memory -/

/-- What a byte of the shared memory that nothing has written reads as. The spec leaves it to the launch parameter
shm_init (R21, D8); zero is the model's (DESIGN CHOICE, unsafe, log 2). -/
def unlistedByte : Byte := 0

/-- The byte of the shared memory at an address. -/
def memRead (m : List Host.Cell) (a : Nat) : Byte := (mapFind a m).getD unlistedByte

/-- Memory with one byte written, kept canonical. -/
def memWrite (m : List Host.Cell) (a : Nat) (b : Byte) : List Host.Cell :=
  if b = unlistedByte then mapErase a m else mapInsert a b m

/-- The `n` bytes from address `a` on. -/
def memReadBytes (m : List Host.Cell) (a n : Nat) : List Byte := (List.range n).map fun i => memRead m (a + i)

/-- Memory with bytes written from address `a` on. -/
def memWriteBytes (m : List Host.Cell) (a : Nat) : List Byte → List Host.Cell
  | [] => m
  | b :: t => memWriteBytes (memWrite m a b) (a + 1) t

/-- The canonical form of memory: addresses strictly rising and inside the capacity, no byte equal to the unlisted one. -/
def Memory.wf (m : List Host.Cell) : Bool :=
  mapSorted m && m.all fun c => decide (c.1 < Config.shmBytes) && decide (c.2 ≠ unlistedByte)

/-! ### The components of the state -/

/-- PE `k` (R20). -/
def State.pe (s : State) (k : PeId) : Pe := s.pes[k]

/-- Port `k` (R20). -/
def State.port (s : State) (k : PeId) : Port := s.ports[k]

/-- Cache `C[k]` (R20). -/
def State.cache (s : State) (k : PeId) : Cache := s.caches[k]

/-- Set `st` of a cache (R23). -/
def Cache.cset (c : Cache) (st : SetIx) : CacheSet := c.sets[st]

/-- Way `w` of a set (R23). -/
def CacheSet.way (c : CacheSet) (w : WayIx) : Line := c.ways[w]

/-- `trans[f][t]` of a cache (R26). -/
def Cache.transCount (c : Cache) (f t : Mesi) : Nat := c.trans[mesiCode f][mesiCode t]

/-- The counters the shared memory keeps for PE `p` (R22). -/
def Shm.peCtr (m : Shm) (p : PeId) : ShmPeCounters := m.pe[p]

/-- `x[i]` of a PE (R34). -/
def Pe.reg (p : Pe) (i : Reg) : Word := p.x[i]

/-- Something has written `x[i]` since reset (R318). -/
def Pe.isWritten (p : Pe) (i : Reg) : Bool := p.written[i]

/-- PE `k` with a change applied. -/
def State.modPe (s : State) (k : PeId) (f : Pe → Pe) : State := { s with pes := s.pes.set k (f (s.pe k)) }

/-- Port `k` with a change applied. -/
def State.modPort (s : State) (k : PeId) (f : Port → Port) : State := { s with ports := s.ports.set k (f (s.port k)) }

/-- Cache `k` with a change applied. -/
def State.modCache (s : State) (k : PeId) (f : Cache → Cache) : State := { s with caches := s.caches.set k (f (s.cache k)) }

/-- The counters of cache `k` with a change applied (R26). -/
def State.count (s : State) (k : PeId) (f : CacheCounters → CacheCounters) : State :=
  s.modCache k fun c => { c with ctr := f c.ctr }

/-- Frame `C[k].set[st].way[w]` (R23). -/
def State.frame (s : State) (k : PeId) (st : SetIx) (w : WayIx) : Line := ((s.cache k).cset st).way w

/-- A set with a change applied to one way. -/
def CacheSet.modWay (c : CacheSet) (w : WayIx) (f : Line → Line) : CacheSet := { c with ways := c.ways.set w (f (c.way w)) }

/-- A cache with a change applied to one set. -/
def Cache.modSet (c : Cache) (st : SetIx) (f : CacheSet → CacheSet) : Cache := { c with sets := c.sets.set st (f (c.cset st)) }

/-- Frame `C[k].set[st].way[w]` with a change applied. -/
def State.modFrame (s : State) (k : PeId) (st : SetIx) (w : WayIx) (f : Line → Line) : State :=
  s.modCache k fun c => c.modSet st fun e => e.modWay w f

/-! ### Registers and the fault mark -/

/-- `x[i]` of PE `k` (R34). -/
def State.reg (s : State) (k : PeId) (i : Reg) : Word := (s.pe k).reg i

/-- A PE with a register written (R34, R242). -/
def Pe.setReg (p : Pe) (i : Reg) (v : Word) : Pe := { p with x := p.x.set i v, written := p.written.set i true }

/-- `raise` (R316): writes the fault mark if it is empty and changes nothing else. -/
def State.raise (s : State) (f : FaultMark) : State :=
  match s.fault with
  | none => { s with fault := some f }
  | some _ => s

/-- A read of register `i` of PE `k` raises nothing: it has been written (R242, R318), or the policy takes any value
(U8, log 1). -/
def State.readable (s : State) (k : PeId) (i : Reg) : Bool := s.regPolicy == .anyValue || (s.pe k).isWritten i

/-- Reads the source registers in the order an instruction names them, then goes on; the first unwritten one raises
UnwrittenRegister instead (R242, R313, R318; log 16). -/
def withRegs (k : PeId) (rs : List Reg) (s : State) (run : Host.Outcome State Fault Refusal) :
    Host.Outcome State Fault Refusal :=
  match rs.find? fun i => !s.readable k i with
  | some i => .next (s.raise (.unwrittenRegister k i))
  | none => run

/-- The end of an instruction: the pc moves and the step is counted (R241, D33). -/
def Pe.retire (p : Pe) (pc : Int) : Pe := { p with pc := pc, steps := p.steps + 1 }

/-- A silent halt: the PE stops, everything else stays (R252 to R254, R314). -/
def State.halt (s : State) (k : PeId) : State := s.modPe k fun p => { p with halted := true }

/-! ### The shared memory (40_shared_memory.md) -/

/-- The range check of R121 and R122, which does not add. -/
def shmInRange (addr : Word) (size : Nat) : Bool :=
  !(size == 0) && decide (addr.toNat ≤ Config.shmBytes) && decide (size ≤ Config.shmBytes - addr.toNat)

/-- Counts a successful read for a requester (R22, R121, D27). -/
def Shm.countRead (m : Shm) (size : Nat) (req : Option PeId) : Shm :=
  let m := { m with totalReads := m.totalReads + 1 }
  match req with
  | none => m
  | some p =>
    { m with pe := m.pe.set p { m.peCtr p with readOps := (m.peCtr p).readOps + 1, readBytes := (m.peCtr p).readBytes + size } }

/-- Counts a successful write for a requester (R22, R122, D27). -/
def Shm.countWrite (m : Shm) (size : Nat) (req : Option PeId) : Shm :=
  let m := { m with totalWrites := m.totalWrites + 1 }
  match req with
  | none => m
  | some p =>
    { m with pe := m.pe.set p { m.peCtr p with writeOps := (m.peCtr p).writeOps + 1, writeBytes := (m.peCtr p).writeBytes + size } }

/-- `ShmRead(addr, size, req)` (R121): status, bytes, and the shared memory after it. -/
def shmRead (addr : Word) (size : Nat) (req : Option PeId) (m : Shm) : Status × List Byte × Shm :=
  if shmInRange addr size then (.ok, memReadBytes m.mem addr.toNat size, m.countRead size req)
  else (.outOfRange, [], m)

/-- `ShmWrite(addr, bytes, size, req)` (R122): status and the shared memory after it. -/
def shmWrite (addr : Word) (bytes : List Byte) (size : Nat) (req : Option PeId) (m : Shm) : Status × Shm :=
  if !shmInRange addr size then (.outOfRange, m)
  else if bytes.length < size then (.shortPayload, m)
  else (.ok, { m with mem := memWriteBytes m.mem addr.toNat (bytes.take size) }.countWrite size req)

end Sys2Proof.Machine
end

