-- ==== Sys2Proof/Machine/PeArith.lean ====
section
/-! DEFINITION. The meanings of the PE's register instructions INC, DEC, LEA, FMUL and FADD (spec 44_pe_isa.md R246 to
R251). The PE is the one in turn. -/

namespace Sys2Proof.Machine

/-- The end of a register instruction: the result is written and the pc advances by one (R242, R246 to R251). -/
def finishReg (k : PeId) (d : Reg) (v : Word) (s : State) : Host.Outcome State Fault Refusal :=
  .next (s.modPe k fun p => (p.setReg d v).retire (p.pc + 1))

/-- INC d (R248). -/
def execInc (d : Reg) (s : State) : Host.Outcome State Fault Refusal :=
  withRegs s.turn [d] s (finishReg s.turn d (incWord (s.reg s.turn d)) s)

/-- DEC d (R249). -/
def execDec (d : Reg) (s : State) : Host.Outcome State Fault Refusal :=
  withRegs s.turn [d] s (finishReg s.turn d (decWord (s.reg s.turn d)) s)

/-- FMUL d, a, b (R246). -/
def execFmul (d a b : Reg) (s : State) : Host.Outcome State Fault Refusal :=
  withRegs s.turn [a, b] s (finishReg s.turn d (fpMul (s.reg s.turn a) (s.reg s.turn b)) s)

/-- FADD d, a, b (R247). -/
def execFadd (d a b : Reg) (s : State) : Host.Outcome State Fault Refusal :=
  withRegs s.turn [a, b] s (finishReg s.turn d (fpAdd (s.reg s.turn a) (s.reg s.turn b)) s)

/-- LEA d, a, b, imm (R251): a shift amount outside 0..63 raises IllFormedInstruction after the operand test (R313, R319,
D21). -/
def execLea (d a b : Reg) (imm : Int) (s : State) : Host.Outcome State Fault Refusal :=
  withRegs s.turn [a, b] s
    (if shiftAmountOk imm then finishReg s.turn d (leaWord (s.reg s.turn a) (s.reg s.turn b) imm) s
    else .next (s.raise (.illFormedInstruction s.turn (s.pe s.turn).pc)))

end Sys2Proof.Machine
end

