-- ==== Sys2Proof/Machine/PeControl.lean ====
section
/-! DEFINITION. The meanings of JNZ and HALT (spec 44_pe_isa.md R250, R252). -/

namespace Sys2Proof.Machine

/-- JNZ d, imm (R250): no register is written. -/
def execJnz (d : Reg) (imm : Int) (s : State) : Host.Outcome State Fault Refusal :=
  withRegs s.turn [d] s
    (.next (s.modPe s.turn fun p => p.retire (jnzTarget (s.reg s.turn d) p.pc imm)))

/-- HALT (R252): the pc is not advanced and the step is not counted (D33). -/
def execHalt (s : State) : Host.Outcome State Fault Refusal := .next (s.halt s.turn)

end Sys2Proof.Machine
end

