-- ==== Sys2Proof/Machine/Bus.lean ====
section
/-! DEFINITION. The snooping interconnect (spec 42_interconnect.md) with the operations of a cache that a transaction calls
into: recording, installing a line, snooping (41_cache_controller.md R141 to R161); and the meanings of the five bus
transactions. -/

namespace Sys2Proof.Machine

/-! ### What a cache does for itself -/

/-- A frame holds a coherent copy of the line with tag `t`: valid, equal tag, not in I (R141, R27). -/
def Line.holds (l : Line) (t : Tag) : Bool := l.valid && l.tag == t && l.state != .I

/-- `Lookup(k, a)`: way 0 before way 1 (R141, D16). -/
def State.lookup (s : State) (k : PeId) (a : Word) : Option WayIx :=
  if (s.frame k (setOf a) 0).holds (tagOf a) then some 0
  else if (s.frame k (setOf a) 1).holds (tagOf a) then some 1
  else none

/-- `Touch(k, s, w)`: the other way becomes the victim (R142). -/
def State.touch (s : State) (k : PeId) (st : SetIx) (w : WayIx) : State :=
  s.modCache k fun c => c.modSet st fun e => { e with lru := 1 - w }

/-- `Record(k, f, t)` (R143). -/
def State.record (s : State) (k : PeId) (f t : Mesi) : State :=
  s.modCache k fun c =>
    { c with
      trans := c.trans.set (mesiCode f) (c.trans[mesiCode f].set (mesiCode t) (c.transCount f t + 1))
      log := c.log ++ [(f, t)] }

/-- A frame holds some line: "has a frame with valid = 1 … with state ≠ I" (R27). -/
def Line.live (l : Line) : Bool := l.valid && l.state != .I

/-- A way an installation may take without evicting a live line (R152). -/
def Line.free (l : Line) : Bool := !l.valid || l.state == .I

/-- `ChooseWay(k, s)` (R152). -/
def State.chooseWay (s : State) (k : PeId) (st : SetIx) : WayIx :=
  if (s.frame k st 0).free then 0
  else if (s.frame k st 1).free then 1
  else ((s.cache k).cset st).lru

/-! ### The write-back data path -/

/-- `HandleFlush` (R196, R198): the staging slot of the line base is written, then the shared memory; a failed write sets
`shm_fault` (D6). -/
def handleFlush (src : PeId) (addr : Word) (payload : LineData) (s : State) : State :=
  let b := baseOf addr
  let r := shmWrite b payload.toList Config.lineBytes (some src) s.shm
  { s with
    staging := mapInsert b.toNat payload s.staging
    shm := r.2
    shmFault := stickyFault s.shmFault r.1 }

/-- A cache's Flush of the frame `l` of set `st`, to that frame's own line base (R153, R155, R158, D18, D19). -/
def flushFrame (k : PeId) (st : SetIx) (l : Line) (s : State) : State :=
  handleFlush k (lineBase l.tag st) l.data (s.count k fun c => { c with flush := c.flush + 1 })

/-! ### The fill path -/

/-- `InstallLine(k, a, line, st)` (R151 to R153). -/
def installLine (k : PeId) (a : Word) (line : LineData) (new : Mesi) (s : State) : State :=
  let st := setOf a
  let w := s.chooseWay k st
  let l := s.frame k st w
  let s := if l.valid && l.state == .M then flushFrame k st l s else s
  let s := s.modFrame k st w fun _ =>
    { valid := true, dirty := new == .M, state := new, tag := tagOf a, data := line }
  (s.touch k st w).record k l.state new

/-- `DataResponse(k, a, line, shared)` (R150). -/
def dataResponse (k : PeId) (a : Word) (line : LineData) (shared : Bool) (s : State) : State :=
  installLine k a line (if shared then .S else .E) s

/-! ### The snoop side -/

/-- The transactions a snoop distinguishes: BusRd, or one that invalidates (R155 to R160). -/
inductive SnoopKind where
  /-- BusRd (R155 to R157). -/
  | read
  /-- BusRdX, BusUpgr or Inv (R158 to R160). -/
  | invalidate
  deriving DecidableEq, Repr

/-- A matching M frame has been flushed: it is no longer dirty (R155, R158, D20). -/
def cleanFrame (j : PeId) (st : SetIx) (w : WayIx) (s : State) : State := s.modFrame j st w fun l => { l with dirty := false }

/-- A matching frame leaves the states M, E and S (R158, R159): it becomes stale; its tag and data stay. -/
def invalidateFrame (j : PeId) (st : SetIx) (w : WayIx) (old : Mesi) (s : State) : State :=
  ((s.record j old .I).modFrame j st w fun l => { l with state := .I }).count j fun c =>
    { c with invalidations := c.invalidations + 1 }

/-- A matching frame is downgraded to S (R155, R156). -/
def downgradeFrame (j : PeId) (st : SetIx) (w : WayIx) (old : Mesi) (s : State) : State :=
  (s.record j old .S).modFrame j st w fun l => { l with state := .S }

/-- The row of the snoop table for a matching frame `l` in way `w` (R155 to R160). -/
def snoopRow (j : PeId) (kind : SnoopKind) (st : SetIx) (w : WayIx) (l : Line) (s : State) : State :=
  match kind, l.state with
  | .read, .M => downgradeFrame j st w .M (cleanFrame j st w (flushFrame j st l s))
  | .read, .E => downgradeFrame j st w .E s
  | .read, .S => s
  | .read, .I => s
  | .invalidate, .M => invalidateFrame j st w .M (cleanFrame j st w (flushFrame j st l s))
  | .invalidate, .E => invalidateFrame j st w .E s
  | .invalidate, .S => invalidateFrame j st w .S s
  | .invalidate, .I => s

/-- The snoop of one way: the match does not test the state (R154, C10). -/
def snoopWay (j : PeId) (kind : SnoopKind) (a : Word) (w : WayIx) (s : State) : State :=
  let l := s.frame j (setOf a) w
  if l.valid && l.tag == tagOf a then snoopRow j kind (setOf a) w l s else s

/-- `Snoop(j, txn)`: way 0, then way 1 (R154). -/
def snoop (j : PeId) (kind : SnoopKind) (a : Word) (s : State) : State :=
  snoopWay j kind a 1 (snoopWay j kind a 0 s)

/-- `Broadcast(txn)` to one cache: every cache but the source (R203). -/
def snoopPeer (src : PeId) (kind : SnoopKind) (a : Word) (s : State) (j : PeId) : State :=
  if j = src then s else snoop j kind a s

/-- `Broadcast(txn)`, in ascending PE id (R193, R203, D15). -/
def broadcast (src : PeId) (kind : SnoopKind) (a : Word) (s : State) : State :=
  [0, 1, 2, 3].foldl (snoopPeer src kind a) s

/-! ### The data router -/

/-- Cache `j` holds the line of address `a` (R27). -/
def State.cacheHolds (s : State) (j : PeId) (a : Word) : Bool :=
  (s.frame j (setOf a) 0).holds (tagOf a) || (s.frame j (setOf a) 1).holds (tagOf a)

/-- `PeerHolds(src, a)` (R201). -/
def State.peerHolds (s : State) (src : PeId) (a : Word) : Bool :=
  [(0 : PeId), 1, 2, 3].any fun j => decide (j ≠ src) && s.cacheHolds j a

/-- `Source(b, src)` (R202): the staging slot if there is one, which is removed; else the shared memory; a failed read gives
32 zero bytes and sets `shm_fault` (D6). -/
def sourceLine (b : Word) (src : PeId) (s : State) : LineData × State :=
  match mapFind b.toNat s.staging with
  | some line => (line, { s with staging := mapErase b.toNat s.staging })
  | none =>
    let r := shmRead b Config.lineBytes (some src) s.shm
    (lineOfBytes r.2.1, { s with shm := r.2.2, shmFault := stickyFault s.shmFault r.1 })

/-! ### Emit -/

/-- `Emit` of a BusRd (R193, R194). -/
def emitBusRd (src : PeId) (a : Word) (s : State) : State :=
  let s := broadcast src .read a s
  let shared := s.peerHolds src a
  let r := sourceLine (baseOf a) src s
  dataResponse src a r.1 shared r.2

/-- `Emit` of a BusRdX (R193, R195). -/
def emitBusRdX (src : PeId) (a : Word) (s : State) : State :=
  let r := sourceLine (baseOf a) src (broadcast src .invalidate a s)
  dataResponse src a r.1 false r.2

/-- `Emit` of a BusUpgr or an Inv (R193, R199, R200): snoops only, no response. -/
def emitInvalidate (src : PeId) (a : Word) (s : State) : State := broadcast src .invalidate a s

/-! ### The meanings of the bus transactions -/

/-- BusRd (R194). -/
def execBusRd (src : PeId) (addr : Word) (s : State) : Host.Outcome State Fault Refusal := .next (emitBusRd src addr s)

/-- BusRdX (R195). -/
def execBusRdX (src : PeId) (addr : Word) (s : State) : Host.Outcome State Fault Refusal := .next (emitBusRdX src addr s)

/-- BusUpgr (R199). -/
def execBusUpgr (src : PeId) (addr : Word) (s : State) : Host.Outcome State Fault Refusal :=
  .next (emitInvalidate src addr s)

/-- Flush (R196). -/
def execFlush (src : PeId) (addr : Word) (payload : LineData) (s : State) : Host.Outcome State Fault Refusal :=
  .next (handleFlush src addr payload s)

/-- Inv (R200). -/
def execInv (src : PeId) (addr : Word) (s : State) : Host.Outcome State Fault Refusal := .next (emitInvalidate src addr s)

end Sys2Proof.Machine
end

