-- ==== Sys2Proof/Machine/CacheCtl.lean ====
section
/-! DEFINITION. The processor side of the cache controller: one `load` or `store` attempt (spec 41_cache_controller.md R144
to R149), and the meanings of the two cache commands. -/

namespace Sys2Proof.Machine

/-- How one attempt of a cache ends (R106, R144, R145). -/
inductive Attempt (α : Type) where
  /-- Completed, with the value for a load. -/
  | done (v : α) (s : State)
  /-- A miss: the line has been requested and installed; the caller tries again. -/
  | retry (s : State)
  /-- The access would run past the end of the line (R66, R317); nothing has changed. -/
  | lineCross

/-- Counts a load attempt (R144). -/
def CacheCounters.load (c : CacheCounters) : CacheCounters :=
  { c with loads := c.loads + 1, rwAccesses := c.rwAccesses + 1 }

/-- Counts a store attempt (R145). -/
def CacheCounters.store (c : CacheCounters) : CacheCounters :=
  { c with stores := c.stores + 1, rwAccesses := c.rwAccesses + 1 }

/-- Counts a miss that emits a BusRd (R144, D19). -/
def CacheCounters.missRd (c : CacheCounters) : CacheCounters :=
  { c with cacheMisses := c.cacheMisses + 1, busRd := c.busRd + 1 }

/-- Counts a miss that emits a BusRdX (R146, D19). -/
def CacheCounters.missRdX (c : CacheCounters) : CacheCounters :=
  { c with cacheMisses := c.cacheMisses + 1, busRdX := c.busRdX + 1 }

/-- Counts an upgrade (R149, D19). -/
def CacheCounters.upgrade (c : CacheCounters) : CacheCounters := { c with busUpgr := c.busUpgr + 1 }

/-- `CacheLoad(k, a)` (R144). -/
def cacheLoad (k : PeId) (a : Word) (s : State) : Attempt Word :=
  if off a > lastOffset then .lineCross
  else
    let s := s.count k CacheCounters.load
    match s.lookup k a with
    | some w => .done (lineWord (s.frame k (setOf a) w).data (off a)) (s.touch k (setOf a) w)
    | none => .retry (emitBusRd k a (s.count k CacheCounters.missRd))

/-- A frame enters M (R148, R149). -/
def makeModified (k : PeId) (st : SetIx) (w : WayIx) (old : Mesi) (s : State) : State :=
  (s.record k old .M).modFrame k st w fun l => { l with state := .M, dirty := true }

/-- What a store hit does to the line's state before it writes (R147, R148, R149). The I row cannot arise: a hit is not
in I (R141). -/
def storeHit (k : PeId) (a : Word) (w : WayIx) (s : State) : State :=
  match (s.frame k (setOf a) w).state with
  | .M => s
  | .E => makeModified k (setOf a) w .E s
  | .S => makeModified k (setOf a) w .S (emitInvalidate k a (s.count k CacheCounters.upgrade))
  | .I => s

/-- The LRU bit on a store hit (R142, R145, D17). -/
def touchOnStore (k : PeId) (st : SetIx) (w : WayIx) (s : State) : State :=
  if Config.storeHitTouchesLru then s.touch k st w else s

/-- `CacheStore(k, a, v)` (R145 to R149). -/
def cacheStore (k : PeId) (a v : Word) (s : State) : Attempt Unit :=
  if off a > lastOffset then .lineCross
  else
    let s := s.count k CacheCounters.store
    match s.lookup k a with
    | none => .retry (emitBusRdX k a (s.count k CacheCounters.missRdX))
    | some w =>
      let s := (storeHit k a w s).modFrame k (setOf a) w fun l => { l with data := lineStore l.data (off a) v }
      .done () (touchOnStore k (setOf a) w s)

/-- cache.load: one attempt at the cache of the interface in turn, answered with `done` and the data (R106, R144). -/
def execCacheLoad (addr : Word) (s : State) : Host.Outcome State Fault Refusal :=
  match cacheLoad s.turn addr s with
  | .done v t => .next { t with resp := some (.cache true (some v)) }
  | .retry t => .next { t with resp := some (.cache false none) }
  | .lineCross => .next (s.raise (.lineCross s.turn addr))

/-- cache.store: one attempt at the cache of the interface in turn, answered with `done` (R106, R145). -/
def execCacheStore (addr wdata : Word) (s : State) : Host.Outcome State Fault Refusal :=
  match cacheStore s.turn addr wdata s with
  | .done _ t => .next { t with resp := some (.cache true none) }
  | .retry t => .next { t with resp := some (.cache false none) }
  | .lineCross => .next (s.raise (.lineCross s.turn addr))

end Sys2Proof.Machine
end

