-- ==== Sys2Proof/Machine/PortCtl.lean ====
section
/-! DEFINITION. The memory port (spec 43_memory_port.md R230 to R235) and the meanings of its two commands. -/

namespace Sys2Proof.Machine

/-- How a port answers a command in one step (R233). -/
inductive Access (α : Type) where
  /-- Completed: the port is idle again. -/
  | done (v : α) (s : State)
  /-- The attempt missed: the port stays busy with this access. -/
  | waiting (s : State)
  /-- LineCross (R66, R317); nothing has changed. -/
  | lineCross
  /-- The port serves another access (R233). -/
  | busy

/-- One attempt of a load whose access the port holds (R233). -/
def portLoadAttempt (k : PeId) (a : Word) (s : State) : Access Word :=
  match cacheLoad k a s with
  | .done v t => .done v (t.modPort k fun p => { p with fsm := .idle })
  | .retry t => .waiting t
  | .lineCross => .lineCross

/-- One attempt of a store whose access the port holds (R233). -/
def portStoreAttempt (k : PeId) (a v : Word) (s : State) : Access Unit :=
  match cacheStore k a v s with
  | .done _ t => .done () (t.modPort k fun p => { p with fsm := .idle })
  | .retry t => .waiting t
  | .lineCross => .lineCross

/-- `load64(addr)` at port `k`, one step of it: the issue with its first attempt, or one more attempt (R231, R233, R234). -/
def portLoad (k : PeId) (a : Word) (s : State) : Access Word :=
  match (s.port k).fsm with
  | .idle => portLoadAttempt k a (s.modPort k fun p => { p with loads := p.loads + 1, fsm := .busyLoad a })
  | .busyLoad b => if b = a then portLoadAttempt k a s else .busy
  | .busyStore _ _ => .busy

/-- `store64(addr, v)` at port `k`, one step of it (R232, R233, R234). -/
def portStore (k : PeId) (a v : Word) (s : State) : Access Unit :=
  match (s.port k).fsm with
  | .idle => portStoreAttempt k a v (s.modPort k fun p => { p with stores := p.stores + 1, fsm := .busyStore a v })
  | .busyLoad _ => .busy
  | .busyStore b u => if b = a ∧ u = v then portStoreAttempt k a v s else .busy

/-- load64 at the port of the interface in turn (R231, R350): a completed access answers with the data (R105). -/
def execLoad64 (addr : Word) (s : State) : Host.Outcome State Fault Refusal :=
  match portLoad s.turn addr s with
  | .done v t => .next { t with resp := some (.port (some v)) }
  | .waiting t => .next t
  | .lineCross => .next (s.raise (.lineCross s.turn addr))
  | .busy => .refused (.portBusy s.turn)

/-- store64 at the port of the interface in turn (R232): a completed access is answered (R105). -/
def execStore64 (addr wdata : Word) (s : State) : Host.Outcome State Fault Refusal :=
  match portStore s.turn addr wdata s with
  | .done _ t => .next { t with resp := some (.port none) }
  | .waiting t => .next t
  | .lineCross => .next (s.raise (.lineCross s.turn addr))
  | .busy => .refused (.portBusy s.turn)

end Sys2Proof.Machine
end

