-- ==== Sys2Proof/Machine/PeMem.lean ====
section
/-! DEFINITION. The meanings of LOAD and STORE (spec 44_pe_isa.md R244, R245), one machine step of them: the register
write, the pc and the step count change with the completing attempt (R241, 45_system_step.md R282). -/

namespace Sys2Proof.Machine

/-- LOAD d, a (R244). -/
def execLoad (d a : Reg) (s : State) : Host.Outcome State Fault Refusal :=
  withRegs s.turn [a] s
    (match portLoad s.turn (s.reg s.turn a) s with
    | .done v t => .next (t.modPe s.turn fun p => (p.setReg d v).retire (p.pc + 1))
    | .waiting t => .next t
    | .lineCross => .next (s.raise (.lineCross s.turn (s.reg s.turn a)))
    | .busy => .refused (.portBusy s.turn))

/-- STORE d, a (R245): the address is read first (log 16). -/
def execStore (d a : Reg) (s : State) : Host.Outcome State Fault Refusal :=
  withRegs s.turn [a, d] s
    (match portStore s.turn (s.reg s.turn a) (s.reg s.turn d) s with
    | .done _ t => .next (t.modPe s.turn fun p => p.retire (p.pc + 1))
    | .waiting t => .next t
    | .lineCross => .next (s.raise (.lineCross s.turn (s.reg s.turn a)))
    | .busy => .refused (.portBusy s.turn))

end Sys2Proof.Machine
end

