-- ==== Sys2Proof/Machine/ShmCtl.lean ====
section
/-! DEFINITION. The meanings of the two shared memory requests (spec 40_shared_memory.md R121, R122) as a host issues them
(20_memory.md R61, 70_reset_and_hazards.md R348). -/

namespace Sys2Proof.Machine

/-- shm.read: the response carries status and bytes (R107, R121). -/
def execShmRead (addr : Word) (size : Nat) (req : Option PeId) (s : State) : Host.Outcome State Fault Refusal :=
  let r := shmRead addr size req s.shm
  .next { s with shm := r.2.2, resp := some (.shm r.1 r.2.1) }

/-- shm.write: the response carries the status (R107, R122). -/
def execShmWrite (addr : Word) (bytes : List Byte) (size : Nat) (req : Option PeId) (s : State) :
    Host.Outcome State Fault Refusal :=
  let r := shmWrite addr bytes size req s.shm
  .next { s with shm := r.2, resp := some (.shm r.1 []) }

end Sys2Proof.Machine
end

