-- ==== Sys2Proof/Machine/Dispatch.lean ====
section
/-! DEFINITION. The dispatch of an instruction to its meaning, one arm for each row of the opcode table. -/

namespace Sys2Proof.Machine

def exec (i : Instr) (s : State) : Host.Outcome State Fault Refusal :=
  match i with
  | .load d a => Sys2Proof.Machine.execLoad d a s
  | .store d a => Sys2Proof.Machine.execStore d a s
  | .fmul d a b => Sys2Proof.Machine.execFmul d a b s
  | .fadd d a b => Sys2Proof.Machine.execFadd d a b s
  | .inc d => Sys2Proof.Machine.execInc d s
  | .dec d => Sys2Proof.Machine.execDec d s
  | .jnz d imm => Sys2Proof.Machine.execJnz d imm s
  | .lea d a b imm => Sys2Proof.Machine.execLea d a b imm s
  | .halt => Sys2Proof.Machine.execHalt s
  | .busRd src addr => Sys2Proof.Machine.execBusRd src addr s
  | .busRdX src addr => Sys2Proof.Machine.execBusRdX src addr s
  | .busUpgr src addr => Sys2Proof.Machine.execBusUpgr src addr s
  | .flush src addr payload => Sys2Proof.Machine.execFlush src addr payload s
  | .inv src addr => Sys2Proof.Machine.execInv src addr s
  | .load64 addr => Sys2Proof.Machine.execLoad64 addr s
  | .store64 addr wdata => Sys2Proof.Machine.execStore64 addr wdata s
  | .cacheLoad addr => Sys2Proof.Machine.execCacheLoad addr s
  | .cacheStore addr wdata => Sys2Proof.Machine.execCacheStore addr wdata s
  | .shmRead addr size req => Sys2Proof.Machine.execShmRead addr size req s
  | .shmWrite addr bytes size req => Sys2Proof.Machine.execShmWrite addr bytes size req s

end Sys2Proof.Machine
end

