-- ==== Sys2Proof/Machine/Agents.lean ====
section
/-! DEFINITION. Who takes the next step, what it fetches, and what the step of an agent or of the host is (spec
45_system_step.md R280 to R288, 44_pe_isa.md R241, R253 to R255): what step calls. -/

namespace Sys2Proof.Machine

/-- The budget of a PE is not used up (R255, D32). -/
def Pe.inBudget (p : Pe) : Bool :=
  match p.maxSteps with
  | none => true
  | some n => decide (p.steps < n)

/-- Agent `k` has a step (R282), once the host has started its PE (R340, R346). -/
def State.enabled (s : State) (k : PeId) : Bool :=
  s.fault.isNone && (s.pe k).started && !(s.pe k).halted && (s.pe k).inBudget

/-- The host has started some PE (R340, R346). -/
def State.anyStarted (s : State) : Bool := [(0 : PeId), 1, 2, 3].any fun k => (s.pe k).started

/-- The agent that takes the next step: the one in turn, or the next enabled one after it; none when the run is over
(R284, R288; log 5). -/
def State.nextAgent (s : State) : Option PeId :=
  [s.turn, s.turn + 1, s.turn + 2, s.turn + 3].find? s.enabled

/-- The schedule moves on: the next preferred agent is the next free choice (R284; log 5). -/
def State.reschedule (s : State) : State := { s with turn := Config.schedule s.tick, tick := s.tick + 1 }

/-- What PE `k` finds at its pc (R241). -/
inductive Fetched where
  /-- An instruction. -/
  | instr (i : Instr)
  /-- An undefined opcode (R253). -/
  | undefined
  /-- The pc is outside the program (R254). -/
  | outside

/-- The fetch of PE `k`: no memory access (R241, R343). -/
def State.fetch (s : State) (k : PeId) : Fetched :=
  let p := s.pe k
  if p.pc < 0 then .outside
  else
    match p.program[p.pc.toNat]? with
    | none => .outside
    | some word =>
      match decodeI32 word.toNat with
      | .ok i => .instr i
      | .error _ => .undefined

/-- A change of the state an outcome ends in. -/
def onNext (o : Host.Outcome State Fault Refusal) (f : State → State) : Host.Outcome State Fault Refusal :=
  match o with
  | .next t => .next (f t)
  | .fault r => .fault r
  | .refused r => .refused r

/-- The instruction of a queued record, by the interface it is given to (R94, R105 to R107). -/
def HostCmd.instr (c : HostCmd) : Except DecodeError Instr :=
  match c.fmt with
  | .i32 => .error .notACommand
  | f => (decode f c.bytes).map (·.1)

/-- A queued command is finished after a step that ran it, unless it is a port access whose attempt missed (R233,
R350; log 6). -/
def cmdFinished (c : HostCmd) (t : State) : Bool := c.fmt != .portcmd || (t.port c.port).fsm == .idle

/-- After a step of the host: a finished command leaves the queue, and the schedule is as it was (log 6). -/
def afterCmd (s : State) (c : HostCmd) (rest : List HostCmd) (t : State) : State :=
  { t with cmds := if cmdFinished c t then rest else s.cmds, turn := s.turn }

/-- The line at base `b` and the `size` bytes from `a` on have a byte in common. -/
def overlapsLine (a size b : Nat) : Bool := decide (a < b + 32 ∧ b < a + size)

/-- A cache or a staging slot holds a line of the `size` bytes from `a` on (R27, R348). -/
def State.holdsAnyOf (s : State) (a size : Nat) : Bool :=
  s.staging.any (fun p => overlapsLine a size p.1) ||
    decide (∃ k st w, (s.frame k st w).live = true ∧
      overlapsLine a size (lineBase (s.frame k st w).tag st).toNat = true)

/-- A direct write that would make a held line stale (R348): the spec says to refuse it (U24; log 18). A request that fails
writes nothing (R122) and is none. -/
def writesHeldLine (i : Instr) (s : State) : Bool :=
  match i with
  | .shmWrite addr bytes size _ =>
    shmInRange addr size && decide (size ≤ bytes.length) && s.holdsAnyOf addr.toNat size
  | .load _ _ | .store _ _ | .fmul _ _ _ | .fadd _ _ _ | .inc _ | .dec _ | .jnz _ _ | .lea _ _ _ _ | .halt => false
  | .busRd _ _ | .busRdX _ _ | .busUpgr _ _ | .flush _ _ _ | .inv _ _ => false
  | .load64 _ | .store64 _ _ | .cacheLoad _ | .cacheStore _ _ | .shmRead _ _ _ => false

/-- The step of the host that runs the record at the front of its queue, at the interface it is given to (R346, R348, R350,
R351; log 6). -/
def hostStep (c : HostCmd) (rest : List HostCmd) (s : State) : Host.Outcome State Fault Refusal :=
  match c.instr with
  | .error e => .refused (.badRecord e)
  | .ok i =>
    if writesHeldLine i s then .refused .heldLine
    else onNext (exec i { s with turn := c.port }) (afterCmd s c rest)

/-- The step of agent `k` (R241, R282): the PE halts where there is nothing to execute, else it executes. -/
def agentStep (k : PeId) (s : State) : Host.Outcome State Fault Refusal :=
  match s.fetch k with
  | .instr i => onNext (exec i { s with turn := k }) State.reschedule
  | .undefined => .next (s.halt k).reschedule
  | .outside => .next (s.halt k).reschedule

/-- The step of the four agents: nothing runs until the host starts a PE (R340); then one enabled agent takes a step, or the
run is over (R282, R288). The two faults are the model's answers (log 10). -/
def agentsStep (s : State) : Host.Outcome State Fault Refusal :=
  if s.anyStarted then
    match s.nextAgent with
    | none => .fault .runOver
    | some k => agentStep k s
  else .fault .notStarted

/-- A record queued before all others. -/
def State.queue (s : State) (c : HostCmd) : State := { s with cmds := c :: s.cmds }

/-- The state with a one-instruction program loaded in PE 0, started, free to run it and in turn (log 4). -/
def State.loadWord (s : State) (w : Nat) : State :=
  { s.modPe 0 fun p =>
      { p with program := [BitVec.ofNat 32 w], pc := 0, halted := false, started := true, maxSteps := none } with
    fault := none
    cmds := []
    turn := 0 }

/-- The state with a record for interface 0 at the front of the host's queue and no fault mark (log 4, log 6). -/
def State.loadCmd (s : State) (f : Format) (bytes : List Byte) : State :=
  { s with fault := none, cmds := { fmt := f, port := 0, bytes := bytes } :: s.cmds }

/-- The state with a table word where step takes its next instruction. -/
def State.loadTableWord (s : State) (nbits w : Nat) : State :=
  match tableFormat nbits with
  | .i32 => s.loadWord w
  | f => s.loadCmd f (tableBytes nbits w)

end Sys2Proof.Machine
end

