-- ==== Sys2Proof/Machine/Step.lean ====
section
/-! DEFINITION. One step of the machine (spec 45_system_step.md R282, R283): the host's next queued record if there is one,
else one step of one enabled agent. -/

namespace Sys2Proof.Machine

/-- One step of the machine. -/
def step (s : State) : Host.Outcome State Fault Refusal :=
  match s.fault with
  | some f => .fault (.marked f)
  | none =>
    match s.cmds with
    | c :: rest => hostStep c rest s
    | [] => agentsStep s

/-- The state with a table word stored where step takes its next instruction: the program of PE 0, or the host's queue
(log 4). -/
def State.withFetchWord (s : State) (nbits w : Nat) : State := s.loadTableWord nbits w

end Sys2Proof.Machine
end

