-- ==== Sys2Proof/Machine/HostOps.lean ====
section
/-! DEFINITION. What the host does to the machine from outside, before a run starts and after it ends (spec
70_reset_and_hazards.md R344 to R351, 44_pe_isa.md R256): functions on the state, not steps. -/

namespace Sys2Proof.Machine

/-- The host writes a register, which then counts as written (R347). -/
def hostWriteReg (k : PeId) (i : Reg) (v : Word) (s : State) : State := s.modPe k fun p => p.setReg i v

/-- A PE with registers written one after another (R344, R347). -/
def Pe.setRegs (p : Pe) (regs : List (Reg × Word)) : Pe := regs.foldl (fun q r => q.setReg r.1 r.2) p

/-- What `set_segment(baseA, baseB, partial_out, len)` writes (R256, R347): R4 and R6 are not among it. -/
def segmentRegs (baseA baseB partialOut len : Word) : List (Reg × Word) :=
  [(0, 0), (1, baseA), (2, baseB), (3, 0), (5, partialOut), (7, len)]

/-- `set_segment(baseA, baseB, partial_out, len)` on PE `k` (R256, R347): pc, memory and caches are untouched. -/
def setSegment (k : PeId) (baseA baseB partialOut len : Word) (s : State) : State :=
  s.modPe k fun p => p.setRegs (segmentRegs baseA baseB partialOut len)

/-- `run(max_steps)` of a PE (R255): it is started, with a budget counted from the steps it has taken already (log 20). -/
def Pe.run (p : Pe) (budget : Option Nat) : Pe := { p with started := true, maxSteps := budget.map (p.steps + ·) }

/-- The host starts PE `k`, or runs it again after its budget has stopped it (R255, R329). -/
def State.runPe (s : State) (k : PeId) (budget : Option Nat) : State := s.modPe k fun p => p.run budget

/-- The host's single step: PE `k` may complete one more instruction (R329). -/
def State.singleStep (s : State) (k : PeId) : State := s.runPe k (some 1)

/-- What the host gives one PE (R344). -/
structure PeLaunch where
  program : List (BitVec 32)
  regs : List (Reg × Word)
  maxSteps : Option Nat
  deriving DecidableEq, Repr

/-- The launch record (R344): the initial bytes of the shared memory from address 0 on, and each PE's share. -/
structure Launch where
  shmInit : List Byte
  pes : Vector PeLaunch 4
  deriving DecidableEq, Repr

/-- A PE given its program and registers and started with its budget (R346 steps 3 to 5). -/
def Pe.launch (p : Pe) (l : PeLaunch) : Pe := Pe.run { p.setRegs l.regs with program := l.program } l.maxSteps

/-- The machine the host starts: the reset state with a launch record's memory, programs, registers and budgets (R346). The
memory is folded into shm_init, so its counters start at 0 (D35). -/
def State.launch (l : Launch) : State :=
  { State.reset with
    shm := { Shm.reset with mem := memWriteBytes [] 0 (l.shmInit.take Config.shmBytes) }
    pes := Vector.ofFn fun k => Pe.reset.launch l.pes[k] }

/-- No cache holds any line and no staging slot exists: the condition under which the host may use ShmRead and ShmWrite
directly (R348). A queued write then meets no held line, so the host's step runs it (Laws, holdsAnyOf_of_hostShmFree). -/
def hostShmFree (s : State) : Bool :=
  s.staging.isEmpty &&
    s.caches.toList.all fun c => c.sets.toList.all fun st => st.ways.toList.all Line.free

/-- The record of the host's coherent read of address `a` through port `k` (R350). -/
def coherentRead (k : PeId) (a : Word) : HostCmd := { fmt := .portcmd, port := k, bytes := encode (.load64 a) }

/-- The record of an injected Inv that spares cache `src` (R200, R351). -/
def injectInv (src : PeId) (a : Word) : HostCmd := { fmt := .txn, port := src, bytes := encode (.inv src a) }

/-- A run is over: it was started, and no agent has a step (R288). -/
def State.runOver (s : State) : Bool := s.anyStarted && s.nextAgent.isNone

/-- A final state: the run is over with no fault mark and no shared memory failure (R288). -/
def State.isFinal (s : State) : Bool := s.runOver && s.fault.isNone && !s.shmFault

/-! ### The dot-product layout (R349), a convention of the host -/

/-- The half-open range of vector elements of one PE (R349). -/
structure DotRange where
  lo : Nat
  hi : Nat
  deriving DecidableEq, Repr

/-- `2·N·8 + 4·32 ≤ 4096` (R62, R349). -/
def dotConfigOk (n : Nat) : Bool := decide (2 * n * 8 + 4 * 32 ≤ Config.shmBytes)

/-- `baseB` (R349); `baseA` is 0. -/
def dotBaseB (n : Nat) : Nat := n * 8

/-- The partial slot `o_k` (R349). -/
def dotSlot (k : PeId) : Nat := 4096 - 4 * 32 + k.val * 32

/-- `A[i] = (double)(i + 1)` (R349). -/
def dotA (i : Nat) : Word := fpOfHalves (2 * (i + 1))

/-- `B[i] = 0.5 · (i + 1)` (R349). -/
def dotB (i : Nat) : Word := fpOfHalves (i + 1)

/-- The initial bytes: `A[i] = i + 1`, `B[i] = 0.5 (i + 1)`, partials +0.0 (R349). -/
def dotImage (n : Nat) : List Byte :=
  memReadBytes
    (memWriteBytes
      (memWriteBytes [] 0 ((List.range n).flatMap fun i => bytes64 (dotA i)))
      (dotBaseB n) ((List.range n).flatMap fun i => bytes64 (dotB i)))
    0 Config.shmBytes

/-- Four contiguous blocks of `N/4` elements, for `N` divisible by 4 (D40). -/
def dotBlock (n : Nat) (k : PeId) : DotRange := { lo := k.val * (n / 4), hi := (k.val + 1) * (n / 4) }

/-- A division of the vector the host may use: every PE has an element, since `len = 0` is not usable, and every element
is in the range of exactly one PE (R349). -/
def dotRangesOk (n : Nat) (ranges : PeId → DotRange) : Bool :=
  ([0, 1, 2, 3].all fun k => decide ((ranges k).lo < (ranges k).hi ∧ (ranges k).hi ≤ n)) &&
    (List.range n).all fun i =>
      ([0, 1, 2, 3].filter fun k => decide ((ranges k).lo ≤ i ∧ i < (ranges k).hi)).length == 1

/-- The dot-product loop (R349, 95_test_vectors.md section 4.1), index 0 first. -/
def dotProgram : List (BitVec 32) :=
  [0x78400003, 0x09000000, 0x7C800003, 0x0D800000, 0x29300000, 0x36E00000, 0x40000000, 0x5E000000, 0x6E00FFF8,
    0x17400000, 0x80000000]

/-- PE `k`'s share of the launch: the loop, and set_segment for its range (R349). -/
def dotPe (n : Nat) (k : PeId) (r : DotRange) : PeLaunch where
  program := dotProgram
  regs := segmentRegs (BitVec.ofNat 64 (8 * r.lo)) (BitVec.ofNat 64 (dotBaseB n + 8 * r.lo))
    (BitVec.ofNat 64 (dotSlot k)) (BitVec.ofNat 64 (r.hi - r.lo))
  maxSteps := none

/-- The dot-product launch for vector length `n` (R349). -/
def dotLaunch (n : Nat) (ranges : PeId → DotRange) : Launch where
  shmInit := dotImage n
  pes := Vector.ofFn fun k => dotPe n k (ranges k)

/-- The partial a PE computes and stores at its slot: the products of its range added one by one to +0.0 (R349). -/
def dotPartial (r : DotRange) : Word :=
  (List.range (r.hi - r.lo)).foldl (fun acc i => fpAdd acc (fpMul (dotA (r.lo + i)) (dotB (r.lo + i)))) 0

/-- The result: the four partials summed in double precision (R349). -/
def dotResult (parts : PeId → Word) : Word := [1, 2, 3].foldl (fun acc k => fpAdd acc (parts k)) (parts 0)

/-- `N (N+1) (2N+1) / 6`: the expected result `0.5 · N (N+1) (2N+1) / 6` in halves (R349). -/
def dotExpectedHalves (n : Nat) : Nat := n * (n + 1) * (2 * n + 1) / 6

/-- A result within relative tolerance 1e-9 of the expected one (R349); magnitudes in units of 2^-1074. -/
def dotAccepted (n : Nat) (r : Word) : Bool :=
  let expected : Int := (dotExpectedHalves n : Int) * 2 ^ 1073
  fpExp r != 2047 && decide ((fpInt r - expected).natAbs * 10 ^ 9 ≤ expected.natAbs)

/-- The records by which the host reads the four partials through port `k` (R349, R350). -/
def dotReads (k : PeId) : List HostCmd := [0, 1, 2, 3].map fun j => coherentRead k (BitVec.ofNat 64 (dotSlot j))

end Sys2Proof.Machine
end

