-- ==== Sys2Proof/Safety.lean ====
section
/-! DEFINITION. What claims call a good state: the invariants of spec 45_system_step.md R290 to R295 and 41_cache_controller.md
R164, R165, the current value of a byte (20_memory.md R69), and the vocabulary of the statements. -/

namespace Sys2Proof.Machine

/-! ### Coherence (R290 to R294) -/

/-- A line base the shared memory backs (R63). -/
abbrev backed (b : Word) : Prop := b.toNat < Config.shmBytes

/-- Frame well-formedness (R290): an invalid frame is in I, a frame is dirty iff in M, and a set holds a tag live at most
once. -/
structure FramesWf (s : State) : Prop where
  invalidIsI : ∀ k st w, (s.frame k st w).valid = false → (s.frame k st w).state = .I
  dirtyIffM : ∀ k st w, (s.frame k st w).dirty = true ↔ (s.frame k st w).state = .M
  tagOnce : ∀ k st, (s.frame k st 0).live = true → (s.frame k st 1).live = true →
    (s.frame k st 0).tag ≠ (s.frame k st 1).tag

/-- A line that two caches hold is in S in both (R291, R292). -/
def SharedOnlyInS (s : State) : Prop :=
  ∀ j k st w w', j ≠ k → (s.frame j st w).live = true → (s.frame k st w').live = true →
    (s.frame j st w).tag = (s.frame k st w').tag → (s.frame j st w).state = .S

/-- A backed line held in E or S has the bytes of the shared memory (R293). -/
def CleanLinesMatchMemory (s : State) : Prop :=
  ∀ k st w, (s.frame k st w).live = true → (s.frame k st w).state ≠ .M →
    (lineBase (s.frame k st w).tag st).toNat < Config.shmBytes →
    ∀ i < 32, lineByte (s.frame k st w).data i =
      memRead s.shm.mem ((lineBase (s.frame k st w).tag st).toNat + i)

/-- Staging slots (R294, R29): keys are line bases in canonical order; a slot's line is held by no cache, and a backed
one has the bytes of the shared memory. -/
structure StagingOk (s : State) : Prop where
  sorted : mapSorted s.staging = true
  keys : ∀ p ∈ s.staging, p.1 % 32 = 0 ∧ p.1 < 2 ^ 64
  unheld : ∀ p ∈ s.staging, ∀ k st w, (s.frame k st w).live = true →
    (lineBase (s.frame k st w).tag st).toNat ≠ p.1
  match_memory : ∀ p ∈ s.staging, p.1 < Config.shmBytes →
    ∀ i < 32, lineByte p.2 i = memRead s.shm.mem (p.1 + i)

/-- The coherence invariant (R290 to R294). -/
structure Coherent (s : State) : Prop where
  frames : FramesWf s
  shared : SharedOnlyInS s
  clean : CleanLinesMatchMemory s
  staging : StagingOk s

/-- The commands the host may have queued: port accesses, an injected Inv, and direct requests to the shared memory, of
which the step refuses a write to a held line (R348, R350, R351, U24). -/
def hostAllowed : Instr → Bool
  | .load64 _ | .store64 _ _ | .inv _ _ | .shmRead _ _ _ | .shmWrite _ _ _ _ => true
  | .load _ _ | .store _ _ | .fmul _ _ _ | .fadd _ _ _ | .inc _ | .dec _ | .jnz _ _ | .lea _ _ _ _ | .halt => false
  | .busRd _ _ | .busRdX _ _ | .busUpgr _ _ | .flush _ _ _ => false
  | .cacheLoad _ | .cacheStore _ _ => false

/-- The host keeps its duties (R348, R351): every queued record that is a command is an allowed one. -/
def HostDuties (s : State) : Prop := ∀ c ∈ s.cmds, ∀ i, c.instr = .ok i → hostAllowed i = true

/-- The machine's invariant in a run whose host keeps its duties (R290 to R294, R348; the canonical form of memory is the
model's). -/
structure Inv (s : State) : Prop where
  coherent : Coherent s
  memory : Memory.wf s.shm.mem = true
  duties : HostDuties s

/-! ### The current value (R69, R70) -/

/-- The frames that can hold the line of an address, as cache and way. -/
def holders : List (PeId × WayIx) := [(0, 0), (0, 1), (1, 0), (1, 1), (2, 0), (2, 1), (3, 0), (3, 1)]

/-- The frame that holds the line of an address in M, if any (R69). -/
def State.owner (s : State) (a : Word) : Option (PeId × WayIx) :=
  holders.find? fun h => (s.frame h.1 (setOf a) h.2).holds (tagOf a) && (s.frame h.1 (setOf a) h.2).state == .M

/-- The current value of the byte at an address (R69): the owner's payload, else the shared memory's byte. -/
def State.currentByte (s : State) (a : Word) : Byte :=
  match s.owner a with
  | some h => lineByte (s.frame h.1 (setOf a) h.2).data (off a)
  | none => memRead s.shm.mem a.toNat

/-- The current values of the eight bytes from an address on (R70). -/
def State.currentBytes (s : State) (a : Word) : List Byte :=
  (List.range 8).map fun i => s.currentByte (a + BitVec.ofNat 64 i)

/-! ### Counters and logs (R164, R165, R295) -/

/-- The counter laws (R164 (a) to (e)) of one cache; (c) with the evictions of M frames counted where InstallLine
records them. -/
structure CounterLaws (c : Cache) : Prop where
  accesses : c.ctr.rwAccesses = c.ctr.loads + c.ctr.stores
  upgrades : c.ctr.busUpgr = c.transCount .S .M
  flushes : c.ctr.flush = c.transCount .M .E + c.transCount .M .S + c.transCount .M .I
  misses : c.ctr.cacheMisses = c.ctr.busRd + c.ctr.busRdX
  invalidations : c.ctr.invalidations = c.transCount .M .I + c.transCount .E .I + c.transCount .S .I

/-- The pairs that can appear in a transition log (R165). -/
def loggable : Mesi × Mesi → Bool
  | (.S, .M) | (.E, .M) | (.M, .S) | (.E, .S) | (.M, .I) | (.E, .I) | (.S, .I) => true
  | (.I, .S) | (.I, .E) | (.S, .S) | (.S, .E) | (.E, .E) | (.M, .E) => true
  | (.I, .I) | (.I, .M) | (.M, .M) => false

/-- The transition matrix counts the log, and the log holds only loggable pairs (R143, R165). -/
structure LogLaws (c : Cache) : Prop where
  counts : ∀ f t, c.transCount f t = c.log.count (f, t)
  pairs : ∀ p ∈ c.log, loggable p = true

/-- 1 while a port holds an unfinished load. -/
def Port.busyLoads (p : Port) : Nat :=
  match p.fsm with
  | .busyLoad _ => 1
  | .idle | .busyStore _ _ => 0

/-- 1 while a port holds an unfinished store. -/
def Port.busyStores (p : Port) : Nat :=
  match p.fsm with
  | .busyStore _ _ => 1
  | .idle | .busyLoad _ => 0

/-- The laws between a port's counters and its cache's (R295): every attempt that does not complete is a miss, and every miss
fails to complete. An unfinished access has been counted by the port and has missed at least once. -/
structure PortLaws (p : Port) (c : Cache) : Prop where
  loads : c.ctr.loads + p.busyLoads = p.loads + c.ctr.busRd
  stores : c.ctr.stores + p.busyStores = p.stores + c.ctr.busRdX
  missedLoad : p.busyLoads ≤ c.ctr.busRd
  missedStore : p.busyStores ≤ c.ctr.busRdX

/-- A busy port serves the LOAD or STORE its PE stands at, with the operands it reads (R233, R282). -/
structure PortMatchesPe (s : State) (k : PeId) : Prop where
  load : ∀ a, (s.port k).fsm = .busyLoad a → ∃ d r, s.fetch k = .instr (.load d r) ∧ s.reg k r = a
  store : ∀ a v, (s.port k).fsm = .busyStore a v →
    ∃ d r, s.fetch k = .instr (.store d r) ∧ s.reg k r = a ∧ s.reg k d = v

/-! ### Runs in any order (R284) -/

/-- A step of agent `k` (R282, R283). -/
def AgentSteps (k : PeId) (s t : State) : Prop := s.enabled k = true ∧ agentStep k s = .next t

/-- A run in the order `order`, any order at all: every step is one of the agent in turn, until no agent has one (R284,
R288). -/
def Run (order : Nat → PeId) (run : Nat → State) : Prop :=
  ∀ n, AgentSteps (order n) (run n) (run (n + 1)) ∨ ((∀ k, (run n).enabled k = false) ∧ run (n + 1) = run n)

/-- Weak fairness, the premise of termination claims: an agent whose step stays enabled eventually steps (R284, D26). -/
def WeaklyFair (order : Nat → PeId) (run : Nat → State) : Prop :=
  ∀ k n, (∀ m, n ≤ m → (run m).enabled k = true) → ∃ m, n ≤ m ∧ order m = k

/-! ### Vocabulary of the statements -/

/-- The sum of a counter over the four caches. -/
def State.sumCaches (s : State) (f : CacheCounters → Nat) : Nat :=
  f (s.cache 0).ctr + f (s.cache 1).ctr + f (s.cache 2).ctr + f (s.cache 3).ctr

/-- The register a PE instruction writes, if any (R244 to R251). -/
def destReg : Instr → Option Reg
  | .load d _ | .fmul d _ _ | .fadd d _ _ | .inc d | .dec d | .lea d _ _ _ => some d
  | .store _ _ | .jnz _ _ | .halt => none
  | .busRd _ _ | .busRdX _ _ | .busUpgr _ _ | .flush _ _ _ | .inv _ _ => none
  | .load64 _ | .store64 _ _ | .cacheLoad _ | .cacheStore _ _ | .shmRead _ _ _ | .shmWrite _ _ _ _ => none

/-- A PE instruction that touches only its PE's registers and pc (R241, R285). -/
def registerOnly : Instr → Bool
  | .fmul _ _ _ | .fadd _ _ _ | .inc _ | .dec _ | .jnz _ _ | .lea _ _ _ _ | .halt => true
  | .load _ _ | .store _ _ => false
  | .busRd _ _ | .busRdX _ _ | .busUpgr _ _ | .flush _ _ _ | .inv _ _ => false
  | .load64 _ | .store64 _ _ | .cacheLoad _ | .cacheStore _ _ | .shmRead _ _ _ | .shmWrite _ _ _ _ => false

/-- A port can take or is serving a load of this address (R233). -/
abbrev Port.servesLoad (p : Port) (a : Word) : Prop := p.fsm = .idle ∨ p.fsm = .busyLoad a

/-- A port can take or is serving this store (R233). -/
abbrev Port.servesStore (p : Port) (a v : Word) : Prop := p.fsm = .idle ∨ p.fsm = .busyStore a v

/-- What an accepted access adds to the port's counter in this step: the issue counts once, a retry nothing (R234). -/
def Port.issues (p : Port) : Nat := if p.fsm = .idle then 1 else 0

/-- The eight bytes of a frame at an address's offset (R144). -/
def hitBytes (s : State) (k : PeId) (a : Word) (w : WayIx) : List Byte :=
  (List.range 8).map fun i => lineByte (s.frame k (setOf a) w).data (off a + i)

/-- What a snoop can do to cache `j` beside its frames: the counters `flush` and `invalidations`, the matrix and the log
(R155 to R160); every other counter and every LRU bit stays (R142). -/
structure SnoopedCounters (s t : State) (j : PeId) : Prop where
  ctr : (t.cache j).ctr =
    { (s.cache j).ctr with flush := (t.cache j).ctr.flush, invalidations := (t.cache j).ctr.invalidations }
  lru : ∀ st, ((t.cache j).cset st).lru = ((s.cache j).cset st).lru

/-- Another cache than `src` holds the line of an address in M, in way `w` of cache `j`. -/
abbrev dirtyPeer (s : State) (src : PeId) (a : Word) (j : PeId) (w : WayIx) : Prop :=
  j ≠ src ∧ (s.frame j (setOf a) w).holds (tagOf a) = true ∧ (s.frame j (setOf a) w).state = .M

/-- An installation at address `a` in cache `k` flushes its victim (R151, R153). -/
abbrev evictsDirty (s : State) (k : PeId) (a : Word) : Prop :=
  (s.frame k (setOf a) (s.chooseWay k (setOf a))).valid = true ∧
    (s.frame k (setOf a) (s.chooseWay k (setOf a))).state = .M

/-- The registers a PE instruction reads, in the order it reads them (R242, R244 to R251; log 16). -/
def sourceRegs : Instr → List Reg
  | .load _ a => [a]
  | .store d a => [a, d]
  | .fmul _ a b => [a, b]
  | .fadd _ a b => [a, b]
  | .inc d => [d]
  | .dec d => [d]
  | .jnz d _ => [d]
  | .lea _ a b _ => [a, b]
  | .halt => []
  | .busRd _ _ | .busRdX _ _ | .busUpgr _ _ | .flush _ _ _ | .inv _ _ => []
  | .load64 _ | .store64 _ _ | .cacheLoad _ | .cacheStore _ _ | .shmRead _ _ _ | .shmWrite _ _ _ _ => []

/-- The address a load names, at the PE or interface in turn (R144, R231, R244). -/
def loadAddr (i : Instr) (s : State) : Option Word :=
  match i with
  | .load _ a => some (s.reg s.turn a)
  | .load64 a | .cacheLoad a => some a
  | .store _ _ | .fmul _ _ _ | .fadd _ _ _ | .inc _ | .dec _ | .jnz _ _ | .lea _ _ _ _ | .halt => none
  | .busRd _ _ | .busRdX _ _ | .busUpgr _ _ | .flush _ _ _ | .inv _ _ => none
  | .store64 _ _ | .cacheStore _ _ | .shmRead _ _ _ | .shmWrite _ _ _ _ => none

/-- The address and the value a store names (R145, R232, R245). -/
def storeOf (i : Instr) (s : State) : Option (Word × Word) :=
  match i with
  | .store d a => some (s.reg s.turn a, s.reg s.turn d)
  | .store64 a v | .cacheStore a v => some (a, v)
  | .load _ _ | .fmul _ _ _ | .fadd _ _ _ | .inc _ | .dec _ | .jnz _ _ | .lea _ _ _ _ | .halt => none
  | .busRd _ _ | .busRdX _ _ | .busUpgr _ _ | .flush _ _ _ | .inv _ _ => none
  | .load64 _ | .cacheLoad _ | .shmRead _ _ _ | .shmWrite _ _ _ _ => none

/-- The interface lets the access in: a port is idle or serves this very access; a cache always (R233). -/
def accessTaken (i : Instr) (s : State) : Prop :=
  match i with
  | .load _ a => (s.port s.turn).servesLoad (s.reg s.turn a)
  | .load64 a => (s.port s.turn).servesLoad a
  | .store d a => (s.port s.turn).servesStore (s.reg s.turn a) (s.reg s.turn d)
  | .store64 a v => (s.port s.turn).servesStore a v
  | .cacheLoad _ | .cacheStore _ _ => True
  | .fmul _ _ _ | .fadd _ _ _ | .inc _ | .dec _ | .jnz _ _ | .lea _ _ _ _ | .halt => True
  | .busRd _ _ | .busRdX _ _ | .busUpgr _ _ | .flush _ _ _ | .inv _ _ => True
  | .shmRead _ _ _ | .shmWrite _ _ _ _ => True

/-- An instruction that, from a coherent state, cannot lose a written value: every one but a bus read the cache itself
did not miss for, a Flush of foreign bytes and a direct write of the shared memory (R348, R351). -/
def keepsValues : Instr → Bool
  | .busRd _ _ | .busRdX _ _ | .flush _ _ _ | .shmWrite _ _ _ _ => false
  | .load _ _ | .store _ _ | .fmul _ _ _ | .fadd _ _ _ | .inc _ | .dec _ | .jnz _ _ | .lea _ _ _ _ | .halt => true
  | .busUpgr _ _ | .inv _ _ | .load64 _ | .store64 _ _ | .cacheLoad _ | .cacheStore _ _ | .shmRead _ _ _ => true

/-- Every source register of an instruction reads without a fault. -/
def operandsReadable (i : Instr) (s : State) : Prop := ∀ r ∈ sourceRegs i, s.readable s.turn r = true

/-- A byte address lies in the line at base `b`. -/
abbrev inLine (x b : Nat) : Prop := b ≤ x ∧ x < b + 32

/-- The base of the frame an installation at address `a` would overwrite in cache `k` (R151, R153). -/
def victimBase (s : State) (k : PeId) (a : Word) : Word :=
  lineBase (s.frame k (setOf a) (s.chooseWay k (setOf a))).tag (setOf a)

/-- A byte of the shared memory that a bus read by cache `k` at address `a` may write: in the addressed line when a peer
flushes it, in the victim's line when the victim is flushed (R153, R155, R158). -/
def flushedByRead (s : State) (k : PeId) (a : Word) (x : Nat) : Prop :=
  (inLine x (baseOf a).toNat ∧ ∃ j w, dirtyPeer s k a j w) ∨ (inLine x (victimBase s k a).toNat ∧ evictsDirty s k a)

/-- The same for a transaction that only invalidates: it installs nothing. -/
def flushedByInvalidate (s : State) (k : PeId) (a : Word) (x : Nat) : Prop :=
  inLine x (baseOf a).toNat ∧ ∃ j w, dirtyPeer s k a j w

/-- How many backed lines cache `j` flushes when a transaction of cache `src` at address `a` snoops it (R155, R158): one for
each matching M frame. -/
def peerFlushes (s : State) (src : PeId) (a : Word) (j : PeId) : Nat :=
  if backed (baseOf a) then
    (if dirtyPeer s src a j 0 then 1 else 0) + (if dirtyPeer s src a j 1 then 1 else 0)
  else 0

/-- How many backed lines the installation that ends a bus read flushes: an M victim (R153). -/
def victimFlushes (s : State) (src : PeId) (a : Word) : Nat :=
  if evictsDirty s src a ∧ backed (victimBase s src a) then 1 else 0

/-- How many shared memory reads succeed in a bus read: one exactly when no slot gives the line, neither one that exists nor
one a peer's Flush writes, and the line is backed (R202). -/
def sourceReads (s : State) (src : PeId) (a : Word) : Nat :=
  if (∃ j w, dirtyPeer s src a j w) ∨ mapFind (baseOf a).toNat s.staging ≠ none ∨ ¬backed (baseOf a) then 0 else 1

/-- What a bus read of cache `src` at address `a` counts in the shared memory (R22, R124, R196, R202, D27): 32 bytes read for
`src` when the line comes from the shared memory, 32 bytes written for the flushing cache at each backed Flush. -/
structure BusReadCounts (src : PeId) (a : Word) (s t : State) : Prop where
  totalReads : t.shm.totalReads = s.shm.totalReads + sourceReads s src a
  totalWrites : t.shm.totalWrites = s.shm.totalWrites +
    (peerFlushes s src a 0 + peerFlushes s src a 1 + peerFlushes s src a 2 + peerFlushes s src a 3) +
    victimFlushes s src a
  source : t.shm.peCtr src =
    { readOps := (s.shm.peCtr src).readOps + sourceReads s src a
      readBytes := (s.shm.peCtr src).readBytes + 32 * sourceReads s src a
      writeOps := (s.shm.peCtr src).writeOps + victimFlushes s src a
      writeBytes := (s.shm.peCtr src).writeBytes + 32 * victimFlushes s src a }
  peers : ∀ j, j ≠ src → t.shm.peCtr j =
    { s.shm.peCtr j with
      writeOps := (s.shm.peCtr j).writeOps + peerFlushes s src a j
      writeBytes := (s.shm.peCtr j).writeBytes + 32 * peerFlushes s src a j }

/-- Where the line delivered to `src` for address `a` comes from, from state `s` to state `t` (R194, R195, R202): the one
peer that held it in M; else the staging slot; else the shared memory, or zero bytes and the sticky bit. -/
structure SourcedLine (src : PeId) (a : Word) (s t : State) (line : LineData) : Prop where
  peer : ∀ j w, dirtyPeer s src a j w → (∀ i v, dirtyPeer s src a i v → i = j ∧ v = w) →
    line = (s.frame j (setOf a) w).data
  slot : (∀ j w, ¬dirtyPeer s src a j w) → ∀ l, mapFind (baseOf a).toNat s.staging = some l → line = l
  memory : (∀ j w, ¬dirtyPeer s src a j w) → mapFind (baseOf a).toNat s.staging = none → backed (baseOf a) →
    ∀ i < 32, lineByte line i = memRead s.shm.mem ((baseOf a).toNat + i)
  unbacked : (∀ j w, ¬dirtyPeer s src a j w) → mapFind (baseOf a).toNat s.staging = none → ¬backed (baseOf a) →
    (∀ i < 32, lineByte line i = 0) ∧ t.shmFault = true

/-- A frame matches a transaction (R154). -/
def snoopHit (a : Word) (st : SetIx) (l : Line) : Bool := decide (st = setOf a) && l.valid && l.tag == tagOf a

/-- What a snoop leaves of a frame (R154 to R160). -/
def snoopedLine (kind : SnoopKind) (a : Word) (st : SetIx) (l : Line) : Line :=
  if snoopHit a st l then
    match kind, l.state with
    | .read, .M => { l with state := .S, dirty := false }
    | .read, .E => { l with state := .S }
    | .read, .S | .read, .I => l
    | .invalidate, .M => { l with state := .I, dirty := false }
    | .invalidate, .E | .invalidate, .S => { l with state := .I }
    | .invalidate, .I => l
  else l

/-- The slots of an instruction word an opcode uses beside the opcode itself, as high and low bit (R100). -/
def usedFields (op : Nat) : List (Nat × Nat) :=
  match op with
  | 0 | 1 => [(27, 25), (24, 22)]
  | 2 | 3 => [(27, 25), (24, 22), (21, 19)]
  | 4 | 5 => [(27, 25)]
  | 6 => [(27, 25), (15, 0)]
  | 7 => [(27, 25), (24, 22), (21, 19), (15, 0)]
  | _ => []

/-- The number of units of 2^-1074 that the magnitude bits of a finite binary64 number stand for. -/
def magUnits (b : Nat) : Nat := if b / 2 ^ 52 = 0 then b % 2 ^ 52 else (2 ^ 52 + b % 2 ^ 52) * 2 ^ (b / 2 ^ 52 - 1)

/-- The distance between two naturals. -/
def natDist (x y : Nat) : Nat := (x - y) + (y - x)

/-- `b` is the magnitude of the binary64 number nearest to `m` units of `2^-(1074+g)`, ties to the even fraction; from half
a unit above the greatest finite number on it is infinity (R257; IEEE-754, log 14). -/
def nearestEven (m g b : Nat) : Prop :=
  if (2 ^ 54 - 1) * 2 ^ (2044 + g) ≤ m then b = fpInfBits
  else
    b < fpInfBits ∧ ∀ c < fpInfBits,
      natDist m (magUnits b * 2 ^ g) ≤ natDist m (magUnits c * 2 ^ g) ∧
        (natDist m (magUnits b * 2 ^ g) = natDist m (magUnits c * 2 ^ g) → c ≠ b → b % 2 = 0)

/-- A pattern that is neither a NaN nor an infinity. -/
def fpFinite (p : Word) : Bool := fpExp p != 2047

end Sys2Proof.Machine
end

