-- ==== Sys2Proof/Certificates/Slice0/Obligations.lean ====
section
/-! DEFINITION. The statements about the model, for the provers. Each docstring names the rule of spec/ it formalises. In all
of them `s.turn` is the PE an instruction runs on, or the interface a command is given to. -/

open Sys2Proof Sys2Proof.Machine

/-! ### Encodings (30_encoding.md) -/

/-- Decoding what encode writes gives the instruction back, whatever bytes follow (R94, R99, R105, R106; the layout of a
SHMCMD is the model's, log 8). -/
def Obligations.DecodeEncodeRoundTrip : Prop :=
  ∀ i : Instr, i.wellFormed = true → ∀ rest : List Byte, decode i.format (encode i ++ rest) = .ok (i, rest)

/-- R100, with the fields of R99 and the sign extension of R101: the opcode alone selects the instruction. -/
def Obligations.InstructionWordFields : Prop :=
  ∀ w : BitVec 32,
    let d : Reg := Fin.ofNat 8 (w.extractLsb' 25 3).toNat
    let a : Reg := Fin.ofNat 8 (w.extractLsb' 22 3).toNat
    let b : Reg := Fin.ofNat 8 (w.extractLsb' 19 3).toNat
    let imm : Int := (w.extractLsb' 0 16).toInt
    (w &&& 0xF0000000#32 = 0x00000000#32 → decodeI32 w.toNat = .ok (.load d a)) ∧
    (w &&& 0xF0000000#32 = 0x10000000#32 → decodeI32 w.toNat = .ok (.store d a)) ∧
    (w &&& 0xF0000000#32 = 0x20000000#32 → decodeI32 w.toNat = .ok (.fmul d a b)) ∧
    (w &&& 0xF0000000#32 = 0x30000000#32 → decodeI32 w.toNat = .ok (.fadd d a b)) ∧
    (w &&& 0xF0000000#32 = 0x40000000#32 → decodeI32 w.toNat = .ok (.inc d)) ∧
    (w &&& 0xF0000000#32 = 0x50000000#32 → decodeI32 w.toNat = .ok (.dec d)) ∧
    (w &&& 0xF0000000#32 = 0x60000000#32 → decodeI32 w.toNat = .ok (.jnz d imm)) ∧
    (w &&& 0xF0000000#32 = 0x70000000#32 → decodeI32 w.toNat = .ok (.lea d a b imm)) ∧
    (w &&& 0xF0000000#32 = 0x80000000#32 → decodeI32 w.toNat = .ok .halt) ∧
    (0x90000000 ≤ w.toNat → decodeI32 w.toNat = .error (.undefinedOpcode (w.extractLsb' 28 4).toNat))

/-- R102: words that differ only in reserved bits and unused fields are one instruction; executing opcode 9 to 15 halts the
PE and raises nothing. -/
def Obligations.IgnoredBitsAndUndefinedOpcodes : Prop :=
  (∀ v w : Nat, slice v 31 28 = slice w 31 28 →
    (∀ f ∈ usedFields (slice v 31 28), slice v f.1 f.2 = slice w f.1 f.2) → decodeI32 v = decodeI32 w) ∧
  (∀ (s : State) (k : PeId) (w : BitVec 32), 0 ≤ (s.pe k).pc → (s.pe k).program[(s.pe k).pc.toNat]? = some w →
    9 ≤ slice w.toNat 31 28 → agentStep k s = .next (s.halt k).reschedule)

/-- R94: the fields of a transaction record. -/
def Obligations.TransactionRecordFields : Prop :=
  ∀ n : BitVec 325,
    let src : PeId := Fin.ofNat 4 (n.extractLsb' 3 2).toNat
    let addr : Word := n.extractLsb' 5 64
    let payload : LineData := Vector.ofFn fun i : Fin 32 => n.extractLsb' (69 + 8 * i.val) 8
    (n.extractLsb' 0 3 = 0#3 → decodeTxn n.toNat = .ok (.busRd src addr)) ∧
    (n.extractLsb' 0 3 = 1#3 → decodeTxn n.toNat = .ok (.busRdX src addr)) ∧
    (n.extractLsb' 0 3 = 2#3 → decodeTxn n.toNat = .ok (.busUpgr src addr)) ∧
    (n.extractLsb' 0 3 = 3#3 → decodeTxn n.toNat = .ok (.flush src addr payload)) ∧
    (n.extractLsb' 0 3 = 4#3 → decodeTxn n.toNat = .ok (.inv src addr))

/-- R96: a record of type 5, 6 or 7 is refused and no state changes; a Flush is handled with the base of its address; the
payload bits of the other types are ignored. -/
def Obligations.ReservedTransactionTypes : Prop :=
  (∀ (s : State) (c : HostCmd) (rest : List HostCmd), s.fault = none → s.cmds = c :: rest → c.fmt = .txn →
    41 ≤ c.bytes.length → 5 ≤ slice (natLE c.bytes) 2 0 →
      step s = .refused (.badRecord (.reservedTxnType (slice (natLE c.bytes) 2 0)))) ∧
  (∀ (src : PeId) (a : Word) (p : LineData) (s : State), exec (.flush src a p) s = exec (.flush src (baseOf a) p) s) ∧
  (∀ m n : Nat, slice m 68 0 = slice n 68 0 → slice m 2 0 ≠ 3 → decodeTxn m = decodeTxn n)

/-- R105 and R106: the fields of a port and of a cache command. -/
def Obligations.CommandRecordFields : Prop :=
  ∀ n : BitVec 129,
    let addr : Word := n.extractLsb' 1 64
    let wdata : Word := n.extractLsb' 65 64
    (n.getLsbD 0 = false → decodePort n.toNat = .load64 addr ∧ decodeCache n.toNat = .cacheLoad addr) ∧
    (n.getLsbD 0 = true → decodePort n.toNat = .store64 addr wdata ∧ decodeCache n.toNat = .cacheStore addr wdata)

/-- R97: the fields of a data response, and that it decodes to what was sent. -/
def Obligations.DataResponseRecord : Prop :=
  ∀ r : Rsp,
    r.encodeNat < 2 ^ 321 ∧
    BitVec.ofNat 64 (slice r.encodeNat 63 0) = r.addr ∧
    slice r.encodeNat 64 64 = (if r.shared then 1 else 0) ∧
    (∀ i < 32, BitVec.ofNat 8 (slice r.encodeNat (65 + 8 * i + 7) (65 + 8 * i)) = lineByte r.line i) ∧
    Rsp.decodeNat r.encodeNat = r

/-- A few words written out from the layouts decode to the instruction they stand for (R99, R100, R94, R105). -/
def Obligations.SampleWordsDecode : Prop :=
  decode .i32 (bytesLE 4 0x09000000) = .ok (.load 4 4, []) ∧
  decode .i32 (bytesLE 4 0x17400000) = .ok (.store 3 5, []) ∧
  decode .i32 (bytesLE 4 0x29300000) = .ok (.fmul 4 4 6, []) ∧
  decode .i32 (bytesLE 4 0x36E00000) = .ok (.fadd 3 3 4, []) ∧
  decode .i32 (bytesLE 4 0x5E000000) = .ok (.dec 7, []) ∧
  decode .i32 (bytesLE 4 0x6E00FFF8) = .ok (.jnz 7 (-8), []) ∧
  decode .i32 (bytesLE 4 0x78400003) = .ok (.lea 4 1 0 3, []) ∧
  decode .i32 (bytesLE 4 0x80000000) = .ok (.halt, []) ∧
  decode .txn (bytesLE 41 0x200A) = .ok (.busUpgr 1 0x100, []) ∧
  decode .portcmd (bytesLE 17 0x201) = .ok (.store64 0x100 0, [])

/-! ### The step (45_system_step.md) -/

/-- R241 and R282: a step with an empty host queue runs the instruction the chosen agent fetches, and moves the schedule on;
with a record queued it runs the record at its interface, but for a direct write to a held line, which it refuses (R348,
U24; log 18). The schedule and the queue are the model's (log 5, 6). -/
def Obligations.StepRunsTheDecodedInstruction : Prop :=
  (∀ (s : State) (k : PeId) (w : BitVec 32) (i : Instr), s.fault = none → s.cmds = [] → s.nextAgent = some k →
    0 ≤ (s.pe k).pc → (s.pe k).program[(s.pe k).pc.toNat]? = some w → decode .i32 (bytesLE 4 w.toNat) = .ok (i, []) →
      step s = onNext (exec i { s with turn := k }) State.reschedule) ∧
  (∀ (s : State) (c : HostCmd) (rest : List HostCmd) (i : Instr) (more : List Byte), s.fault = none →
    s.cmds = c :: rest → c.fmt ≠ .i32 → decode c.fmt c.bytes = .ok (i, more) →
      step s = if writesHeldLine i s then .refused .heldLine
        else onNext (exec i { s with turn := c.port }) (afterCmd s c rest))

/-- R253, R254: a PE that fetches an undefined opcode, or whose pc is outside its program, halts: `halted` becomes 1, its
pc and registers and everything else stay, nothing is raised. -/
def Obligations.PeHaltsSilently : Prop :=
  ∀ (s : State) (k : PeId), s.fault = none → s.cmds = [] → s.nextAgent = some k →
    ((s.pe k).pc < 0 ∨ ((s.pe k).program.length : Int) ≤ (s.pe k).pc ∨
      ∃ w, (s.pe k).program[(s.pe k).pc.toNat]? = some w ∧ 9 ≤ slice w.toNat 31 28) →
    ∃ t, step s = .next t ∧ t.pe k = { s.pe k with halted := true } ∧ (∀ j, j ≠ k → t.pe j = s.pe j) ∧
      t.shm = s.shm ∧ t.caches = s.caches ∧ t.staging = s.staging ∧ t.shmFault = s.shmFault ∧ t.ports = s.ports ∧
      t.fault = none ∧ t.cmds = [] ∧ t.resp = s.resp ∧ t.regPolicy = s.regPolicy

/-- R282, R288, R340: agent `k`, once started, has a step iff the fault mark is empty, it is not halted and its budget is not
used up; with no host record queued the run is over exactly when it was started and no agent has one; before the host starts
a PE nothing runs. That step then answers a fault, and the names `runOver` and `notStarted`, are the model's choice (log 10). -/
def Obligations.RunIsOverWhenNoAgentHasAStep : Prop :=
  (∀ (s : State) (k : PeId), s.enabled k = true ↔
    s.fault = none ∧ (s.pe k).started = true ∧ (s.pe k).halted = false ∧ ∀ n, (s.pe k).maxSteps = some n → (s.pe k).steps < n) ∧
  (∀ s : State, s.cmds = [] →
    ((∃ f, step s = .fault f) ↔ ∀ k, s.enabled k = false) ∧
    (s.runOver = true ↔ (∃ k, (s.pe k).started = true) ∧ ∀ k, s.enabled k = false)) ∧
  (∀ s : State, s.cmds = [] → s.fault = none → s.runOver = true → step s = .fault .runOver) ∧
  (∀ s : State, s.cmds = [] → s.fault = none → (∀ k, (s.pe k).started = false) → step s = .fault .notStarted)

/-- R284: the agent that steps is an enabled one, and any enabled agent may be it: it is when the schedule prefers it (the
schedule is the model's, log 5). In a run in any order that is weakly fair, an enabled agent's step is taken, unless a
fault mark is written before. -/
def Obligations.AnyEnabledAgentMayStep : Prop :=
  (∀ (s : State) (k : PeId), s.nextAgent = some k → s.enabled k = true) ∧
  (∀ (s : State) (k : PeId), s.enabled k = true → ({ s with turn := k } : State).nextAgent = some k) ∧
  (∀ (order : Nat → PeId) (run : Nat → State) (k : PeId), Run order run → WeaklyFair order run →
    (run 0).enabled k = true → ∃ n, AgentSteps k (run n) (run (n + 1)) ∨ (run n).fault ≠ none)

/-- R282: no step is disabled by a peer. From a state whose busy ports serve the instructions their PEs stand at, an enabled
agent's step answers a next state. -/
def Obligations.EnabledAgentsNeverWait : Prop :=
  ∀ s : State, s.fault = none → s.cmds = [] → (∀ k, PortMatchesPe s k) → (∃ k, s.enabled k = true) →
    ∃ t, step s = .next t

/-- The invariant of the statement before (R233, R282): between the attempts of an access its PE stands at the LOAD or STORE
that issued it. -/
def Obligations.BusyPortsServeTheirPe : Prop :=
  ∀ s t : State, s.cmds = [] → (∀ k, PortMatchesPe s k) → step s = .next t → t.cmds = [] ∧ ∀ k, PortMatchesPe t k

/-- R233: a port serves one access at a time. The refusal is the model's (log 12). -/
def Obligations.BusyPortServesOneAccess : Prop :=
  (∀ (a : Word) (s : State), ¬(s.port s.turn).servesLoad a → exec (.load64 a) s = .refused (.portBusy s.turn)) ∧
  (∀ (a v : Word) (s : State), ¬(s.port s.turn).servesStore a v → exec (.store64 a v) s = .refused (.portBusy s.turn)) ∧
  (∀ (d a : Reg) (s : State), s.readable s.turn a = true → ¬(s.port s.turn).servesLoad (s.reg s.turn a) →
    exec (.load d a) s = .refused (.portBusy s.turn)) ∧
  (∀ (d a : Reg) (s : State), s.readable s.turn a = true → s.readable s.turn d = true →
    ¬(s.port s.turn).servesStore (s.reg s.turn a) (s.reg s.turn d) →
      exec (.store d a) s = .refused (.portBusy s.turn))

/-- R316: raising writes the mark if it is empty and changes nothing else; then no agent has a step, and no step follows: the answer `marked` of step is the model's choice
(log 10). -/
def Obligations.FaultMarkIsWrittenOnce : Prop :=
  (∀ (s : State) (f : FaultMark), s.fault = none → s.raise f = { s with fault := some f }) ∧
  (∀ (s : State) (f g : FaultMark), s.fault = some g → s.raise f = s) ∧
  (∀ (s : State) (f : FaultMark), s.fault = some f →
    step s = .fault (.marked f) ∧ (∀ k, s.enabled k = false) ∧ s.isFinal = false)

/-! ### Reset and the host (70_reset_and_hazards.md) -/

/-- R341: the reset values the spec gives; R340: nothing runs until the host starts the PEs. -/
def Obligations.ResetState : Prop :=
  let s := State.reset
  s.shm.totalReads = 0 ∧ s.shm.totalWrites = 0 ∧
  (∀ p, s.shm.peCtr p = { readOps := 0, readBytes := 0, writeOps := 0, writeBytes := 0 }) ∧
  (∀ k st w, (s.frame k st w).valid = false ∧ (s.frame k st w).dirty = false ∧ (s.frame k st w).state = .I ∧
    (s.frame k st w).tag = 0 ∧ (s.frame k st w).data = Vector.replicate 32 0) ∧
  (∀ k st, ((s.cache k).cset st).lru = 0) ∧
  (∀ k, (s.cache k).ctr =
    { loads := 0, stores := 0, rwAccesses := 0, cacheMisses := 0, invalidations := 0, busRd := 0, busRdX := 0,
      busUpgr := 0, flush := 0 }) ∧
  (∀ k f t, (s.cache k).transCount f t = 0) ∧ (∀ k, (s.cache k).log = []) ∧
  s.staging = [] ∧ s.shmFault = false ∧
  (∀ k, (s.port k).loads = 0 ∧ (s.port k).stores = 0 ∧ (s.port k).fsm = .idle) ∧
  (∀ k i, (s.pe k).isWritten i = false) ∧
  (∀ k, (s.pe k).pc = 0 ∧ (s.pe k).halted = false ∧ (s.pe k).steps = 0) ∧ s.fault = none ∧
  (∀ k, (s.pe k).started = false ∧ s.enabled k = false)

/-- R344, R346, R347: a launch gives the reset state with the record's memory, programs, budgets and registers; a register
counts as written exactly when the host wrote it, and holds the last value written. -/
def Obligations.LaunchState : Prop :=
  ∀ l : Launch, l.shmInit.length = 4096 →
    let s := State.launch l
    (∀ x < 4096, memRead s.shm.mem x = l.shmInit.getD x 0) ∧
    s.shm.totalReads = 0 ∧ s.shm.totalWrites = 0 ∧
    (∀ p, s.shm.peCtr p = { readOps := 0, readBytes := 0, writeOps := 0, writeBytes := 0 }) ∧
    s.caches = State.reset.caches ∧ s.staging = [] ∧ s.shmFault = false ∧ s.ports = State.reset.ports ∧ s.fault = none ∧
    (∀ k, (s.pe k).program = (l.pes[k]).program ∧ (s.pe k).maxSteps = (l.pes[k]).maxSteps ∧ (s.pe k).pc = 0 ∧
      (s.pe k).halted = false ∧ (s.pe k).started = true ∧ (s.pe k).steps = 0) ∧
    (∀ k i, (s.pe k).isWritten i = true ↔ ∃ v, (i, v) ∈ (l.pes[k]).regs) ∧
    (∀ k i v before after, (l.pes[k]).regs = before ++ (i, v) :: after → (∀ u, (i, u) ∉ after) → s.reg k i = v)

/-- R256: what set_segment writes, and that it leaves R4, R6, the pc, `halted`, memory, every cache and everything else
alone. -/
def Obligations.SetSegmentWritesSixRegisters : Prop :=
  ∀ (k : PeId) (baseA baseB partialOut len : Word) (s : State),
    let t := setSegment k baseA baseB partialOut len s
    t.reg k 0 = 0 ∧ t.reg k 1 = baseA ∧ t.reg k 2 = baseB ∧ t.reg k 3 = 0 ∧ t.reg k 5 = partialOut ∧ t.reg k 7 = len ∧
    (∀ i : Reg, i = 4 ∨ i = 6 → t.reg k i = s.reg k i ∧ (t.pe k).isWritten i = (s.pe k).isWritten i) ∧
    (∀ i : Reg, i ≠ 4 → i ≠ 6 → (t.pe k).isWritten i = true) ∧
    t.pe k = { s.pe k with x := (t.pe k).x, written := (t.pe k).written } ∧ (∀ j, j ≠ k → t.pe j = s.pe j) ∧
    t = { s with pes := t.pes }

/-! ### The PE's instructions (44_pe_isa.md) -/

/-- R248 and R249: INC and DEC, modulo 2^64, with their opcodes and the fault on an unwritten register. -/
def Obligations.IncAndDecResult : Prop :=
  (∀ w, slice w 31 28 = 4 → decodeI32 w = .ok (.inc (regField w 25))) ∧
  (∀ w, slice w 31 28 = 5 → decodeI32 w = .ok (.dec (regField w 25))) ∧
  ∀ (d : Reg) (s : State),
    (s.readable s.turn d = true →
      (∃ t, exec (.inc d) s = .next t ∧ (t.reg s.turn d).toNat = ((s.reg s.turn d).toNat + 1) % 2 ^ 64 ∧
        (t.pe s.turn).pc = (s.pe s.turn).pc + 1 ∧ (t.pe s.turn).steps = (s.pe s.turn).steps + 1) ∧
      (∃ t, exec (.dec d) s = .next t ∧ (t.reg s.turn d).toNat = ((s.reg s.turn d).toNat + (2 ^ 64 - 1)) % 2 ^ 64 ∧
        (t.pe s.turn).pc = (s.pe s.turn).pc + 1 ∧ (t.pe s.turn).steps = (s.pe s.turn).steps + 1)) ∧
    (s.readable s.turn d = false →
      exec (.inc d) s = .next (s.raise (.unwrittenRegister s.turn d)) ∧
      exec (.dec d) s = .next (s.raise (.unwrittenRegister s.turn d)))

/-- R246 and R247: FMUL and FADD write fp_mul and fp_add of their sources. That the mark names `a` when neither source is
readable is the model's operand order (log 16). -/
def Obligations.FmulAndFaddResult : Prop :=
  (∀ w, slice w 31 28 = 2 → decodeI32 w = .ok (.fmul (regField w 25) (regField w 22) (regField w 19))) ∧
  (∀ w, slice w 31 28 = 3 → decodeI32 w = .ok (.fadd (regField w 25) (regField w 22) (regField w 19))) ∧
  ∀ (d a b : Reg) (s : State),
    (s.readable s.turn a = true → s.readable s.turn b = true →
      (∃ t, exec (.fmul d a b) s = .next t ∧ t.reg s.turn d = fpMul (s.reg s.turn a) (s.reg s.turn b) ∧
        (t.pe s.turn).pc = (s.pe s.turn).pc + 1 ∧ (t.pe s.turn).steps = (s.pe s.turn).steps + 1) ∧
      (∃ t, exec (.fadd d a b) s = .next t ∧ t.reg s.turn d = fpAdd (s.reg s.turn a) (s.reg s.turn b) ∧
        (t.pe s.turn).pc = (s.pe s.turn).pc + 1 ∧ (t.pe s.turn).steps = (s.pe s.turn).steps + 1)) ∧
    (s.readable s.turn a = false →
      exec (.fmul d a b) s = .next (s.raise (.unwrittenRegister s.turn a)) ∧
      exec (.fadd d a b) s = .next (s.raise (.unwrittenRegister s.turn a))) ∧
    (s.readable s.turn a = true → s.readable s.turn b = false →
      exec (.fmul d a b) s = .next (s.raise (.unwrittenRegister s.turn b)) ∧
      exec (.fadd d a b) s = .next (s.raise (.unwrittenRegister s.turn b)))

/-- R257 for finite operands: the product and the sum are rounded once, to nearest, ties to even, subnormals exact, overflow to
infinity, with the sign IEEE-754 gives (log 14). -/
def Obligations.FloatingPointIsCorrectlyRounded : Prop :=
  ∀ p q : Word, fpFinite p = true → fpFinite q = true →
    (∃ b, fpMul p q = fpPack ((fpSign p + fpSign q) % 2) b ∧ nearestEven (fpMag p * fpMag q) 1074 b) ∧
    (fpInt p + fpInt q = 0 → fpAdd p q = fpPack (if fpSign p = 1 ∧ fpSign q = 1 then 1 else 0) 0) ∧
    (fpInt p + fpInt q ≠ 0 →
      ∃ b, fpAdd p q = fpPack (if fpInt p + fpInt q < 0 then 1 else 0) b ∧ nearestEven (fpInt p + fpInt q).natAbs 0 b)

/-- R257 for the operands that are not finite: NaN in gives NaN; infinity times zero and infinity minus infinity are NaN;
otherwise an infinity stays. Which NaN results is free (log 9). -/
def Obligations.FloatingPointSpecialValues : Prop :=
  ∀ p q : Word,
    (fpIsNaN p = true ∨ fpIsNaN q = true → fpIsNaN (fpMul p q) = true ∧ fpIsNaN (fpAdd p q) = true) ∧
    (fpIsInf p = true → fpIsZero q = true → fpIsNaN (fpMul p q) = true ∧ fpIsNaN (fpMul q p) = true) ∧
    (fpIsInf p = true → fpIsNaN q = false → fpIsZero q = false →
      fpMul p q = fpPack ((fpSign p + fpSign q) % 2) fpInfBits ∧
      fpMul q p = fpPack ((fpSign p + fpSign q) % 2) fpInfBits) ∧
    (fpIsInf p = true → fpIsInf q = true → fpSign p ≠ fpSign q → fpIsNaN (fpAdd p q) = true) ∧
    (fpIsInf p = true → fpIsNaN q = false → (fpIsInf q = true → fpSign q = fpSign p) →
      fpAdd p q = p ∧ fpAdd q p = p)

/-- R251: LEA, its opcode, and its two faults. That the mark names `a` when neither source is readable is the model's operand
order (log 16). -/
def Obligations.LeaResult : Prop :=
  (∀ w, slice w 31 28 = 7 →
    decodeI32 w = .ok (.lea (regField w 25) (regField w 22) (regField w 19) (sext16 (slice w 15 0)))) ∧
  ∀ (d a b : Reg) (imm : Int) (s : State),
    (s.readable s.turn a = true → s.readable s.turn b = true → 0 ≤ imm → imm ≤ 63 →
      ∃ t, exec (.lea d a b imm) s = .next t ∧
        (t.reg s.turn d).toNat =
          ((s.reg s.turn a).toNat + (s.reg s.turn b).toNat * 2 ^ imm.toNat % 2 ^ 64) % 2 ^ 64 ∧
        (t.pe s.turn).pc = (s.pe s.turn).pc + 1 ∧ (t.pe s.turn).steps = (s.pe s.turn).steps + 1) ∧
    (s.readable s.turn a = true → s.readable s.turn b = true → imm < 0 ∨ 63 < imm →
      exec (.lea d a b imm) s = .next (s.raise (.illFormedInstruction s.turn (s.pe s.turn).pc))) ∧
    (s.readable s.turn a = false → exec (.lea d a b imm) s = .next (s.raise (.unwrittenRegister s.turn a))) ∧
    (s.readable s.turn a = true → s.readable s.turn b = false →
      exec (.lea d a b imm) s = .next (s.raise (.unwrittenRegister s.turn b)))

/-- R250: JNZ, its opcode and immediate, and its fault; no register is written. -/
def Obligations.JnzResult : Prop :=
  (∀ w, slice w 31 28 = 6 → decodeI32 w = .ok (.jnz (regField w 25) (sext16 (slice w 15 0)))) ∧
  ∀ (d : Reg) (imm : Int) (s : State),
    (s.readable s.turn d = true →
      ∃ t, exec (.jnz d imm) s = .next t ∧ (∀ i, t.reg s.turn i = s.reg s.turn i) ∧
        (s.reg s.turn d ≠ 0 → (t.pe s.turn).pc = (s.pe s.turn).pc + imm) ∧
        (s.reg s.turn d = 0 → (t.pe s.turn).pc = (s.pe s.turn).pc + 1) ∧
        (t.pe s.turn).steps = (s.pe s.turn).steps + 1) ∧
    (s.readable s.turn d = false → exec (.jnz d imm) s = .next (s.raise (.unwrittenRegister s.turn d)))

/-- R252: HALT sets `halted`, does not advance the pc, flushes nothing, and the PE has no step after it. -/
def Obligations.HaltResult : Prop :=
  (∀ w, slice w 31 28 = 8 → decodeI32 w = .ok .halt) ∧
  ∀ s : State, ∃ t, exec .halt s = .next t ∧ t.pe s.turn = { s.pe s.turn with halted := true } ∧
    t.enabled s.turn = false ∧ t.caches = s.caches ∧ t.shm = s.shm ∧ t.staging = s.staging ∧ t.fault = s.fault

/-- R242, R318 and the order of R313: the first unwritten source register is raised, and nothing else changes. The order
among one instruction's sources is the model's (log 16), and so is that the other policy reads any value (log 1). -/
def Obligations.UnwrittenRegisterIsRaised : Prop :=
  ∀ (i : Instr) (s : State) (before after : List Reg) (r : Reg), sourceRegs i = before ++ r :: after →
    s.regPolicy = .faultUnwritten → (∀ q ∈ before, (s.pe s.turn).isWritten q = true) →
    (s.pe s.turn).isWritten r = false → exec i s = .next (s.raise (.unwrittenRegister s.turn r))

/-- R244 with R231, R233 and R282: one machine step of LOAD. A hit writes the eight bytes to `d`, advances the pc, counts the
step and frees the port; a miss leaves the PE at the LOAD with its port busy and the line in its cache. -/
def Obligations.LoadResult : Prop :=
  ∀ (d a : Reg) (s : State),
    let k := s.turn
    let addr := s.reg k a
    s.readable k a = true → off addr ≤ 24 → (s.port k).servesLoad addr →
    (∀ w, s.lookup k addr = some w → ∃ t, exec (.load d a) s = .next t ∧
      bytes64 (t.reg k d) = hitBytes s k addr w ∧ (t.pe k).isWritten d = true ∧
      (t.pe k).pc = (s.pe k).pc + 1 ∧ (t.pe k).steps = (s.pe k).steps + 1 ∧ (t.port k).fsm = .idle ∧
      (t.port k).loads = (s.port k).loads + (s.port k).issues) ∧
    (s.lookup k addr = none → ∃ t, exec (.load d a) s = .next t ∧ t.pe k = s.pe k ∧
      (t.port k).fsm = .busyLoad addr ∧ (t.port k).loads = (s.port k).loads + (s.port k).issues ∧
      (t.lookup k addr).isSome = true)

/-- R245 with R232, R233 and R282: one machine step of STORE. -/
def Obligations.StoreResult : Prop :=
  ∀ (d a : Reg) (s : State),
    let k := s.turn
    let addr := s.reg k a
    let v := s.reg k d
    s.readable k a = true → s.readable k d = true → off addr ≤ 24 → (s.port k).servesStore addr v →
    (∀ w, s.lookup k addr = some w → ∃ t, exec (.store d a) s = .next t ∧
      (t.frame k (setOf addr) w).state = .M ∧ (t.frame k (setOf addr) w).holds (tagOf addr) = true ∧
      (∀ i < 32, lineByte (t.frame k (setOf addr) w).data i =
        if off addr ≤ i ∧ i < off addr + 8 then (bytes64 v).getD (i - off addr) 0
        else lineByte (s.frame k (setOf addr) w).data i) ∧
      t.pe k = { s.pe k with pc := (s.pe k).pc + 1, steps := (s.pe k).steps + 1 } ∧ (t.port k).fsm = .idle ∧
      (t.port k).stores = (s.port k).stores + (s.port k).issues) ∧
    (s.lookup k addr = none → ∃ t, exec (.store d a) s = .next t ∧ t.pe k = s.pe k ∧
      (t.port k).fsm = .busyStore addr v ∧ (t.port k).stores = (s.port k).stores + (s.port k).issues ∧
      ∃ w, t.lookup k addr = some w ∧ (t.frame k (setOf addr) w).state = .E)

/-! ### Port and cache commands (43_memory_port.md, 41_cache_controller.md) -/

/-- R231 with R233 and R234: one machine step of load64 at a port. -/
def Obligations.Load64Result : Prop :=
  ∀ (a : Word) (s : State),
    let k := s.turn
    off a ≤ 24 → (s.port k).servesLoad a →
    (∀ w, s.lookup k a = some w → ∃ t v, exec (.load64 a) s = .next t ∧ t.resp = some (.port (some v)) ∧
      bytes64 v = hitBytes s k a w ∧ (t.port k).fsm = .idle ∧
      (t.port k).loads = (s.port k).loads + (s.port k).issues) ∧
    (s.lookup k a = none → ∃ t, exec (.load64 a) s = .next t ∧ t.resp = s.resp ∧ (t.port k).fsm = .busyLoad a ∧
      (t.port k).loads = (s.port k).loads + (s.port k).issues ∧ (t.lookup k a).isSome = true)

/-- R232 with R233 and R234: one machine step of store64 at a port. -/
def Obligations.Store64Result : Prop :=
  ∀ (a v : Word) (s : State),
    let k := s.turn
    off a ≤ 24 → (s.port k).servesStore a v →
    (∀ w, s.lookup k a = some w → ∃ t, exec (.store64 a v) s = .next t ∧ t.resp = some (.port none) ∧
      (t.frame k (setOf a) w).state = .M ∧
      (∀ i < 8, lineByte (t.frame k (setOf a) w).data (off a + i) = (bytes64 v).getD i 0) ∧ (t.port k).fsm = .idle ∧
      (t.port k).stores = (s.port k).stores + (s.port k).issues) ∧
    (s.lookup k a = none → ∃ t, exec (.store64 a v) s = .next t ∧ t.resp = s.resp ∧
      (t.port k).fsm = .busyStore a v ∧ (t.port k).stores = (s.port k).stores + (s.port k).issues ∧
      (t.lookup k a).isSome = true)

/-- R144: one load attempt. A hit answers the bytes, marks the way most recently used and changes no line; a miss counts and
emits BusRd with the full address. -/
def Obligations.CacheLoadAttempt : Prop :=
  ∀ (a : Word) (s : State),
    let k := s.turn
    (24 < off a → exec (.cacheLoad a) s = .next (s.raise (.lineCross k a))) ∧
    (∀ w, off a ≤ 24 → s.lookup k a = some w → ∃ t v, exec (.cacheLoad a) s = .next t ∧
      t.resp = some (.cache true (some v)) ∧ bytes64 v = hitBytes s k a w ∧
      (t.cache k).ctr =
        { (s.cache k).ctr with loads := (s.cache k).ctr.loads + 1, rwAccesses := (s.cache k).ctr.rwAccesses + 1 } ∧
      ((t.cache k).cset (setOf a)).lru = 1 - w ∧ (∀ j st v, t.frame j st v = s.frame j st v) ∧
      (∀ j, j ≠ k → t.cache j = s.cache j) ∧ t.shm = s.shm ∧ t.staging = s.staging) ∧
    (off a ≤ 24 → s.lookup k a = none → ∃ t u, exec (.cacheLoad a) s = .next t ∧
      exec (.busRd k a) (s.count k fun c =>
        { c with loads := c.loads + 1, rwAccesses := c.rwAccesses + 1, cacheMisses := c.cacheMisses + 1,
                 busRd := c.busRd + 1 }) = .next u ∧
      t = { u with resp := some (.cache false none) })

/-- R145 to R149: one store attempt. A hit writes the eight bytes; M stays M, E becomes M, S becomes M after a BusUpgr; a miss
counts and emits BusRdX. That a hit makes the other way the victim is STORE_HIT_TOUCHES_LRU = true (D17; log 15). -/
def Obligations.CacheStoreAttempt : Prop :=
  ∀ (a v : Word) (s : State),
    let k := s.turn
    (24 < off a → exec (.cacheStore a v) s = .next (s.raise (.lineCross k a))) ∧
    (∀ w, off a ≤ 24 → s.lookup k a = some w → ∃ t, exec (.cacheStore a v) s = .next t ∧
      let old := s.frame k (setOf a) w
      let new := t.frame k (setOf a) w
      t.resp = some (.cache true none) ∧
      new.state = .M ∧ new.valid = true ∧ new.tag = old.tag ∧ (new.dirty = if old.state = .M then old.dirty else true) ∧
      (∀ i < 32, lineByte new.data i =
        if off a ≤ i ∧ i < off a + 8 then (bytes64 v).getD (i - off a) 0 else lineByte old.data i) ∧
      (∀ st u, ¬(st = setOf a ∧ u = w) → t.frame k st u = s.frame k st u) ∧
      ((t.cache k).cset (setOf a)).lru = 1 - w ∧
      (t.cache k).ctr =
        { (s.cache k).ctr with
          stores := (s.cache k).ctr.stores + 1, rwAccesses := (s.cache k).ctr.rwAccesses + 1,
          busUpgr := (s.cache k).ctr.busUpgr + if old.state = .S then 1 else 0 } ∧
      (t.cache k).log = (s.cache k).log ++ (if old.state = .M then [] else [(old.state, .M)]) ∧
      (∀ j, j ≠ k → ∀ st u, t.frame j st u =
        if old.state = .S then snoopedLine .invalidate a st (s.frame j st u) else s.frame j st u) ∧
      (old.state ≠ .S → (∀ j, j ≠ k → t.cache j = s.cache j) ∧ t.shm = s.shm ∧ t.staging = s.staging)) ∧
    (off a ≤ 24 → s.lookup k a = none → ∃ t u, exec (.cacheStore a v) s = .next t ∧
      exec (.busRdX k a) (s.count k fun c =>
        { c with stores := c.stores + 1, rwAccesses := c.rwAccesses + 1, cacheMisses := c.cacheMisses + 1,
                 busRdX := c.busRdX + 1 }) = .next u ∧
      t = { u with resp := some (.cache false none) })

/-- R317: an access whose eight bytes would run past its line raises LineCross and changes nothing else, not even the
counters of a port at its first attempt (log 11). -/
def Obligations.LineCrossIsRaised : Prop :=
  ∀ (i : Instr) (s : State) (a : Word), loadAddr i s = some a ∨ (∃ v, storeOf i s = some (a, v)) →
    operandsReadable i s → accessTaken i s → 24 < off a → exec i s = .next (s.raise (.lineCross s.turn a))

/-- R235: the second attempt of an access, with no other step between, is a hit; in every state, coherent or not. -/
def Obligations.SecondAttemptHits : Prop :=
  (∀ (k : PeId) (a : Word) (s t : State), cacheLoad k a s = .retry t → ∃ v u, cacheLoad k a t = .done v u) ∧
  (∀ (k : PeId) (a v : Word) (s t : State), cacheStore k a v s = .retry t → ∃ u, cacheStore k a v t = .done () u)

/-! ### The shared memory (40_shared_memory.md) -/

/-- R121: ShmRead, its range check, its response, and its counters. -/
def Obligations.ShmReadResult : Prop :=
  (∀ n payload, n % 2 = 0 → ∃ addr size req, decodeShm n payload = .shmRead addr size req) ∧
  ∀ (addr : Word) (size : Nat) (req : Option PeId) (s : State),
    ∃ t st bytes, exec (.shmRead addr size req) s = .next t ∧ t.resp = some (.shm st bytes) ∧
      t.shm.mem = s.shm.mem ∧
      (size ≠ 0 ∧ addr.toNat + size ≤ 4096 →
        st = .ok ∧ bytes.length = size ∧ (∀ i < size, bytes.getD i 0 = memRead s.shm.mem (addr.toNat + i)) ∧
        t.shm.totalReads = s.shm.totalReads + 1 ∧ t.shm.totalWrites = s.shm.totalWrites ∧
        ∀ p, t.shm.peCtr p =
          if req = some p then
            { s.shm.peCtr p with readOps := (s.shm.peCtr p).readOps + 1, readBytes := (s.shm.peCtr p).readBytes + size }
          else s.shm.peCtr p) ∧
      (¬(size ≠ 0 ∧ addr.toNat + size ≤ 4096) → st = .outOfRange ∧ bytes = [] ∧ t.shm = s.shm)

/-- R122: ShmWrite, the range check before the payload check, no partial write, and its counters. -/
def Obligations.ShmWriteResult : Prop :=
  (∀ n payload, n % 2 = 1 → ∃ addr size req, decodeShm n payload = .shmWrite addr payload size req) ∧
  ∀ (addr : Word) (bytes : List Byte) (size : Nat) (req : Option PeId) (s : State), Memory.wf s.shm.mem = true →
    ∃ t st, exec (.shmWrite addr bytes size req) s = .next t ∧ t.resp = some (.shm st []) ∧
      (¬(size ≠ 0 ∧ addr.toNat + size ≤ 4096) → st = .outOfRange ∧ t.shm = s.shm) ∧
      (size ≠ 0 ∧ addr.toNat + size ≤ 4096 → bytes.length < size → st = .shortPayload ∧ t.shm = s.shm) ∧
      (size ≠ 0 ∧ addr.toNat + size ≤ 4096 → size ≤ bytes.length →
        st = .ok ∧
        (∀ x, memRead t.shm.mem x =
          if addr.toNat ≤ x ∧ x < addr.toNat + size then bytes.getD (x - addr.toNat) 0 else memRead s.shm.mem x) ∧
        t.shm.totalWrites = s.shm.totalWrites + 1 ∧ t.shm.totalReads = s.shm.totalReads ∧
        ∀ p, t.shm.peCtr p =
          if req = some p then
            { s.shm.peCtr p with
              writeOps := (s.shm.peCtr p).writeOps + 1, writeBytes := (s.shm.peCtr p).writeBytes + size }
          else s.shm.peCtr p)

/-! ### The interconnect (42_interconnect.md) and the cache's bus side (41_cache_controller.md) -/

/-- R196: a Flush writes its staging slot, then the shared memory, which counts one write of 32 bytes for the source (R124); a
failed write sets the sticky bit and counts nothing; no cache changes. -/
def Obligations.FlushResult : Prop :=
  ∀ (src : PeId) (a : Word) (p : LineData) (s : State), Memory.wf s.shm.mem = true →
    ∃ t, exec (.flush src a p) s = .next t ∧ t.caches = s.caches ∧
      (∀ x, mapFind x t.staging = if x = (baseOf a).toNat then some p else mapFind x s.staging) ∧
      (backed (baseOf a) → t.shmFault = s.shmFault ∧
        t.shm.totalWrites = s.shm.totalWrites + 1 ∧ t.shm.totalReads = s.shm.totalReads ∧
        (∀ q, t.shm.peCtr q =
          if q = src then
            { s.shm.peCtr q with
              writeOps := (s.shm.peCtr q).writeOps + 1, writeBytes := (s.shm.peCtr q).writeBytes + 32 }
          else s.shm.peCtr q) ∧
        ∀ x, memRead t.shm.mem x =
          if inLine x (baseOf a).toNat then lineByte p (x - (baseOf a).toNat) else memRead s.shm.mem x) ∧
      (¬backed (baseOf a) → t.shmFault = true ∧ t.shm = s.shm)

/-- R194, R201, R202, R150: a BusRd downgrades every peer's copy, sources the line, and installs it in S when a peer held it
and in E when none did; the slot of the base is gone afterwards, unless the installation itself flushes that very line; and
what the shared memory counts. -/
def Obligations.BusRdResult : Prop :=
  ∀ (src : PeId) (a : Word) (s : State), Memory.wf s.shm.mem = true → mapSorted s.staging = true →
    ∃ t line, exec (.busRd src a) s = .next t ∧ SourcedLine src a s t line ∧
      t.frame src (setOf a) (s.chooseWay src (setOf a)) =
        { valid := true, dirty := false, tag := tagOf a, data := line,
          state := if ∃ j w, j ≠ src ∧ (s.frame j (setOf a) w).holds (tagOf a) = true then .S else .E } ∧
      (∀ j, j ≠ src → ∀ st w, t.frame j st w = snoopedLine .read a st (s.frame j st w)) ∧
      (∀ st w, ¬(st = setOf a ∧ w = s.chooseWay src (setOf a)) → t.frame src st w = s.frame src st w) ∧
      (¬(evictsDirty s src a ∧ victimBase s src a = baseOf a) → mapFind (baseOf a).toNat t.staging = none) ∧
      BusReadCounts src a s t

/-- R195, R202, R150: a BusRdX invalidates every peer's copy, sources the line, and installs it in E;
slots and counts as for BusRd. -/
def Obligations.BusRdXResult : Prop :=
  ∀ (src : PeId) (a : Word) (s : State), Memory.wf s.shm.mem = true → mapSorted s.staging = true →
    ∃ t line, exec (.busRdX src a) s = .next t ∧ SourcedLine src a s t line ∧
      t.frame src (setOf a) (s.chooseWay src (setOf a)) =
        { valid := true, dirty := false, tag := tagOf a, data := line, state := .E } ∧
      (∀ j, j ≠ src → ∀ st w, t.frame j st w = snoopedLine .invalidate a st (s.frame j st w)) ∧
      (∀ j, j ≠ src → ∀ w, (t.frame j (setOf a) w).holds (tagOf a) = false) ∧
      (∀ st w, ¬(st = setOf a ∧ w = s.chooseWay src (setOf a)) → t.frame src st w = s.frame src st w) ∧
      (¬(evictsDirty s src a ∧ victimBase s src a = baseOf a) → mapFind (baseOf a).toNat t.staging = none) ∧
      BusReadCounts src a s t

/-- R199, R200: BusUpgr and Inv are one: every peer's matching frame goes to I, the source cache is spared, no line is
sourced, and without a dirty peer memory and staging stay. -/
def Obligations.BusUpgrAndInvResult : Prop :=
  ∀ (src : PeId) (a : Word) (s : State),
    ∃ t, exec (.busUpgr src a) s = .next t ∧ exec (.inv src a) s = .next t ∧ t.cache src = s.cache src ∧
      (∀ j, j ≠ src → ∀ st w, t.frame j st w = snoopedLine .invalidate a st (s.frame j st w)) ∧
      (∀ j, j ≠ src → ∀ w, (t.frame j (setOf a) w).holds (tagOf a) = false) ∧
      ((∀ j w, ¬dirtyPeer s src a j w) → t.shm = s.shm ∧ t.staging = s.staging ∧ t.shmFault = s.shmFault)

/-- R154 to R160: the snoop table, row by row, for a frame that matches; a frame that does not match is left alone. -/
def Obligations.SnoopTableRows : Prop :=
  ∀ (j : PeId) (a : Word) (w : WayIx) (s : State),
    let l := s.frame j (setOf a) w
    let flushed : State → Prop := fun t =>
      (t.cache j).ctr.flush = (s.cache j).ctr.flush + 1 ∧
      mapFind (baseOf a).toNat t.staging = some l.data ∧
      (Memory.wf s.shm.mem = true → backed (baseOf a) →
        ∀ i < 32, memRead t.shm.mem ((baseOf a).toNat + i) = lineByte l.data i)
    let quiet : State → Prop := fun t =>
      (t.cache j).ctr.flush = (s.cache j).ctr.flush ∧ t.shm = s.shm ∧ t.staging = s.staging
    (¬(l.valid = true ∧ l.tag = tagOf a) → ∀ kind, snoopWay j kind a w s = s) ∧
    (l.valid = true → l.tag = tagOf a →
      (l.state = .I → ∀ kind, snoopWay j kind a w s = s) ∧
      (l.state = .S → snoopWay j .read a w s = s) ∧
      (l.state = .E →
        let t := snoopWay j .read a w s
        t.frame j (setOf a) w = { l with state := .S } ∧ (t.cache j).log = (s.cache j).log ++ [(.E, .S)] ∧
        (t.cache j).ctr.invalidations = (s.cache j).ctr.invalidations ∧ quiet t) ∧
      (l.state = .M →
        let t := snoopWay j .read a w s
        t.frame j (setOf a) w = { l with state := .S, dirty := false } ∧
        (t.cache j).log = (s.cache j).log ++ [(.M, .S)] ∧
        (t.cache j).ctr.invalidations = (s.cache j).ctr.invalidations ∧ flushed t) ∧
      (l.state = .E ∨ l.state = .S →
        let t := snoopWay j .invalidate a w s
        t.frame j (setOf a) w = { l with state := .I } ∧ (t.cache j).log = (s.cache j).log ++ [(l.state, .I)] ∧
        (t.cache j).ctr.invalidations = (s.cache j).ctr.invalidations + 1 ∧ quiet t) ∧
      (l.state = .M →
        let t := snoopWay j .invalidate a w s
        t.frame j (setOf a) w = { l with state := .I, dirty := false } ∧
        (t.cache j).log = (s.cache j).log ++ [(.M, .I)] ∧
        (t.cache j).ctr.invalidations = (s.cache j).ctr.invalidations + 1 ∧ flushed t))

/-- R151, R152, R153: the way an installation takes, what it writes and records, and the eviction of an M line, which is
flushed to its own line base. -/
def Obligations.InstallLineChoosesAndEvicts : Prop :=
  ∀ (k : PeId) (a : Word) (line : LineData) (new : Mesi) (s : State),
    let st := setOf a
    let w := s.chooseWay k st
    let old := s.frame k st w
    let t := installLine k a line new s
    ((s.frame k st 0).valid = false ∨ (s.frame k st 0).state = .I → w = 0) ∧
    ((s.frame k st 0).live = true → (s.frame k st 1).valid = false ∨ (s.frame k st 1).state = .I → w = 1) ∧
    ((s.frame k st 0).live = true → (s.frame k st 1).live = true → w = ((s.cache k).cset st).lru) ∧
    t.frame k st w = { valid := true, dirty := new == .M, state := new, tag := tagOf a, data := line } ∧
    (∀ j r v, ¬(j = k ∧ r = st ∧ v = w) → t.frame j r v = s.frame j r v) ∧
    ((t.cache k).cset st).lru = 1 - w ∧
    (t.cache k).log = (s.cache k).log ++ [(old.state, new)] ∧
    (∀ f g, (t.cache k).transCount f g =
      (s.cache k).transCount f g + if f = old.state ∧ g = new then 1 else 0) ∧
    (t.cache k).ctr.invalidations = (s.cache k).ctr.invalidations ∧
    (¬(old.valid = true ∧ old.state = .M) →
      t.shm = s.shm ∧ t.staging = s.staging ∧ (t.cache k).ctr.flush = (s.cache k).ctr.flush) ∧
    (old.valid = true → old.state = .M →
      (t.cache k).ctr.flush = (s.cache k).ctr.flush + 1 ∧
      mapFind (lineBase old.tag st).toNat t.staging = some old.data ∧
      (Memory.wf s.shm.mem = true → backed (lineBase old.tag st) →
        ∀ x, memRead t.shm.mem x =
          if inLine x (lineBase old.tag st).toNat then lineByte old.data (x - (lineBase old.tag st).toNat)
          else memRead s.shm.mem x))

/-! ### Frames: what an instruction leaves unchanged -/

/-- The frame of FMUL, FADD, INC, DEC, LEA, JNZ and HALT (R241, R246 to R252): everything but the destination register, the
pc, the step count and, for HALT, `halted`. A step that raises a fault changes only the mark. -/
def Obligations.RegisterInstructionFrame : Prop :=
  ∀ (i : Instr) (s t : State), registerOnly i = true → exec i s = .next t →
    let k := s.turn
    (∀ j, j ≠ k → t.pe j = s.pe j) ∧
    (∀ r, destReg i ≠ some r → t.reg k r = s.reg k r ∧ (t.pe k).isWritten r = (s.pe k).isWritten r) ∧
    (t.pe k).program = (s.pe k).program ∧ (t.pe k).maxSteps = (s.pe k).maxSteps ∧
    (i ≠ .halt → (t.pe k).halted = (s.pe k).halted) ∧ (t.pe k).started = (s.pe k).started ∧
    t.shm = s.shm ∧ t.caches = s.caches ∧ t.staging = s.staging ∧ t.shmFault = s.shmFault ∧ t.ports = s.ports ∧
    t.regPolicy = s.regPolicy ∧ t.turn = s.turn ∧ t.tick = s.tick ∧ t.cmds = s.cmds ∧ t.resp = s.resp ∧
    (∀ x, memRead t.shm.mem x = memRead s.shm.mem x) ∧
    (t.fault ≠ s.fault → t.pes = s.pes ∧ s.fault = none)

/-- The frame of LOAD, load64 and cache.load (R144, R231, R244): the other PEs and ports, every register but LOAD's `d`, the
peers' frames but for the downgrade of the addressed line, and every byte of memory but those of a line the miss flushes.
A hit changes no frame, no byte and no slot. That a LineCross leaves the port as it was is the model's choice (log 11). -/
def Obligations.LoadFrame : Prop :=
  ∀ (i : Instr) (s t : State) (a : Word), loadAddr i s = some a → exec i s = .next t →
    let k := s.turn
    (∀ j, j ≠ k → t.pe j = s.pe j ∧ t.port j = s.port j ∧ SnoopedCounters s t j) ∧
    (destReg i = none → t.pe k = s.pe k) ∧ (destReg i ≠ none → t.resp = s.resp) ∧
    (∀ r, destReg i ≠ some r → t.reg k r = s.reg k r ∧ (t.pe k).isWritten r = (s.pe k).isWritten r) ∧
    (t.pe k).program = (s.pe k).program ∧ (t.pe k).maxSteps = (s.pe k).maxSteps ∧
    (t.pe k).halted = (s.pe k).halted ∧ (t.pe k).started = (s.pe k).started ∧ (t.port k).stores = (s.port k).stores ∧
    t.regPolicy = s.regPolicy ∧ t.turn = s.turn ∧ t.tick = s.tick ∧ t.cmds = s.cmds ∧
    (∀ j, j ≠ k → ∀ st w, t.frame j st w = s.frame j st w ∨ t.frame j st w = snoopedLine .read a st (s.frame j st w)) ∧
    (∀ st w, ¬(st = setOf a ∧ w = s.chooseWay k st) → t.frame k st w = s.frame k st w) ∧
    (Memory.wf s.shm.mem = true → ∀ x, ¬flushedByRead s k a x → memRead t.shm.mem x = memRead s.shm.mem x) ∧
    (mapSorted s.staging = true → ∀ x, x ≠ (baseOf a).toNat → x ≠ (victimBase s k a).toNat →
      mapFind x t.staging = mapFind x s.staging) ∧
    (s.lookup k a ≠ none → t.shm = s.shm ∧ t.staging = s.staging ∧ t.shmFault = s.shmFault ∧
      ∀ j st w, t.frame j st w = s.frame j st w) ∧
    (t.fault ≠ s.fault → t.pes = s.pes ∧ t.shm = s.shm ∧ t.caches = s.caches ∧ t.ports = s.ports ∧ s.fault = none)

/-- The frame of STORE, store64 and cache.store (R145, R232, R245): no register is written; the shared memory changes only
in a line the attempt flushes, never by the store itself; a hit changes only the eight bytes of its own frame's data. That a LineCross leaves
the port as it was is the model's choice (log 11). -/
def Obligations.StoreFrame : Prop :=
  ∀ (i : Instr) (s t : State) (a v : Word), storeOf i s = some (a, v) → exec i s = .next t →
    let k := s.turn
    (∀ j, j ≠ k → t.pe j = s.pe j ∧ t.port j = s.port j ∧ SnoopedCounters s t j) ∧
    (∀ r, t.reg k r = s.reg k r ∧ (t.pe k).isWritten r = (s.pe k).isWritten r) ∧
    (t.pe k).program = (s.pe k).program ∧ (t.pe k).maxSteps = (s.pe k).maxSteps ∧
    (t.pe k).halted = (s.pe k).halted ∧ (t.pe k).started = (s.pe k).started ∧ (t.port k).loads = (s.port k).loads ∧
    t.regPolicy = s.regPolicy ∧ t.turn = s.turn ∧ t.tick = s.tick ∧ t.cmds = s.cmds ∧
    (∀ j, j ≠ k → ∀ st w,
      t.frame j st w = s.frame j st w ∨ t.frame j st w = snoopedLine .invalidate a st (s.frame j st w)) ∧
    (∀ st w, t.frame k st w ≠ s.frame k st w →
      st = setOf a ∧ (s.lookup k a = some w ∨ s.lookup k a = none ∧ w = s.chooseWay k st)) ∧
    (∀ w, s.lookup k a = some w → ∀ i < 32, ¬(off a ≤ i ∧ i < off a + 8) →
      lineByte (t.frame k (setOf a) w).data i = lineByte (s.frame k (setOf a) w).data i) ∧
    (Memory.wf s.shm.mem = true → ∀ x, ¬flushedByRead s k a x → memRead t.shm.mem x = memRead s.shm.mem x) ∧
    (Memory.wf s.shm.mem = true → s.lookup k a ≠ none → ∀ x, ¬flushedByInvalidate s k a x →
      memRead t.shm.mem x = memRead s.shm.mem x) ∧
    (mapSorted s.staging = true → ∀ x, x ≠ (baseOf a).toNat → x ≠ (victimBase s k a).toNat →
      mapFind x t.staging = mapFind x s.staging) ∧
    (t.fault ≠ s.fault → t.pes = s.pes ∧ t.shm = s.shm ∧ t.caches = s.caches ∧ t.ports = s.ports ∧ s.fault = none)

/-- The frame of the five bus transactions (R194 to R200): no PE, no port, no counter of the PE side; memory only in the lines
flushed. -/
def Obligations.BusTransactionFrame : Prop :=
  ∀ (src : PeId) (a : Word) (p : LineData) (i : Instr) (s t : State),
    i ∈ [Instr.busRd src a, .busRdX src a, .busUpgr src a, .flush src a p, .inv src a] → exec i s = .next t →
    t.pes = s.pes ∧ t.ports = s.ports ∧ t.fault = s.fault ∧ t.regPolicy = s.regPolicy ∧ t.turn = s.turn ∧
    t.tick = s.tick ∧ t.cmds = s.cmds ∧ t.resp = s.resp ∧
    (∀ j, j ≠ src → SnoopedCounters s t j) ∧
    (∀ j, (t.cache j).ctr.loads = (s.cache j).ctr.loads ∧ (t.cache j).ctr.stores = (s.cache j).ctr.stores ∧
      (t.cache j).ctr.rwAccesses = (s.cache j).ctr.rwAccesses ∧
      (t.cache j).ctr.cacheMisses = (s.cache j).ctr.cacheMisses) ∧
    (∀ j st w, st ≠ setOf a → t.frame j st w = s.frame j st w) ∧
    (Memory.wf s.shm.mem = true → ∀ x,
      (i = .busRd src a ∨ i = .busRdX src a → ¬flushedByRead s src a x) →
      (i = .busUpgr src a ∨ i = .inv src a → ¬flushedByInvalidate s src a x) →
      (i = .flush src a p → ¬inLine x (baseOf a).toNat) → memRead t.shm.mem x = memRead s.shm.mem x) ∧
    (mapSorted s.staging = true → ∀ x, x ≠ (baseOf a).toNat →
      (i = .busRd src a ∨ i = .busRdX src a → ¬(evictsDirty s src a ∧ x = (victimBase s src a).toNat)) →
      mapFind x t.staging = mapFind x s.staging)

/-- The frame of the two shared memory requests (R121, R122, R348): no cache, port, PE or staging slot, and no byte but those
written. -/
def Obligations.ShmRequestFrame : Prop :=
  ∀ (addr : Word) (bytes : List Byte) (size : Nat) (req : Option PeId) (s t : State),
    exec (.shmRead addr size req) s = .next t ∨ exec (.shmWrite addr bytes size req) s = .next t →
    t.caches = s.caches ∧ t.staging = s.staging ∧ t.shmFault = s.shmFault ∧ t.ports = s.ports ∧ t.pes = s.pes ∧
    t.fault = s.fault ∧ t.regPolicy = s.regPolicy ∧ t.turn = s.turn ∧ t.tick = s.tick ∧ t.cmds = s.cmds ∧
    (exec (.shmRead addr size req) s = .next t → ∀ x, memRead t.shm.mem x = memRead s.shm.mem x) ∧
    (Memory.wf s.shm.mem = true → ∀ x, ¬(addr.toNat ≤ x ∧ x < addr.toNat + size) →
      memRead t.shm.mem x = memRead s.shm.mem x)

/-! ### Invariants (45_system_step.md, 41_cache_controller.md) -/

/-- R290 to R294 with R348: coherence, and the canonical form of memory, are kept by every step of a machine whose host keeps
its duties; while no cache holds a line and no slot exists a direct write runs and keeps coherence; whatever is held, one that
the host's step lets run keeps it too (the refusal is U24's; log 18). -/
def Obligations.CoherenceIsKept : Prop :=
  (∀ s t : State, Inv s → step s = .next t → Inv t) ∧
  (∀ (addr : Word) (bytes : List Byte) (size : Nat) (req : Option PeId) (s : State), hostShmFree s = true →
    Coherent s → Memory.wf s.shm.mem = true → writesHeldLine (.shmWrite addr bytes size req) s = false ∧
      ∃ t, exec (.shmWrite addr bytes size req) s = .next t ∧ Coherent t ∧ hostShmFree t = true) ∧
  (∀ (addr : Word) (bytes : List Byte) (size : Nat) (req : Option PeId) (s t : State), Coherent s →
    Memory.wf s.shm.mem = true → writesHeldLine (.shmWrite addr bytes size req) s = false →
      exec (.shmWrite addr bytes size req) s = .next t → Coherent t)

/-- R342: the invariants hold in every launched state. -/
def Obligations.InvariantsHoldAtLaunch : Prop :=
  ∀ l : Launch, Inv (State.launch l) ∧ ∀ k, CounterLaws ((State.launch l).cache k) ∧ LogLaws ((State.launch l).cache k) ∧
    PortLaws ((State.launch l).port k) ((State.launch l).cache k) ∧ PortMatchesPe (State.launch l) k

/-- The memory's canonical form is kept by every step, whatever the host does (the form is the model's; R122 and R196 are the
only writers). -/
def Obligations.MemoryStaysCanonical : Prop :=
  ∀ s t : State, Memory.wf s.shm.mem = true → mapSorted s.staging = true → step s = .next t →
    Memory.wf t.shm.mem = true ∧ mapSorted t.staging = true

/-- R164, R143, R165: every step keeps the counter laws; every step keeps that the transition matrix counts the log and that
only the pairs of R165 appear in it. -/
def Obligations.CounterAndLogLawsAreKept : Prop :=
  (∀ s t : State, (∀ k st w, (s.frame k st w).valid = false → (s.frame k st w).state = .I) →
    (∀ k, CounterLaws (s.cache k)) → step s = .next t →
      (∀ k st w, (t.frame k st w).valid = false → (t.frame k st w).state = .I) ∧ ∀ k, CounterLaws (t.cache k)) ∧
  (∀ s t : State, (∀ k, LogLaws (s.cache k)) → step s = .next t → ∀ k, LogLaws (t.cache k))

/-- R295: the laws between a port's counters and its cache's are kept by every step of a machine whose host keeps its
duties. -/
def Obligations.PortCounterLaws : Prop :=
  (∀ s t : State, HostDuties s → (∀ k, PortLaws (s.port k) (s.cache k)) → step s = .next t →
    HostDuties t ∧ ∀ k, PortLaws (t.port k) (t.cache k)) ∧
  (∀ (p : Port) (c : Cache), PortLaws p c → CounterLaws c →
    p.loads ≤ c.ctr.loads ∧ p.stores ≤ c.ctr.stores ∧
    (p.fsm = .idle → c.ctr.loads + c.ctr.stores = p.loads + p.stores + c.ctr.cacheMisses))

/-- R205, R295: in a step of an agent with no failed shared memory request every Flush is one write of the shared memory. -/
def Obligations.EveryFlushIsOneWrite : Prop :=
  ∀ s t : State, s.cmds = [] → step s = .next t → t.shmFault = false →
    t.shm.totalWrites + s.sumCaches (·.flush) = s.shm.totalWrites + t.sumCaches (·.flush)

/-- R25, R26, R30, R36, R37, R314: what no step undoes: a halted PE stays as it is; written registers, programs and budgets, the sticky bit, `valid`,
the logs, and the counts. -/
def Obligations.NothingIsUndone : Prop :=
  ∀ s t : State, step s = .next t →
    (s.shmFault = true → t.shmFault = true) ∧ s.shm.totalReads ≤ t.shm.totalReads ∧
    s.shm.totalWrites ≤ t.shm.totalWrites ∧
    ∀ k, (t.pe k).program = (s.pe k).program ∧ (t.pe k).maxSteps = (s.pe k).maxSteps ∧
      (t.pe k).started = (s.pe k).started ∧ ((s.pe k).halted = true → t.pe k = s.pe k) ∧ (s.pe k).steps ≤ (t.pe k).steps ∧
      (∀ i, (s.pe k).isWritten i = true → (t.pe k).isWritten i = true) ∧
      (∀ st w, (s.frame k st w).valid = true → (t.frame k st w).valid = true) ∧
      (∃ l, (t.cache k).log = (s.cache k).log ++ l) ∧ (s.port k).loads ≤ (t.port k).loads ∧
      (s.port k).stores ≤ (t.port k).stores ∧ (s.cache k).ctr.rwAccesses ≤ (t.cache k).ctr.rwAccesses

/-- R20, R241, R328: a step of an agent leaves the other PEs and ports alone, and of the other caches changes only what a snoop
may. -/
def Obligations.OtherAgentsAreUntouched : Prop :=
  ∀ s t : State, s.cmds = [] → step s = .next t →
    ∃ k, s.nextAgent = some k ∧ ∀ j, j ≠ k → t.pe j = s.pe j ∧ t.port j = s.port j ∧ SnoopedCounters s t j

/-! ### The current value of memory (20_memory.md) -/

/-- R70: a completed load returns the current value of its eight bytes. -/
def Obligations.LoadReturnsCurrentValue : Prop :=
  ∀ (s : State), Coherent s →
    (∀ (d a : Reg), operandsReadable (.load d a) s → accessTaken (.load d a) s → off (s.reg s.turn a) ≤ 24 →
      backed (s.reg s.turn a) → s.lookup s.turn (s.reg s.turn a) ≠ none →
        ∃ t, exec (.load d a) s = .next t ∧ bytes64 (t.reg s.turn d) = s.currentBytes (s.reg s.turn a)) ∧
    (∀ a : Word, accessTaken (.load64 a) s → off a ≤ 24 → backed a → s.lookup s.turn a ≠ none →
      ∃ t v, exec (.load64 a) s = .next t ∧ t.resp = some (.port (some v)) ∧ bytes64 v = s.currentBytes a)

/-- R70: nothing but a completed store changes the current value of a backed byte. A bus read or a Flush that no cache's miss
caused, and a direct write, are outside it (R348, R351). -/
def Obligations.OnlyStoresChangeCurrentValue : Prop :=
  ∀ (i : Instr) (s t : State), Coherent s → Memory.wf s.shm.mem = true → keepsValues i = true →
    exec i s = .next t → (∀ a v, storeOf i s = some (a, v) → s.lookup s.turn a = none) →
      ∀ x : Word, backed x → t.currentByte x = s.currentByte x

/-- R70: a completed store replaces the eight bytes of the current value at its address and no others, and leaves no other
cache holding the line. -/
def Obligations.StoreSetsCurrentValue : Prop :=
  ∀ (i : Instr) (s : State) (a v : Word), Coherent s → Memory.wf s.shm.mem = true → storeOf i s = some (a, v) →
    operandsReadable i s → accessTaken i s → off a ≤ 24 → s.lookup s.turn a ≠ none →
      ∃ t, exec i s = .next t ∧
        (∀ x : Word, backed x → t.currentByte x =
          if a.toNat ≤ x.toNat ∧ x.toNat < a.toNat + 8 then (bytes64 v).getD (x.toNat - a.toNat) 0
          else s.currentByte x) ∧
        (∀ j, j ≠ s.turn → ∀ w, (t.frame j (setOf a) w).holds (tagOf a) = false)

/-- R71, R72: once a store of one PE has completed, the next load of that address by any PE, with no other step between, returns the
stored value, at its first attempt or at its second. -/
def Obligations.CompletedStoreIsSeenByEveryPe : Prop :=
  ∀ (k j : PeId) (a v : Word) (s t : State), Coherent s → Memory.wf s.shm.mem = true → backed a →
    cacheStore k a v s = .done () t →
      (∃ u, cacheLoad j a t = .done v u) ∨ (∃ u r, cacheLoad j a t = .retry u ∧ cacheLoad j a u = .done v r)
end

