-- ==== Sys2Proof/Laws/Maps.lean ====
section
/-! SUPPORT. Finite maps, memory and the shared memory's requests: what a read sees after a write, and that every operation
keeps the canonical form. -/

namespace Sys2Proof.Machine

/-! ### Finite maps -/

theorem mapFind_mapInsert {α : Type} (k j : Nat) (v : α) (m : List (Nat × α)) :
    mapFind j (mapInsert k v m) = if j = k then some v else mapFind j m := by
  induction m with
  | nil => simp only [mapInsert, mapFind, eq_comm]
  | cons p t ih =>
    obtain ⟨a, b⟩ := p
    simp only [mapInsert]
    split
    · simp only [mapFind, eq_comm]
    · split
      · next h => subst h; simp only [mapFind]; split <;> simp_all [eq_comm]
      · simp only [mapFind, ih]
        split <;> split <;> simp_all

/-- Every key of the map is at least `n`. -/
def mapAbove {α : Type} (n : Nat) (m : List (Nat × α)) : Prop := ∀ p ∈ m, n ≤ p.1

theorem mapSorted_cons {α : Type} (k : Nat) (v : α) (m : List (Nat × α)) :
    mapSorted ((k, v) :: m) = true ↔ mapAbove (k + 1) m ∧ mapSorted m = true := by
  induction m generalizing k v with
  | nil => simp [mapSorted, mapAbove]
  | cons p t ih =>
    obtain ⟨a, b⟩ := p
    simp only [mapSorted, Bool.and_eq_true, decide_eq_true_eq, ih, mapAbove, List.forall_mem_cons]
    constructor
    · rintro ⟨h, h2, h3⟩
      exact ⟨⟨h, fun p hp => by have := h2 p hp; omega⟩, h2, h3⟩
    · rintro ⟨⟨h, _⟩, h2, h3⟩
      exact ⟨h, h2, h3⟩

theorem mapFind_of_above {α : Type} {n j : Nat} {m : List (Nat × α)} (h : mapAbove n m) (hj : j < n) :
    mapFind j m = none := by
  induction m with
  | nil => rfl
  | cons p t ih =>
    obtain ⟨a, b⟩ := p
    have h1 : n ≤ a := h (a, b) (by simp)
    have h2 : mapAbove n t := fun p hp => h p (by simp [hp])
    simp only [mapFind, ih h2]
    rw [if_neg (by omega)]

theorem mapFind_mapErase {α : Type} (k j : Nat) {m : List (Nat × α)} (hm : mapSorted m = true) :
    mapFind j (mapErase k m) = if j = k then none else mapFind j m := by
  induction m with
  | nil => simp [mapErase, mapFind]
  | cons p t ih =>
    obtain ⟨a, b⟩ := p
    obtain ⟨h1, h2⟩ := (mapSorted_cons a b t).1 hm
    simp only [mapErase]
    split
    · next h =>
      subst h
      by_cases hj : j = a
      · subst hj; simp [mapFind_of_above h1 (Nat.lt_succ_self j)]
      · simp [mapFind, hj, eq_comm]
    · simp only [mapFind, ih h2]
      split <;> split <;> simp_all

theorem mem_mapInsert {α : Type} {k : Nat} {v : α} {m : List (Nat × α)} {p : Nat × α} (h : p ∈ mapInsert k v m) :
    p = (k, v) ∨ p ∈ m := by
  induction m with
  | nil => simpa [mapInsert] using h
  | cons q t ih =>
    obtain ⟨a, b⟩ := q
    simp only [mapInsert] at h
    split at h
    · simpa using h
    · split at h
      · simp only [List.mem_cons] at h ⊢
        tauto
      · simp only [List.mem_cons] at h ⊢
        rcases h with h | h
        · exact .inr (.inl h)
        · rcases ih h with h | h
          · exact .inl h
          · exact .inr (.inr h)

theorem mem_mapErase {α : Type} {k : Nat} {m : List (Nat × α)} {p : Nat × α} (h : p ∈ mapErase k m) : p ∈ m := by
  induction m with
  | nil => exact h
  | cons q t ih =>
    obtain ⟨a, b⟩ := q
    simp only [mapErase] at h
    split at h
    · exact List.mem_cons_of_mem _ h
    · simp only [List.mem_cons] at h ⊢
      exact h.imp id ih

theorem mapSorted_mapInsert {α : Type} (k : Nat) (v : α) {m : List (Nat × α)} (hm : mapSorted m = true) :
    mapSorted (mapInsert k v m) = true := by
  induction m with
  | nil => rfl
  | cons p t ih =>
    obtain ⟨a, b⟩ := p
    obtain ⟨h1, h2⟩ := (mapSorted_cons a b t).1 hm
    simp only [mapInsert]
    split
    · next h =>
      refine (mapSorted_cons _ _ _).2 ⟨fun p hp => ?_, hm⟩
      rcases List.mem_cons.1 hp with rfl | hp
      · exact h
      · have := h1 p hp; omega
    · split
      · next h => subst h; exact (mapSorted_cons _ _ _).2 ⟨h1, h2⟩
      · refine (mapSorted_cons _ _ _).2 ⟨fun p hp => ?_, ih h2⟩
        rcases mem_mapInsert hp with rfl | hp
        · show a + 1 ≤ k; omega
        · exact h1 p hp

theorem mapSorted_mapErase {α : Type} (k : Nat) {m : List (Nat × α)} (hm : mapSorted m = true) :
    mapSorted (mapErase k m) = true := by
  induction m with
  | nil => rfl
  | cons p t ih =>
    obtain ⟨a, b⟩ := p
    obtain ⟨h1, h2⟩ := (mapSorted_cons a b t).1 hm
    simp only [mapErase]
    split
    · exact h2
    · exact (mapSorted_cons _ _ _).2 ⟨fun p hp => h1 p (mem_mapErase hp), ih h2⟩

theorem mapFind_some_mem {α : Type} {k : Nat} {v : α} {m : List (Nat × α)} (h : mapFind k m = some v) : (k, v) ∈ m := by
  induction m with
  | nil => simp [mapFind] at h
  | cons p t ih =>
    obtain ⟨a, b⟩ := p
    simp only [mapFind] at h
    split at h
    · next e => subst e; simp_all
    · exact List.mem_cons_of_mem _ (ih h)

theorem mapFind_of_mem {α : Type} {k : Nat} {v : α} {m : List (Nat × α)} (hm : mapSorted m = true) (h : (k, v) ∈ m) :
    mapFind k m = some v := by
  induction m with
  | nil => simp at h
  | cons p t ih =>
    obtain ⟨a, b⟩ := p
    obtain ⟨h1, h2⟩ := (mapSorted_cons a b t).1 hm
    simp only [mapFind]
    rcases List.mem_cons.1 h with h | h
    · simp_all
    · have := h1 _ h
      rw [if_neg (by simp at this; omega), ih h2 h]

theorem not_mem_mapErase {α : Type} {k : Nat} {v : α} {m : List (Nat × α)} (hm : mapSorted m = true) :
    (k, v) ∉ mapErase k m := by
  intro h
  have := mapFind_of_mem (mapSorted_mapErase k hm) h
  rw [mapFind_mapErase k k hm] at this
  simp at this

/-! ### Memory -/

/-- The canonical form without the bound on addresses, which is what a read after a write needs. -/
theorem memory_wf_sorted {m : List Host.Cell} (h : Memory.wf m = true) : mapSorted m = true := by
  simp only [Memory.wf, Bool.and_eq_true] at h; exact h.1

/-- A byte reads as written, every other byte as before. -/
theorem memRead_memWrite {m : List Host.Cell} (hm : mapSorted m = true) (a b : Nat) (v : Byte) :
    memRead (memWrite m a v) b = if b = a then v else memRead m b := by
  unfold memRead memWrite
  split
  · next h => rw [mapFind_mapErase a b hm]; split <;> simp [h]
  · rw [mapFind_mapInsert]; split <;> simp

theorem mapSorted_memWrite {m : List Host.Cell} (hm : mapSorted m = true) (a : Nat) (v : Byte) :
    mapSorted (memWrite m a v) = true := by
  unfold memWrite; split
  · exact mapSorted_mapErase a hm
  · exact mapSorted_mapInsert a v hm

/-- A write inside the capacity keeps the canonical form. -/
theorem memory_wf_memWrite {m : List Host.Cell} (hm : Memory.wf m = true) {a : Nat} (ha : a < Config.shmBytes) (v : Byte) :
    Memory.wf (memWrite m a v) = true := by
  have hs := memory_wf_sorted hm
  simp only [Memory.wf, Bool.and_eq_true, List.all_eq_true, decide_eq_true_eq] at hm ⊢
  refine ⟨mapSorted_memWrite hs a v, fun p hp => ?_⟩
  unfold memWrite at hp
  split at hp
  · exact hm.2 p (mem_mapErase hp)
  · next h =>
    rcases mem_mapInsert hp with rfl | hp
    · exact ⟨ha, h⟩
    · exact hm.2 p hp

theorem mapSorted_memWriteBytes {m : List Host.Cell} (hm : mapSorted m = true) (a : Nat) (l : List Byte) :
    mapSorted (memWriteBytes m a l) = true := by
  induction l generalizing m a with
  | nil => exact hm
  | cons b t ih => exact ih (mapSorted_memWrite hm a b) (a + 1)

theorem memory_wf_memWriteBytes {m : List Host.Cell} (hm : Memory.wf m = true) {a : Nat} {l : List Byte}
    (h : a + l.length ≤ Config.shmBytes) : Memory.wf (memWriteBytes m a l) = true := by
  induction l generalizing m a with
  | nil => exact hm
  | cons b t ih =>
    simp only [List.length_cons] at h
    exact ih (memory_wf_memWrite hm (by omega) b) (by omega)

/-- After bytes are written, a byte inside them reads as its byte, every other as before. -/
theorem memRead_memWriteBytes {m : List Host.Cell} (hm : mapSorted m = true) (a : Nat) (l : List Byte) (b : Nat) :
    memRead (memWriteBytes m a l) b = if a ≤ b ∧ b < a + l.length then l.getD (b - a) 0 else memRead m b := by
  induction l generalizing m a with
  | nil => simp only [memWriteBytes, List.length_nil]; rw [if_neg (by omega)]
  | cons v t ih =>
    simp only [memWriteBytes, List.length_cons]
    rw [ih (mapSorted_memWrite hm a v), memRead_memWrite hm]
    by_cases h1 : b = a
    · subst h1; simp
    · by_cases h2 : a ≤ b ∧ b < a + (t.length + 1)
      · rw [if_pos (by omega), if_pos h2]
        obtain ⟨c, rfl⟩ : ∃ c, b = a + 1 + c := ⟨b - (a + 1), by omega⟩
        rw [show a + 1 + c - a = c + 1 from by omega, show a + 1 + c - (a + 1) = c from by omega]
        simp
      · rw [if_neg (by omega), if_neg h2, if_neg h1]

@[simp] theorem memReadBytes_length (m : List Host.Cell) (a n : Nat) : (memReadBytes m a n).length = n := by
  simp [memReadBytes]

theorem memReadBytes_getD (m : List Host.Cell) (a n i : Nat) (h : i < n) :
    (memReadBytes m a n).getD i 0 = memRead m (a + i) := by
  simp [memReadBytes, List.getD, h]

/-! ### The shared memory's requests -/

@[simp] theorem Shm.countRead_mem (m : Shm) (n : Nat) (r : Option PeId) : (m.countRead n r).mem = m.mem := by
  cases r <;> rfl

@[simp] theorem Shm.countWrite_mem (m : Shm) (n : Nat) (r : Option PeId) : (m.countWrite n r).mem = m.mem := by
  cases r <;> rfl

theorem shmInRange_iff (a : Word) (n : Nat) : shmInRange a n = true ↔ n ≠ 0 ∧ a.toNat + n ≤ 4096 := by
  simp only [shmInRange, Bool.and_eq_true, Bool.not_eq_true', beq_eq_false_iff_ne, decide_eq_true_eq]
  simp only [Config.shmBytes]
  omega

theorem shmRead_of_inRange {a : Word} {n : Nat} (h : shmInRange a n = true) (r : Option PeId) (m : Shm) :
    shmRead a n r m = (.ok, memReadBytes m.mem a.toNat n, m.countRead n r) := by
  simp [shmRead, h]

theorem shmRead_of_outOfRange {a : Word} {n : Nat} (h : shmInRange a n = false) (r : Option PeId) (m : Shm) :
    shmRead a n r m = (.outOfRange, [], m) := by
  simp [shmRead, h]

@[simp] theorem shmRead_mem (a : Word) (n : Nat) (r : Option PeId) (m : Shm) : (shmRead a n r m).2.2.mem = m.mem := by
  unfold shmRead; split <;> simp

/-- Everything a write can do to the bytes: nothing, or the first `size` bytes at its address. -/
theorem shmWrite_mem (a : Word) (l : List Byte) (n : Nat) (r : Option PeId) (m : Shm) :
    (shmWrite a l n r m).2.mem =
      if shmInRange a n = true ∧ n ≤ l.length then memWriteBytes m.mem a.toNat (l.take n) else m.mem := by
  unfold shmWrite
  split
  · next h => simp only [Bool.not_eq_true'] at h; simp [h]
  · next h =>
    simp only [Bool.not_eq_true', Bool.not_eq_false] at h
    split
    · next h2 => rw [if_neg (by omega)]
    · next h2 => rw [if_pos ⟨h, by omega⟩]; simp

theorem memory_wf_shmWrite {m : Shm} (hm : Memory.wf m.mem = true) (a : Word) (l : List Byte) (n : Nat) (r : Option PeId) :
    Memory.wf (shmWrite a l n r m).2.mem = true := by
  rw [shmWrite_mem]
  split
  · next h =>
    have := (shmInRange_iff a n).1 h.1
    refine memory_wf_memWriteBytes hm ?_
    simp only [List.length_take, Config.shmBytes]
    omega
  · exact hm

end Sys2Proof.Machine
end

