-- ==== Sys2Proof/Laws/Operands.lean ====
section
/-! SUPPORT. Byte packing, lines and address arithmetic (spec 00_scope.md R10, R11). -/

namespace Sys2Proof

/-! ### Numbers and bytes -/

@[simp] theorem bytesLE_length (n v : Nat) : (bytesLE n v).length = n := by
  induction n generalizing v with
  | zero => rfl
  | succ n ih => simp [bytesLE, ih]

theorem natLE_bytesLE (n v : Nat) : natLE (bytesLE n v) = v % 256 ^ n := by
  induction n generalizing v with
  | zero => simp [bytesLE, natLE, Nat.mod_one]
  | succ n ih =>
    simp only [bytesLE, natLE, ih, BitVec.toNat_ofNat]
    exact (show v % 256 ^ (n + 1) = _ by rw [Nat.pow_succ', Nat.mod_mul]).symm

theorem bytesLE_natLE (l : List Byte) : bytesLE l.length (natLE l) = l := by
  induction l with
  | nil => rfl
  | cons b t ih =>
    have hb : b.toNat < 256 := b.isLt
    simp only [List.length_cons, bytesLE, natLE]
    rw [show (b.toNat + 256 * natLE t) / 256 = natLE t from by omega, ih]
    congr 1
    apply BitVec.eq_of_toNat_eq
    simp only [BitVec.toNat_ofNat]
    omega

theorem natLE_lt (l : List Byte) : natLE l < 256 ^ l.length := by
  induction l with
  | nil => simp [natLE]
  | cons b t ih =>
    have hb : b.toNat < 256 := b.isLt
    simp only [natLE, List.length_cons, Nat.pow_succ]
    omega

/-- The field of a number that is a sum of fields: the rest below and above do not show. -/
theorem slice_eq (v hi lo : Nat) : slice v hi lo = v / 2 ^ lo % 2 ^ (hi + 1 - lo) := rfl

/-! ### Lines -/

theorem lineOfBytes_toList {l : List Byte} (h : l.length = 32) : (lineOfBytes l).toList = l := by
  apply List.ext_getElem
  · simp [h]
  · intro i h1 h2
    simp [lineOfBytes, List.getD, h2]

theorem lineOfBytes_of_toList (l : LineData) : lineOfBytes l.toList = l := by
  apply Vector.ext
  intro i h
  simp [lineOfBytes, List.getD]

namespace Machine

theorem lineByte_of_lt (l : LineData) {i : Nat} (h : i < 32) : lineByte l i = l[i] := by
  simp [lineByte, h]

theorem lineByte_lineOfBytes (l : List Byte) {i : Nat} (h : i < 32) : lineByte (lineOfBytes l) i = l.getD i 0 := by
  rw [lineByte_of_lt _ h]; simp [lineOfBytes]

/-- Two lines with equal bytes are equal. -/
theorem line_ext {l m : LineData} (h : ∀ i < 32, lineByte l i = lineByte m i) : l = m := by
  apply Vector.ext
  intro i hi
  have := h i hi
  rwa [lineByte_of_lt _ hi, lineByte_of_lt _ hi] at this

theorem lineByte_toList (l : LineData) (i : Nat) : l.toList.getD i 0 = lineByte l i := by
  simp [lineByte, List.getD]

theorem lineByte_lineWrite (l : LineData) (o : Nat) (bs : List Byte) {i : Nat} (hi : i < 32) :
    lineByte (lineWrite l o bs) i = if o ≤ i ∧ i < o + bs.length then bs.getD (i - o) 0 else lineByte l i := by
  induction bs generalizing l o with
  | nil => simp only [lineWrite, List.length_nil]; rw [if_neg (by omega)]
  | cons b t ih =>
    simp only [lineWrite, List.length_cons]
    rw [ih]
    by_cases h1 : i = o
    · subst h1
      rw [if_neg (by omega), if_pos (by omega), lineByte_of_lt _ hi]
      simp
    · have h3 : lineByte (l.setIfInBounds o b) i = lineByte l i := by
        rw [lineByte_of_lt _ hi, lineByte_of_lt _ hi, Vector.getElem_setIfInBounds]
        rw [if_neg (fun e => h1 e.symm)]
      by_cases h2 : o ≤ i ∧ i < o + (t.length + 1)
      · rw [if_pos (by omega), if_pos h2]
        obtain ⟨c, rfl⟩ : ∃ c, i = o + 1 + c := ⟨i - (o + 1), by omega⟩
        rw [show o + 1 + c - o = c + 1 from by omega, show o + 1 + c - (o + 1) = c from by omega]
        simp
      · rw [if_neg (by omega), if_neg h2, h3]

@[simp] theorem bytes64_length (v : Word) : (bytes64 v).length = 8 := by simp [bytes64]

theorem lineByte_lineStore (l : LineData) (o : Nat) (v : Word) {i : Nat} (hi : i < 32) :
    lineByte (lineStore l o v) i = if o ≤ i ∧ i < o + 8 then (bytes64 v).getD (i - o) 0 else lineByte l i := by
  unfold lineStore; rw [lineByte_lineWrite _ _ _ hi, bytes64_length]

/-- The word at an offset has the line's bytes. -/
theorem bytes64_lineWord (l : LineData) (o : Nat) :
    bytes64 (lineWord l o) = (List.range 8).map fun i => lineByte l (o + i) := by
  have hl : ((List.range 8).map fun i => lineByte l (o + i)).length = 8 := by simp
  have h := natLE_lt ((List.range 8).map fun i => lineByte l (o + i))
  unfold bytes64 lineWord
  rw [hl] at h
  rw [BitVec.toNat_ofNat, Nat.mod_eq_of_lt (lt_of_lt_of_le h (by norm_num))]
  exact hl ▸ bytesLE_natLE _

theorem bytes64_injective {v w : Word} (h : bytes64 v = bytes64 w) : v = w := by
  have h2 := congrArg natLE h
  simp only [bytes64, natLE_bytesLE] at h2
  apply BitVec.eq_of_toNat_eq
  have hv := v.isLt
  have hw := w.isLt
  rw [Nat.mod_eq_of_lt (by norm_num; omega), Nat.mod_eq_of_lt (by norm_num; omega)] at h2
  exact h2

/-- A word written at an offset reads back. -/
theorem lineWord_lineStore (l : LineData) {o : Nat} (ho : o ≤ 24) (v : Word) : lineWord (lineStore l o v) o = v := by
  apply bytes64_injective
  rw [bytes64_lineWord]
  apply List.ext_getElem
  · simp
  · intro i h1 h2
    simp only [List.length_map, List.length_range] at h1
    simp only [List.getElem_map, List.getElem_range]
    rw [lineByte_lineStore _ _ _ (by omega), if_pos (by omega), show o + i - o = i from by omega]
    simp [List.getD, h1]

/-! ### Addresses -/

theorem off_lt (a : Word) : off a < 32 := by unfold off; omega

theorem setOf_val (a : Word) : (setOf a).val = a.toNat / 32 % 8 := rfl

theorem tagOf_toNat (a : Word) : (tagOf a).toNat = a.toNat / 256 := by
  have := a.isLt
  simp only [tagOf, BitVec.toNat_ofNat]
  omega

theorem baseOf_toNat (a : Word) : (baseOf a).toNat = a.toNat / 32 * 32 := by
  have := a.isLt
  simp only [baseOf, BitVec.toNat_ofNat]
  omega

theorem lineBase_toNat (t : Tag) (s : SetIx) : (lineBase t s).toNat = t.toNat * 256 + s.val * 32 := by
  have := t.isLt
  have := s.isLt
  simp only [lineBase, BitVec.toNat_ofNat]
  omega

/-- `linebase(tag(a), set(a)) = base(a)` (R10). -/
@[simp] theorem lineBase_tagOf_setOf (a : Word) : lineBase (tagOf a) (setOf a) = baseOf a := by
  apply BitVec.eq_of_toNat_eq
  rw [lineBase_toNat, tagOf_toNat, setOf_val, baseOf_toNat]
  omega

@[simp] theorem tagOf_lineBase (t : Tag) (s : SetIx) : tagOf (lineBase t s) = t := by
  apply BitVec.eq_of_toNat_eq
  have := s.isLt
  rw [tagOf_toNat, lineBase_toNat]
  omega

@[simp] theorem setOf_lineBase (t : Tag) (s : SetIx) : setOf (lineBase t s) = s := by
  apply Fin.ext
  have := s.isLt
  rw [setOf_val, lineBase_toNat]
  omega

@[simp] theorem baseOf_lineBase (t : Tag) (s : SetIx) : baseOf (lineBase t s) = lineBase t s := by
  apply BitVec.eq_of_toNat_eq
  rw [baseOf_toNat, lineBase_toNat]
  omega

@[simp] theorem baseOf_baseOf (a : Word) : baseOf (baseOf a) = baseOf a := by
  apply BitVec.eq_of_toNat_eq
  rw [baseOf_toNat, baseOf_toNat]
  omega

theorem off_lineBase (t : Tag) (s : SetIx) : off (lineBase t s) = 0 := by
  unfold off; rw [lineBase_toNat]; omega

theorem lineBase_mod (t : Tag) (s : SetIx) : (lineBase t s).toNat % 32 = 0 := by
  rw [lineBase_toNat]; omega

/-- A line base names its set and tag. -/
theorem lineBase_inj {t u : Tag} {s r : SetIx} (h : (lineBase t s).toNat = (lineBase u r).toNat) : t = u ∧ s = r := by
  have h2 := BitVec.eq_of_toNat_eq h
  exact ⟨by rw [← tagOf_lineBase t s, h2, tagOf_lineBase], by rw [← setOf_lineBase t s, h2, setOf_lineBase]⟩

theorem lineBase_eq_baseOf {t : Tag} {s : SetIx} {a : Word} :
    lineBase t s = baseOf a ↔ t = tagOf a ∧ s = setOf a := by
  rw [← lineBase_tagOf_setOf]
  constructor
  · intro h; exact lineBase_inj (congrArg BitVec.toNat h)
  · rintro ⟨rfl, rfl⟩; rfl

/-- An address is its line base and its offset. -/
theorem toNat_eq_base_off (a : Word) : a.toNat = (baseOf a).toNat + off a := by
  rw [baseOf_toNat]; unfold off; omega

/-- An address inside a line has that line's set and tag. -/
theorem sameLine_iff (a b : Word) : (setOf a = setOf b ∧ tagOf a = tagOf b) ↔ a.toNat / 32 = b.toNat / 32 := by
  constructor
  · rintro ⟨h1, h2⟩
    have h1 := congrArg Fin.val h1
    have h2 := congrArg BitVec.toNat h2
    rw [setOf_val, setOf_val] at h1
    rw [tagOf_toNat, tagOf_toNat] at h2
    omega
  · intro h
    refine ⟨Fin.ext ?_, BitVec.eq_of_toNat_eq ?_⟩
    · rw [setOf_val, setOf_val, h]
    · rw [tagOf_toNat, tagOf_toNat]; omega

end Machine

end Sys2Proof
end

