-- ==== Sys2Proof/Laws/State.lean ====
section
/-! SUPPORT. What each update of the state does to each field and to each accessor, so that no proof unfolds a record
update. -/

namespace Sys2Proof.Machine

/-- The four PE ids. -/
theorem peId_cases (j : PeId) : j = 0 ∨ j = 1 ∨ j = 2 ∨ j = 3 := by revert j; decide

/-- The two ways of a set. -/
theorem wayIx_cases (w : WayIx) : w = 0 ∨ w = 1 := by revert w; decide

/-! ### Fields an update leaves alone -/
@[simp] theorem State.modPe_shm (s : State) (k : PeId) (f : Pe → Pe) : (s.modPe k f).shm = s.shm := rfl
@[simp] theorem State.modPe_caches (s : State) (k : PeId) (f : Pe → Pe) : (s.modPe k f).caches = s.caches := rfl
@[simp] theorem State.modPe_staging (s : State) (k : PeId) (f : Pe → Pe) : (s.modPe k f).staging = s.staging := rfl
@[simp] theorem State.modPe_shmFault (s : State) (k : PeId) (f : Pe → Pe) : (s.modPe k f).shmFault = s.shmFault := rfl
@[simp] theorem State.modPe_ports (s : State) (k : PeId) (f : Pe → Pe) : (s.modPe k f).ports = s.ports := rfl
@[simp] theorem State.modPe_fault (s : State) (k : PeId) (f : Pe → Pe) : (s.modPe k f).fault = s.fault := rfl
@[simp] theorem State.modPe_regPolicy (s : State) (k : PeId) (f : Pe → Pe) : (s.modPe k f).regPolicy = s.regPolicy := rfl
@[simp] theorem State.modPe_turn (s : State) (k : PeId) (f : Pe → Pe) : (s.modPe k f).turn = s.turn := rfl
@[simp] theorem State.modPe_tick (s : State) (k : PeId) (f : Pe → Pe) : (s.modPe k f).tick = s.tick := rfl
@[simp] theorem State.modPe_cmds (s : State) (k : PeId) (f : Pe → Pe) : (s.modPe k f).cmds = s.cmds := rfl
@[simp] theorem State.modPe_resp (s : State) (k : PeId) (f : Pe → Pe) : (s.modPe k f).resp = s.resp := rfl

@[simp] theorem State.modPort_shm (s : State) (k : PeId) (f : Port → Port) : (s.modPort k f).shm = s.shm := rfl
@[simp] theorem State.modPort_caches (s : State) (k : PeId) (f : Port → Port) : (s.modPort k f).caches = s.caches := rfl
@[simp] theorem State.modPort_staging (s : State) (k : PeId) (f : Port → Port) : (s.modPort k f).staging = s.staging := rfl
@[simp] theorem State.modPort_shmFault (s : State) (k : PeId) (f : Port → Port) : (s.modPort k f).shmFault = s.shmFault := rfl
@[simp] theorem State.modPort_pes (s : State) (k : PeId) (f : Port → Port) : (s.modPort k f).pes = s.pes := rfl
@[simp] theorem State.modPort_fault (s : State) (k : PeId) (f : Port → Port) : (s.modPort k f).fault = s.fault := rfl
@[simp] theorem State.modPort_regPolicy (s : State) (k : PeId) (f : Port → Port) : (s.modPort k f).regPolicy = s.regPolicy := rfl
@[simp] theorem State.modPort_turn (s : State) (k : PeId) (f : Port → Port) : (s.modPort k f).turn = s.turn := rfl
@[simp] theorem State.modPort_tick (s : State) (k : PeId) (f : Port → Port) : (s.modPort k f).tick = s.tick := rfl
@[simp] theorem State.modPort_cmds (s : State) (k : PeId) (f : Port → Port) : (s.modPort k f).cmds = s.cmds := rfl
@[simp] theorem State.modPort_resp (s : State) (k : PeId) (f : Port → Port) : (s.modPort k f).resp = s.resp := rfl

@[simp] theorem State.modCache_shm (s : State) (k : PeId) (f : Cache → Cache) : (s.modCache k f).shm = s.shm := rfl
@[simp] theorem State.modCache_staging (s : State) (k : PeId) (f : Cache → Cache) : (s.modCache k f).staging = s.staging := rfl
@[simp] theorem State.modCache_shmFault (s : State) (k : PeId) (f : Cache → Cache) : (s.modCache k f).shmFault = s.shmFault := rfl
@[simp] theorem State.modCache_ports (s : State) (k : PeId) (f : Cache → Cache) : (s.modCache k f).ports = s.ports := rfl
@[simp] theorem State.modCache_pes (s : State) (k : PeId) (f : Cache → Cache) : (s.modCache k f).pes = s.pes := rfl
@[simp] theorem State.modCache_fault (s : State) (k : PeId) (f : Cache → Cache) : (s.modCache k f).fault = s.fault := rfl
@[simp] theorem State.modCache_regPolicy (s : State) (k : PeId) (f : Cache → Cache) : (s.modCache k f).regPolicy = s.regPolicy := rfl
@[simp] theorem State.modCache_turn (s : State) (k : PeId) (f : Cache → Cache) : (s.modCache k f).turn = s.turn := rfl
@[simp] theorem State.modCache_tick (s : State) (k : PeId) (f : Cache → Cache) : (s.modCache k f).tick = s.tick := rfl
@[simp] theorem State.modCache_cmds (s : State) (k : PeId) (f : Cache → Cache) : (s.modCache k f).cmds = s.cmds := rfl
@[simp] theorem State.modCache_resp (s : State) (k : PeId) (f : Cache → Cache) : (s.modCache k f).resp = s.resp := rfl

@[simp] theorem State.count_shm (s : State) (k : PeId) (f : CacheCounters → CacheCounters) : (s.count k f).shm = s.shm := rfl
@[simp] theorem State.count_staging (s : State) (k : PeId) (f : CacheCounters → CacheCounters) : (s.count k f).staging = s.staging := rfl
@[simp] theorem State.count_shmFault (s : State) (k : PeId) (f : CacheCounters → CacheCounters) : (s.count k f).shmFault = s.shmFault := rfl
@[simp] theorem State.count_ports (s : State) (k : PeId) (f : CacheCounters → CacheCounters) : (s.count k f).ports = s.ports := rfl
@[simp] theorem State.count_pes (s : State) (k : PeId) (f : CacheCounters → CacheCounters) : (s.count k f).pes = s.pes := rfl
@[simp] theorem State.count_fault (s : State) (k : PeId) (f : CacheCounters → CacheCounters) : (s.count k f).fault = s.fault := rfl
@[simp] theorem State.count_regPolicy (s : State) (k : PeId) (f : CacheCounters → CacheCounters) : (s.count k f).regPolicy = s.regPolicy := rfl
@[simp] theorem State.count_turn (s : State) (k : PeId) (f : CacheCounters → CacheCounters) : (s.count k f).turn = s.turn := rfl
@[simp] theorem State.count_tick (s : State) (k : PeId) (f : CacheCounters → CacheCounters) : (s.count k f).tick = s.tick := rfl
@[simp] theorem State.count_cmds (s : State) (k : PeId) (f : CacheCounters → CacheCounters) : (s.count k f).cmds = s.cmds := rfl
@[simp] theorem State.count_resp (s : State) (k : PeId) (f : CacheCounters → CacheCounters) : (s.count k f).resp = s.resp := rfl

@[simp] theorem State.modFrame_shm (s : State) (k : PeId) (st : SetIx) (w : WayIx) (f : Line → Line) : (s.modFrame k st w f).shm = s.shm := rfl
@[simp] theorem State.modFrame_staging (s : State) (k : PeId) (st : SetIx) (w : WayIx) (f : Line → Line) : (s.modFrame k st w f).staging = s.staging := rfl
@[simp] theorem State.modFrame_shmFault (s : State) (k : PeId) (st : SetIx) (w : WayIx) (f : Line → Line) : (s.modFrame k st w f).shmFault = s.shmFault := rfl
@[simp] theorem State.modFrame_ports (s : State) (k : PeId) (st : SetIx) (w : WayIx) (f : Line → Line) : (s.modFrame k st w f).ports = s.ports := rfl
@[simp] theorem State.modFrame_pes (s : State) (k : PeId) (st : SetIx) (w : WayIx) (f : Line → Line) : (s.modFrame k st w f).pes = s.pes := rfl
@[simp] theorem State.modFrame_fault (s : State) (k : PeId) (st : SetIx) (w : WayIx) (f : Line → Line) : (s.modFrame k st w f).fault = s.fault := rfl
@[simp] theorem State.modFrame_regPolicy (s : State) (k : PeId) (st : SetIx) (w : WayIx) (f : Line → Line) : (s.modFrame k st w f).regPolicy = s.regPolicy := rfl
@[simp] theorem State.modFrame_turn (s : State) (k : PeId) (st : SetIx) (w : WayIx) (f : Line → Line) : (s.modFrame k st w f).turn = s.turn := rfl
@[simp] theorem State.modFrame_tick (s : State) (k : PeId) (st : SetIx) (w : WayIx) (f : Line → Line) : (s.modFrame k st w f).tick = s.tick := rfl
@[simp] theorem State.modFrame_cmds (s : State) (k : PeId) (st : SetIx) (w : WayIx) (f : Line → Line) : (s.modFrame k st w f).cmds = s.cmds := rfl
@[simp] theorem State.modFrame_resp (s : State) (k : PeId) (st : SetIx) (w : WayIx) (f : Line → Line) : (s.modFrame k st w f).resp = s.resp := rfl

@[simp] theorem State.touch_shm (s : State) (k : PeId) (st : SetIx) (w : WayIx) : (s.touch k st w).shm = s.shm := rfl
@[simp] theorem State.touch_staging (s : State) (k : PeId) (st : SetIx) (w : WayIx) : (s.touch k st w).staging = s.staging := rfl
@[simp] theorem State.touch_shmFault (s : State) (k : PeId) (st : SetIx) (w : WayIx) : (s.touch k st w).shmFault = s.shmFault := rfl
@[simp] theorem State.touch_ports (s : State) (k : PeId) (st : SetIx) (w : WayIx) : (s.touch k st w).ports = s.ports := rfl
@[simp] theorem State.touch_pes (s : State) (k : PeId) (st : SetIx) (w : WayIx) : (s.touch k st w).pes = s.pes := rfl
@[simp] theorem State.touch_fault (s : State) (k : PeId) (st : SetIx) (w : WayIx) : (s.touch k st w).fault = s.fault := rfl
@[simp] theorem State.touch_regPolicy (s : State) (k : PeId) (st : SetIx) (w : WayIx) : (s.touch k st w).regPolicy = s.regPolicy := rfl
@[simp] theorem State.touch_turn (s : State) (k : PeId) (st : SetIx) (w : WayIx) : (s.touch k st w).turn = s.turn := rfl
@[simp] theorem State.touch_tick (s : State) (k : PeId) (st : SetIx) (w : WayIx) : (s.touch k st w).tick = s.tick := rfl
@[simp] theorem State.touch_cmds (s : State) (k : PeId) (st : SetIx) (w : WayIx) : (s.touch k st w).cmds = s.cmds := rfl
@[simp] theorem State.touch_resp (s : State) (k : PeId) (st : SetIx) (w : WayIx) : (s.touch k st w).resp = s.resp := rfl

@[simp] theorem State.record_shm (s : State) (k : PeId) (f t : Mesi) : (s.record k f t).shm = s.shm := rfl
@[simp] theorem State.record_staging (s : State) (k : PeId) (f t : Mesi) : (s.record k f t).staging = s.staging := rfl
@[simp] theorem State.record_shmFault (s : State) (k : PeId) (f t : Mesi) : (s.record k f t).shmFault = s.shmFault := rfl
@[simp] theorem State.record_ports (s : State) (k : PeId) (f t : Mesi) : (s.record k f t).ports = s.ports := rfl
@[simp] theorem State.record_pes (s : State) (k : PeId) (f t : Mesi) : (s.record k f t).pes = s.pes := rfl
@[simp] theorem State.record_fault (s : State) (k : PeId) (f t : Mesi) : (s.record k f t).fault = s.fault := rfl
@[simp] theorem State.record_regPolicy (s : State) (k : PeId) (f t : Mesi) : (s.record k f t).regPolicy = s.regPolicy := rfl
@[simp] theorem State.record_turn (s : State) (k : PeId) (f t : Mesi) : (s.record k f t).turn = s.turn := rfl
@[simp] theorem State.record_tick (s : State) (k : PeId) (f t : Mesi) : (s.record k f t).tick = s.tick := rfl
@[simp] theorem State.record_cmds (s : State) (k : PeId) (f t : Mesi) : (s.record k f t).cmds = s.cmds := rfl
@[simp] theorem State.record_resp (s : State) (k : PeId) (f t : Mesi) : (s.record k f t).resp = s.resp := rfl

@[simp] theorem State.halt_shm (s : State) (k : PeId) : (s.halt k).shm = s.shm := rfl
@[simp] theorem State.halt_caches (s : State) (k : PeId) : (s.halt k).caches = s.caches := rfl
@[simp] theorem State.halt_staging (s : State) (k : PeId) : (s.halt k).staging = s.staging := rfl
@[simp] theorem State.halt_shmFault (s : State) (k : PeId) : (s.halt k).shmFault = s.shmFault := rfl
@[simp] theorem State.halt_ports (s : State) (k : PeId) : (s.halt k).ports = s.ports := rfl
@[simp] theorem State.halt_fault (s : State) (k : PeId) : (s.halt k).fault = s.fault := rfl
@[simp] theorem State.halt_regPolicy (s : State) (k : PeId) : (s.halt k).regPolicy = s.regPolicy := rfl
@[simp] theorem State.halt_turn (s : State) (k : PeId) : (s.halt k).turn = s.turn := rfl
@[simp] theorem State.halt_tick (s : State) (k : PeId) : (s.halt k).tick = s.tick := rfl
@[simp] theorem State.halt_cmds (s : State) (k : PeId) : (s.halt k).cmds = s.cmds := rfl
@[simp] theorem State.halt_resp (s : State) (k : PeId) : (s.halt k).resp = s.resp := rfl

@[simp] theorem State.raise_shm (s : State) (m : FaultMark) : (s.raise m).shm = s.shm := by
  unfold State.raise; cases s.fault <;> rfl
@[simp] theorem State.raise_caches (s : State) (m : FaultMark) : (s.raise m).caches = s.caches := by
  unfold State.raise; cases s.fault <;> rfl
@[simp] theorem State.raise_staging (s : State) (m : FaultMark) : (s.raise m).staging = s.staging := by
  unfold State.raise; cases s.fault <;> rfl
@[simp] theorem State.raise_shmFault (s : State) (m : FaultMark) : (s.raise m).shmFault = s.shmFault := by
  unfold State.raise; cases s.fault <;> rfl
@[simp] theorem State.raise_ports (s : State) (m : FaultMark) : (s.raise m).ports = s.ports := by
  unfold State.raise; cases s.fault <;> rfl
@[simp] theorem State.raise_pes (s : State) (m : FaultMark) : (s.raise m).pes = s.pes := by
  unfold State.raise; cases s.fault <;> rfl
@[simp] theorem State.raise_regPolicy (s : State) (m : FaultMark) : (s.raise m).regPolicy = s.regPolicy := by
  unfold State.raise; cases s.fault <;> rfl
@[simp] theorem State.raise_turn (s : State) (m : FaultMark) : (s.raise m).turn = s.turn := by
  unfold State.raise; cases s.fault <;> rfl
@[simp] theorem State.raise_tick (s : State) (m : FaultMark) : (s.raise m).tick = s.tick := by
  unfold State.raise; cases s.fault <;> rfl
@[simp] theorem State.raise_cmds (s : State) (m : FaultMark) : (s.raise m).cmds = s.cmds := by
  unfold State.raise; cases s.fault <;> rfl
@[simp] theorem State.raise_resp (s : State) (m : FaultMark) : (s.raise m).resp = s.resp := by
  unfold State.raise; cases s.fault <;> rfl

theorem State.raise_fault (s : State) (m : FaultMark) : (s.raise m).fault = some (s.fault.getD m) := by
  unfold State.raise; cases h : s.fault <;> simp [h]

/-! ### Accessors -/
@[simp] theorem State.modPe_port (s : State) (k : PeId) (f : Pe → Pe) (j : PeId) : (s.modPe k f).port j = s.port j := rfl
@[simp] theorem State.modPe_cache (s : State) (k : PeId) (f : Pe → Pe) (j : PeId) : (s.modPe k f).cache j = s.cache j := rfl
@[simp] theorem State.modPort_pe (s : State) (k : PeId) (f : Port → Port) (j : PeId) : (s.modPort k f).pe j = s.pe j := rfl
@[simp] theorem State.modPort_cache (s : State) (k : PeId) (f : Port → Port) (j : PeId) : (s.modPort k f).cache j = s.cache j := rfl
@[simp] theorem State.modCache_pe (s : State) (k : PeId) (f : Cache → Cache) (j : PeId) : (s.modCache k f).pe j = s.pe j := rfl
@[simp] theorem State.modCache_port (s : State) (k : PeId) (f : Cache → Cache) (j : PeId) : (s.modCache k f).port j = s.port j := rfl
@[simp] theorem State.count_pe (s : State) (k : PeId) (f : CacheCounters → CacheCounters) (j : PeId) : (s.count k f).pe j = s.pe j := rfl
@[simp] theorem State.count_port (s : State) (k : PeId) (f : CacheCounters → CacheCounters) (j : PeId) : (s.count k f).port j = s.port j := rfl
@[simp] theorem State.modFrame_pe (s : State) (k : PeId) (st : SetIx) (w : WayIx) (f : Line → Line) (j : PeId) : (s.modFrame k st w f).pe j = s.pe j := rfl
@[simp] theorem State.modFrame_port (s : State) (k : PeId) (st : SetIx) (w : WayIx) (f : Line → Line) (j : PeId) : (s.modFrame k st w f).port j = s.port j := rfl
@[simp] theorem State.touch_pe (s : State) (k : PeId) (st : SetIx) (w : WayIx) (j : PeId) : (s.touch k st w).pe j = s.pe j := rfl
@[simp] theorem State.touch_port (s : State) (k : PeId) (st : SetIx) (w : WayIx) (j : PeId) : (s.touch k st w).port j = s.port j := rfl
@[simp] theorem State.record_pe (s : State) (k : PeId) (f t : Mesi) (j : PeId) : (s.record k f t).pe j = s.pe j := rfl
@[simp] theorem State.record_port (s : State) (k : PeId) (f t : Mesi) (j : PeId) : (s.record k f t).port j = s.port j := rfl
@[simp] theorem State.halt_port (s : State) (k : PeId) (j : PeId) : (s.halt k).port j = s.port j := rfl
@[simp] theorem State.halt_cache (s : State) (k : PeId) (j : PeId) : (s.halt k).cache j = s.cache j := rfl
@[simp] theorem State.raise_pe (s : State) (m : FaultMark) (j : PeId) : (s.raise m).pe j = s.pe j := by
  unfold State.pe; simp
@[simp] theorem State.raise_port (s : State) (m : FaultMark) (j : PeId) : (s.raise m).port j = s.port j := by
  unfold State.port; simp
@[simp] theorem State.raise_cache (s : State) (m : FaultMark) (j : PeId) : (s.raise m).cache j = s.cache j := by
  unfold State.cache; simp

theorem State.pe_modPe (s : State) (k j : PeId) (f : Pe → Pe) :
    (s.modPe k f).pe j = if j = k then f (s.pe k) else s.pe j := by
  simp only [State.pe, State.modPe, Fin.getElem_fin, Vector.getElem_set, Fin.ext_iff, eq_comm]

@[simp] theorem State.pe_modPe_self (s : State) (k : PeId) (f : Pe → Pe) : (s.modPe k f).pe k = f (s.pe k) := by
  simp [State.pe_modPe]

theorem State.pe_modPe_ne (s : State) {k j : PeId} (h : j ≠ k) (f : Pe → Pe) : (s.modPe k f).pe j = s.pe j := by
  simp [State.pe_modPe, h]

theorem State.port_modPort (s : State) (k j : PeId) (f : Port → Port) :
    (s.modPort k f).port j = if j = k then f (s.port k) else s.port j := by
  simp only [State.port, State.modPort, Fin.getElem_fin, Vector.getElem_set, Fin.ext_iff, eq_comm]

@[simp] theorem State.port_modPort_self (s : State) (k : PeId) (f : Port → Port) :
    (s.modPort k f).port k = f (s.port k) := by
  simp [State.port_modPort]

theorem State.cache_modCache (s : State) (k j : PeId) (f : Cache → Cache) :
    (s.modCache k f).cache j = if j = k then f (s.cache k) else s.cache j := by
  simp only [State.cache, State.modCache, Fin.getElem_fin, Vector.getElem_set, Fin.ext_iff, eq_comm]

@[simp] theorem State.cache_modCache_self (s : State) (k : PeId) (f : Cache → Cache) :
    (s.modCache k f).cache k = f (s.cache k) := by
  simp [State.cache_modCache]

theorem State.cache_modCache_ne (s : State) {k j : PeId} (h : j ≠ k) (f : Cache → Cache) :
    (s.modCache k f).cache j = s.cache j := by
  simp [State.cache_modCache, h]

theorem State.cache_count (s : State) (k j : PeId) (f : CacheCounters → CacheCounters) :
    (s.count k f).cache j = if j = k then { s.cache k with ctr := f (s.cache k).ctr } else s.cache j :=
  s.cache_modCache k j _

/-! ### Sets, ways and frames -/

theorem Cache.cset_modSet (c : Cache) (st e : SetIx) (f : CacheSet → CacheSet) :
    (c.modSet st f).cset e = if e = st then f (c.cset st) else c.cset e := by
  simp only [Cache.cset, Cache.modSet, Fin.getElem_fin, Vector.getElem_set, Fin.ext_iff, eq_comm]

@[simp] theorem Cache.modSet_ctr (c : Cache) (st : SetIx) (f : CacheSet → CacheSet) : (c.modSet st f).ctr = c.ctr := rfl
@[simp] theorem Cache.modSet_log (c : Cache) (st : SetIx) (f : CacheSet → CacheSet) : (c.modSet st f).log = c.log := rfl
@[simp] theorem Cache.modSet_trans (c : Cache) (st : SetIx) (f : CacheSet → CacheSet) : (c.modSet st f).trans = c.trans := rfl
@[simp] theorem Cache.modSet_transCount (c : Cache) (st : SetIx) (g : CacheSet → CacheSet) (f t : Mesi) :
    (c.modSet st g).transCount f t = c.transCount f t := rfl

theorem CacheSet.way_modWay (c : CacheSet) (w v : WayIx) (f : Line → Line) :
    (c.modWay w f).way v = if v = w then f (c.way w) else c.way v := by
  simp only [CacheSet.way, CacheSet.modWay, Fin.getElem_fin, Vector.getElem_set, Fin.ext_iff, eq_comm]

@[simp] theorem CacheSet.modWay_lru (c : CacheSet) (w : WayIx) (f : Line → Line) : (c.modWay w f).lru = c.lru := rfl

@[simp] theorem State.modPe_frame (s : State) (k : PeId) (f : Pe → Pe) (j : PeId) (st : SetIx) (w : WayIx) :
    (s.modPe k f).frame j st w = s.frame j st w := rfl
@[simp] theorem State.modPort_frame (s : State) (k : PeId) (f : Port → Port) (j : PeId) (st : SetIx) (w : WayIx) :
    (s.modPort k f).frame j st w = s.frame j st w := rfl
@[simp] theorem State.halt_frame (s : State) (k j : PeId) (st : SetIx) (w : WayIx) :
    (s.halt k).frame j st w = s.frame j st w := rfl
@[simp] theorem State.raise_frame (s : State) (m : FaultMark) (j : PeId) (st : SetIx) (w : WayIx) :
    (s.raise m).frame j st w = s.frame j st w := by
  simp [State.frame]

/-- The frames and the LRU bits of a cache after a change that keeps its sets. -/
theorem State.frame_modCache_of_sets (s : State) (k : PeId) (f : Cache → Cache) (h : (f (s.cache k)).sets = (s.cache k).sets)
    (j : PeId) (st : SetIx) (w : WayIx) : (s.modCache k f).frame j st w = s.frame j st w := by
  unfold State.frame
  rw [State.cache_modCache]
  split
  · next e => subst e; simp [Cache.cset, h]
  · rfl

@[simp] theorem State.count_frame (s : State) (k : PeId) (f : CacheCounters → CacheCounters) (j : PeId) (st : SetIx)
    (w : WayIx) : (s.count k f).frame j st w = s.frame j st w :=
  s.frame_modCache_of_sets k _ rfl j st w

@[simp] theorem State.record_frame (s : State) (k : PeId) (f t : Mesi) (j : PeId) (st : SetIx) (w : WayIx) :
    (s.record k f t).frame j st w = s.frame j st w :=
  s.frame_modCache_of_sets k _ rfl j st w

@[simp] theorem State.touch_frame (s : State) (k : PeId) (e : SetIx) (v : WayIx) (j : PeId) (st : SetIx) (w : WayIx) :
    (s.touch k e v).frame j st w = s.frame j st w := by
  unfold State.frame State.touch
  rw [State.cache_modCache]
  split
  · next h => subst h; rw [Cache.cset_modSet]; split <;> simp_all [CacheSet.way]
  · rfl

/-- The frames after a change of one frame. -/
theorem State.frame_modFrame (s : State) (k : PeId) (e : SetIx) (v : WayIx) (f : Line → Line) (j : PeId) (st : SetIx)
    (w : WayIx) : (s.modFrame k e v f).frame j st w =
      if j = k ∧ st = e ∧ w = v then f (s.frame k e v) else s.frame j st w := by
  unfold State.frame State.modFrame
  rw [State.cache_modCache]
  by_cases h : j = k
  · subst h
    by_cases h2 : st = e
    · subst h2; simp [Cache.cset_modSet, CacheSet.way_modWay]
    · simp [Cache.cset_modSet, h2]
  · simp [h]

@[simp] theorem State.frame_modFrame_self (s : State) (k : PeId) (st : SetIx) (w : WayIx) (f : Line → Line) :
    (s.modFrame k st w f).frame k st w = f (s.frame k st w) := by
  simp [State.frame_modFrame]

/-! ### Counters, matrix and log -/

@[simp] theorem State.modFrame_ctr (s : State) (k : PeId) (st : SetIx) (w : WayIx) (f : Line → Line) (j : PeId) :
    ((s.modFrame k st w f).cache j).ctr = (s.cache j).ctr := by
  unfold State.modFrame; rw [State.cache_modCache]; split <;> simp_all
@[simp] theorem State.modFrame_log (s : State) (k : PeId) (st : SetIx) (w : WayIx) (f : Line → Line) (j : PeId) :
    ((s.modFrame k st w f).cache j).log = (s.cache j).log := by
  unfold State.modFrame; rw [State.cache_modCache]; split <;> simp_all
@[simp] theorem State.modFrame_transCount (s : State) (k : PeId) (st : SetIx) (w : WayIx) (g : Line → Line) (j : PeId)
    (f t : Mesi) : ((s.modFrame k st w g).cache j).transCount f t = (s.cache j).transCount f t := by
  unfold State.modFrame; rw [State.cache_modCache]; split <;> simp_all
@[simp] theorem State.touch_ctr (s : State) (k : PeId) (st : SetIx) (w : WayIx) (j : PeId) :
    ((s.touch k st w).cache j).ctr = (s.cache j).ctr := by
  unfold State.touch; rw [State.cache_modCache]; split <;> simp_all
@[simp] theorem State.touch_log (s : State) (k : PeId) (st : SetIx) (w : WayIx) (j : PeId) :
    ((s.touch k st w).cache j).log = (s.cache j).log := by
  unfold State.touch; rw [State.cache_modCache]; split <;> simp_all
@[simp] theorem State.touch_transCount (s : State) (k : PeId) (st : SetIx) (w : WayIx) (j : PeId) (f t : Mesi) :
    ((s.touch k st w).cache j).transCount f t = (s.cache j).transCount f t := by
  unfold State.touch; rw [State.cache_modCache]; split <;> simp_all
@[simp] theorem State.count_log (s : State) (k : PeId) (f : CacheCounters → CacheCounters) (j : PeId) :
    ((s.count k f).cache j).log = (s.cache j).log := by
  rw [State.cache_count]; split <;> simp_all
@[simp] theorem State.count_transCount (s : State) (k : PeId) (g : CacheCounters → CacheCounters) (j : PeId) (f t : Mesi) :
    ((s.count k g).cache j).transCount f t = (s.cache j).transCount f t := by
  rw [State.cache_count]; split <;> simp_all [Cache.transCount]
theorem State.count_ctr (s : State) (k : PeId) (f : CacheCounters → CacheCounters) (j : PeId) :
    ((s.count k f).cache j).ctr = if j = k then f (s.cache k).ctr else (s.cache j).ctr := by
  rw [State.cache_count]; split <;> simp_all
@[simp] theorem State.record_ctr (s : State) (k : PeId) (f t : Mesi) (j : PeId) :
    ((s.record k f t).cache j).ctr = (s.cache j).ctr := by
  unfold State.record; rw [State.cache_modCache]; split <;> simp_all
theorem State.record_log (s : State) (k : PeId) (f t : Mesi) (j : PeId) :
    ((s.record k f t).cache j).log = if j = k then (s.cache k).log ++ [(f, t)] else (s.cache j).log := by
  unfold State.record; rw [State.cache_modCache]; split <;> simp_all

theorem mesiCode_injective : Function.Injective mesiCode := by
  intro a b; cases a <;> cases b <;> decide

theorem State.record_transCount (s : State) (k : PeId) (f t : Mesi) (j : PeId) (f' t' : Mesi) :
    ((s.record k f t).cache j).transCount f' t' =
      (s.cache j).transCount f' t' + if j = k ∧ f' = f ∧ t' = t then 1 else 0 := by
  unfold State.record
  rw [State.cache_modCache]
  by_cases h : j = k
  · subst h
    have e1 : ((mesiCode f).val = (mesiCode f').val) ↔ f' = f :=
      ⟨fun h => (mesiCode_injective (Fin.ext h)).symm, fun h => by rw [h]⟩
    have e2 : ((mesiCode t).val = (mesiCode t').val) ↔ t' = t :=
      ⟨fun h => (mesiCode_injective (Fin.ext h)).symm, fun h => by rw [h]⟩
    simp only [Cache.transCount, if_true, true_and, Fin.getElem_fin, Vector.getElem_set, e1]
    by_cases h1 : f' = f
    · subst h1
      by_cases h2 : t' = t
      · subst h2; simp
      · simp [h2, e2]
    · simp [h1]
  · simp [h]

/-! ### Registers -/

theorem Pe.reg_setReg (p : Pe) (i j : Reg) (v : Word) : (p.setReg i v).reg j = if j = i then v else p.reg j := by
  simp only [Pe.reg, Pe.setReg, Fin.getElem_fin, Vector.getElem_set, Fin.ext_iff, eq_comm]

@[simp] theorem Pe.reg_setReg_self (p : Pe) (i : Reg) (v : Word) : (p.setReg i v).reg i = v := by
  simp [Pe.reg_setReg]

theorem Pe.isWritten_setReg (p : Pe) (i j : Reg) (v : Word) :
    (p.setReg i v).isWritten j = if j = i then true else p.isWritten j := by
  simp only [Pe.isWritten, Pe.setReg, Fin.getElem_fin, Vector.getElem_set, Fin.ext_iff, eq_comm]

@[simp] theorem Pe.setReg_pc (p : Pe) (i : Reg) (v : Word) : (p.setReg i v).pc = p.pc := rfl
@[simp] theorem Pe.setReg_program (p : Pe) (i : Reg) (v : Word) : (p.setReg i v).program = p.program := rfl
@[simp] theorem Pe.setReg_halted (p : Pe) (i : Reg) (v : Word) : (p.setReg i v).halted = p.halted := rfl
@[simp] theorem Pe.setReg_started (p : Pe) (i : Reg) (v : Word) : (p.setReg i v).started = p.started := rfl
@[simp] theorem Pe.setReg_steps (p : Pe) (i : Reg) (v : Word) : (p.setReg i v).steps = p.steps := rfl
@[simp] theorem Pe.setReg_maxSteps (p : Pe) (i : Reg) (v : Word) : (p.setReg i v).maxSteps = p.maxSteps := rfl
@[simp] theorem Pe.retire_pc (p : Pe) (pc : Int) : (p.retire pc).pc = pc := rfl
@[simp] theorem Pe.retire_steps (p : Pe) (pc : Int) : (p.retire pc).steps = p.steps + 1 := rfl
@[simp] theorem Pe.retire_program (p : Pe) (pc : Int) : (p.retire pc).program = p.program := rfl
@[simp] theorem Pe.retire_halted (p : Pe) (pc : Int) : (p.retire pc).halted = p.halted := rfl
@[simp] theorem Pe.retire_started (p : Pe) (pc : Int) : (p.retire pc).started = p.started := rfl
@[simp] theorem Pe.retire_maxSteps (p : Pe) (pc : Int) : (p.retire pc).maxSteps = p.maxSteps := rfl
@[simp] theorem Pe.retire_reg (p : Pe) (pc : Int) (i : Reg) : (p.retire pc).reg i = p.reg i := rfl
@[simp] theorem Pe.retire_isWritten (p : Pe) (pc : Int) (i : Reg) : (p.retire pc).isWritten i = p.isWritten i := rfl

/-! ### The host's updates of a PE -/
@[simp] theorem Pe.run_reg (p : Pe) (b : Option Nat) (i : Reg) : (p.run b).reg i = p.reg i := rfl
@[simp] theorem Pe.run_isWritten (p : Pe) (b : Option Nat) (i : Reg) : (p.run b).isWritten i = p.isWritten i := rfl
@[simp] theorem Pe.run_pc (p : Pe) (b : Option Nat) : (p.run b).pc = p.pc := rfl
@[simp] theorem Pe.run_program (p : Pe) (b : Option Nat) : (p.run b).program = p.program := rfl
@[simp] theorem Pe.run_halted (p : Pe) (b : Option Nat) : (p.run b).halted = p.halted := rfl
@[simp] theorem Pe.run_started (p : Pe) (b : Option Nat) : (p.run b).started = true := rfl
@[simp] theorem Pe.run_steps (p : Pe) (b : Option Nat) : (p.run b).steps = p.steps := rfl
@[simp] theorem Pe.run_maxSteps (p : Pe) (b : Option Nat) : (p.run b).maxSteps = b.map (p.steps + ·) := rfl

/-- Writing registers changes the register file alone. -/
theorem Pe.setRegs_eq (p : Pe) (regs : List (Reg × Word)) :
    p.setRegs regs = { p with x := (p.setRegs regs).x, written := (p.setRegs regs).written } := by
  induction regs generalizing p with
  | nil => rfl
  | cons r rest ih => exact ih (p.setReg r.1 r.2)

/-- A register counts as written when it was or when the host wrote it. -/
theorem Pe.isWritten_setRegs (p : Pe) (regs : List (Reg × Word)) (i : Reg) :
    (p.setRegs regs).isWritten i = true ↔ p.isWritten i = true ∨ ∃ v, (i, v) ∈ regs := by
  induction regs generalizing p with
  | nil => simp [Pe.setRegs]
  | cons r rest ih =>
    rw [show p.setRegs (r :: rest) = (p.setReg r.1 r.2).setRegs rest from rfl, ih, Pe.isWritten_setReg]
    by_cases h : i = r.1
    · subst h; simp; exact .inr ⟨r.2, .inl rfl⟩
    · have : ∀ v, (i, v) ≠ r := fun v e => h (congrArg Prod.fst e)
      simp [h, this]

end Sys2Proof.Machine
end

