-- ==== Sys2Proof/Laws/Bus.lean ====
section
/-! SUPPORT. What each operation of the interconnect and of a snooped or filled cache does: which parts of the state it can
change (BusOnly), the frames after it, the bytes and staging slots after it, and what it counts and records. -/

namespace Sys2Proof.Machine

/-! ### The parts no bus operation touches -/

/-- `t` differs from `s` in caches, shared memory, staging and the sticky bit at most. -/
structure BusOnly (s t : State) : Prop where
  ports : t.ports = s.ports
  pes : t.pes = s.pes
  fault : t.fault = s.fault
  regPolicy : t.regPolicy = s.regPolicy
  turn : t.turn = s.turn
  tick : t.tick = s.tick
  cmds : t.cmds = s.cmds
  resp : t.resp = s.resp

theorem BusOnly.refl (s : State) : BusOnly s s := ⟨rfl, rfl, rfl, rfl, rfl, rfl, rfl, rfl⟩

theorem BusOnly.trans {s t u : State} (h : BusOnly s t) (g : BusOnly t u) : BusOnly s u :=
  ⟨g.1.trans h.1, g.2.trans h.2, g.3.trans h.3, g.4.trans h.4, g.5.trans h.5, g.6.trans h.6, g.7.trans h.7, g.8.trans h.8⟩

theorem BusOnly.pe {s t : State} (h : BusOnly s t) (k : PeId) : t.pe k = s.pe k := by unfold State.pe; simp only [h.pes]
theorem BusOnly.port {s t : State} (h : BusOnly s t) (k : PeId) : t.port k = s.port k := by
  unfold State.port; simp only [h.ports]
theorem BusOnly.reg {s t : State} (h : BusOnly s t) (k : PeId) (i : Reg) : t.reg k i = s.reg k i := by
  unfold State.reg; rw [h.pe]

theorem busOnly_modCache (s : State) (k : PeId) (f : Cache → Cache) : BusOnly s (s.modCache k f) :=
  ⟨rfl, rfl, rfl, rfl, rfl, rfl, rfl, rfl⟩
theorem busOnly_count (s : State) (k : PeId) (f : CacheCounters → CacheCounters) : BusOnly s (s.count k f) :=
  busOnly_modCache s k _
theorem busOnly_modFrame (s : State) (k : PeId) (st : SetIx) (w : WayIx) (f : Line → Line) : BusOnly s (s.modFrame k st w f) :=
  busOnly_modCache s k _
theorem busOnly_record (s : State) (k : PeId) (f t : Mesi) : BusOnly s (s.record k f t) := busOnly_modCache s k _
theorem busOnly_touch (s : State) (k : PeId) (st : SetIx) (w : WayIx) : BusOnly s (s.touch k st w) := busOnly_modCache s k _
theorem busOnly_handleFlush (k : PeId) (a : Word) (p : LineData) (s : State) : BusOnly s (handleFlush k a p s) :=
  ⟨rfl, rfl, rfl, rfl, rfl, rfl, rfl, rfl⟩
theorem busOnly_flushFrame (k : PeId) (st : SetIx) (l : Line) (s : State) : BusOnly s (flushFrame k st l s) :=
  (busOnly_count s k _).trans (busOnly_handleFlush k _ _ _)
theorem busOnly_cleanFrame (j : PeId) (st : SetIx) (w : WayIx) (s : State) : BusOnly s (cleanFrame j st w s) :=
  busOnly_modFrame s j st w _
theorem busOnly_invalidateFrame (j : PeId) (st : SetIx) (w : WayIx) (o : Mesi) (s : State) :
    BusOnly s (invalidateFrame j st w o s) :=
  ((busOnly_record s j o .I).trans (busOnly_modFrame _ j st w _)).trans (busOnly_count _ j _)
theorem busOnly_downgradeFrame (j : PeId) (st : SetIx) (w : WayIx) (o : Mesi) (s : State) :
    BusOnly s (downgradeFrame j st w o s) :=
  (busOnly_record s j o .S).trans (busOnly_modFrame _ j st w _)

theorem busOnly_snoopRow (j : PeId) (kind : SnoopKind) (st : SetIx) (w : WayIx) (l : Line) (s : State) :
    BusOnly s (snoopRow j kind st w l s) := by
  unfold snoopRow
  split
  · exact ((busOnly_flushFrame j st l s).trans (busOnly_cleanFrame j st w _)).trans (busOnly_downgradeFrame j st w _ _)
  · exact busOnly_downgradeFrame j st w _ _
  · exact BusOnly.refl s
  · exact BusOnly.refl s
  · exact ((busOnly_flushFrame j st l s).trans (busOnly_cleanFrame j st w _)).trans (busOnly_invalidateFrame j st w _ _)
  · exact busOnly_invalidateFrame j st w _ _
  · exact busOnly_invalidateFrame j st w _ _
  · exact BusOnly.refl s

theorem busOnly_snoopWay (j : PeId) (kind : SnoopKind) (a : Word) (w : WayIx) (s : State) :
    BusOnly s (snoopWay j kind a w s) := by
  unfold snoopWay; dsimp only
  split
  · exact busOnly_snoopRow _ _ _ _ _ _
  · exact BusOnly.refl s

theorem busOnly_snoop (j : PeId) (kind : SnoopKind) (a : Word) (s : State) : BusOnly s (snoop j kind a s) :=
  (busOnly_snoopWay j kind a 0 s).trans (busOnly_snoopWay j kind a 1 _)

/-- A property of pairs of states that a snoop of each peer has, and that composes, holds across a broadcast: the one
induction over the broadcast's list. -/
theorem broadcast_induction {src : PeId} {kind : SnoopKind} {a : Word} (P : State → State → Prop)
    (refl : ∀ s, P s s) (trans : ∀ s t u, P s t → P t u → P s u)
    (step : ∀ j s, j ≠ src → P s (snoop j kind a s)) (s : State) : P s (broadcast src kind a s) := by
  have one : ∀ j s, P s (snoopPeer src kind a s j) := by
    intro j s; unfold snoopPeer; split
    · exact refl s
    · exact step j s ‹_›
  unfold broadcast
  simp only [List.foldl_cons, List.foldl_nil]
  exact trans _ _ _ (trans _ _ _ (trans _ _ _ (one 0 s) (one 1 _)) (one 2 _)) (one 3 _)

theorem busOnly_broadcast (src : PeId) (kind : SnoopKind) (a : Word) (s : State) : BusOnly s (broadcast src kind a s) :=
  broadcast_induction BusOnly BusOnly.refl (fun _ _ _ => BusOnly.trans) (fun j s _ => busOnly_snoop j kind a s) s

theorem busOnly_sourceLine (b : Word) (src : PeId) (s : State) : BusOnly s (sourceLine b src s).2 := by
  unfold sourceLine
  split <;> exact ⟨rfl, rfl, rfl, rfl, rfl, rfl, rfl, rfl⟩

theorem busOnly_installLine (k : PeId) (a : Word) (line : LineData) (new : Mesi) (s : State) :
    BusOnly s (installLine k a line new s) := by
  unfold installLine; dsimp only
  refine BusOnly.trans ?_ (busOnly_record _ _ _ _)
  refine BusOnly.trans ?_ (busOnly_touch _ _ _ _)
  refine BusOnly.trans ?_ (busOnly_modFrame _ _ _ _ _)
  split
  · exact busOnly_flushFrame _ _ _ _
  · exact BusOnly.refl s

theorem busOnly_emitBusRd (src : PeId) (a : Word) (s : State) : BusOnly s (emitBusRd src a s) :=
  ((busOnly_broadcast src .read a s).trans (busOnly_sourceLine _ _ _)).trans (busOnly_installLine _ _ _ _ _)

theorem busOnly_emitBusRdX (src : PeId) (a : Word) (s : State) : BusOnly s (emitBusRdX src a s) :=
  ((busOnly_broadcast src .invalidate a s).trans (busOnly_sourceLine _ _ _)).trans (busOnly_installLine _ _ _ _ _)

theorem busOnly_emitInvalidate (src : PeId) (a : Word) (s : State) : BusOnly s (emitInvalidate src a s) :=
  busOnly_broadcast src .invalidate a s

/-! ### Flush (R196) -/

@[simp] theorem handleFlush_caches (k : PeId) (a : Word) (p : LineData) (s : State) :
    (handleFlush k a p s).caches = s.caches := rfl
@[simp] theorem handleFlush_cache (k : PeId) (a : Word) (p : LineData) (s : State) (j : PeId) :
    (handleFlush k a p s).cache j = s.cache j := rfl
@[simp] theorem handleFlush_frame (k : PeId) (a : Word) (p : LineData) (s : State) (j : PeId) (st : SetIx) (w : WayIx) :
    (handleFlush k a p s).frame j st w = s.frame j st w := rfl
@[simp] theorem handleFlush_staging (k : PeId) (a : Word) (p : LineData) (s : State) :
    (handleFlush k a p s).staging = mapInsert (baseOf a).toNat p s.staging := rfl

/-- The 32 bytes of a backed line are in range, those of an unbacked one are not (R124). -/
theorem shmInRange_line (b : Word) (h : b.toNat % 32 = 0) : shmInRange b 32 = decide (b.toNat < 4096) := by
  by_cases h2 : b.toNat < 4096
  · simp only [h2, decide_true]; exact (shmInRange_iff b 32).2 ⟨by norm_num, by omega⟩
  · simp only [h2, decide_false]
    rw [Bool.eq_false_iff]; intro h3
    have := (shmInRange_iff b 32).1 h3
    omega

theorem baseOf_mod (a : Word) : (baseOf a).toNat % 32 = 0 := by rw [baseOf_toNat]; omega

/-- The shared memory's bytes after a Flush: those of a backed line are the payload's (R196, R198). -/
theorem handleFlush_mem (k : PeId) (a : Word) (p : LineData) (s : State) :
    (handleFlush k a p s).shm.mem =
      if (baseOf a).toNat < 4096 then memWriteBytes s.shm.mem (baseOf a).toNat p.toList else s.shm.mem := by
  show (shmWrite (baseOf a) p.toList 32 (some k) s.shm).2.mem = _
  have hl : p.toList.length = 32 := by simp
  rw [shmWrite_mem, shmInRange_line _ (baseOf_mod a)]
  by_cases h : (baseOf a).toNat < 4096
  · rw [if_pos (by simp [h]), if_pos h, List.take_of_length_le (le_of_eq hl)]
  · rw [if_neg (by simp [h]), if_neg h]

/-- A byte of the shared memory after a Flush (R196). -/
theorem memRead_handleFlush {s : State} (hs : mapSorted s.shm.mem = true) (k : PeId) (a : Word) (p : LineData) (x : Nat) :
    memRead (handleFlush k a p s).shm.mem x =
      if (baseOf a).toNat < 4096 ∧ inLine x (baseOf a).toNat then lineByte p (x - (baseOf a).toNat)
      else memRead s.shm.mem x := by
  rw [handleFlush_mem]
  by_cases h : (baseOf a).toNat < 4096
  · rw [if_pos h, memRead_memWriteBytes hs, lineByte_toList]
    simp [h, inLine]
  · simp [h]

/-- The sticky bit after a Flush: set when the line is not backed, else as before (R196). -/
theorem handleFlush_shmFault (k : PeId) (a : Word) (p : LineData) (s : State) :
    (handleFlush k a p s).shmFault = (s.shmFault || decide (4096 ≤ (baseOf a).toNat)) := by
  show stickyFault s.shmFault (shmWrite (baseOf a) p.toList 32 (some k) s.shm).1 = _
  unfold shmWrite
  rw [shmInRange_line _ (baseOf_mod a)]
  by_cases h : (baseOf a).toNat < 4096
  · simp [h, stickyFault, Nat.not_le.2 h]
  · simp [h, stickyFault, Nat.not_lt.1 h]

theorem mapSorted_mem_handleFlush {s : State} (hs : mapSorted s.shm.mem = true) (k : PeId) (a : Word) (p : LineData) :
    mapSorted (handleFlush k a p s).shm.mem = true := by
  rw [handleFlush_mem]; split
  · exact mapSorted_memWriteBytes hs _ _
  · exact hs

theorem memory_wf_handleFlush {s : State} (hs : Memory.wf s.shm.mem = true) (k : PeId) (a : Word) (p : LineData) :
    Memory.wf (handleFlush k a p s).shm.mem = true :=
  memory_wf_shmWrite hs _ _ _ _

@[simp] theorem flushFrame_frame (k : PeId) (e : SetIx) (l : Line) (s : State) (j : PeId) (st : SetIx) (w : WayIx) :
    (flushFrame k e l s).frame j st w = s.frame j st w := by simp [flushFrame]
@[simp] theorem flushFrame_log (k : PeId) (e : SetIx) (l : Line) (s : State) (j : PeId) :
    ((flushFrame k e l s).cache j).log = (s.cache j).log := by simp [flushFrame]
@[simp] theorem flushFrame_transCount (k : PeId) (e : SetIx) (l : Line) (s : State) (j : PeId) (f t : Mesi) :
    ((flushFrame k e l s).cache j).transCount f t = (s.cache j).transCount f t := by simp [flushFrame]
theorem flushFrame_ctr (k : PeId) (e : SetIx) (l : Line) (s : State) (j : PeId) :
    ((flushFrame k e l s).cache j).ctr =
      if j = k then { (s.cache k).ctr with flush := (s.cache k).ctr.flush + 1 } else (s.cache j).ctr := by
  simp [flushFrame, State.count_ctr]
theorem flushFrame_staging (k : PeId) (e : SetIx) (l : Line) (s : State) :
    (flushFrame k e l s).staging = mapInsert (lineBase l.tag e).toNat l.data s.staging := by simp [flushFrame]
theorem flushFrame_shm_mem (k : PeId) (e : SetIx) (l : Line) (s : State) :
    (flushFrame k e l s).shm.mem = (handleFlush k (lineBase l.tag e) l.data s).shm.mem := by
  unfold flushFrame; rw [handleFlush_mem, handleFlush_mem]; rfl

/-! ### The snoop (R154 to R160) -/

@[simp] theorem cleanFrame_ctr (j : PeId) (st : SetIx) (w : WayIx) (s : State) (i : PeId) :
    ((cleanFrame j st w s).cache i).ctr = (s.cache i).ctr := by simp [cleanFrame]
@[simp] theorem cleanFrame_log (j : PeId) (st : SetIx) (w : WayIx) (s : State) (i : PeId) :
    ((cleanFrame j st w s).cache i).log = (s.cache i).log := by simp [cleanFrame]
@[simp] theorem cleanFrame_transCount (j : PeId) (st : SetIx) (w : WayIx) (s : State) (i : PeId) (f t : Mesi) :
    ((cleanFrame j st w s).cache i).transCount f t = (s.cache i).transCount f t := by simp [cleanFrame]
@[simp] theorem cleanFrame_shm (j : PeId) (st : SetIx) (w : WayIx) (s : State) : (cleanFrame j st w s).shm = s.shm := rfl
@[simp] theorem cleanFrame_staging (j : PeId) (st : SetIx) (w : WayIx) (s : State) :
    (cleanFrame j st w s).staging = s.staging := rfl
@[simp] theorem invalidateFrame_shm (j : PeId) (st : SetIx) (w : WayIx) (o : Mesi) (s : State) :
    (invalidateFrame j st w o s).shm = s.shm := rfl
@[simp] theorem invalidateFrame_staging (j : PeId) (st : SetIx) (w : WayIx) (o : Mesi) (s : State) :
    (invalidateFrame j st w o s).staging = s.staging := rfl
@[simp] theorem downgradeFrame_shm (j : PeId) (st : SetIx) (w : WayIx) (o : Mesi) (s : State) :
    (downgradeFrame j st w o s).shm = s.shm := rfl
@[simp] theorem downgradeFrame_staging (j : PeId) (st : SetIx) (w : WayIx) (o : Mesi) (s : State) :
    (downgradeFrame j st w o s).staging = s.staging := rfl
@[simp] theorem downgradeFrame_ctr (j : PeId) (st : SetIx) (w : WayIx) (o : Mesi) (s : State) (i : PeId) :
    ((downgradeFrame j st w o s).cache i).ctr = (s.cache i).ctr := by simp [downgradeFrame]
theorem downgradeFrame_log (j : PeId) (st : SetIx) (w : WayIx) (o : Mesi) (s : State) (i : PeId) :
    ((downgradeFrame j st w o s).cache i).log = if i = j then (s.cache j).log ++ [(o, .S)] else (s.cache i).log := by
  simp [downgradeFrame, State.record_log]
theorem downgradeFrame_transCount (j : PeId) (st : SetIx) (w : WayIx) (o : Mesi) (s : State) (i : PeId) (f t : Mesi) :
    ((downgradeFrame j st w o s).cache i).transCount f t =
      (s.cache i).transCount f t + if i = j ∧ f = o ∧ t = .S then 1 else 0 := by
  simp [downgradeFrame, State.record_transCount]
theorem invalidateFrame_ctr (j : PeId) (st : SetIx) (w : WayIx) (o : Mesi) (s : State) (i : PeId) :
    ((invalidateFrame j st w o s).cache i).ctr =
      if i = j then { (s.cache j).ctr with invalidations := (s.cache j).ctr.invalidations + 1 } else (s.cache i).ctr := by
  simp [invalidateFrame, State.count_ctr]
theorem invalidateFrame_log (j : PeId) (st : SetIx) (w : WayIx) (o : Mesi) (s : State) (i : PeId) :
    ((invalidateFrame j st w o s).cache i).log = if i = j then (s.cache j).log ++ [(o, .I)] else (s.cache i).log := by
  simp [invalidateFrame, State.record_log]
theorem invalidateFrame_transCount (j : PeId) (st : SetIx) (w : WayIx) (o : Mesi) (s : State) (i : PeId) (f t : Mesi) :
    ((invalidateFrame j st w o s).cache i).transCount f t =
      (s.cache i).transCount f t + if i = j ∧ f = o ∧ t = .I then 1 else 0 := by
  simp [invalidateFrame, State.record_transCount]

/-- What the snoop of one way can do: nothing, or one of the acting rows of the table. -/
theorem snoopWay_cases (j : PeId) (kind : SnoopKind) (a : Word) (w : WayIx) (s : State) :
    let l := s.frame j (setOf a) w
    let hit := l.valid = true ∧ l.tag = tagOf a
    (snoopWay j kind a w s = s ∧ (hit → l.state = .I ∨ (kind = .read ∧ l.state = .S))) ∨
    (hit ∧ kind = .read ∧ l.state = .M ∧
      snoopWay j kind a w s =
        downgradeFrame j (setOf a) w .M (cleanFrame j (setOf a) w (flushFrame j (setOf a) l s))) ∨
    (hit ∧ kind = .read ∧ l.state = .E ∧ snoopWay j kind a w s = downgradeFrame j (setOf a) w .E s) ∨
    (hit ∧ kind = .invalidate ∧ l.state = .M ∧
      snoopWay j kind a w s =
        invalidateFrame j (setOf a) w .M (cleanFrame j (setOf a) w (flushFrame j (setOf a) l s))) ∨
    (hit ∧ kind = .invalidate ∧ (l.state = .E ∨ l.state = .S) ∧
      snoopWay j kind a w s = invalidateFrame j (setOf a) w l.state s) := by
  dsimp only
  by_cases hit : (s.frame j (setOf a) w).valid = true ∧ (s.frame j (setOf a) w).tag = tagOf a
  · have h1 : snoopWay j kind a w s = snoopRow j kind (setOf a) w (s.frame j (setOf a) w) s := by
      unfold snoopWay; simp [hit.1, hit.2]
    rw [h1]
    cases kind <;> cases hst : (s.frame j (setOf a) w).state <;> simp [snoopRow, hst, hit.1, hit.2]
  · left
    refine ⟨?_, fun h => absurd h hit⟩
    unfold snoopWay; dsimp only
    rw [if_neg]
    simpa using hit

theorem snoopHit_iff (a : Word) (st : SetIx) (l : Line) :
    snoopHit a st l = true ↔ st = setOf a ∧ l.valid = true ∧ l.tag = tagOf a := by
  simp [snoopHit, and_assoc]

/-- The frames after the snoop of one way. -/
theorem snoopWay_frame (i : PeId) (kind : SnoopKind) (a : Word) (v : WayIx) (s : State) (j : PeId) (st : SetIx) (w : WayIx) :
    (snoopWay i kind a v s).frame j st w =
      if j = i ∧ w = v then snoopedLine kind a st (s.frame j st w) else s.frame j st w := by
  by_cases hj : j = i ∧ w = v
  · obtain ⟨rfl, rfl⟩ := hj
    rw [if_pos ⟨rfl, rfl⟩]
    by_cases hst : st = setOf a
    · subst hst
      have hc := snoopWay_cases j kind a w s
      dsimp only at hc
      unfold snoopedLine
      rcases hc with ⟨h, hn⟩ | ⟨⟨h1, h2⟩, rfl, h3, h⟩ | ⟨⟨h1, h2⟩, rfl, h3, h⟩ | ⟨⟨h1, h2⟩, rfl, h3, h⟩ | ⟨⟨h1, h2⟩, rfl, h3, h⟩
      · rw [h]
        by_cases hh : snoopHit a (setOf a) (s.frame j (setOf a) w) = true
        · rw [if_pos hh]
          obtain ⟨_, h1, h2⟩ := (snoopHit_iff _ _ _).1 hh
          rcases hn ⟨h1, h2⟩ with h3 | ⟨rfl, h3⟩
          · cases kind <;> simp [h3]
          · simp [h3]
        · rw [if_neg hh]
      all_goals
        rw [if_pos ((snoopHit_iff _ _ _).2 ⟨rfl, h1, h2⟩), h]
      · simp [downgradeFrame, cleanFrame, h3]
      · simp [downgradeFrame, h3]
      · simp [invalidateFrame, cleanFrame, h3]
      · rcases h3 with h3 | h3 <;> simp [invalidateFrame, h3]
    · have h0 : snoopedLine kind a st (s.frame j st w) = s.frame j st w := by
        unfold snoopedLine; rw [if_neg]; rw [snoopHit_iff]; exact fun h => hst h.1
      rw [h0]
      have hc := snoopWay_cases j kind a w s
      dsimp only at hc
      rcases hc with ⟨h, _⟩ | ⟨_, _, _, h⟩ | ⟨_, _, _, h⟩ | ⟨_, _, _, h⟩ | ⟨_, _, _, h⟩ <;> rw [h] <;>
        simp [downgradeFrame, cleanFrame, invalidateFrame, State.frame_modFrame, hst]
  · rw [if_neg hj]
    have hj' : ¬(j = i ∧ st = setOf a ∧ w = v) := fun h => hj ⟨h.1, h.2.2⟩
    have hc := snoopWay_cases i kind a v s
    dsimp only at hc
    rcases hc with ⟨h, _⟩ | ⟨_, _, _, h⟩ | ⟨_, _, _, h⟩ | ⟨_, _, _, h⟩ | ⟨_, _, _, h⟩ <;> rw [h] <;>
      simp [downgradeFrame, cleanFrame, invalidateFrame, State.frame_modFrame, hj']

/-- The frames after a snoop. -/
theorem snoop_frame (i : PeId) (kind : SnoopKind) (a : Word) (s : State) (j : PeId) (st : SetIx) (w : WayIx) :
    (snoop i kind a s).frame j st w = if j = i then snoopedLine kind a st (s.frame j st w) else s.frame j st w := by
  unfold snoop
  rw [snoopWay_frame, snoopWay_frame]
  by_cases hj : j = i
  · rcases wayIx_cases w with rfl | rfl <;> simp [hj]
  · simp [hj]

/-- The frames after a broadcast (R203): every cache but the source has snooped. -/
theorem broadcast_frame (src : PeId) (kind : SnoopKind) (a : Word) (s : State) (j : PeId) (st : SetIx) (w : WayIx) :
    (broadcast src kind a s).frame j st w =
      if j = src then s.frame j st w else snoopedLine kind a st (s.frame j st w) := by
  have one : ∀ i s, (snoopPeer src kind a s i).frame j st w =
      if j = i ∧ i ≠ src then snoopedLine kind a st (s.frame j st w) else s.frame j st w := by
    intro i s; unfold snoopPeer; split
    · next h => simp [h]
    · next h => rw [snoop_frame]; simp [h]
  unfold broadcast
  simp only [List.foldl_cons, List.foldl_nil, one]
  have hj := peId_cases j
  by_cases hs : j = src
  · subst hs
    rcases hj with rfl | rfl | rfl | rfl <;> simp
  · rcases hj with rfl | rfl | rfl | rfl <;> simp [hs]

/-- A snoop never changes an LRU bit (R142). -/
theorem State.lru_modFrame (s : State) (k : PeId) (e : SetIx) (v : WayIx) (f : Line → Line) (j : PeId) (st : SetIx) :
    (((s.modFrame k e v f).cache j).cset st).lru = ((s.cache j).cset st).lru := by
  unfold State.modFrame; rw [State.cache_modCache]; split
  · next h => subst h; rw [Cache.cset_modSet]; split <;> simp_all
  · rfl

theorem State.lru_count (s : State) (k : PeId) (f : CacheCounters → CacheCounters) (j : PeId) (st : SetIx) :
    (((s.count k f).cache j).cset st).lru = ((s.cache j).cset st).lru := by
  rw [State.cache_count]; split <;> simp_all [Cache.cset]

theorem State.lru_record (s : State) (k : PeId) (f t : Mesi) (j : PeId) (st : SetIx) :
    (((s.record k f t).cache j).cset st).lru = ((s.cache j).cset st).lru := by
  unfold State.record; rw [State.cache_modCache]; split <;> simp_all [Cache.cset]

theorem State.lru_touch (s : State) (k : PeId) (e : SetIx) (w : WayIx) (j : PeId) (st : SetIx) :
    (((s.touch k e w).cache j).cset st).lru = if j = k ∧ st = e then 1 - w else ((s.cache j).cset st).lru := by
  unfold State.touch; rw [State.cache_modCache]
  by_cases h : j = k
  · subst h; simp only [if_true, Cache.cset_modSet, true_and]; split <;> simp_all
  · simp [h]

theorem snoopWay_lru (i : PeId) (kind : SnoopKind) (a : Word) (v : WayIx) (s : State) (j : PeId) (st : SetIx) :
    (((snoopWay i kind a v s).cache j).cset st).lru = ((s.cache j).cset st).lru := by
  have hc := snoopWay_cases i kind a v s
  dsimp only at hc
  rcases hc with ⟨h, _⟩ | ⟨_, _, _, h⟩ | ⟨_, _, _, h⟩ | ⟨_, _, _, h⟩ | ⟨_, _, _, h⟩ <;> rw [h] <;>
    simp [downgradeFrame, cleanFrame, invalidateFrame, flushFrame, State.lru_modFrame, State.lru_count, State.lru_record]

theorem broadcast_lru (src : PeId) (kind : SnoopKind) (a : Word) (s : State) (j : PeId) (st : SetIx) :
    (((broadcast src kind a s).cache j).cset st).lru = ((s.cache j).cset st).lru :=
  broadcast_induction (fun s t => ((t.cache j).cset st).lru = ((s.cache j).cset st).lru) (fun _ => rfl)
    (fun _ _ _ h g => g.trans h) (fun i s _ => by unfold snoop; rw [snoopWay_lru, snoopWay_lru]) s

/-- No frame that a snoop of cache `j` matches is in M: then the snoop flushes nothing. -/
def noDirtyHit (s : State) (j : PeId) (a : Word) : Prop :=
  ∀ w, (s.frame j (setOf a) w).holds (tagOf a) = true → (s.frame j (setOf a) w).state ≠ .M

theorem Line.holds_iff (l : Line) (t : Tag) : l.holds t = true ↔ l.valid = true ∧ l.tag = t ∧ l.state ≠ .I := by
  simp [Line.holds, and_assoc]

theorem Line.live_iff (l : Line) : l.live = true ↔ l.valid = true ∧ l.state ≠ .I := by
  simp [Line.live]

/-- Without a dirty match the snoop of a way leaves shared memory, staging and the sticky bit alone. -/
theorem snoopWay_bus_of_clean {i : PeId} {kind : SnoopKind} {a : Word} {v : WayIx} {s : State}
    (h : (s.frame i (setOf a) v).holds (tagOf a) = true → (s.frame i (setOf a) v).state ≠ .M) :
    (snoopWay i kind a v s).shm = s.shm ∧ (snoopWay i kind a v s).staging = s.staging ∧
      (snoopWay i kind a v s).shmFault = s.shmFault := by
  have hc := snoopWay_cases i kind a v s
  dsimp only at hc
  rcases hc with ⟨e, _⟩ | ⟨⟨h1, h2⟩, _, h3, e⟩ | ⟨_, _, _, e⟩ | ⟨⟨h1, h2⟩, _, h3, e⟩ | ⟨_, _, _, e⟩
  · rw [e]; exact ⟨rfl, rfl, rfl⟩
  · exact absurd h3 (h ((Line.holds_iff _ _).2 ⟨h1, h2, by simp [h3]⟩))
  · rw [e]; exact ⟨rfl, rfl, rfl⟩
  · exact absurd h3 (h ((Line.holds_iff _ _).2 ⟨h1, h2, by simp [h3]⟩))
  · rw [e]; exact ⟨rfl, rfl, rfl⟩

/-- With a dirty match the snoop of a way flushes that frame's line, at the base of the transaction's address. -/
theorem snoopWay_bus_of_dirty {i : PeId} {kind : SnoopKind} {a : Word} {v : WayIx} {s : State}
    (h : (s.frame i (setOf a) v).holds (tagOf a) = true) (hM : (s.frame i (setOf a) v).state = .M) :
    (snoopWay i kind a v s).shm = (handleFlush i a (s.frame i (setOf a) v).data s).shm ∧
      (snoopWay i kind a v s).staging = (handleFlush i a (s.frame i (setOf a) v).data s).staging ∧
      (snoopWay i kind a v s).shmFault = (handleFlush i a (s.frame i (setOf a) v).data s).shmFault := by
  obtain ⟨h1, h2, _⟩ := (Line.holds_iff _ _).1 h
  have hb : baseOf (lineBase (s.frame i (setOf a) v).tag (setOf a)) = baseOf a := by rw [h2]; simp
  have key : (flushFrame i (setOf a) (s.frame i (setOf a) v) s).shm = (handleFlush i a (s.frame i (setOf a) v).data s).shm ∧
      (flushFrame i (setOf a) (s.frame i (setOf a) v) s).staging =
        (handleFlush i a (s.frame i (setOf a) v).data s).staging ∧
      (flushFrame i (setOf a) (s.frame i (setOf a) v) s).shmFault =
        (handleFlush i a (s.frame i (setOf a) v).data s).shmFault := by
    unfold flushFrame handleFlush; dsimp only
    rw [hb]; exact ⟨rfl, rfl, rfl⟩
  have hc := snoopWay_cases i kind a v s
  dsimp only at hc
  rcases hc with ⟨_, hn⟩ | ⟨_, _, _, e⟩ | ⟨_, _, h3, _⟩ | ⟨_, _, _, e⟩ | ⟨_, _, h3, _⟩
  · rcases hn ⟨h1, h2⟩ with h3 | ⟨_, h3⟩ <;> simp [hM] at h3
  · rw [e]; exact key
  · simp [hM] at h3
  · rw [e]; exact key
  · rcases h3 with h3 | h3 <;> simp [hM] at h3

/-- Memory and staging after a bus operation are as before outside the line at base `b`, and stay canonical. -/
structure OutsideLine (b : Nat) (s t : State) : Prop where
  mem : mapSorted s.shm.mem = true → ∀ x, ¬inLine x b → memRead t.shm.mem x = memRead s.shm.mem x
  slots : ∀ x, x ≠ b → mapSorted s.staging = true → mapFind x t.staging = mapFind x s.staging
  memSorted : mapSorted s.shm.mem = true → mapSorted t.shm.mem = true
  stagingSorted : mapSorted s.staging = true → mapSorted t.staging = true
  memWf : Memory.wf s.shm.mem = true → Memory.wf t.shm.mem = true
  sticky : s.shmFault = true → t.shmFault = true

theorem OutsideLine.refl (b : Nat) (s : State) : OutsideLine b s s :=
  ⟨fun _ _ _ => rfl, fun _ _ _ => rfl, id, id, id, id⟩

theorem OutsideLine.trans {b : Nat} {s t u : State} (h : OutsideLine b s t) (g : OutsideLine b t u) : OutsideLine b s u :=
  ⟨fun hs x hx => (g.mem (h.memSorted hs) x hx).trans (h.mem hs x hx),
    fun x hx hs => (g.slots x hx (h.stagingSorted hs)).trans (h.slots x hx hs),
    fun hs => g.memSorted (h.memSorted hs), fun hs => g.stagingSorted (h.stagingSorted hs),
    fun hs => g.memWf (h.memWf hs), fun hs => g.sticky (h.sticky hs)⟩

theorem outsideLine_of_eq {b : Nat} {s t : State} (h1 : t.shm = s.shm) (h2 : t.staging = s.staging)
    (h3 : t.shmFault = s.shmFault) : OutsideLine b s t :=
  ⟨fun _ _ _ => by rw [h1], fun _ _ _ => by rw [h2], by rw [h1]; exact id, by rw [h2]; exact id, by rw [h1]; exact id,
    by rw [h3]; exact id⟩

theorem outsideLine_handleFlush (k : PeId) (a : Word) (p : LineData) (s : State) :
    OutsideLine (baseOf a).toNat s (handleFlush k a p s) where
  mem hs x hx := by rw [memRead_handleFlush hs, if_neg (fun h => hx h.2)]
  slots x hx _ := by rw [handleFlush_staging, mapFind_mapInsert, if_neg hx]
  memSorted hs := mapSorted_mem_handleFlush hs k a p
  stagingSorted hs := by rw [handleFlush_staging]; exact mapSorted_mapInsert _ _ hs
  memWf hs := memory_wf_handleFlush hs k a p
  sticky hs := by rw [handleFlush_shmFault, hs]; rfl

/-- A backed Flush counts one write of 32 bytes for its source; an unbacked one counts nothing (R124, R196). -/
theorem handleFlush_shm_of_backed {a : Word} (h : backed (baseOf a)) (k : PeId) (p : LineData) (s : State) :
    (handleFlush k a p s).shm =
      ({ s.shm with mem := memWriteBytes s.shm.mem (baseOf a).toNat p.toList } : Shm).countWrite 32 (some k) := by
  have hr := shmInRange_line (baseOf a) (baseOf_mod a)
  rw [decide_eq_true (show (baseOf a).toNat < 4096 from h)] at hr
  have ht : p.toList.take 32 = p.toList := List.take_of_length_le (by simp)
  simp [handleFlush, shmWrite, Config.lineBytes, hr, ht]

theorem handleFlush_shm_of_unbacked {a : Word} (h : ¬backed (baseOf a)) (k : PeId) (p : LineData) (s : State) :
    (handleFlush k a p s).shm = s.shm := by
  have hr := shmInRange_line (baseOf a) (baseOf_mod a)
  rw [decide_eq_false (show ¬(baseOf a).toNat < 4096 from h)] at hr
  simp [handleFlush, shmWrite, Config.lineBytes, hr]

theorem outsideLine_congr {b : Nat} {s t u : State} (h : OutsideLine b s t) (h1 : u.shm = t.shm) (h2 : u.staging = t.staging)
    (h3 : u.shmFault = t.shmFault) : OutsideLine b s u :=
  h.trans (outsideLine_of_eq h1 h2 h3)

theorem outsideLine_snoopWay (i : PeId) (kind : SnoopKind) (a : Word) (v : WayIx) (s : State) :
    OutsideLine (baseOf a).toNat s (snoopWay i kind a v s) := by
  by_cases h : (s.frame i (setOf a) v).holds (tagOf a) = true ∧ (s.frame i (setOf a) v).state = .M
  · obtain ⟨h1, h2, h3⟩ := snoopWay_bus_of_dirty (kind := kind) h.1 h.2
    exact outsideLine_congr (outsideLine_handleFlush i a _ s) h1 h2 h3
  · obtain ⟨h1, h2, h3⟩ := snoopWay_bus_of_clean (kind := kind) (fun h1 h2 => h ⟨h1, h2⟩)
    exact outsideLine_of_eq h1 h2 h3

theorem outsideLine_broadcast (src : PeId) (kind : SnoopKind) (a : Word) (s : State) :
    OutsideLine (baseOf a).toNat s (broadcast src kind a s) :=
  broadcast_induction _ (OutsideLine.refl _) (fun _ _ _ => OutsideLine.trans)
    (fun i s _ => (outsideLine_snoopWay i kind a 0 s).trans (outsideLine_snoopWay i kind a 1 _)) s

/-- With no dirty match in any peer a broadcast leaves shared memory, staging and the sticky bit alone. -/
theorem broadcast_bus_of_clean {src : PeId} {kind : SnoopKind} {a : Word} {s : State}
    (h : ∀ j, j ≠ src → noDirtyHit s j a) :
    (broadcast src kind a s).shm = s.shm ∧ (broadcast src kind a s).staging = s.staging ∧
      (broadcast src kind a s).shmFault = s.shmFault := by
  have one : ∀ i t, (∀ st w, t.frame i st w = s.frame i st w) →
      (snoopPeer src kind a t i).shm = t.shm ∧ (snoopPeer src kind a t i).staging = t.staging ∧
      (snoopPeer src kind a t i).shmFault = t.shmFault := by
    intro i t ht
    unfold snoopPeer
    split
    · exact ⟨rfl, rfl, rfl⟩
    · next hi =>
      have hc := h i hi
      obtain ⟨a1, a2, a3⟩ := snoopWay_bus_of_clean (kind := kind) (i := i) (a := a) (v := 0) (s := t)
        (by rw [ht]; exact hc 0)
      obtain ⟨b1, b2, b3⟩ := snoopWay_bus_of_clean (kind := kind) (i := i) (a := a) (v := 1) (s := snoopWay i kind a 0 t)
        (by rw [snoopWay_frame, if_neg (by simp), ht]; exact hc 1)
      exact ⟨b1.trans a1, b2.trans a2, b3.trans a3⟩
  have fr : ∀ i j t st w, j ≠ i → (snoopPeer src kind a t i).frame j st w = t.frame j st w := by
    intro i j t st w hj
    unfold snoopPeer; split
    · rfl
    · rw [snoop_frame, if_neg hj]
  unfold broadcast
  simp only [List.foldl_cons, List.foldl_nil]
  obtain ⟨a1, a2, a3⟩ := one 0 s (fun _ _ => rfl)
  obtain ⟨b1, b2, b3⟩ := one 1 (snoopPeer src kind a s 0) (fun _ _ => by rw [fr 0 1 s _ _ (by decide)])
  obtain ⟨c1, c2, c3⟩ := one 2 (snoopPeer src kind a (snoopPeer src kind a s 0) 1)
    (fun _ _ => by rw [fr 1 2 _ _ _ (by decide), fr 0 2 s _ _ (by decide)])
  obtain ⟨d1, d2, d3⟩ := one 3 (snoopPeer src kind a (snoopPeer src kind a (snoopPeer src kind a s 0) 1) 2)
    (fun _ _ => by rw [fr 2 3 _ _ _ (by decide), fr 1 3 _ _ _ (by decide), fr 0 3 s _ _ (by decide)])
  exact ⟨d1.trans (c1.trans (b1.trans a1)), d2.trans (c2.trans (b2.trans a2)), d3.trans (c3.trans (b3.trans a3))⟩

/-! ### The data router (R202) -/

@[simp] theorem sourceLine_caches (b : Word) (src : PeId) (s : State) : (sourceLine b src s).2.caches = s.caches := by
  unfold sourceLine; split <;> rfl
@[simp] theorem sourceLine_cache (b : Word) (src : PeId) (s : State) (j : PeId) :
    (sourceLine b src s).2.cache j = s.cache j := by
  unfold State.cache; simp
@[simp] theorem sourceLine_frame (b : Word) (src : PeId) (s : State) (j : PeId) (st : SetIx) (w : WayIx) :
    (sourceLine b src s).2.frame j st w = s.frame j st w := by
  simp [State.frame]
@[simp] theorem sourceLine_mem (b : Word) (src : PeId) (s : State) : (sourceLine b src s).2.shm.mem = s.shm.mem := by
  unfold sourceLine; split <;> simp

/-- The slot of the base is gone after the line has been sourced, whether it was there or not (R197). -/
theorem sourceLine_staging (b : Word) (src : PeId) (s : State) :
    (sourceLine b src s).2.staging =
      match mapFind b.toNat s.staging with
      | some _ => mapErase b.toNat s.staging
      | none => s.staging := by
  unfold sourceLine; split <;> simp_all

theorem sourceLine_of_slot {b : Word} {s : State} {l : LineData} (h : mapFind b.toNat s.staging = some l) (src : PeId) :
    (sourceLine b src s).1 = l ∧ (sourceLine b src s).2.shm = s.shm ∧ (sourceLine b src s).2.shmFault = s.shmFault := by
  unfold sourceLine; rw [h]; exact ⟨rfl, rfl, rfl⟩

/-- Without a slot a backed line comes from the shared memory (R202). -/
theorem sourceLine_of_backed {b : Word} {s : State} (h : mapFind b.toNat s.staging = none) (hb : b.toNat % 32 = 0)
    (hb2 : b.toNat < 4096) (src : PeId) :
    (∀ i < 32, lineByte (sourceLine b src s).1 i = memRead s.shm.mem (b.toNat + i)) ∧
      (sourceLine b src s).2.shm = s.shm.countRead 32 (some src) ∧ (sourceLine b src s).2.shmFault = s.shmFault := by
  have hr : shmInRange b 32 = true := by rw [shmInRange_line b hb]; simp [hb2]
  unfold sourceLine; rw [h]
  simp only [Config.lineBytes, shmRead_of_inRange hr]
  refine ⟨fun i hi => ?_, trivial, rfl⟩
  rw [lineByte_lineOfBytes _ hi, memReadBytes_getD _ _ _ _ hi]

/-- Without a slot an unbacked line is all zero and the failure is recorded (R202, D6). -/
theorem sourceLine_of_unbacked {b : Word} {s : State} (h : mapFind b.toNat s.staging = none) (hb : b.toNat % 32 = 0)
    (hb2 : 4096 ≤ b.toNat) (src : PeId) :
    (∀ i < 32, lineByte (sourceLine b src s).1 i = 0) ∧
      (sourceLine b src s).2.shm = s.shm ∧ (sourceLine b src s).2.shmFault = true := by
  have hr : shmInRange b 32 = false := by rw [shmInRange_line b hb]; simp [Nat.not_lt.2 hb2]
  unfold sourceLine; rw [h]
  simp only [Config.lineBytes, shmRead_of_outOfRange hr]
  refine ⟨fun i hi => ?_, trivial, rfl⟩
  rw [lineByte_lineOfBytes _ hi]; simp

theorem stickyFault_of_true (st : Status) : stickyFault true st = true := by cases st <;> rfl

theorem outsideLine_sourceLine (b : Word) (src : PeId) (s : State) : OutsideLine b.toNat s (sourceLine b src s).2 where
  mem _ x _ := by rw [sourceLine_mem]
  slots x hx hs := by
    rw [sourceLine_staging]; split
    · rw [mapFind_mapErase _ _ hs, if_neg hx]
    · rfl
  memSorted hs := by rwa [sourceLine_mem]
  stagingSorted hs := by
    rw [sourceLine_staging]; split
    · exact mapSorted_mapErase _ hs
    · exact hs
  memWf hs := by rwa [sourceLine_mem]
  sticky hs := by
    unfold sourceLine; split
    · exact hs
    · simp only [hs]; exact stickyFault_of_true _

/-! ### Installing a line (R151 to R153) -/

/-- The line an installation writes. -/
def installedLine (a : Word) (line : LineData) (new : Mesi) : Line :=
  { valid := true, dirty := new == .M, state := new, tag := tagOf a, data := line }

/-- The frames after an installation. -/
theorem installLine_frame (k : PeId) (a : Word) (line : LineData) (new : Mesi) (s : State) (j : PeId) (st : SetIx)
    (w : WayIx) : (installLine k a line new s).frame j st w =
      if j = k ∧ st = setOf a ∧ w = s.chooseWay k (setOf a) then installedLine a line new else s.frame j st w := by
  unfold installLine installedLine; dsimp only
  simp only [State.record_frame, State.touch_frame, State.frame_modFrame]
  split
  · rfl
  · split <;> simp

/-- The LRU bits after an installation: the other way is the victim (R142). -/
theorem installLine_lru (k : PeId) (a : Word) (line : LineData) (new : Mesi) (s : State) (j : PeId) (st : SetIx) :
    (((installLine k a line new s).cache j).cset st).lru =
      if j = k ∧ st = setOf a then 1 - s.chooseWay k (setOf a) else ((s.cache j).cset st).lru := by
  unfold installLine; dsimp only
  rw [State.lru_record, State.lru_touch, State.lru_modFrame]
  split
  · rfl
  · split <;> simp [flushFrame, State.lru_count]

/-- An installation with a dirty victim flushes the victim's line to its own base first (R153, D18). -/
theorem installLine_bus_of_dirty {k : PeId} {a : Word} {s : State} (h : evictsDirty s k a) (line : LineData) (new : Mesi) :
    (installLine k a line new s).shm =
        (handleFlush k (victimBase s k a) (s.frame k (setOf a) (s.chooseWay k (setOf a))).data s).shm ∧
      (installLine k a line new s).staging =
        mapInsert (victimBase s k a).toNat (s.frame k (setOf a) (s.chooseWay k (setOf a))).data s.staging ∧
      (installLine k a line new s).shmFault =
        (handleFlush k (victimBase s k a) (s.frame k (setOf a) (s.chooseWay k (setOf a))).data s).shmFault := by
  have hb : baseOf (victimBase s k a) = victimBase s k a := by simp [victimBase]
  unfold installLine; dsimp only
  rw [if_pos (by simp [h.1, h.2])]
  refine ⟨rfl, ?_, rfl⟩
  rw [← hb]; rfl

/-- An installation without a dirty victim leaves shared memory, staging and the sticky bit alone (R78). -/
theorem installLine_bus_of_clean {k : PeId} {a : Word} {s : State} (h : ¬evictsDirty s k a) (line : LineData) (new : Mesi) :
    (installLine k a line new s).shm = s.shm ∧ (installLine k a line new s).staging = s.staging ∧
      (installLine k a line new s).shmFault = s.shmFault := by
  unfold installLine; dsimp only
  rw [if_neg (by simpa [evictsDirty] using h)]
  exact ⟨rfl, rfl, rfl⟩

theorem outsideLine_installLine (k : PeId) (a : Word) (line : LineData) (new : Mesi) (s : State) :
    OutsideLine (victimBase s k a).toNat s (installLine k a line new s) := by
  by_cases h : evictsDirty s k a
  · obtain ⟨h1, h2, h3⟩ := installLine_bus_of_dirty h line new
    have hb : baseOf (victimBase s k a) = victimBase s k a := by simp [victimBase]
    have g := outsideLine_handleFlush k (victimBase s k a) (s.frame k (setOf a) (s.chooseWay k (setOf a))).data s
    rw [hb] at g
    exact outsideLine_congr g h1 (by rw [h2, handleFlush_staging, hb]) h3
  · obtain ⟨h1, h2, h3⟩ := installLine_bus_of_clean h line new
    exact outsideLine_of_eq h1 h2 h3

/-- What an installation counts: a Flush when the victim is dirty (R151). -/
theorem installLine_ctr (k : PeId) (a : Word) (line : LineData) (new : Mesi) (s : State) (j : PeId) :
    ((installLine k a line new s).cache j).ctr =
      if j = k ∧ ((s.frame k (setOf a) (s.chooseWay k (setOf a))).valid &&
          (s.frame k (setOf a) (s.chooseWay k (setOf a))).state == .M) = true
      then { (s.cache k).ctr with flush := (s.cache k).ctr.flush + 1 } else (s.cache j).ctr := by
  unfold installLine; dsimp only
  rw [State.record_ctr, State.touch_ctr, State.modFrame_ctr]
  split
  · next h => rw [flushFrame_ctr]; simp [h]
  · next h => simp [h]

/-- What an installation records: the old state of the chosen frame and the new one (R151, C4). -/
theorem installLine_transCount (k : PeId) (a : Word) (line : LineData) (new : Mesi) (s : State) (j : PeId) (f t : Mesi) :
    ((installLine k a line new s).cache j).transCount f t = (s.cache j).transCount f t +
      if j = k ∧ f = (s.frame k (setOf a) (s.chooseWay k (setOf a))).state ∧ t = new then 1 else 0 := by
  unfold installLine; dsimp only
  rw [State.record_transCount, State.touch_transCount, State.modFrame_transCount]
  split <;> simp

theorem installLine_log (k : PeId) (a : Word) (line : LineData) (new : Mesi) (s : State) (j : PeId) :
    ((installLine k a line new s).cache j).log =
      if j = k then (s.cache k).log ++ [((s.frame k (setOf a) (s.chooseWay k (setOf a))).state, new)]
      else (s.cache j).log := by
  unfold installLine; dsimp only
  rw [State.record_log, State.touch_log, State.modFrame_log, State.touch_log, State.modFrame_log]
  split <;> split <;> simp

/-! ### Emit (R193 to R195) -/

theorem chooseWay_congr {s t : State} {k : PeId} {st : SetIx} (h : ∀ w, t.frame k st w = s.frame k st w)
    (hl : ((t.cache k).cset st).lru = ((s.cache k).cset st).lru) : t.chooseWay k st = s.chooseWay k st := by
  unfold State.chooseWay; rw [h, h, hl]

/-- Before a response is installed the source cache is as it was: the same way is chosen. -/
theorem chooseWay_beforeInstall (src : PeId) (kind : SnoopKind) (a b : Word) (s : State) (st : SetIx) :
    (sourceLine b src (broadcast src kind a s)).2.chooseWay src st = s.chooseWay src st :=
  chooseWay_congr (fun w => by rw [sourceLine_frame, broadcast_frame, if_pos rfl])
    (by rw [sourceLine_cache, broadcast_lru])

theorem victimBase_beforeInstall (src : PeId) (kind : SnoopKind) (a b : Word) (s : State) :
    victimBase (sourceLine b src (broadcast src kind a s)).2 src a = victimBase s src a := by
  unfold victimBase
  rw [chooseWay_beforeInstall, sourceLine_frame, broadcast_frame, if_pos rfl]

/-- The frames after a BusRd (R194). -/
theorem emitBusRd_frame (src : PeId) (a : Word) (s : State) (j : PeId) (st : SetIx) (w : WayIx) :
    (emitBusRd src a s).frame j st w =
      if j = src then
        if st = setOf a ∧ w = s.chooseWay src (setOf a) then
          installedLine a (sourceLine (baseOf a) src (broadcast src .read a s)).1
            (if (broadcast src .read a s).peerHolds src a then .S else .E)
        else s.frame j st w
      else snoopedLine .read a st (s.frame j st w) := by
  unfold emitBusRd dataResponse; dsimp only
  rw [installLine_frame, chooseWay_beforeInstall, sourceLine_frame, broadcast_frame]
  by_cases h : j = src
  · simp [h]
  · simp [h]

/-- The frames after a BusRdX (R195). -/
theorem emitBusRdX_frame (src : PeId) (a : Word) (s : State) (j : PeId) (st : SetIx) (w : WayIx) :
    (emitBusRdX src a s).frame j st w =
      if j = src then
        if st = setOf a ∧ w = s.chooseWay src (setOf a) then
          installedLine a (sourceLine (baseOf a) src (broadcast src .invalidate a s)).1 .E
        else s.frame j st w
      else snoopedLine .invalidate a st (s.frame j st w) := by
  unfold emitBusRdX dataResponse; dsimp only
  rw [installLine_frame, chooseWay_beforeInstall, sourceLine_frame, broadcast_frame]
  by_cases h : j = src
  · simp [h]
  · simp [h]

/-- Bytes and slots a bus read can change lie in the addressed line and in the victim's. -/
theorem emitBusRd_outside (src : PeId) (a : Word) (s : State) :
    ∃ t, OutsideLine (baseOf a).toNat s t ∧ OutsideLine (victimBase s src a).toNat t (emitBusRd src a s) := by
  refine ⟨(sourceLine (baseOf a) src (broadcast src .read a s)).2,
    (outsideLine_broadcast src .read a s).trans (outsideLine_sourceLine _ src _), ?_⟩
  rw [← victimBase_beforeInstall src .read a (baseOf a) s]
  exact outsideLine_installLine _ _ _ _ _

theorem emitBusRdX_outside (src : PeId) (a : Word) (s : State) :
    ∃ t, OutsideLine (baseOf a).toNat s t ∧ OutsideLine (victimBase s src a).toNat t (emitBusRdX src a s) := by
  refine ⟨(sourceLine (baseOf a) src (broadcast src .invalidate a s)).2,
    (outsideLine_broadcast src .invalidate a s).trans (outsideLine_sourceLine _ src _), ?_⟩
  rw [← victimBase_beforeInstall src .invalidate a (baseOf a) s]
  exact outsideLine_installLine _ _ _ _ _

end Sys2Proof.Machine
end

