-- ==== Sys2Proof/Laws/Attempt.lean ====
section
/-! SUPPORT. What one cache attempt and one step of a port access can do: the inversion of each into its cases, the parts of
the state they keep, and the bytes of memory they keep. -/

namespace Sys2Proof.Machine

/-! ### Lookup (R141) -/

/-- A hit names a frame that holds the line, and way 0 whenever way 0 holds it. -/
theorem lookup_some {s : State} {k : PeId} {a : Word} {w : WayIx} (h : s.lookup k a = some w) :
    (s.frame k (setOf a) w).holds (tagOf a) = true ∧
      (w = 1 → (s.frame k (setOf a) 0).holds (tagOf a) = false) := by
  unfold State.lookup at h
  split at h
  · next h0 => cases h; exact ⟨h0, fun e => absurd e (by decide)⟩
  · next h0 =>
    split at h
    · next h1 => cases h; exact ⟨h1, fun _ => by simpa using h0⟩
    · cases h

/-- A miss says that neither way holds the line. -/
theorem lookup_none {s : State} {k : PeId} {a : Word} (h : s.lookup k a = none) (w : WayIx) :
    (s.frame k (setOf a) w).holds (tagOf a) = false := by
  unfold State.lookup at h
  split at h
  · cases h
  · next h0 =>
    split at h
    · cases h
    · next h1 =>
      rcases wayIx_cases w with rfl | rfl
      · simpa using h0
      · simpa using h1

theorem lookup_congr {s t : State} {k : PeId} {a : Word} (h : ∀ w, t.frame k (setOf a) w = s.frame k (setOf a) w) :
    t.lookup k a = s.lookup k a := by
  unfold State.lookup; rw [h, h]

@[simp] theorem lookup_count (s : State) (k j : PeId) (f : CacheCounters → CacheCounters) (a : Word) :
    (s.count k f).lookup j a = s.lookup j a := lookup_congr fun _ => by simp

/-! ### One attempt (R144, R145) -/

/-- The cases of a load attempt. -/
theorem cacheLoad_cases (k : PeId) (a : Word) (s : State) :
    (24 < off a ∧ cacheLoad k a s = .lineCross) ∨
    (off a ≤ 24 ∧ ∃ w, s.lookup k a = some w ∧
      cacheLoad k a s = .done (lineWord (s.frame k (setOf a) w).data (off a))
        ((s.count k CacheCounters.load).touch k (setOf a) w)) ∨
    (off a ≤ 24 ∧ s.lookup k a = none ∧
      cacheLoad k a s = .retry (emitBusRd k a ((s.count k CacheCounters.load).count k CacheCounters.missRd))) := by
  unfold cacheLoad
  split
  · next h => exact .inl ⟨h, rfl⟩
  · next h =>
    have h : off a ≤ 24 := Nat.le_of_not_lt h
    dsimp only
    simp only [lookup_count, State.count_frame]
    cases hl : s.lookup k a with
    | none => exact .inr (.inr ⟨h, rfl, rfl⟩)
    | some w => exact .inr (.inl ⟨h, w, rfl, rfl⟩)

/-- The cases of a store attempt. -/
theorem cacheStore_cases (k : PeId) (a v : Word) (s : State) :
    (24 < off a ∧ cacheStore k a v s = .lineCross) ∨
    (off a ≤ 24 ∧ ∃ w, s.lookup k a = some w ∧
      cacheStore k a v s = .done () (touchOnStore k (setOf a) w
        ((storeHit k a w (s.count k CacheCounters.store)).modFrame k (setOf a) w
          fun l => { l with data := lineStore l.data (off a) v }))) ∨
    (off a ≤ 24 ∧ s.lookup k a = none ∧
      cacheStore k a v s = .retry (emitBusRdX k a ((s.count k CacheCounters.store).count k CacheCounters.missRdX))) := by
  unfold cacheStore
  split
  · next h => exact .inl ⟨h, rfl⟩
  · next h =>
    have h : off a ≤ 24 := Nat.le_of_not_lt h
    dsimp only
    simp only [lookup_count]
    cases hl : s.lookup k a with
    | none => exact .inr (.inr ⟨h, rfl, rfl⟩)
    | some w => exact .inr (.inl ⟨h, w, rfl, rfl⟩)

theorem busOnly_makeModified (k : PeId) (st : SetIx) (w : WayIx) (old : Mesi) (s : State) :
    BusOnly s (makeModified k st w old s) := (busOnly_record s k old .M).trans (busOnly_modFrame _ k st w _)

theorem busOnly_storeHit (k : PeId) (a : Word) (w : WayIx) (s : State) : BusOnly s (storeHit k a w s) := by
  unfold storeHit
  split
  · exact BusOnly.refl s
  · exact busOnly_makeModified _ _ _ _ _
  · exact ((busOnly_count s k _).trans (busOnly_emitInvalidate k a _)).trans (busOnly_makeModified _ _ _ _ _)
  · exact BusOnly.refl s

theorem busOnly_touchOnStore (k : PeId) (st : SetIx) (w : WayIx) (s : State) : BusOnly s (touchOnStore k st w s) := by
  unfold touchOnStore; split
  · exact busOnly_touch s k st w
  · exact BusOnly.refl s

/-- The state an attempt ends in, if it ends in one. -/
def Attempt.state? {α : Type} : Attempt α → Option State
  | .done _ s => some s
  | .retry s => some s
  | .lineCross => none

/-- A load attempt changes caches, shared memory, staging and the sticky bit at most. -/
theorem busOnly_cacheLoad {k : PeId} {a : Word} {s t : State} (h : (cacheLoad k a s).state? = some t) : BusOnly s t := by
  rcases cacheLoad_cases k a s with ⟨_, e⟩ | ⟨_, w, _, e⟩ | ⟨_, _, e⟩ <;> rw [e] at h <;> cases h
  · exact (busOnly_count s k _).trans (busOnly_touch _ k _ w)
  · exact ((busOnly_count s k _).trans (busOnly_count _ k _)).trans (busOnly_emitBusRd k a _)

/-- So does a store attempt. -/
theorem busOnly_cacheStore {k : PeId} {a v : Word} {s t : State} (h : (cacheStore k a v s).state? = some t) :
    BusOnly s t := by
  rcases cacheStore_cases k a v s with ⟨_, e⟩ | ⟨_, w, _, e⟩ | ⟨_, _, e⟩ <;> rw [e] at h <;> cases h
  · exact (((busOnly_count s k _).trans (busOnly_storeHit k a w _)).trans (busOnly_modFrame _ k _ w _)).trans
      (busOnly_touchOnStore k _ w _)
  · exact ((busOnly_count s k _).trans (busOnly_count _ k _)).trans (busOnly_emitBusRdX k a _)

/-- Bytes and slots an attempt can change lie in the addressed line and in the victim's. -/
def OutsideTwo (s : State) (k : PeId) (a : Word) (t : State) : Prop :=
  ∃ u, OutsideLine (baseOf a).toNat s u ∧ OutsideLine (victimBase s k a).toNat u t

theorem chooseWay_count (s : State) (k j : PeId) (f : CacheCounters → CacheCounters) (st : SetIx) :
    (s.count k f).chooseWay j st = s.chooseWay j st :=
  chooseWay_congr (fun _ => by simp) (State.lru_count s k f j st)

theorem victimBase_count (s : State) (k j : PeId) (f : CacheCounters → CacheCounters) (a : Word) :
    victimBase (s.count k f) j a = victimBase s j a := by
  unfold victimBase; rw [chooseWay_count, State.count_frame]

theorem outsideTwo_of_eq {s t : State} (k : PeId) (a : Word) (h1 : t.shm = s.shm) (h2 : t.staging = s.staging)
    (h3 : t.shmFault = s.shmFault) : OutsideTwo s k a t :=
  ⟨s, OutsideLine.refl _ s, outsideLine_of_eq h1 h2 h3⟩

theorem outsideLine_count (b : Nat) (s : State) (k : PeId) (f : CacheCounters → CacheCounters) :
    OutsideLine b s (s.count k f) := outsideLine_of_eq rfl rfl rfl

theorem outsideLine_makeModified (b : Nat) (k : PeId) (st : SetIx) (w : WayIx) (old : Mesi) (s : State) :
    OutsideLine b s (makeModified k st w old s) := outsideLine_of_eq rfl rfl rfl

theorem outsideTwo_cacheLoad {k : PeId} {a : Word} {s t : State} (h : (cacheLoad k a s).state? = some t) :
    OutsideTwo s k a t := by
  rcases cacheLoad_cases k a s with ⟨_, e⟩ | ⟨_, w, _, e⟩ | ⟨_, _, e⟩ <;> rw [e] at h <;> cases h
  · exact outsideTwo_of_eq k a rfl rfl rfl
  · obtain ⟨u, h1, h2⟩ := emitBusRd_outside k a ((s.count k CacheCounters.load).count k CacheCounters.missRd)
    rw [victimBase_count, victimBase_count] at h2
    exact ⟨u, ((outsideLine_count _ s k _).trans (outsideLine_count _ _ k _)).trans h1, h2⟩

theorem outsideLine_storeHit (k : PeId) (a : Word) (w : WayIx) (s : State) :
    OutsideLine (baseOf a).toNat s (storeHit k a w s) := by
  unfold storeHit
  split
  · exact OutsideLine.refl _ s
  · exact outsideLine_makeModified _ k _ w _ s
  · exact ((outsideLine_count _ s k _).trans (outsideLine_broadcast k .invalidate a _)).trans
      (outsideLine_makeModified _ k _ w _ _)
  · exact OutsideLine.refl _ s

theorem touchOnStore_bus (k : PeId) (st : SetIx) (w : WayIx) (s : State) :
    (touchOnStore k st w s).shm = s.shm ∧ (touchOnStore k st w s).staging = s.staging ∧
      (touchOnStore k st w s).shmFault = s.shmFault := by
  unfold touchOnStore; split <;> exact ⟨rfl, rfl, rfl⟩

theorem outsideTwo_cacheStore {k : PeId} {a v : Word} {s t : State} (h : (cacheStore k a v s).state? = some t) :
    OutsideTwo s k a t := by
  rcases cacheStore_cases k a v s with ⟨_, e⟩ | ⟨_, w, _, e⟩ | ⟨_, _, e⟩ <;> rw [e] at h <;> cases h
  · refine ⟨storeHit k a w (s.count k CacheCounters.store),
      (outsideLine_count _ s k _).trans (outsideLine_storeHit k a w _), ?_⟩
    obtain ⟨h1, h2, h3⟩ := touchOnStore_bus k (setOf a) w
      ((storeHit k a w (s.count k CacheCounters.store)).modFrame k (setOf a) w
        fun l => { l with data := lineStore l.data (off a) v })
    exact outsideLine_of_eq h1 h2 h3
  · obtain ⟨u, h1, h2⟩ := emitBusRdX_outside k a ((s.count k CacheCounters.store).count k CacheCounters.missRdX)
    rw [victimBase_count, victimBase_count] at h2
    exact ⟨u, ((outsideLine_count _ s k _).trans (outsideLine_count _ _ k _)).trans h1, h2⟩

/-! ### One step of a port access (R233) -/

/-- The state in which a port makes its attempt of a load: the issue is counted and the access taken on first. -/
def issueLoad (k : PeId) (a : Word) (s : State) : State :=
  match (s.port k).fsm with
  | .idle => s.modPort k fun p => { p with loads := p.loads + 1, fsm := .busyLoad a }
  | .busyLoad _ | .busyStore _ _ => s

/-- The same of a store. -/
def issueStore (k : PeId) (a v : Word) (s : State) : State :=
  match (s.port k).fsm with
  | .idle => s.modPort k fun p => { p with stores := p.stores + 1, fsm := .busyStore a v }
  | .busyLoad _ | .busyStore _ _ => s

/-- A port that is idle, or already serves this load, makes the attempt; any other answers busy. -/
theorem portLoad_eq (k : PeId) (a : Word) (s : State) :
    portLoad k a s =
      if (s.port k).fsm = .idle ∨ (s.port k).fsm = .busyLoad a then portLoadAttempt k a (issueLoad k a s) else .busy := by
  unfold portLoad issueLoad
  cases h : (s.port k).fsm with
  | idle => simp
  | busyLoad b => by_cases hb : b = a <;> simp [hb]
  | busyStore b u => simp

/-- The same for a store. -/
theorem portStore_eq (k : PeId) (a v : Word) (s : State) :
    portStore k a v s =
      if (s.port k).fsm = .idle ∨ (s.port k).fsm = .busyStore a v then portStoreAttempt k a v (issueStore k a v s)
      else .busy := by
  unfold portStore issueStore
  cases h : (s.port k).fsm with
  | idle => simp
  | busyLoad b => simp
  | busyStore b u => by_cases hb : b = a ∧ u = v <;> simp [hb]

/-- The parts of the state neither an attempt nor its port touches. -/
structure MemOnly (k : PeId) (s t : State) : Prop where
  ports : ∀ j, j ≠ k → t.port j = s.port j
  pes : t.pes = s.pes
  fault : t.fault = s.fault
  regPolicy : t.regPolicy = s.regPolicy
  turn : t.turn = s.turn
  tick : t.tick = s.tick
  cmds : t.cmds = s.cmds
  resp : t.resp = s.resp

theorem MemOnly.trans {k : PeId} {s t u : State} (h : MemOnly k s t) (g : MemOnly k t u) : MemOnly k s u :=
  ⟨fun j hj => (g.1 j hj).trans (h.1 j hj), g.2.trans h.2, g.3.trans h.3, g.4.trans h.4, g.5.trans h.5, g.6.trans h.6,
    g.7.trans h.7, g.8.trans h.8⟩

theorem memOnly_of_busOnly {s t : State} (h : BusOnly s t) (k : PeId) : MemOnly k s t :=
  ⟨fun j _ => h.port j, h.pes, h.fault, h.regPolicy, h.turn, h.tick, h.cmds, h.resp⟩

theorem memOnly_modPort (k : PeId) (f : Port → Port) (s : State) : MemOnly k s (s.modPort k f) :=
  ⟨fun j hj => by rw [State.port_modPort, if_neg hj], rfl, rfl, rfl, rfl, rfl, rfl, rfl⟩

theorem memOnly_issueLoad (k : PeId) (a : Word) (s : State) : MemOnly k s (issueLoad k a s) := by
  unfold issueLoad; split
  · exact memOnly_modPort k _ s
  all_goals exact memOnly_of_busOnly (BusOnly.refl s) k

theorem memOnly_issueStore (k : PeId) (a v : Word) (s : State) : MemOnly k s (issueStore k a v s) := by
  unfold issueStore; split
  · exact memOnly_modPort k _ s
  all_goals exact memOnly_of_busOnly (BusOnly.refl s) k

/-- The state a port step ends in, if it ends in one. -/
def Access.state? {α : Type} : Access α → Option State
  | .done _ s => some s
  | .waiting s => some s
  | .lineCross => none
  | .busy => none

/-- A step of a load access touches its own port, the caches, the shared memory, staging and the sticky bit at most. -/
theorem memOnly_portLoad {k : PeId} {a : Word} {s t : State} (h : (portLoad k a s).state? = some t) : MemOnly k s t := by
  rw [portLoad_eq] at h
  split at h
  · refine (memOnly_issueLoad k a s).trans ?_
    unfold portLoadAttempt at h
    split at h <;> cases h
    · next v u e => exact (memOnly_of_busOnly (busOnly_cacheLoad (by rw [e]; rfl)) k).trans (memOnly_modPort k _ u)
    · next e => exact memOnly_of_busOnly (busOnly_cacheLoad (by rw [e]; rfl)) k
  · cases h

/-- So does a step of a store access. -/
theorem memOnly_portStore {k : PeId} {a v : Word} {s t : State} (h : (portStore k a v s).state? = some t) :
    MemOnly k s t := by
  rw [portStore_eq] at h
  split at h
  · refine (memOnly_issueStore k a v s).trans ?_
    unfold portStoreAttempt at h
    split at h <;> cases h
    · next u e => exact (memOnly_of_busOnly (busOnly_cacheStore (by rw [e]; rfl)) k).trans (memOnly_modPort k _ u)
    · next e => exact memOnly_of_busOnly (busOnly_cacheStore (by rw [e]; rfl)) k
  · cases h

end Sys2Proof.Machine
end

