-- ==== Sys2Proof/Laws/PerInstr.lean ====
section
/-! SUPPORT. What holds of every instruction as syntax, one lemma for each constructor: the length of its record. -/

namespace Sys2Proof.Laws.EncodedLength

/-- The payload bytes after a record's header (R107). -/
def payloadLength : Instr → Nat
  | .load _ _ | .store _ _ | .fmul _ _ _ | .fadd _ _ _ | .inc _ | .dec _ | .jnz _ _ | .lea _ _ _ _ | .halt => 0
  | .busRd _ _ | .busRdX _ _ | .busUpgr _ _ | .flush _ _ _ | .inv _ _ => 0
  | .load64 _ | .store64 _ _ | .cacheLoad _ | .cacheStore _ _ | .shmRead _ _ _ => 0
  | .shmWrite _ bytes _ _ => bytes.length

/-- An instruction's record has its format's width in whole bytes, and a write request its payload after that. -/
def Statement (i : Instr) : Prop := (encode i).length = i.format.headerBytes + payloadLength i

/-- The one proof: the header's bytes, then the payload. -/
theorem ofRecord (i : Instr) : Statement i := by
  unfold Statement encode
  rw [List.length_append, bytesLE_length]
  cases i <;> rfl

theorem load (d a : Reg) : Statement (.load d a) := ofRecord _
theorem store (d a : Reg) : Statement (.store d a) := ofRecord _
theorem fmul (d a b : Reg) : Statement (.fmul d a b) := ofRecord _
theorem fadd (d a b : Reg) : Statement (.fadd d a b) := ofRecord _
theorem inc (d : Reg) : Statement (.inc d) := ofRecord _
theorem dec (d : Reg) : Statement (.dec d) := ofRecord _
theorem jnz (d : Reg) (imm : Int) : Statement (.jnz d imm) := ofRecord _
theorem lea (d a b : Reg) (imm : Int) : Statement (.lea d a b imm) := ofRecord _
theorem halt : Statement .halt := ofRecord _
theorem busRd (src : PeId) (addr : Word) : Statement (.busRd src addr) := ofRecord _
theorem busRdX (src : PeId) (addr : Word) : Statement (.busRdX src addr) := ofRecord _
theorem busUpgr (src : PeId) (addr : Word) : Statement (.busUpgr src addr) := ofRecord _
theorem flush (src : PeId) (addr : Word) (payload : LineData) : Statement (.flush src addr payload) := ofRecord _
theorem inv (src : PeId) (addr : Word) : Statement (.inv src addr) := ofRecord _
theorem load64 (addr : Word) : Statement (.load64 addr) := ofRecord _
theorem store64 (addr wdata : Word) : Statement (.store64 addr wdata) := ofRecord _
theorem cacheLoad (addr : Word) : Statement (.cacheLoad addr) := ofRecord _
theorem cacheStore (addr wdata : Word) : Statement (.cacheStore addr wdata) := ofRecord _
theorem shmRead (addr : Word) (size : Nat) (req : Option PeId) : Statement (.shmRead addr size req) := ofRecord _
theorem shmWrite (addr : Word) (bytes : List Byte) (size : Nat) (req : Option PeId) :
    Statement (.shmWrite addr bytes size req) := ofRecord _

end Sys2Proof.Laws.EncodedLength
end

