-- ==== Sys2Proof/Laws/Step.lean ====
section
/-! SUPPORT. What an instruction's shared parts and one step of the machine can do, said once. -/

namespace Sys2Proof.Machine

/-- The cases of reading source registers: all readable and the instruction runs, or the first unreadable one is raised. -/
theorem withRegs_cases (k : PeId) (rs : List Reg) (s : State) (run : Host.Outcome State Fault Refusal) :
    ((∀ r ∈ rs, s.readable k r = true) ∧ withRegs k rs s run = run) ∨
    (∃ r ∈ rs, s.readable k r = false ∧ withRegs k rs s run = .next (s.raise (.unwrittenRegister k r))) := by
  unfold withRegs
  cases h : rs.find? fun i => !s.readable k i with
  | none =>
    rw [List.find?_eq_none] at h
    exact .inl ⟨fun r hr => by simpa using h r hr, rfl⟩
  | some r => exact .inr ⟨r, List.mem_of_find?_eq_some h, by simpa using List.find?_some h, rfl⟩

/-- With every source readable an instruction runs. -/
theorem withRegs_of_readable {k : PeId} {rs : List Reg} {s : State} (h : ∀ r ∈ rs, s.readable k r = true)
    (run : Host.Outcome State Fault Refusal) : withRegs k rs s run = run := by
  rcases withRegs_cases k rs s run with ⟨_, e⟩ | ⟨r, hr, hf, _⟩
  · exact e
  · rw [h r hr] at hf; cases hf

/-- A queued record's instruction is never a PE instruction's record format. -/
theorem hostCmd_instr_ok {c : HostCmd} {i : Instr} (h : c.instr = .ok i) : c.fmt ≠ .i32 := by
  intro hf; unfold HostCmd.instr at h; rw [hf] at h; cases h

/-- An outcome changed at its next state is a next state only if it was one. -/
theorem onNext_eq_next {o : Host.Outcome State Fault Refusal} {f : State → State} {t : State} (h : onNext o f = .next t) :
    ∃ u, o = .next u ∧ t = f u := by
  cases o with
  | next u => simp only [onNext, Host.Outcome.next.injEq] at h; exact ⟨u, rfl, h.symm⟩
  | fault r => cases h
  | refused r => cases h

/-- The agent chosen for a step is enabled. -/
theorem nextAgent_enabled {s : State} {k : PeId} (h : s.nextAgent = some k) : s.enabled k = true :=
  List.find?_some (p := s.enabled) h

/-- No agent is chosen exactly when none is enabled. -/
theorem nextAgent_none {s : State} : s.nextAgent = none ↔ ∀ k, s.enabled k = false := by
  unfold State.nextAgent
  rw [List.find?_eq_none]
  have hc : ∀ a b : PeId, b = a ∨ b = a + 1 ∨ b = a + 2 ∨ b = a + 3 := by decide
  constructor
  · intro h k
    rcases hc s.turn k with e | e | e | e <;> have := h k (by simp [e]) <;> simpa using this
  · intro h k _; simp [h k]

/-- No line of the bytes is held exactly when no live frame and no slot overlaps them. -/
theorem holdsAnyOf_eq_false {s : State} {a size : Nat} :
    s.holdsAnyOf a size = false ↔
      (∀ p ∈ s.staging, overlapsLine a size p.1 = false) ∧
      ∀ k st w, (s.frame k st w).live = true →
        overlapsLine a size (lineBase (s.frame k st w).tag st).toNat = false := by
  simp only [State.holdsAnyOf, Bool.or_eq_false_iff, List.any_eq_false, decide_eq_false_iff_not, not_exists, not_and,
    Bool.not_eq_true]

/-- What the host's freedom to use the shared memory means: no live frame and no slot. -/
theorem hostShmFree_iff {s : State} :
    hostShmFree s = true ↔ s.staging = [] ∧ ∀ k st w, (s.frame k st w).live = false := by
  simp only [hostShmFree, Bool.and_eq_true, List.isEmpty_iff, List.all_eq_true, Vector.mem_toList_iff,
    Vector.mem_iff_getElem, Line.free, Line.live, State.frame, State.cache, Cache.cset, CacheSet.way]
  refine and_congr_right fun _ => ⟨fun h k st w => ?_, ?_⟩
  · have := h _ ⟨k.val, k.isLt, rfl⟩ _ ⟨st.val, st.isLt, rfl⟩ _ ⟨w.val, w.isLt, rfl⟩
    simp only [Fin.getElem_fin, Bool.or_eq_true, Bool.not_eq_true', beq_iff_eq] at this ⊢
    rcases this with h | h <;> simp [h]
  · rintro h _ ⟨k, hk, rfl⟩ _ ⟨st, hst, rfl⟩ _ ⟨w, hw, rfl⟩
    have := h ⟨k, hk⟩ ⟨st, hst⟩ ⟨w, hw⟩
    simp only [Fin.getElem_fin, Bool.and_eq_false_iff, bne_eq_false_iff_eq] at this
    rcases this with h | h <;> simp [h]

/-- While no line is held a direct write meets none (R348). -/
theorem holdsAnyOf_of_hostShmFree {s : State} (h : hostShmFree s = true) (a size : Nat) : s.holdsAnyOf a size = false := by
  obtain ⟨hs, hf⟩ := hostShmFree_iff.1 h
  rw [holdsAnyOf_eq_false]
  refine ⟨fun p hp => ?_, fun k st w hl => ?_⟩
  · rw [hs] at hp; cases hp
  · rw [hf] at hl; cases hl

/-- While no line is held no queued record is refused for one. -/
theorem writesHeldLine_of_hostShmFree {s : State} (h : hostShmFree s = true) (i : Instr) : writesHeldLine i s = false := by
  cases i <;> simp [writesHeldLine, holdsAnyOf_of_hostShmFree h]

/-- Everything a step of agent `k` that answers a next state can be: it halts with nothing to execute, or it executes the
instruction it fetches. -/
theorem agentStep_cases {s t : State} {k : PeId} (h : agentStep k s = .next t) :
    ((∀ i, s.fetch k ≠ .instr i) ∧ t = (s.halt k).reschedule) ∨
    (∃ i u, s.fetch k = .instr i ∧ exec i { s with turn := k } = .next u ∧ t = u.reschedule) := by
  unfold agentStep at h
  split at h
  · next i hi =>
    obtain ⟨u, hu, rfl⟩ := onNext_eq_next h
    exact .inr ⟨i, u, hi, hu, rfl⟩
  · next hi => cases h; exact .inl ⟨fun i e => (by rw [hi] at e; cases e), rfl⟩
  · next hi => cases h; exact .inl ⟨fun i e => (by rw [hi] at e; cases e), rfl⟩

/-- Some PE has been started. -/
theorem anyStarted_iff {s : State} : s.anyStarted = true ↔ ∃ k, (s.pe k).started = true := by
  constructor
  · intro h
    obtain ⟨k, -, hk⟩ := List.any_eq_true.1 h
    exact ⟨k, hk⟩
  · rintro ⟨k, hk⟩
    exact List.any_eq_true.2 ⟨k, by rcases peId_cases k with rfl | rfl | rfl | rfl <;> simp, hk⟩

/-- An enabled agent's PE has been started. -/
theorem started_of_enabled {s : State} {k : PeId} (h : s.enabled k = true) : (s.pe k).started = true := by
  simp only [State.enabled, Bool.and_eq_true] at h; exact h.1.1.2

/-- With an agent chosen the agents' step is that agent's. -/
theorem agentsStep_of_nextAgent {s : State} {k : PeId} (h : s.nextAgent = some k) : agentsStep s = agentStep k s := by
  rw [agentsStep, if_pos (anyStarted_iff.2 ⟨k, started_of_enabled (nextAgent_enabled h)⟩), h]

/-- With no agent enabled the agents' step is a fault. -/
theorem agentsStep_of_none {s : State} (h : s.nextAgent = none) :
    agentsStep s = .fault (if s.anyStarted then .runOver else .notStarted) := by
  rw [agentsStep, h]; split <;> rfl

/-- A next state of the agents' step is one of the agent chosen. -/
theorem agentsStep_eq_next {s t : State} (h : agentsStep s = .next t) :
    ∃ k, s.nextAgent = some k ∧ agentStep k s = .next t := by
  cases hk : s.nextAgent with
  | none => rw [agentsStep_of_none hk] at h; cases h
  | some k => exact ⟨k, rfl, by rwa [agentsStep_of_nextAgent hk] at h⟩

/-- Everything a step that answers a next state can be: the host's front record is executed and writes no held line; or an enabled agent finds
nothing to execute and halts; or an enabled agent executes the instruction it fetches. -/
theorem step_cases {s t : State} (h : step s = .next t) :
    s.fault = none ∧
    ((∃ c rest i u, s.cmds = c :: rest ∧ c.instr = .ok i ∧ writesHeldLine i s = false ∧
        exec i { s with turn := c.port } = .next u ∧
        t = afterCmd s c rest u) ∨
     (∃ k, s.cmds = [] ∧ s.nextAgent = some k ∧ s.enabled k = true ∧
        (∀ i, s.fetch k ≠ .instr i) ∧ t = (s.halt k).reschedule) ∨
     (∃ k i u, s.cmds = [] ∧ s.nextAgent = some k ∧ s.enabled k = true ∧ s.fetch k = .instr i ∧
        exec i { s with turn := k } = .next u ∧ t = u.reschedule)) := by
  unfold step at h
  split at h
  · cases h
  · next hf =>
    refine ⟨hf, ?_⟩
    split at h
    · next c rest hc =>
      unfold hostStep at h
      split at h
      · cases h
      · next i hi =>
        split at h
        · cases h
        · next hw =>
          obtain ⟨u, hu, rfl⟩ := onNext_eq_next h
          exact .inl ⟨c, rest, i, u, hc, hi, by simpa using hw, hu, rfl⟩
    · next hc =>
      obtain ⟨k, hk, h⟩ := agentsStep_eq_next h
      rcases agentStep_cases h with ⟨hi, rfl⟩ | ⟨i, u, hi, hu, rfl⟩
      · exact .inr (.inl ⟨k, hc, hk, nextAgent_enabled hk, hi, rfl⟩)
      · exact .inr (.inr ⟨k, i, u, hc, hk, nextAgent_enabled hk, hi, hu, rfl⟩)

/-- The parts of the state a PE instruction of agent `k` does not touch: the other PEs and ports, the model's own fields. -/
structure AgentOnly (k : PeId) (s t : State) : Prop where
  pes : ∀ j, j ≠ k → t.pe j = s.pe j
  ports : ∀ j, j ≠ k → t.port j = s.port j
  regPolicy : t.regPolicy = s.regPolicy
  turn : t.turn = s.turn
  tick : t.tick = s.tick
  cmds : t.cmds = s.cmds

theorem AgentOnly.refl (k : PeId) (s : State) : AgentOnly k s s := ⟨fun _ _ => rfl, fun _ _ => rfl, rfl, rfl, rfl, rfl⟩

theorem AgentOnly.trans {k : PeId} {s t u : State} (h : AgentOnly k s t) (g : AgentOnly k t u) : AgentOnly k s u :=
  ⟨fun j hj => (g.1 j hj).trans (h.1 j hj), fun j hj => (g.2 j hj).trans (h.2 j hj), g.3.trans h.3, g.4.trans h.4,
    g.5.trans h.5, g.6.trans h.6⟩

theorem agentOnly_modPe (k : PeId) (f : Pe → Pe) (s : State) : AgentOnly k s (s.modPe k f) :=
  ⟨fun j hj => by rw [State.pe_modPe, if_neg hj], fun _ _ => rfl, rfl, rfl, rfl, rfl⟩

theorem agentOnly_raise (k : PeId) (f : FaultMark) (s : State) : AgentOnly k s (s.raise f) :=
  ⟨fun j _ => by simp, fun j _ => by unfold State.port; simp, by simp, by simp, by simp, by simp⟩

theorem agentOnly_of_memOnly {k : PeId} {s t : State} (h : MemOnly k s t) : AgentOnly k s t :=
  ⟨fun j _ => by unfold State.pe; simp only [h.pes], h.ports, h.regPolicy, h.turn, h.tick, h.cmds⟩

/-- The fault mark after a raise was empty or is kept; either way it is set. -/
theorem raise_of_none {s : State} (h : s.fault = none) (f : FaultMark) : s.raise f = { s with fault := some f } := by
  unfold State.raise; rw [h]

/-- The memory the machine starts with is canonical. -/
theorem memory_wf_reset : Memory.wf State.reset.shm.mem = true := rfl

end Sys2Proof.Machine
end

