-- ==== Sys2Proof/Tests/Slice0.lean ====
section
/-! SUPPORT. The model's own tests: ill-formed terms refused, words written out from the spec's layouts, one small step per
instruction with the spec's vectors (95_test_vectors.md), and a witness for the hypotheses of each statement. -/

namespace Sys2Proof.Tests

set_option Elab.async false

open Sys2Proof.Machine

/-! ### States the tests start from -/

/-- The machine after reset with every PE started and PE 0 in turn. -/
def start : State :=
  { State.reset with pes := Vector.replicate 4 { Pe.reset with started := true, maxSteps := none }, turn := 0 }

/-- The state an outcome ends in. -/
def after (o : Host.Outcome State Fault Refusal) : State :=
  match o with
  | .next t => t
  | .fault _ => start
  | .refused _ => start

/-- Bytes 00 to 1F. -/
def ramp : LineData := Vector.ofFn fun i => BitVec.ofNat 8 i.val

/-- A valid frame with tag 1 and the ramp. -/
def frameIn (m : Mesi) : Line := { valid := true, dirty := m == .M, state := m, tag := 1, data := ramp }

/-- Cache `k` holds line 0x100 in way 0 of set 0, in the given state. -/
def held (k : PeId) (m : Mesi) (s : State) : State := s.modFrame k 0 0 fun _ => frameIn m

/-- PE 0 with a register written. -/
def reg0 (i : Reg) (v : Word) (s : State) : State := hostWriteReg 0 i v s

/-- PE 0 with a program. -/
def program0 (p : List (BitVec 32)) (s : State) : State := s.modPe 0 fun q => { q with program := p }

/-- Every PE halted. -/
def allHalted : State := (((start.halt 0).halt 1).halt 2).halt 3

/-- mem[0x100 + i] = i. -/
def rampMemory : State := { start with shm := { Shm.reset with mem := memWriteBytes [] 256 ramp.toList } }

/-- The machine that raises a fault on an unwritten register (R318). -/
def strict : State := { start with regPolicy := .faultUnwritten }

/-! ### Well-formedness: each check refuses a term, and takes the values at its edges -/

theorem test_jnz_imm_below : (Instr.jnz 7 (-32769)).wellFormed = false := by decide
theorem test_jnz_imm_above : (Instr.jnz 7 32768).wellFormed = false := by decide
theorem test_jnz_imm_edges : (Instr.jnz 7 (-32768)).wellFormed = true ∧ (Instr.jnz 7 32767).wellFormed = true := by decide
theorem test_lea_imm_below : (Instr.lea 4 1 0 (-1)).wellFormed = false := by decide
theorem test_lea_imm_above : (Instr.lea 4 1 0 64).wellFormed = false := by decide
theorem test_lea_imm_edges : (Instr.lea 4 1 0 0).wellFormed = true ∧ (Instr.lea 4 1 0 63).wellFormed = true := by decide
theorem test_shmRead_size : (Instr.shmRead 0 (2 ^ 64) none).wellFormed = false := by decide
theorem test_shmWrite_size : (Instr.shmWrite 0 [] (2 ^ 64) none).wellFormed = false := by decide

/-- The last check, on the payload's length, cannot be met by a list written out: it refuses any list too long for the
length field. -/
theorem test_shmWrite_length (bytes : List Byte) (h : 2 ^ 64 ≤ bytes.length) :
    (Instr.shmWrite 0 bytes 0 none).wellFormed = false := by
  have : ¬bytes.length < 2 ^ 64 := by omega
  simp only [Instr.wellFormed, decide_eq_false this, Bool.and_false]

/-! ### Words written out from the layouts (R94, R99, R100, R105, R106; the SHMCMD header is log 8) -/

-- op 0000, d 100, a 100: the spec's LOAD R4, R4
theorem test_word_load : decodeI32 0b00001001000000000000000000000000 = .ok (.load 4 4) := by decide
-- op 0001, d 011, a 101: STORE R3, R5
theorem test_word_store : decodeI32 0b00010111010000000000000000000000 = .ok (.store 3 5) := by decide
-- op 0010, d 100, a 100, b 110: FMUL R4, R4, R6
theorem test_word_fmul : decodeI32 0b00101001001100000000000000000000 = .ok (.fmul 4 4 6) := by decide
-- op 0011, d 011, a 011, b 100: FADD R3, R3, R4
theorem test_word_fadd : decodeI32 0b00110110111000000000000000000000 = .ok (.fadd 3 3 4) := by decide
theorem test_word_inc : decodeI32 0b01000000000000000000000000000000 = .ok (.inc 0) := by decide
theorem test_word_dec : decodeI32 0b01011110000000000000000000000000 = .ok (.dec 7) := by decide
-- op 0110, d 111, imm16 1111111111111000: JNZ R7, -8
theorem test_word_jnz : decodeI32 0b01101110000000001111111111111000 = .ok (.jnz 7 (-8)) := by decide
-- op 0111, d 100, a 001, b 000, imm16 3: LEA R4, R1, R0, 3
theorem test_word_lea : decodeI32 0b01111000010000000000000000000011 = .ok (.lea 4 1 0 3) := by decide
theorem test_word_halt : decodeI32 0b10000000000000000000000000000000 = .ok .halt := by decide
theorem test_word_undefined : decodeI32 0b10010000000000000000000000000000 = .error (.undefinedOpcode 9) := by decide
-- src_pe 01 at [4:3], addr 0x100 at [68:5], type at [2:0]
theorem test_word_busRd : decodeTxn 0b10000000001000 = .ok (.busRd 1 0x100) := by decide
theorem test_word_busRdX : decodeTxn 0b10000000001001 = .ok (.busRdX 1 0x100) := by decide
theorem test_word_busUpgr : decodeTxn 0b10000000001010 = .ok (.busUpgr 1 0x100) := by decide
-- payload byte 0 is AB at [76:69], byte 31 is CD at [324:317]
theorem test_word_flush :
    decodeTxn (3 + 2 * 8 + 0x40 * 32 + 0xAB * 2 ^ 69 + 0xCD * 2 ^ 317) =
      .ok (.flush 2 0x40 ((Vector.replicate 32 (0 : Byte)).set 0 0xAB |>.set 31 0xCD)) := by decide +kernel
theorem test_word_inv : decodeTxn 0b10000000001100 = .ok (.inv 1 0x100) := by decide
theorem test_word_reserved_txn : decodeTxn 0b10000000001101 = .error (.reservedTxnType 5) := by decide
theorem test_word_load64 : decodePort 0b1000000000 = .load64 0x100 := by decide
theorem test_word_store64 : decodePort (0b1000000001 + 5 * 2 ^ 65) = .store64 0x100 5 := by decide
theorem test_word_cacheLoad : decodeCache 0b1000000000 = .cacheLoad 0x100 := by decide
theorem test_word_cacheStore : decodeCache (0b1000000001 + 5 * 2 ^ 65) = .cacheStore 0x100 5 := by decide
theorem test_word_shmRead :
    decodeShm (0x100 * 2 + 32 * 2 ^ 65 + 1 * 2 ^ 129 + 3 * 2 ^ 130) [] = .shmRead 0x100 32 (some 3) := by decide
theorem test_word_shmWrite :
    decodeShm (1 + 0x103 * 2 + 2 * 2 ^ 65) [0xAA, 0xBB] = .shmWrite 0x103 [0xAA, 0xBB] 2 none := by decide
theorem test_table_word : decodeTableWord 32 0x40000000 = some (.inc 0) ∧ decodeTableWord 325 4 = some (.inv 0 0) := by
  decide
theorem test_asm : Instr.asm (.lea 4 1 0 3) = some "LEA R4, R1, R0, 3" ∧ Instr.asm (.jnz 7 (-8)) = some "JNZ R7, -8" := by
  decide +kernel

/-! ### One step of each instruction -/

-- R244's example: x[4] = 0x100, the line holds the ramp (K6's bytes 0 to 7)
theorem test_load_hit :
    let t := after (exec (.load 4 4) (reg0 4 0x100 (held 0 .E start)))
    t.reg 0 4 = 0x0706050403020100 ∧ (t.pe 0).pc = 1 := by decide +kernel
-- Scenario A's first attempt: a miss
theorem test_load_miss :
    let t := after (exec (.load 4 4) (reg0 4 0x100 rampMemory))
    (t.port 0).fsm = .busyLoad 0x100 ∧ (t.frame 0 0 0).state = .E ∧ (t.pe 0).pc = 0 ∧ t.shm.totalReads = 1 := by
  decide +kernel
-- Scenario C: a store to a shared line takes it from the peer
theorem test_store_shared :
    let t := after (exec (.store 3 5) (reg0 3 0xDEADBEEFCAFEBABE (reg0 5 0x100 (held 0 .S (held 1 .S start)))))
    lineWord (t.frame 0 0 0).data 0 = 0xDEADBEEFCAFEBABE ∧ (t.frame 0 0 0).state = .M ∧ (t.frame 1 0 0).state = .I ∧
      (t.cache 0).ctr.busUpgr = 1 ∧ (t.cache 1).ctr.invalidations = 1 := by decide +kernel
-- K9: a store that would cross its line
theorem test_store_lineCross :
    (after (exec (.store 3 5) (reg0 5 0x119 start))).fault = some (.lineCross 0 0x119) := by decide +kernel
-- 2.0 times 1.0, R246
theorem test_fmul :
    (after (exec (.fmul 4 4 6) (reg0 4 0x4000000000000000 (reg0 6 0x3FF0000000000000 start)))).reg 0 4 =
      0x4000000000000000 := by decide +kernel
-- -1.0 times +0.0 is -0.0 (R257)
theorem test_fmul_zero_sign :
    (after (exec (.fmul 4 4 6) (reg0 4 0xBFF0000000000000 start))).reg 0 4 = 0x8000000000000000 := by decide +kernel
-- +0.0 plus 0.5, R247
theorem test_fadd :
    (after (exec (.fadd 3 3 4) (reg0 4 0x3FE0000000000000 start))).reg 0 3 = 0x3FE0000000000000 := by decide +kernel
-- 1 plus 2^-53 is a tie: it rounds to the even 1 (R257)
theorem test_fadd_tie :
    (after (exec (.fadd 3 3 4) (reg0 3 0x3FF0000000000000 (reg0 4 0x3CA0000000000000 start)))).reg 0 3 =
      0x3FF0000000000000 := by decide +kernel
theorem test_inc : (after (exec (.inc 0) (reg0 0 7 start))).reg 0 0 = 8 := by decide +kernel
theorem test_inc_wraps : (after (exec (.inc 0) (reg0 0 0xFFFFFFFFFFFFFFFF start))).reg 0 0 = 0 := by decide +kernel
theorem test_dec : (after (exec (.dec 7) (reg0 7 1 start))).reg 0 7 = 0 := by decide +kernel
theorem test_dec_wraps : (after (exec (.dec 7) start)).reg 0 7 = 0xFFFFFFFFFFFFFFFF := by decide +kernel
-- pc 0, x[7] the bits of -0.0: taken, to a negative pc (R250)
theorem test_jnz_taken : ((after (exec (.jnz 7 (-8)) (reg0 7 0x8000000000000000 start))).pe 0).pc = -8 := by
  decide +kernel
theorem test_jnz_not_taken : ((after (exec (.jnz 7 (-8)) start)).pe 0).pc = 1 := by decide +kernel
theorem test_lea : (after (exec (.lea 4 1 0 3) (reg0 1 496 (reg0 0 5 start)))).reg 0 4 = 536 := by decide +kernel
-- imm 63 keeps only bit 0 of x[b] (R251)
theorem test_lea_63 :
    (after (exec (.lea 4 1 0 63) (reg0 0 3 start))).reg 0 4 = 0x8000000000000000 := by decide +kernel
theorem test_halt :
    ((after (exec .halt start)).pe 0).halted = true ∧ ((after (exec .halt start)).pe 0).pc = 0 := by
  decide +kernel
-- Scenario B: the peer's E line goes to S, the source installs S
theorem test_busRd :
    let t := after (exec (.busRd 1 0x100) (held 0 .E rampMemory))
    (t.frame 0 0 0).state = .S ∧ (t.frame 1 0 0).state = .S ∧ (t.frame 1 0 0).data = ramp ∧
      (t.cache 0).log = [(.E, .S)] ∧ (t.cache 1).log = [(.I, .S)] := by decide +kernel
-- R195's example: the M peer's line comes through the staging slot, which is consumed
theorem test_busRdX :
    let t := after (exec (.busRdX 1 0x108) (held 0 .M start))
    (t.frame 0 0 0).state = .I ∧ (t.frame 1 0 0).state = .E ∧ (t.frame 1 0 0).data = ramp ∧ t.staging = [] ∧
      t.shm.totalReads = 0 ∧ memRead t.shm.mem 0x11F = 0x1F := by decide +kernel
theorem test_busUpgr :
    let t := after (exec (.busUpgr 0 0x100) (held 1 .S (held 2 .S start)))
    (t.frame 1 0 0).state = .I ∧ (t.frame 2 0 0).state = .I ∧ (t.cache 2).log = [(.S, .I)] := by decide +kernel
-- R196's example, at a base the shared memory does not back
theorem test_flush_unbacked :
    let t := after (exec (.flush 0 0x1000 ramp) start)
    mapFind 0x1000 t.staging = some ramp ∧ t.shmFault = true ∧ t.shm.totalWrites = 0 := by decide +kernel
theorem test_flush : memRead (after (exec (.flush 0 0x0E7 ramp) start)).shm.mem 0xE1 = 1 := by decide +kernel
theorem test_inv :
    let t := after (exec (.inv 0 0x100) (held 1 .M start))
    (t.frame 1 0 0).state = .I ∧ (t.frame 1 0 0).dirty = false ∧ (t.cache 1).ctr.flush = 1 ∧
      mapFind 0x100 t.staging = some ramp := by decide +kernel
-- K7: off 3 inside the line
theorem test_load64 :
    (after (exec (.load64 0x103) (held 0 .S start))).resp = some (.port (some 0x0A09080706050403)) := by
  decide +kernel
theorem test_store64_miss :
    let t := after (exec (.store64 0 5) start)
    (t.port 0).fsm = .busyStore 0 5 ∧ (t.port 0).stores = 1 ∧ (t.cache 0).ctr.busRdX = 1 ∧ (t.frame 0 0 0).state = .E := by
  decide +kernel
-- K6: off 24, the last legal offset
theorem test_cacheLoad :
    (after (exec (.cacheLoad 0x118) (held 0 .M start))).resp =
      some (.cache true (some 0x1F1E1D1C1B1A1918)) := by decide +kernel
-- K2: a store hit in E
theorem test_cacheStore :
    let t := after (exec (.cacheStore 0x108 0xAA) (held 0 .E start))
    (t.frame 0 0 0).state = .M ∧ lineByte (t.frame 0 0 0).data 8 = 0xAA ∧ lineByte (t.frame 0 0 0).data 16 = 16 ∧
      (t.cache 0).log = [(.E, .M)] ∧ ((t.cache 0).cset 0).lru = 1 := by decide +kernel
-- S9: the sum would wrap
theorem test_shmRead_wraps :
    (after (exec (.shmRead 0xFFFFFFFFFFFFFFFF 2 none) start)).resp = some (.shm .outOfRange []) := by decide +kernel
-- S3
theorem test_shmRead :
    (after (exec (.shmRead 0x11F 1 none) rampMemory)).resp = some (.shm .ok [0x1F]) := by decide +kernel
-- S14: out of range and short
theorem test_shmWrite_priority :
    (after (exec (.shmWrite 4096 [] 1 none) start)).resp = some (.shm .outOfRange []) := by decide +kernel
-- S12: only the first two bytes
theorem test_shmWrite :
    let t := after (exec (.shmWrite 0x100 [0xAA, 0xBB, 0xCC] 2 (some 1)) start)
    memRead t.shm.mem 0x101 = 0xBB ∧ memRead t.shm.mem 0x102 = 0 ∧ (t.shm.peCtr 1).writeBytes = 2 := by decide +kernel
-- the eviction of Scenario D: the victim's own base
theorem test_evict :
    let s := (start.modFrame 0 0 0 fun _ => frameIn .M).modFrame 0 0 1 fun _ => { frameIn .M with tag := 2 }
    let t := after (exec (.cacheStore 0x300 1) s)
    (t.cache 0).log = [(.M, .E)] ∧ memRead t.shm.mem 0x101 = 1 ∧ mapFind 0x100 t.staging = some ramp ∧
      (t.cache 0).ctr.flush = 1 := by decide +kernel

/-! ### Whole steps -/

theorem test_step_first_instruction :
    step (State.reset.withFetchWord 32 0x40000000) =
      onNext (exec (.inc 0) (State.reset.withFetchWord 32 0x40000000)) State.reschedule := by rfl
theorem test_step_empty_program_halts : ((after (step start)).pe 0).halted = true := by decide +kernel
-- R340: after reset nothing runs; R348's host writes do
theorem test_step_not_started : step State.reset = .fault .notStarted := by rfl
theorem test_step_run_over : step allHalted = .fault .runOver := by rfl
theorem test_coherent_read :
    (after (step (rampMemory.queue (coherentRead 2 0x100)))).cmds = [coherentRead 2 0x100] := by decide +kernel

-- R348, U24: a direct write to a held line is refused, one beside it runs
theorem test_host_write_held :
    step ((held 0 .E start).queue { fmt := .shmcmd, port := 0, bytes := encode (.shmWrite 0x11F [1] 1 none) }) =
      .refused .heldLine := by rfl
theorem test_host_write_beside :
    memRead (after (step ((held 0 .E start).queue
      { fmt := .shmcmd, port := 0, bytes := encode (.shmWrite 0x120 [7] 1 none) }))).shm.mem 0x120 = 7 := by
  decide +kernel
-- R329: a PE its budget has stopped has one more step after the host's single step
theorem test_single_step :
    let s := start.modPe 0 fun p => { p with steps := 3, maxSteps := some 3 }
    s.enabled 0 = false ∧ ((s.singleStep 0).pe 0).maxSteps = some 4 ∧ (s.singleStep 0).enabled 0 = true := by
  decide +kernel
-- P2: N = 8, PE 1's segment and partial 12.5, and the result 102.0 within tolerance
theorem test_dot_segment :
    let p := (State.launch (dotLaunch 8 (dotBlock 8))).pe 1
    (p.reg 1, p.reg 2, p.reg 5, p.reg 7) = (16, 80, 4000, 2) ∧ p.isWritten 4 = false ∧ dotRangesOk 8 (dotBlock 8) = true := by
  decide +kernel
theorem test_dot_partials :
    [0, 1, 2, 3].map (fun k => dotPartial (dotBlock 8 k)) =
      [0x4004000000000000, 0x4029000000000000, 0x403E800000000000, 0x404C400000000000] ∧
    dotResult (fun k => dotPartial (dotBlock 8 k)) = 0x4059800000000000 ∧
    dotAccepted 8 0x4059800000000000 = true := by decide +kernel

/-! ### Witnesses: states and operands that meet the hypotheses of each statement, clause by clause -/

/-- PE 0 stands at LOAD R0, R0 and its port is in the middle of it. -/
def midLoad : State :=
  (program0 [0x00000000] start).modPort 0 fun p => { p with loads := 1, fsm := .busyLoad 0 }

/-- The NaN, infinities, zeros and ones of the floating-point witnesses. -/
def nan : Word := 0x7FF8000000000000
def inf : Word := 0x7FF0000000000000
def minusInf : Word := 0xFFF0000000000000
def one : Word := 0x3FF0000000000000
def minusOne : Word := 0xBFF0000000000000

/-- Two live M frames in set 0 of cache 0: tags 1 and 2. -/
def fullSet : State := (start.modFrame 0 0 0 fun _ => frameIn .M).modFrame 0 0 1 fun _ => { frameIn .M with tag := 2 }

/-- A launch record: 4096 zero bytes; every PE has a one-word program, a budget of 3, and R4 written twice. -/
def launch : Launch where
  shmInit := List.replicate 4096 0
  pes := Vector.replicate 4 { program := [0x40000000], regs := [(4, 1), (4, 2)], maxSteps := some 3 }

theorem witness_DecodeEncodeRoundTrip :
    (Instr.jnz 7 (-32768)).wellFormed = true ∧ (Instr.lea 4 1 0 63).wellFormed = true ∧
      (Instr.shmWrite 0 [1] (2 ^ 64 - 1) none).wellFormed = true := by decide

theorem witness_InstructionWordFields :
    0x0FFFFFFF#32 &&& 0xF0000000#32 = 0x00000000#32 ∧ 0x10000000#32 &&& 0xF0000000#32 = 0x10000000#32 ∧
    0x29300000#32 &&& 0xF0000000#32 = 0x20000000#32 ∧ 0x36E00000#32 &&& 0xF0000000#32 = 0x30000000#32 ∧
    0x4FFFFFFF#32 &&& 0xF0000000#32 = 0x40000000#32 ∧ 0x5E000000#32 &&& 0xF0000000#32 = 0x50000000#32 ∧
    0x6E00FFF8#32 &&& 0xF0000000#32 = 0x60000000#32 ∧ 0x78400003#32 &&& 0xF0000000#32 = 0x70000000#32 ∧
    0x8FFFFFFF#32 &&& 0xF0000000#32 = 0x80000000#32 ∧ 0x90000000 ≤ (0x90000000#32).toNat ∧
    0x90000000 ≤ (0xFFFFFFFF#32).toNat := by decide

theorem witness_IgnoredBitsAndUndefinedOpcodes :
    (slice 0x40000000 31 28 = slice 0x41FFFFFF 31 28 ∧
      ∀ f ∈ usedFields (slice 0x40000000 31 28), slice 0x40000000 f.1 f.2 = slice 0x41FFFFFF f.1 f.2) ∧
    (let s := program0 [0x90000000] start
     0 ≤ (s.pe 0).pc ∧ (s.pe 0).program[(s.pe 0).pc.toNat]? = some 0x90000000 ∧
      9 ≤ slice (0x90000000 : BitVec 32).toNat 31 28) := by decide +kernel

theorem witness_TransactionRecordFields :
    (0x2008#325).extractLsb' 0 3 = 0#3 ∧ (0x2009#325).extractLsb' 0 3 = 1#3 ∧ (0x200A#325).extractLsb' 0 3 = 2#3 ∧
    (0x200B#325).extractLsb' 0 3 = 3#3 ∧ (0x200C#325).extractLsb' 0 3 = 4#3 := by decide +kernel

theorem witness_ReservedTransactionTypes :
    (let c : HostCmd := { fmt := .txn, port := 0, bytes := bytesLE 41 5 }
     (start.queue c).fault = none ∧ (start.queue c).cmds = c :: [] ∧ c.fmt = .txn ∧ 41 ≤ c.bytes.length ∧
      5 ≤ slice (natLE c.bytes) 2 0) ∧
    5 ≤ slice (natLE (bytesLE 41 7)) 2 0 ∧
    slice 0x2008 68 0 = slice (0x2008 + 2 ^ 69) 68 0 ∧ slice 0x2008 2 0 ≠ 3 := by decide +kernel

theorem witness_CommandRecordFields : (0x200#129).getLsbD 0 = false ∧ (0x201#129).getLsbD 0 = true := by decide

theorem witness_StepRunsTheDecodedInstruction :
    (let s := program0 [0x40000000] start
     s.fault = none ∧ s.cmds = [] ∧ s.nextAgent = some 0 ∧ 0 ≤ (s.pe 0).pc ∧
      (s.pe 0).program[(s.pe 0).pc.toNat]? = some 0x40000000 ∧
      decodeTableWord 32 0x40000000 = some (.inc 0)) ∧
    writesHeldLine (.shmWrite 0x11F [1] 1 none) (held 1 .S start) = true ∧
    (let s := start.queue (coherentRead 2 0x100)
     s.fault = none ∧ s.cmds = coherentRead 2 0x100 :: [] ∧ (coherentRead 2 0x100).fmt ≠ .i32) := by decide +kernel

theorem witness_StepRunsTheDecodedInstruction_words :
    decode .i32 (bytesLE 4 0x40000000) = .ok (.inc 0, []) ∧
      decode .portcmd (coherentRead 2 0x100).bytes = .ok (.load64 0x100, []) := ⟨rfl, rfl⟩

theorem witness_PeHaltsSilently :
    (let s := start.modPe 0 fun p => { p with pc := -1 }
     s.fault = none ∧ s.cmds = [] ∧ s.nextAgent = some 0 ∧ (s.pe 0).pc < 0) ∧
    (start.nextAgent = some 0 ∧ ((start.pe 0).program.length : Int) ≤ (start.pe 0).pc) ∧
    (let s := program0 [0xF0000000] start
     s.nextAgent = some 0 ∧ (s.pe 0).program[(s.pe 0).pc.toNat]? = some 0xF0000000 ∧
      9 ≤ slice (0xF0000000 : BitVec 32).toNat 31 28) := by decide +kernel

theorem witness_RunIsOverWhenNoAgentHasAStep :
    allHalted.cmds = [] ∧ allHalted.fault = none ∧ allHalted.runOver = true ∧
    (let s := start.modPe 0 fun p => { p with steps := 3, maxSteps := some 3 }
     s.enabled 0 = false ∧ (s.pe 0).halted = false) ∧
    State.reset.cmds = [] ∧ State.reset.fault = none ∧ ∀ k, (State.reset.pe k).started = false := by decide +kernel

/-- Only PE 0 has a step, and it stands at HALT. -/
def aboutToHalt : State := program0 [0x80000000] (((start.halt 1).halt 2).halt 3)

/-- The run from there: one step, then nothing. -/
def haltingRun : Nat → State
  | 0 => aboutToHalt
  | _ + 1 => after (agentStep 0 aboutToHalt)

theorem haltingRun_over (n : Nat) (k : PeId) : (haltingRun (n + 1)).enabled k = false := by
  show (haltingRun 1).enabled k = false
  revert k; decide +kernel

theorem witness_AnyEnabledAgentMayStep :
    start.nextAgent = some 0 ∧ start.enabled 3 = true ∧
      Run (fun _ => 0) haltingRun ∧ WeaklyFair (fun _ => 0) haltingRun ∧ (haltingRun 0).enabled 0 = true := by
  refine ⟨by decide +kernel, by decide +kernel, fun n => ?_, fun k n h => ?_, by decide +kernel⟩
  · cases n with
    | zero => exact .inl ⟨by decide +kernel, rfl⟩
    | succ n => exact .inr ⟨haltingRun_over n, rfl⟩
  · have := h (n + 1) (Nat.le_succ n)
    rw [haltingRun_over] at this
    cases this

theorem midLoad_matches : ∀ k, PortMatchesPe midLoad k := by
  intro k
  constructor
  · intro a h
    rcases peId_cases k with rfl | rfl | rfl | rfl
    · have h : PortFsm.busyLoad 0 = .busyLoad a := h
      cases h
      exact ⟨0, 0, rfl, rfl⟩
    all_goals
      have h : PortFsm.idle = .busyLoad a := h
      cases h
  · intro a v h
    rcases peId_cases k with rfl | rfl | rfl | rfl
    · have h : PortFsm.busyLoad 0 = .busyStore a v := h
      cases h
    all_goals
      have h : PortFsm.idle = .busyStore a v := h
      cases h

theorem witness_EnabledAgentsNeverWait :
    midLoad.fault = none ∧ midLoad.cmds = [] ∧ (∀ k, PortMatchesPe midLoad k) ∧ ∃ k, midLoad.enabled k = true :=
  ⟨rfl, rfl, midLoad_matches, 0, by decide +kernel⟩

theorem witness_BusyPortsServeTheirPe :
    midLoad.cmds = [] ∧ (∀ k, PortMatchesPe midLoad k) ∧ ∃ t, step midLoad = .next t :=
  ⟨rfl, midLoad_matches, _, rfl⟩

theorem witness_BusyPortServesOneAccess :
    (let s := start.modPort 0 fun p => { p with fsm := .busyStore 8 9 }
     ¬(s.port s.turn).servesLoad 8 ∧ ¬(s.port s.turn).servesStore 8 10 ∧ s.readable s.turn 3 = true ∧
      ¬(s.port s.turn).servesLoad (s.reg s.turn 3) ∧ ¬(s.port s.turn).servesStore (s.reg s.turn 3) (s.reg s.turn 5)) := by
  decide +kernel

theorem witness_FaultMarkIsWrittenOnce :
    start.fault = none ∧ (start.raise (.lineCross 0 25)).fault = some (.lineCross 0 25) := by decide +kernel

theorem witness_LaunchState :
    launch.shmInit.length = 4096 ∧ (launch.pes[(3 : PeId)]).regs = [(4, 1)] ++ ((4 : Reg), (2 : Word)) :: [] ∧
      (4, (2 : Word)) ∈ (launch.pes[(0 : PeId)]).regs := by decide +kernel

theorem witness_IncAndDecResult :
    slice 0x4E000000 31 28 = 4 ∧ slice 0x5E000000 31 28 = 5 ∧ start.readable 0 7 = true ∧
      strict.readable strict.turn 7 = false := by decide +kernel

theorem witness_FmulAndFaddResult :
    slice 0x29300000 31 28 = 2 ∧ slice 0x36E00000 31 28 = 3 ∧ start.readable start.turn 0 = true ∧
      strict.readable strict.turn 0 = false ∧
      (reg0 0 5 strict).readable (reg0 0 5 strict).turn 0 = true ∧
      (reg0 0 5 strict).readable (reg0 0 5 strict).turn 1 = false := by decide +kernel

theorem witness_FloatingPointIsCorrectlyRounded :
    fpFinite 0x7FEFFFFFFFFFFFFF = true ∧ fpFinite 1 = true ∧ fpFinite one = true ∧ fpFinite minusOne = true ∧
      fpInt one + fpInt minusOne = 0 ∧ fpInt one + fpInt one ≠ 0 := by decide +kernel

theorem witness_FloatingPointSpecialValues :
    fpIsNaN nan = true ∧ fpIsInf inf = true ∧ fpIsInf minusInf = true ∧ fpIsZero 0 = true ∧
      fpIsZero 0x8000000000000000 = true ∧ fpIsNaN minusOne = false ∧ fpIsZero minusOne = false ∧
      fpSign inf ≠ fpSign minusInf ∧ (fpIsInf minusOne = true → fpSign minusOne = fpSign inf) ∧
      (fpIsInf inf = true → fpSign inf = fpSign inf) := by decide +kernel

theorem witness_LeaResult :
    slice 0x78400003 31 28 = 7 ∧ start.readable start.turn 1 = true ∧ (0 : Int) ≤ 63 ∧ (63 : Int) ≤ 63 ∧
      ((-1 : Int) < 0 ∨ (63 : Int) < -1) ∧ ((64 : Int) < 0 ∨ (63 : Int) < 64) ∧ strict.readable strict.turn 1 = false ∧
      (reg0 1 5 strict).readable 0 1 = true ∧ (reg0 1 5 strict).readable 0 0 = false := by decide +kernel

theorem witness_JnzResult :
    slice 0x6E00FFF8 31 28 = 6 ∧ start.readable start.turn 7 = true ∧ start.reg 0 7 = 0 ∧
      (reg0 7 1 start).reg 0 7 ≠ 0 ∧ strict.readable strict.turn 7 = false := by decide +kernel

theorem witness_HaltResult : slice 0x80000000 31 28 = 8 := by decide

theorem witness_UnwrittenRegisterIsRaised :
    sourceRegs (.store 3 5) = [5] ++ 3 :: [] ∧ (reg0 5 8 strict).regPolicy = .faultUnwritten ∧
      (∀ q ∈ [(5 : Reg)], ((reg0 5 8 strict).pe (reg0 5 8 strict).turn).isWritten q = true) ∧
      ((reg0 5 8 strict).pe (reg0 5 8 strict).turn).isWritten 3 = false := by decide +kernel

theorem witness_LoadResult :
    (let s := reg0 4 0x118 (held 0 .S start)
     s.readable s.turn 4 = true ∧ off (s.reg s.turn 4) = 24 ∧ (s.port s.turn).servesLoad (s.reg s.turn 4) ∧
      s.lookup s.turn (s.reg s.turn 4) = some 0) ∧
    (midLoad.readable 0 0 = true ∧ off (midLoad.reg 0 0) = 0 ∧ (midLoad.port 0).servesLoad (midLoad.reg 0 0) ∧
      midLoad.lookup 0 (midLoad.reg 0 0) = none) := by decide +kernel

theorem witness_StoreResult :
    (let s := reg0 5 0x118 (held 0 .S start)
     s.readable s.turn 5 = true ∧ s.readable s.turn 3 = true ∧ off (s.reg s.turn 5) ≤ 24 ∧
      (s.port s.turn).servesStore (s.reg s.turn 5) (s.reg s.turn 3) ∧ s.lookup s.turn (s.reg s.turn 5) = some 0) ∧
    (let s := start
     off (s.reg s.turn 5) ≤ 24 ∧ (s.port s.turn).servesStore (s.reg s.turn 5) (s.reg s.turn 3) ∧
      s.lookup s.turn (s.reg s.turn 5) = none) := by decide +kernel

theorem witness_Load64Result :
    off 0x118 ≤ 24 ∧ ((held 0 .M start).port 0).servesLoad 0x118 ∧ (held 0 .M start).lookup 0 0x118 = some 0 ∧
      (midLoad.port midLoad.turn).servesLoad 0 ∧ midLoad.lookup midLoad.turn 0 = none := by decide +kernel

theorem witness_Store64Result :
    off 0x118 ≤ 24 ∧ ((held 0 .E start).port 0).servesStore 0x118 7 ∧
      (held 0 .E start).lookup 0 0x118 = some 0 ∧ start.lookup 0 0x118 = none := by decide +kernel

theorem witness_CacheLoadAttempt :
    24 < off 0x119 ∧ off 0x118 ≤ 24 ∧ (held 0 .M start).lookup 0 0x118 = some 0 ∧
      start.lookup start.turn 0x118 = none := by
  decide +kernel

/-- A hit in each of the three states, and a miss on a stale frame. -/
theorem witness_CacheStoreAttempt :
    24 < off 0x119 ∧ off 0x118 ≤ 24 ∧ (held 0 .M start).lookup 0 0x118 = some 0 ∧ (held 0 .E start).lookup 0 0x118 = some 0 ∧
      (held 0 .S start).lookup 0 0x118 = some 0 ∧ (held 0 .I start).lookup 0 0x118 = none := by decide +kernel

theorem witness_LineCrossIsRaised :
    (let s := reg0 4 0x119 start
     loadAddr (.load 4 4) s = some 0x119 ∧ storeOf (.store 3 4) s = some (0x119, 0) ∧
      (∀ r ∈ sourceRegs (.store 3 4), s.readable s.turn r = true) ∧
      (s.port s.turn).servesLoad (s.reg s.turn 4) ∧ (s.port s.turn).servesStore (s.reg s.turn 4) (s.reg s.turn 3) ∧
      24 < off 0x119 ∧ 24 < off 0x11F) ∧
    loadAddr (.load64 0x119) start = some 0x119 ∧ loadAddr (.cacheLoad 0x119) start = some 0x119 ∧
    storeOf (.store64 0x119 1) start = some (0x119, 1) ∧ storeOf (.cacheStore 0x119 1) start = some (0x119, 1) := by
  decide +kernel

theorem witness_SecondAttemptHits :
    (∃ t, cacheLoad 0 0x100 rampMemory = .retry t) ∧ ∃ t, cacheStore 0 0x100 5 (held 1 .M start) = .retry t :=
  ⟨⟨_, rfl⟩, ⟨_, rfl⟩⟩

theorem witness_ShmReadResult :
    (1 ≠ 0 ∧ (0xFFF : Word).toNat + 1 ≤ 4096) ∧ (4096 ≠ 0 ∧ (0 : Word).toNat + 4096 ≤ 4096) ∧
      ¬(1 ≠ 0 ∧ (0x1000 : Word).toNat + 1 ≤ 4096) ∧ ¬(0 ≠ 0 ∧ (0 : Word).toNat + 0 ≤ 4096) := by decide

theorem witness_ShmWriteResult :
    Memory.wf rampMemory.shm.mem = true ∧ ¬(2 ≠ 0 ∧ (0xFFF : Word).toNat + 2 ≤ 4096) ∧
      (4 ≠ 0 ∧ (0x100 : Word).toNat + 4 ≤ 4096 ∧ [(1 : Byte), 2, 3].length < 4) ∧
      (3 ≠ 0 ∧ (0x100 : Word).toNat + 3 ≤ 4096 ∧ 3 ≤ [(1 : Byte), 2, 3].length) := by decide +kernel

theorem witness_FlushResult :
    Memory.wf rampMemory.shm.mem = true ∧ backed (baseOf 0xFFF) ∧ ¬backed (baseOf 0x1000) := by decide +kernel

theorem dirtyPeer_held : dirtyPeer (held 1 .M start) 0 0x108 1 0 := ⟨by decide, by decide +kernel, by decide +kernel⟩

/-- The hypotheses of BusRdResult and of each clause of SourcedLine in it: one dirty peer; none and a slot; none, no slot and a
backed line; the same with an unbacked one. -/
theorem witness_BusRdResult :
    Memory.wf (held 1 .M start).shm.mem = true ∧ mapSorted (held 1 .M start).staging = true ∧
      dirtyPeer (held 1 .M start) 0 0x108 1 0 ∧ (∀ j w, ¬dirtyPeer start 0 0x108 j w) ∧
      mapFind (baseOf 0x108).toNat (handleFlush 0 0x108 ramp start).staging = some ramp ∧
      mapFind (baseOf 0x108).toNat start.staging = none ∧ backed (baseOf 0x108) ∧ ¬backed (baseOf 0x1000) ∧
      ¬(evictsDirty start 0 0x8 ∧ victimBase start 0 0x8 = baseOf 0x8) ∧ victimBase start 0 0x8 = baseOf 0x8 := by
  refine ⟨by decide +kernel, by decide +kernel, dirtyPeer_held, fun j w h => ?_, by decide +kernel, by decide +kernel,
    by decide +kernel, by decide +kernel, by decide +kernel, by decide +kernel⟩
  have : ∀ j w, (start.frame j (setOf 0x108) w).state ≠ .M := by decide +kernel
  exact this j w h.2.2

theorem witness_BusRdXResult :
    Memory.wf rampMemory.shm.mem = true ∧ mapSorted rampMemory.staging = true ∧
      evictsDirty fullSet 0 0x300 ∧ ¬(evictsDirty fullSet 0 0x300 ∧ victimBase fullSet 0 0x300 = baseOf 0x300) := by decide +kernel

theorem witness_BusUpgrAndInvResult : ∀ j w, ¬dirtyPeer (held 1 .S start) 0 0x100 j w := by
  intro j w h
  have : ∀ j w, ((held 1 .S start).frame j (setOf 0x100) w).state ≠ .M := by decide +kernel
  exact this j w h.2.2

/-- A match in each state, and none. -/
theorem witness_SnoopTableRows :
    (∀ m : Mesi, ((held 1 m start).frame 1 (setOf 0x108) 0).valid = true ∧
      ((held 1 m start).frame 1 (setOf 0x108) 0).tag = tagOf 0x108 ∧
      ((held 1 m start).frame 1 (setOf 0x108) 0).state = m) ∧
    ¬(((held 1 .M start).frame 1 (setOf 0x208) 0).valid = true ∧
      ((held 1 .M start).frame 1 (setOf 0x208) 0).tag = tagOf 0x208) ∧
    Memory.wf start.shm.mem = true ∧ backed (baseOf 0x108) := by
  refine ⟨fun m => ?_, by decide +kernel, rfl, by decide +kernel⟩
  cases m <;> decide +kernel

theorem witness_InstallLineChoosesAndEvicts :
    (start.frame 0 (setOf 0x300) 0).valid = false ∧ ((held 0 .I start).frame 0 (setOf 0x300) 0).state = .I ∧
    (((held 0 .E start).frame 0 (setOf 0x300) 0).live = true ∧
      ((held 0 .E start).frame 0 (setOf 0x300) 1).valid = false) ∧
    ((fullSet.frame 0 (setOf 0x300) 0).live = true ∧ (fullSet.frame 0 (setOf 0x300) 1).live = true) ∧
    (fullSet.frame 0 (setOf 0x300) (fullSet.chooseWay 0 (setOf 0x300))).valid = true ∧
    (fullSet.frame 0 (setOf 0x300) (fullSet.chooseWay 0 (setOf 0x300))).state = .M ∧
    Memory.wf fullSet.shm.mem = true ∧
    backed (lineBase (fullSet.frame 0 (setOf 0x300) (fullSet.chooseWay 0 (setOf 0x300))).tag (setOf 0x300)) := by
  decide +kernel

theorem witness_RegisterInstructionFrame :
    registerOnly (.inc 0) = true ∧ destReg (.inc 0) ≠ some 1 ∧ (∃ t, exec (.inc 0) start = .next t) ∧
      ∃ t, exec (.inc 0) strict = .next t ∧ t.fault ≠ strict.fault :=
  ⟨rfl, by decide, ⟨_, rfl⟩, _, rfl, by decide⟩

theorem witness_LoadFrame :
    (loadAddr (.load 4 0) midLoad = some 0 ∧ ∃ t, exec (.load 4 0) midLoad = .next t) ∧
    (loadAddr (.load64 0x118) (held 0 .M start) = some 0x118 ∧
      (held 0 .M start).lookup 0 0x118 ≠ none ∧ ∃ t, exec (.load64 0x118) (held 0 .M start) = .next t) ∧
    (loadAddr (.cacheLoad 0x119) start = some 0x119 ∧
      ∃ t, exec (.cacheLoad 0x119) start = .next t ∧ t.fault ≠ start.fault) ∧
    Memory.wf fullSet.shm.mem = true ∧ mapSorted fullSet.staging = true ∧ ¬flushedByRead fullSet 0 0x300 0x120 ∧
    flushedByRead fullSet 0 0x300 0x11F := by
  refine ⟨⟨rfl, _, rfl⟩, ⟨rfl, by decide +kernel, _, rfl⟩, ⟨rfl, _, rfl, by decide⟩, rfl, rfl, ?_, ?_⟩
  · rintro (⟨h, _⟩ | ⟨h, _⟩)
    · exact absurd h (by decide +kernel)
    · exact absurd h (by decide +kernel)
  · exact .inr ⟨by decide +kernel, by decide +kernel, by decide +kernel⟩

theorem witness_StoreFrame :
    (storeOf (.store 3 5) start = some (0, 0) ∧ ∃ t, exec (.store 3 5) start = .next t) ∧
    (storeOf (.store64 0x118 1) (held 0 .S start) = some (0x118, 1) ∧
      (held 0 .S start).lookup 0 0x118 = some 0 ∧ ∃ t, exec (.store64 0x118 1) (held 0 .S start) = .next t) ∧
    (storeOf (.cacheStore 0x119 1) start = some (0x119, 1) ∧
      ∃ t, exec (.cacheStore 0x119 1) start = .next t ∧ t.fault ≠ start.fault) ∧
    ¬flushedByInvalidate (held 0 .S start) 0 0x118 0x118 := by
  refine ⟨⟨rfl, _, rfl⟩, ⟨rfl, by decide +kernel, _, rfl⟩, ⟨rfl, _, rfl, by decide⟩, ?_⟩
  rintro ⟨_, j, w, h⟩
  have : ∀ j w, ((held 0 .S start).frame j (setOf 0x118) w).state ≠ .M := by decide +kernel
  exact this j w h.2.2

theorem witness_BusTransactionFrame :
    (∀ i ∈ [Instr.busRd 0 0x300, .busRdX 0 0x300, .busUpgr 0 0x300, .flush 0 0x300 ramp, .inv 0 0x300],
      ∃ t, exec i fullSet = .next t) ∧ ¬inLine 0x320 (baseOf 0x300).toNat ∧ mapSorted fullSet.staging = true ∧
      ¬(evictsDirty fullSet 0 0x300 ∧ 0x200 = (victimBase fullSet 0 0x300).toNat) := by
  refine ⟨fun i hi => ?_, by decide +kernel, rfl, by decide +kernel⟩
  simp only [List.mem_cons, List.not_mem_nil, or_false] at hi
  rcases hi with rfl | rfl | rfl | rfl | rfl <;> exact ⟨_, rfl⟩

theorem witness_ShmRequestFrame :
    (∃ t, exec (.shmRead 0x100 32 none) rampMemory = .next t) ∧
      (∃ t, exec (.shmWrite 0x100 [1, 2] 2 none) rampMemory = .next t) ∧ Memory.wf rampMemory.shm.mem = true ∧
      ¬((0x100 : Word).toNat ≤ 0x102 ∧ 0x102 < (0x100 : Word).toNat + 2) := by
  exact ⟨⟨_, rfl⟩, ⟨_, rfl⟩, by decide +kernel, by decide⟩

/-- PE 1 stands at LOAD R0, R0 with R0 = 0x100, which cache 0 holds in M: the machine is coherent and PE 1's step takes the
line. -/
def ownedElsewhere : State :=
  { hostWriteReg 1 0 0x100 ((held 0 .M start).modPe 1 fun p => { p with program := [0] }) with turn := 1 }

theorem ownedElsewhere_frames : FramesWf ownedElsewhere where
  invalidIsI := by decide +kernel
  dirtyIffM := by decide +kernel
  tagOnce := by decide +kernel

theorem ownedElsewhere_coherent : Coherent ownedElsewhere where
  frames := ownedElsewhere_frames
  shared := by unfold SharedOnlyInS; decide +kernel
  clean := by
    have h : ∀ k st w, (ownedElsewhere.frame k st w).live = true → (ownedElsewhere.frame k st w).state = .M := by
      decide +kernel
    exact fun k st w h1 h2 => absurd (h k st w h1) h2
  staging :=
    { sorted := rfl
      keys := fun _ h => nomatch h
      unheld := fun _ h => nomatch h
      match_memory := fun _ h => nomatch h }

theorem start_coherent : Coherent start where
  frames := ⟨by decide +kernel, by decide +kernel, by decide +kernel⟩
  shared := by
    intro j k st w w' _ h
    have : ∀ j st w, (start.frame j st w).live = false := by decide +kernel
    rw [this] at h; cases h
  clean := by
    intro k st w h
    have : ∀ j st w, (start.frame j st w).live = false := by decide +kernel
    rw [this] at h; cases h
  staging := ⟨rfl, fun _ h => (nomatch h), fun _ h => (nomatch h), fun _ h => (nomatch h)⟩

theorem witness_CoherenceIsKept :
    (Inv ownedElsewhere ∧ ∃ t, step ownedElsewhere = .next t) ∧
    (hostShmFree start = true ∧ Coherent start ∧ Memory.wf start.shm.mem = true) ∧
    (Coherent ownedElsewhere ∧ Memory.wf ownedElsewhere.shm.mem = true ∧
      writesHeldLine (.shmWrite 0x120 [1] 1 none) ownedElsewhere = false ∧
      ∃ t, exec (.shmWrite 0x120 [1] 1 none) ownedElsewhere = .next t) :=
  ⟨⟨⟨ownedElsewhere_coherent, rfl, fun _ h => nomatch h⟩, _, rfl⟩, ⟨by decide +kernel, start_coherent, rfl⟩,
    ownedElsewhere_coherent, rfl, by decide +kernel, _, rfl⟩

theorem witness_MemoryStaysCanonical :
    Memory.wf rampMemory.shm.mem = true ∧ mapSorted rampMemory.staging = true ∧ ∃ t, step rampMemory = .next t :=
  ⟨by decide +kernel, rfl, _, rfl⟩

/-- A cache whose counters, matrix and log obey the laws after one upgrade. -/
theorem witness_CounterAndLogLawsAreKept :
    (∀ k st w, (start.frame k st w).valid = false → (start.frame k st w).state = .I) ∧
    (∀ k, CounterLaws (start.cache k)) ∧ (∀ k, LogLaws (start.cache k)) ∧ ∃ t, step start = .next t := by
  refine ⟨by decide +kernel, fun k => ?_, fun k => ?_, _, rfl⟩
  · exact { accesses := by revert k; decide +kernel, upgrades := by revert k; decide +kernel,
            flushes := by revert k; decide +kernel, misses := by revert k; decide +kernel,
            invalidations := by revert k; decide +kernel }
  · refine ⟨fun f t => ?_, ?_⟩
    · revert k; cases f <;> cases t <;> decide +kernel
    · have h : ∀ k, (start.cache k).log = [] := by decide +kernel
      rw [h k]
      exact fun _ hp => nomatch hp

theorem witness_PortCounterLaws :
    (HostDuties start ∧ (∀ k, PortLaws (start.port k) (start.cache k)) ∧
      ∃ t, step start = .next t) ∧
    PortLaws Port.reset Cache.reset ∧ CounterLaws Cache.reset ∧ Port.reset.fsm = .idle := by
  refine ⟨⟨fun _ h => (nomatch h), fun k => ?_, _, rfl⟩, ⟨rfl, rfl, by decide, by decide⟩, ⟨rfl, rfl, rfl, rfl, rfl⟩, rfl⟩
  exact { loads := by revert k; decide +kernel, stores := by revert k; decide +kernel,
          missedLoad := by revert k; decide +kernel, missedStore := by revert k; decide +kernel }

theorem witness_EveryFlushIsOneWrite :
    ownedElsewhere.cmds = [] ∧ (∃ t, step ownedElsewhere = .next t) ∧ (after (step ownedElsewhere)).shmFault = false :=
  ⟨rfl, ⟨_, rfl⟩, by decide +kernel⟩

theorem witness_NothingIsUndone :
    let s := { start with shmFault := true }.halt 3
    (∃ t, step s = .next t) ∧ s.shmFault = true ∧ (s.pe 3).halted = true := ⟨⟨_, rfl⟩, rfl, by decide +kernel⟩

theorem witness_OtherAgentsAreUntouched : midLoad.cmds = [] ∧ ∃ t, step midLoad = .next t := ⟨rfl, _, rfl⟩

/-- The coherent machine in the place of cache 0, which owns the line. -/
def owned : State := reg0 0 0x100 { ownedElsewhere with turn := 0 }

theorem owned_coherent : Coherent owned :=
  { frames := { invalidIsI := ownedElsewhere_frames.1, dirtyIffM := ownedElsewhere_frames.2,
                tagOnce := ownedElsewhere_frames.3 }
    shared := ownedElsewhere_coherent.shared
    clean := ownedElsewhere_coherent.clean
    staging := ⟨rfl, fun _ h => (nomatch h), fun _ h => (nomatch h), fun _ h => (nomatch h)⟩ }

theorem witness_LoadReturnsCurrentValue :
    Coherent owned ∧ (∀ r ∈ sourceRegs (.load 4 0), owned.readable owned.turn r = true) ∧
      (owned.port owned.turn).servesLoad (owned.reg owned.turn 0) ∧ off (owned.reg owned.turn 0) ≤ 24 ∧
      backed (owned.reg owned.turn 0) ∧ owned.lookup owned.turn (owned.reg owned.turn 0) ≠ none ∧
      off 0x118 = 24 ∧ owned.lookup owned.turn 0x118 ≠ none :=
  ⟨owned_coherent, by decide +kernel, by decide +kernel, by decide +kernel, by decide +kernel, by decide +kernel,
    by decide +kernel, by decide +kernel⟩

theorem witness_OnlyStoresChangeCurrentValue :
    Coherent ownedElsewhere ∧ Memory.wf ownedElsewhere.shm.mem = true ∧
    (keepsValues (.load 0 0) = true ∧ ∃ t, exec (.load 0 0) ownedElsewhere = .next t) ∧
    (keepsValues (.cacheStore 0x100 1) = true ∧ (∃ t, exec (.cacheStore 0x100 1) ownedElsewhere = .next t) ∧
      ownedElsewhere.lookup ownedElsewhere.turn 0x100 = none) ∧ backed 0xFFF :=
  ⟨ownedElsewhere_coherent, rfl, ⟨rfl, _, rfl⟩, ⟨rfl, ⟨_, rfl⟩, by decide +kernel⟩, by decide⟩

theorem witness_StoreSetsCurrentValue :
    Coherent owned ∧ Memory.wf owned.shm.mem = true ∧ storeOf (.store 3 0) owned = some (0x100, 0) ∧
      (∀ r ∈ sourceRegs (.store 3 0), owned.readable owned.turn r = true) ∧
      (owned.port owned.turn).servesStore (owned.reg owned.turn 0) (owned.reg owned.turn 3) ∧ off 0x100 ≤ 24 ∧
      owned.lookup owned.turn 0x100 ≠ none :=
  ⟨owned_coherent, rfl, rfl, by decide +kernel, by decide +kernel, by decide, by decide +kernel⟩

theorem witness_CompletedStoreIsSeenByEveryPe :
    Coherent owned ∧ Memory.wf owned.shm.mem = true ∧ backed 0x118 ∧ ∃ t, cacheStore 0 0x118 7 owned = .done () t :=
  ⟨owned_coherent, rfl, by decide, _, rfl⟩

end Sys2Proof.Tests
end

section
/-! SUPPORT. Every step of the machine is a chain of elementary effects on the state, each made on behalf of one agent. A
fact that every effect keeps is then a fact about every step. -/

namespace Sys2Proof.Machine

/-! ### How a PE may change (R36, R37) -/

/-- What holds between a PE and the same PE later: program, budget and start are as they were, no step is uncounted and no
register unwritten. -/
structure Pe.Advances (p q : Pe) : Prop where
  program : q.program = p.program
  maxSteps : q.maxSteps = p.maxSteps
  started : q.started = p.started
  steps : p.steps ≤ q.steps
  written : ∀ i, p.isWritten i = true → q.isWritten i = true

theorem Pe.Advances.refl (p : Pe) : p.Advances p := ⟨rfl, rfl, rfl, le_rfl, fun _ => id⟩

theorem Pe.Advances.trans {p q r : Pe} (h : p.Advances q) (g : q.Advances r) : p.Advances r :=
  ⟨g.program.trans h.program, g.maxSteps.trans h.maxSteps, g.started.trans h.started, h.steps.trans g.steps,
    fun i hi => g.written i (h.written i hi)⟩

theorem Pe.advances_retire (p : Pe) (pc : Int) : p.Advances (p.retire pc) :=
  ⟨rfl, rfl, rfl, Nat.le_succ _, fun _ => id⟩

theorem Pe.advances_setReg (p : Pe) (d : Reg) (v : Word) : p.Advances (p.setReg d v) :=
  ⟨rfl, rfl, rfl, le_rfl, fun i hi => by rw [Pe.isWritten_setReg]; split <;> simp [hi]⟩

theorem Pe.advances_halt (p : Pe) : p.Advances { p with halted := true } := ⟨rfl, rfl, rfl, le_rfl, fun _ => id⟩

/-! ### The effects -/

/-- A change of counters that a snoop may make (R155 to R160). -/
def SnoopCount (f : CacheCounters → CacheCounters) : Prop :=
  ∀ c, f c = { c with flush := (f c).flush, invalidations := (f c).invalidations }

/-- One elementary change of the state on behalf of agent `k`. Of another cache than `k`'s only the frames, the matrix, the
log and the two snoop counters can change; the only PE that can change is `k`'s own, while it is not halted. -/
inductive Effect (k : PeId) (s : State) : State → Prop
  | count (j : PeId) (f : CacheCounters → CacheCounters)
      (rises : ∀ c, c.rwAccesses ≤ (f c).rwAccesses := by exact fun _ => le_rfl)
      (foreign : j ≠ k → SnoopCount f := by exact fun _ _ => rfl) : Effect k s (s.count j f)
  | touch (st : SetIx) (w : WayIx) : Effect k s (s.touch k st w)
  | record (j : PeId) (f t : Mesi) : Effect k s (s.record j f t)
  | frame (j : PeId) (st : SetIx) (w : WayIx) (f : Line → Line)
      (valid : ∀ l, l.valid = true → (f l).valid = true := by exact fun _ h => h) : Effect k s (s.modFrame j st w f)
  | flush (j : PeId) (a : Word) (p : LineData) : Effect k s (handleFlush j a p s)
  | source (b : Word) (j : PeId) : Effect k s (sourceLine b j s).2
  | shmRead (a : Word) (n : Nat) (r : Option PeId) : Effect k s { s with shm := (shmRead a n r s.shm).2.2 }
  | shmWrite (a : Word) (l : List Byte) (n : Nat) (r : Option PeId) : Effect k s { s with shm := (shmWrite a l n r s.shm).2 }
  | port (f : Port → Port) (loads : ∀ p, p.loads ≤ (f p).loads := by exact fun _ => le_rfl)
      (stores : ∀ p, p.stores ≤ (f p).stores := by exact fun _ => le_rfl) : Effect k s (s.modPort k f)
  | pe (f : Pe → Pe) (running : (s.pe k).halted = false) (advances : ∀ p : Pe, p.Advances (f p)) : Effect k s (s.modPe k f)
  | control (fault : Option FaultMark) (turn : PeId) (tick : Nat) (cmds : List HostCmd) (resp : Option Response) :
      Effect k s { s with fault := fault, turn := turn, tick := tick, cmds := cmds, resp := resp }

/-- A chain of effects on behalf of agent `k`. -/
abbrev Effects (k : PeId) : State → State → Prop := Relation.ReflTransGen (Effect k)

theorem Effect.single {k : PeId} {s t : State} (h : Effect k s t) : Effects k s t := Relation.ReflTransGen.single h

theorem effects_raise (k : PeId) (m : FaultMark) (s : State) : Effects k s (s.raise m) := by
  unfold State.raise
  split
  · exact (Effect.control (some m) s.turn s.tick s.cmds s.resp).single
  · exact .refl

theorem effects_respond (k : PeId) (r : Option Response) (s : State) : Effects k s { s with resp := r } :=
  (Effect.control s.fault s.turn s.tick s.cmds r).single

/-! ### The interconnect and the caches -/

theorem effects_flushFrame (k j : PeId) (st : SetIx) (l : Line) (s : State) : Effects k s (flushFrame j st l s) :=
  (Effect.count j _).single.tail (.flush j _ l.data)

theorem effects_cleanFrame (k j : PeId) (st : SetIx) (w : WayIx) (s : State) : Effects k s (cleanFrame j st w s) :=
  (Effect.frame j st w _).single

theorem effects_downgradeFrame (k j : PeId) (st : SetIx) (w : WayIx) (o : Mesi) (s : State) :
    Effects k s (downgradeFrame j st w o s) :=
  (Effect.record j o .S).single.tail (.frame j st w _)

theorem effects_invalidateFrame (k j : PeId) (st : SetIx) (w : WayIx) (o : Mesi) (s : State) :
    Effects k s (invalidateFrame j st w o s) :=
  ((Effect.record j o .I).single.tail (.frame j st w _)).tail
    (.count j _)

theorem effects_snoopWay (k j : PeId) (kind : SnoopKind) (a : Word) (w : WayIx) (s : State) :
    Effects k s (snoopWay j kind a w s) := by
  rcases snoopWay_cases j kind a w s with ⟨e, _⟩ | ⟨_, _, _, e⟩ | ⟨_, _, _, e⟩ | ⟨_, _, _, e⟩ | ⟨_, _, _, e⟩ <;> rw [e]
  · exact ((effects_flushFrame k j _ _ s).trans (effects_cleanFrame k j _ w _)).trans (effects_downgradeFrame k j _ w _ _)
  · exact effects_downgradeFrame k j _ w _ s
  · exact ((effects_flushFrame k j _ _ s).trans (effects_cleanFrame k j _ w _)).trans (effects_invalidateFrame k j _ w _ _)
  · exact effects_invalidateFrame k j _ w _ s

theorem effects_broadcast (k src : PeId) (kind : SnoopKind) (a : Word) (s : State) :
    Effects k s (broadcast src kind a s) :=
  broadcast_induction (Effects k) (fun _ => .refl) (fun _ _ _ => .trans)
    (fun j s _ => (effects_snoopWay k j kind a 0 s).trans (effects_snoopWay k j kind a 1 _)) s

theorem effects_installLine (k : PeId) (a : Word) (line : LineData) (new : Mesi) (s : State) :
    Effects k s (installLine k a line new s) := by
  unfold installLine; dsimp only
  refine Relation.ReflTransGen.tail (.tail (.tail ?_ (.frame k _ _ _ fun _ _ => rfl)) (.touch _ _)) (.record k _ _)
  split
  · exact effects_flushFrame k k _ _ s
  · exact .refl

theorem effects_emitBusRd (k : PeId) (a : Word) (s : State) : Effects k s (emitBusRd k a s) :=
  ((effects_broadcast k k .read a s).tail (.source (baseOf a) k)).trans (effects_installLine k a _ _ _)

theorem effects_emitBusRdX (k : PeId) (a : Word) (s : State) : Effects k s (emitBusRdX k a s) :=
  ((effects_broadcast k k .invalidate a s).tail (.source (baseOf a) k)).trans (effects_installLine k a _ _ _)

/-- An agent may count anything in its own cache that does not lower `rw_accesses`. -/
theorem effects_countOwn (k : PeId) (f : CacheCounters → CacheCounters) (s : State)
    (rises : ∀ c, c.rwAccesses ≤ (f c).rwAccesses) : Effects k s (s.count k f) :=
  (Effect.count k f rises fun h => absurd rfl h).single

theorem effects_makeModified (k : PeId) (st : SetIx) (w : WayIx) (old : Mesi) (s : State) :
    Effects k s (makeModified k st w old s) :=
  (Effect.record k old .M).single.tail (.frame k st w _)

theorem effects_storeHit (k : PeId) (a : Word) (w : WayIx) (s : State) : Effects k s (storeHit k a w s) := by
  unfold storeHit
  split
  · exact .refl
  · exact effects_makeModified k _ w .E s
  · exact ((effects_countOwn k CacheCounters.upgrade s fun _ => le_rfl).trans
      (effects_broadcast k k .invalidate a _)).trans (effects_makeModified k _ w .S _)
  · exact .refl

theorem effects_touchOnStore (k : PeId) (st : SetIx) (w : WayIx) (s : State) : Effects k s (touchOnStore k st w s) := by
  unfold touchOnStore
  split
  · exact (Effect.touch st w).single
  · exact .refl

theorem effects_cacheLoad {k : PeId} {a : Word} {s t : State} (h : (cacheLoad k a s).state? = some t) :
    Effects k s t := by
  have counted := effects_countOwn k CacheCounters.load s fun _ => Nat.le_succ _
  rcases cacheLoad_cases k a s with ⟨_, e⟩ | ⟨_, w, _, e⟩ | ⟨_, _, e⟩ <;> rw [e] at h <;> cases h
  · exact counted.tail (.touch _ w)
  · exact (counted.trans (effects_countOwn k CacheCounters.missRd _ fun _ => le_rfl)).trans (effects_emitBusRd k a _)

theorem effects_cacheStore {k : PeId} {a v : Word} {s t : State} (h : (cacheStore k a v s).state? = some t) :
    Effects k s t := by
  have counted := effects_countOwn k CacheCounters.store s fun _ => Nat.le_succ _
  rcases cacheStore_cases k a v s with ⟨_, e⟩ | ⟨_, w, _, e⟩ | ⟨_, _, e⟩ <;> rw [e] at h <;> cases h
  · exact ((counted.trans (effects_storeHit k a w _)).tail (.frame k _ w _)).trans
      (effects_touchOnStore k _ w _)
  · exact (counted.trans (effects_countOwn k CacheCounters.missRdX _ fun _ => le_rfl)).trans (effects_emitBusRdX k a _)

/-! ### The ports -/

theorem effects_issueLoad (k : PeId) (a : Word) (s : State) : Effects k s (issueLoad k a s) := by
  unfold issueLoad
  split
  · exact (Effect.port _ (loads := fun _ => by exact Nat.le_succ _)).single
  all_goals exact .refl

theorem effects_issueStore (k : PeId) (a v : Word) (s : State) : Effects k s (issueStore k a v s) := by
  unfold issueStore
  split
  · exact (Effect.port _ (stores := fun _ => by exact Nat.le_succ _)).single
  all_goals exact .refl

/-- The port goes idle when its access completes (R233). -/
theorem effect_portIdle (k : PeId) (s : State) : Effect k s (s.modPort k fun p => { p with fsm := .idle }) :=
  .port _

theorem effects_portLoad {k : PeId} {a : Word} {s t : State} (h : (portLoad k a s).state? = some t) :
    Effects k s t := by
  rw [portLoad_eq] at h
  split at h
  · refine (effects_issueLoad k a s).trans ?_
    unfold portLoadAttempt at h
    split at h <;> cases h
    · next e => exact (effects_cacheLoad (by rw [e]; rfl)).tail (effect_portIdle k _)
    · next e => exact effects_cacheLoad (by rw [e]; rfl)
  · cases h

theorem effects_portStore {k : PeId} {a v : Word} {s t : State} (h : (portStore k a v s).state? = some t) :
    Effects k s t := by
  rw [portStore_eq] at h
  split at h
  · refine (effects_issueStore k a v s).trans ?_
    unfold portStoreAttempt at h
    split at h <;> cases h
    · next e => exact (effects_cacheStore (by rw [e]; rfl)).tail (effect_portIdle k _)
    · next e => exact effects_cacheStore (by rw [e]; rfl)
  · cases h

/-! ### The instructions -/

/-- An instruction that reads registers first has the effects of its run, or raises. -/
theorem effects_withRegs {k : PeId} {rs : List Reg} {s t : State} {run : Host.Outcome State Fault Refusal}
    (h : withRegs k rs s run = .next t) (hrun : run = .next t → Effects k s t) : Effects k s t := by
  rcases withRegs_cases k rs s run with ⟨_, e⟩ | ⟨r, _, _, e⟩ <;> rw [e] at h
  · exact hrun h
  · cases h; exact effects_raise k _ s

theorem effects_finishReg {k : PeId} {d : Reg} {v : Word} {s t : State} (hk : (s.pe k).halted = false)
    (h : finishReg k d v s = .next t) : Effects k s t := by
  cases h
  exact (Effect.pe _ hk fun p => (p.advances_setReg d v).trans (Pe.advances_retire _ _)).single

theorem effects_halt {k : PeId} {s : State} (hk : (s.pe k).halted = false) : Effects k s (s.halt k) :=
  (Effect.pe _ hk Pe.advances_halt).single

theorem effects_execJnz {d : Reg} {imm : Int} {s t : State} (hk : (s.pe s.turn).halted = false)
    (h : execJnz d imm s = .next t) : Effects s.turn s t := by
  refine effects_withRegs h fun h => ?_
  cases h
  exact (Effect.pe _ hk fun p => p.advances_retire _).single

theorem effects_execLea {d a b : Reg} {imm : Int} {s t : State} (hk : (s.pe s.turn).halted = false)
    (h : execLea d a b imm s = .next t) : Effects s.turn s t := by
  refine effects_withRegs h fun h => ?_
  split at h
  · exact effects_finishReg hk h
  · cases h; exact effects_raise _ _ s

theorem effects_execLoad {d a : Reg} {s t : State} (hk : (s.pe s.turn).halted = false)
    (h : execLoad d a s = .next t) : Effects s.turn s t := by
  refine effects_withRegs h fun h => ?_
  split at h <;> cases h
  · next v u e =>
    have hu : (portLoad s.turn (s.reg s.turn a) s).state? = some u := by rw [e]; rfl
    have running : (u.pe s.turn).halted = false := by
      simpa only [State.pe, (memOnly_portLoad hu).pes] using hk
    exact (effects_portLoad hu).tail (.pe _ running fun p => (p.advances_setReg d v).trans (Pe.advances_retire _ _))
  · next e => exact effects_portLoad (by rw [e]; rfl)
  · exact effects_raise _ _ s

theorem effects_execStore {d a : Reg} {s t : State} (hk : (s.pe s.turn).halted = false)
    (h : execStore d a s = .next t) : Effects s.turn s t := by
  refine effects_withRegs h fun h => ?_
  split at h <;> cases h
  · next v u e =>
    have hu : (portStore s.turn (s.reg s.turn a) (s.reg s.turn d) s).state? = some u := by rw [e]; rfl
    have running : (u.pe s.turn).halted = false := by
      simpa only [State.pe, (memOnly_portStore hu).pes] using hk
    exact (effects_portStore hu).tail (.pe _ running fun p => p.advances_retire _)
  · next e => exact effects_portStore (by rw [e]; rfl)
  · exact effects_raise _ _ s

theorem effects_execLoad64 {a : Word} {s t : State} (h : execLoad64 a s = .next t) : Effects s.turn s t := by
  unfold execLoad64 at h
  split at h <;> cases h
  · next e => exact (effects_portLoad (by rw [e]; rfl)).trans (effects_respond s.turn _ _)
  · next e => exact effects_portLoad (by rw [e]; rfl)
  · exact effects_raise _ _ s

theorem effects_execStore64 {a v : Word} {s t : State} (h : execStore64 a v s = .next t) : Effects s.turn s t := by
  unfold execStore64 at h
  split at h <;> cases h
  · next e => exact (effects_portStore (by rw [e]; rfl)).trans (effects_respond s.turn _ _)
  · next e => exact effects_portStore (by rw [e]; rfl)
  · exact effects_raise _ _ s

theorem effects_execCacheLoad {a : Word} {s t : State} (h : execCacheLoad a s = .next t) : Effects s.turn s t := by
  unfold execCacheLoad at h
  split at h <;> cases h
  · next e => exact (effects_cacheLoad (by rw [e]; rfl)).trans (effects_respond s.turn _ _)
  · next e => exact (effects_cacheLoad (by rw [e]; rfl)).trans (effects_respond s.turn _ _)
  · exact effects_raise _ _ s

theorem effects_execCacheStore {a v : Word} {s t : State} (h : execCacheStore a v s = .next t) : Effects s.turn s t := by
  unfold execCacheStore at h
  split at h <;> cases h
  · next e => exact (effects_cacheStore (by rw [e]; rfl)).trans (effects_respond s.turn _ _)
  · next e => exact (effects_cacheStore (by rw [e]; rfl)).trans (effects_respond s.turn _ _)
  · exact effects_raise _ _ s

/-- A next state of an instruction is a chain of effects on behalf of one agent. A PE instruction's is the PE in turn, which
must not have halted. -/
theorem exec_effects {i : Instr} {s t : State} (hk : i.format = .i32 → (s.pe s.turn).halted = false)
    (h : exec i s = .next t) : ∃ k, (i.format = .i32 → k = s.turn) ∧ Effects k s t := by
  cases i with
  | load d a => exact ⟨_, fun _ => rfl, effects_execLoad (hk rfl) h⟩
  | store d a => exact ⟨_, fun _ => rfl, effects_execStore (hk rfl) h⟩
  | fmul d a b => exact ⟨_, fun _ => rfl, effects_withRegs h (effects_finishReg (hk rfl))⟩
  | fadd d a b => exact ⟨_, fun _ => rfl, effects_withRegs h (effects_finishReg (hk rfl))⟩
  | inc d => exact ⟨_, fun _ => rfl, effects_withRegs h (effects_finishReg (hk rfl))⟩
  | dec d => exact ⟨_, fun _ => rfl, effects_withRegs h (effects_finishReg (hk rfl))⟩
  | jnz d imm => exact ⟨_, fun _ => rfl, effects_execJnz (hk rfl) h⟩
  | lea d a b imm => exact ⟨_, fun _ => rfl, effects_execLea (hk rfl) h⟩
  | halt => cases h; exact ⟨_, fun _ => rfl, effects_halt (hk rfl)⟩
  | busRd src a => cases h; exact ⟨src, nofun, effects_emitBusRd src a s⟩
  | busRdX src a => cases h; exact ⟨src, nofun, effects_emitBusRdX src a s⟩
  | busUpgr src a => cases h; exact ⟨src, nofun, effects_broadcast src src .invalidate a s⟩
  | flush src a p => cases h; exact ⟨src, nofun, (Effect.flush src a p).single⟩
  | inv src a => cases h; exact ⟨src, nofun, effects_broadcast src src .invalidate a s⟩
  | load64 a => exact ⟨_, nofun, effects_execLoad64 h⟩
  | store64 a v => exact ⟨_, nofun, effects_execStore64 h⟩
  | cacheLoad a => exact ⟨_, nofun, effects_execCacheLoad h⟩
  | cacheStore a v => exact ⟨_, nofun, effects_execCacheStore h⟩
  | shmRead a n r => cases h; exact ⟨s.turn, nofun, (Effect.shmRead a n r).single.trans (effects_respond _ _ _)⟩
  | shmWrite a l n r => cases h; exact ⟨s.turn, nofun, (Effect.shmWrite a l n r).single.trans (effects_respond _ _ _)⟩

/-! ### Where an instruction comes from -/

theorem format_of_decodeI32 {w : Nat} {i : Instr} (h : decodeI32 w = .ok i) : i.format = .i32 := by
  unfold decodeI32 at h
  dsimp only at h
  split at h <;> cases h <;> rfl

theorem format_of_decodeTxn {n : Nat} {i : Instr} (h : decodeTxn n = .ok i) : i.format = .txn := by
  unfold decodeTxn at h
  dsimp only at h
  split at h <;> cases h <;> rfl

theorem decodePort_format (n : Nat) : (decodePort n).format = .portcmd := by
  unfold decodePort
  dsimp only
  split <;> rfl

theorem decodeCache_format (n : Nat) : (decodeCache n).format = .cachecmd := by
  unfold decodeCache
  dsimp only
  split <;> rfl

theorem decodeShm_format (n : Nat) (payload : List Byte) : (decodeShm n payload).format = .shmcmd := by
  unfold decodeShm
  dsimp only
  split <;> rfl

/-- A mapped result is a value only if the result was one. -/
theorem except_map_eq_ok {ε α β : Type} {x : Except ε α} {f : α → β} {b : β} (h : x.map f = .ok b) :
    ∃ a, x = .ok a ∧ f a = b := by
  cases x with
  | error e => cases h
  | ok a => cases h; exact ⟨a, rfl, rfl⟩

/-- What arrives at the interface of a format is an instruction of that format. -/
theorem format_of_decode {f : Format} {bytes rest : List Byte} {i : Instr} (h : decode f bytes = .ok (i, rest)) :
    i.format = f := by
  unfold decode at h
  split at h
  · cases h
  · cases f with
    | i32 => obtain ⟨j, hj, e⟩ := except_map_eq_ok h; cases e; exact format_of_decodeI32 hj
    | txn => obtain ⟨j, hj, e⟩ := except_map_eq_ok h; cases e; exact format_of_decodeTxn hj
    | portcmd => cases h; exact decodePort_format _
    | cachecmd => cases h; exact decodeCache_format _
    | shmcmd =>
      dsimp only at h
      split at h <;> cases h
      exact decodeShm_format _ _

/-- A queued record never holds a PE instruction. -/
theorem format_of_hostCmd {c : HostCmd} {i : Instr} (h : c.instr = .ok i) : i.format ≠ .i32 := by
  have hf := hostCmd_instr_ok h
  unfold HostCmd.instr at h
  split at h
  · cases h
  · obtain ⟨⟨j, rest⟩, hj, rfl⟩ := except_map_eq_ok h
    exact format_of_decode hj ▸ hf

/-- What a PE fetches is a PE instruction. -/
theorem format_of_fetch {s : State} {k : PeId} {i : Instr} (h : s.fetch k = .instr i) : i.format = .i32 := by
  unfold State.fetch at h
  dsimp only at h
  split at h
  · cases h
  · split at h
    · cases h
    · split at h <;> cases h
      next e => exact format_of_decodeI32 e

/-! ### The step -/

/-- An enabled agent's PE has not halted (R282). -/
theorem running_of_enabled {s : State} {k : PeId} (h : s.enabled k = true) : (s.pe k).halted = false := by
  simp only [State.enabled, Bool.and_eq_true, Bool.not_eq_true'] at h
  exact h.1.2

theorem effects_setTurn (k j : PeId) (s : State) : Effects k s { s with turn := j } :=
  (Effect.control s.fault j s.tick s.cmds s.resp).single

theorem effects_reschedule (k : PeId) (s : State) : Effects k s s.reschedule :=
  (Effect.control s.fault (Config.schedule s.tick) (s.tick + 1) s.cmds s.resp).single

theorem effects_afterCmd (k : PeId) (s : State) (c : HostCmd) (rest : List HostCmd) (t : State) :
    Effects k t (afterCmd s c rest t) :=
  (Effect.control t.fault s.turn t.tick (if cmdFinished c t then rest else s.cmds) t.resp).single

/-- Every step is a chain of effects on behalf of one agent; with no record queued it is the agent that is next. -/
theorem step_effects {s t : State} (h : step s = .next t) :
    ∃ k, (s.cmds = [] → s.nextAgent = some k) ∧ Effects k s t := by
  obtain ⟨-, ⟨c, rest, i, u, hc, hi, -, hu, rfl⟩ | ⟨k, -, hk, he, -, rfl⟩ | ⟨k, i, u, -, hk, he, hf, hu, rfl⟩⟩ :=
    step_cases h
  · obtain ⟨k, -, hs⟩ := exec_effects (fun hi' => absurd hi' (format_of_hostCmd hi)) hu
    exact ⟨k, by simp [hc], ((effects_setTurn k c.port s).trans hs).trans (effects_afterCmd k s c rest u)⟩
  · exact ⟨k, fun _ => hk, (effects_halt (running_of_enabled he)).trans (effects_reschedule k _)⟩
  · obtain ⟨j, hj, hs⟩ := exec_effects (s := { s with turn := k }) (fun _ => running_of_enabled he) hu
    obtain rfl : j = k := hj (format_of_fetch hf)
    exact ⟨j, fun _ => hk, ((effects_setTurn j j s).trans hs).trans (effects_reschedule j u)⟩

end Sys2Proof.Machine
end

section
/-! SUPPORT. What every chain of effects keeps, and the statements about every step that follow. -/

namespace Sys2Proof.Machine

/-! ### Canonical memory and staging (R21, R29) -/

/-- Memory is canonical and the staging map sorted. -/
structure Canonical (s : State) : Prop where
  memory : Memory.wf s.shm.mem = true
  staging : mapSorted s.staging = true

theorem OutsideLine.canonical {b : Nat} {s t : State} (h : OutsideLine b s t) (hs : Canonical s) : Canonical t :=
  ⟨h.memWf hs.memory, h.stagingSorted hs.staging⟩

theorem Effect.canonical {k : PeId} {s t : State} (h : Effect k s t) (hs : Canonical s) : Canonical t := by
  cases h with
  | flush j a p => exact (outsideLine_handleFlush j a p s).canonical hs
  | source b j => exact (outsideLine_sourceLine b j s).canonical hs
  | shmRead a n r => exact ⟨by rw [shmRead_mem]; exact hs.memory, hs.staging⟩
  | shmWrite a l n r => exact ⟨memory_wf_shmWrite hs.memory a l n r, hs.staging⟩
  | count | touch | record | frame | port | pe | control => exact ⟨hs.memory, hs.staging⟩

theorem Effects.canonical {k : PeId} {s t : State} (h : Effects k s t) (hs : Canonical s) : Canonical t := by
  induction h with
  | refl => exact hs
  | tail _ e ih => exact e.canonical ih

/-! ### What other agents see (R20, R142, R241) -/

theorem SnoopedCounters.refl (s : State) (j : PeId) : SnoopedCounters s s j := ⟨rfl, fun _ => rfl⟩

theorem SnoopedCounters.trans {s t u : State} {j : PeId} (h : SnoopedCounters s t j) (g : SnoopedCounters t u j) :
    SnoopedCounters s u j :=
  ⟨g.ctr.trans (by rw [h.ctr]), fun st => (g.lru st).trans (h.lru st)⟩

/-- A state whose cache `j` is as it was. -/
theorem snoopedCounters_of_eq {s t : State} {j : PeId} (h : t.cache j = s.cache j) : SnoopedCounters s t j :=
  ⟨by rw [h], fun _ => by rw [h]⟩

/-- A state in which cache `j` counts as before and has the same LRU bits. -/
theorem snoopedCounters_of_ctr {s t : State} {j : PeId} (hc : (t.cache j).ctr = (s.cache j).ctr)
    (hl : ∀ st, ((t.cache j).cset st).lru = ((s.cache j).cset st).lru) : SnoopedCounters s t j :=
  ⟨by rw [hc], hl⟩

theorem snoopedCounters_count {s : State} {i j : PeId} {f : CacheCounters → CacheCounters} (h : j = i → SnoopCount f) :
    SnoopedCounters s (s.count i f) j := by
  refine ⟨?_, s.lru_count i f j⟩
  rw [State.count_ctr]
  split
  · next e => subst e; exact h rfl _
  · rfl

/-- PE and port `j` are as they were, and its cache has changed as a snoop may change it. -/
structure Bystander (s t : State) (j : PeId) : Prop where
  pe : t.pe j = s.pe j
  port : t.port j = s.port j
  counters : SnoopedCounters s t j

theorem Bystander.refl (s : State) (j : PeId) : Bystander s s j := ⟨rfl, rfl, .refl s j⟩

theorem Bystander.trans {s t u : State} {j : PeId} (h : Bystander s t j) (g : Bystander t u j) : Bystander s u j :=
  ⟨g.pe.trans h.pe, g.port.trans h.port, h.counters.trans g.counters⟩

theorem Effect.bystander {k j : PeId} {s t : State} (h : Effect k s t) (hj : j ≠ k) : Bystander s t j := by
  cases h with
  | count i f _ foreign => exact ⟨rfl, rfl, snoopedCounters_count fun e => foreign (e ▸ hj)⟩
  | touch st w => exact ⟨rfl, rfl, snoopedCounters_of_eq (State.cache_modCache_ne s hj _)⟩
  | record i f t => exact ⟨rfl, rfl, snoopedCounters_of_ctr (by simp) (s.lru_record i f t j)⟩
  | frame i st w f _ => exact ⟨rfl, rfl, snoopedCounters_of_ctr (by simp) (s.lru_modFrame i st w f j)⟩
  | source b i =>
    have keeps := busOnly_sourceLine b i s
    exact ⟨keeps.pe j, keeps.port j, snoopedCounters_of_eq (by simp)⟩
  | port f _ _ => exact ⟨rfl, by rw [State.port_modPort, if_neg hj], snoopedCounters_of_eq rfl⟩
  | pe f _ _ => exact ⟨State.pe_modPe_ne s hj f, rfl, snoopedCounters_of_eq rfl⟩
  | flush | shmRead | shmWrite | control => exact ⟨rfl, rfl, snoopedCounters_of_eq rfl⟩

theorem Effects.bystander {k j : PeId} {s t : State} (h : Effects k s t) (hj : j ≠ k) : Bystander s t j := by
  induction h with
  | refl => exact .refl s j
  | tail _ e ih => exact ih.trans (e.bystander hj)

/-! ### What is never undone (R25, R26, R30, R36, R37, R314) -/

/-- The sticky bit and the totals of the shared memory have not gone back. -/
structure ShmGrows (s t : State) : Prop where
  sticky : s.shmFault = true → t.shmFault = true
  reads : s.shm.totalReads ≤ t.shm.totalReads
  writes : s.shm.totalWrites ≤ t.shm.totalWrites

/-- No frame of cache `j` has become invalid, its log goes on from where it was, and it counts no fewer accesses. -/
structure CacheGrows (s t : State) (j : PeId) : Prop where
  valid : ∀ st w, (s.frame j st w).valid = true → (t.frame j st w).valid = true
  log : (s.cache j).log <+: (t.cache j).log
  accesses : (s.cache j).ctr.rwAccesses ≤ (t.cache j).ctr.rwAccesses

/-- Agent `j` has not gone back: its PE advances, and rests once halted; its port counts no less; its cache grows. -/
structure AgentGrows (s t : State) (j : PeId) : Prop where
  pe : (s.pe j).Advances (t.pe j)
  halted : (s.pe j).halted = true → t.pe j = s.pe j
  loads : (s.port j).loads ≤ (t.port j).loads
  stores : (s.port j).stores ≤ (t.port j).stores
  cache : CacheGrows s t j

theorem ShmGrows.refl (s : State) : ShmGrows s s := ⟨id, le_rfl, le_rfl⟩

theorem ShmGrows.trans {s t u : State} (h : ShmGrows s t) (g : ShmGrows t u) : ShmGrows s u :=
  ⟨g.sticky ∘ h.sticky, h.reads.trans g.reads, h.writes.trans g.writes⟩

theorem CacheGrows.refl (s : State) (j : PeId) : CacheGrows s s j := ⟨fun _ _ => id, ⟨[], List.append_nil _⟩, le_rfl⟩

theorem CacheGrows.trans {s t u : State} {j : PeId} (h : CacheGrows s t j) (g : CacheGrows t u j) : CacheGrows s u j :=
  ⟨fun st w => g.valid st w ∘ h.valid st w, h.log.trans g.log, h.accesses.trans g.accesses⟩

theorem AgentGrows.refl (s : State) (j : PeId) : AgentGrows s s j := ⟨.refl _, fun _ => rfl, le_rfl, le_rfl, .refl s j⟩

theorem AgentGrows.trans {s t u : State} {j : PeId} (h : AgentGrows s t j) (g : AgentGrows t u j) : AgentGrows s u j :=
  ⟨h.pe.trans g.pe, fun hs => (g.halted (h.halted hs ▸ hs)).trans (h.halted hs), h.loads.trans g.loads,
    h.stores.trans g.stores, h.cache.trans g.cache⟩

/-- A cache that has not changed. -/
theorem cacheGrows_of_eq {s t : State} {j : PeId} (h : t.cache j = s.cache j) : CacheGrows s t j :=
  ⟨fun _ _ hv => by rwa [State.frame, h], by rw [h], by rw [h]⟩

/-- An agent none of whose PE, port and cache has changed. -/
theorem agentGrows_of_eq {s t : State} {j : PeId} (hp : t.pe j = s.pe j) (hq : t.port j = s.port j)
    (hc : t.cache j = s.cache j) : AgentGrows s t j where
  pe := hp ▸ .refl _
  halted _ := hp
  loads := by rw [hq]
  stores := by rw [hq]
  cache := cacheGrows_of_eq hc

/-- An agent of which only the cache has changed. -/
theorem agentGrows_of_cache {s t : State} {j : PeId} (h : BusOnly s t) (hc : CacheGrows s t j) : AgentGrows s t j where
  pe := h.pe j ▸ .refl _
  halted _ := h.pe j
  loads := by rw [h.port j]
  stores := by rw [h.port j]
  cache := hc

theorem totals_shmRead (a : Word) (n : Nat) (r : Option PeId) (m : Shm) :
    m.totalReads ≤ (shmRead a n r m).2.2.totalReads ∧ (shmRead a n r m).2.2.totalWrites = m.totalWrites := by
  unfold shmRead
  split
  · cases r <;> exact ⟨Nat.le_succ _, rfl⟩
  · exact ⟨le_rfl, rfl⟩

theorem totals_shmWrite (a : Word) (l : List Byte) (n : Nat) (r : Option PeId) (m : Shm) :
    (shmWrite a l n r m).2.totalReads = m.totalReads ∧ m.totalWrites ≤ (shmWrite a l n r m).2.totalWrites := by
  unfold shmWrite
  split
  · exact ⟨rfl, le_rfl⟩
  · split
    · exact ⟨rfl, le_rfl⟩
    · cases r <;> exact ⟨rfl, Nat.le_succ _⟩

theorem shmGrows_sourceLine (b : Word) (j : PeId) (s : State) : ShmGrows s (sourceLine b j s).2 := by
  refine ⟨(outsideLine_sourceLine b j s).sticky, ?_, ?_⟩ <;> unfold sourceLine <;> split
  · exact le_rfl
  · exact (totals_shmRead b _ (some j) s.shm).1
  · exact le_rfl
  · exact (totals_shmRead b _ (some j) s.shm).2.ge

theorem Effect.shmGrows {k : PeId} {s t : State} (h : Effect k s t) : ShmGrows s t := by
  cases h with
  | flush j a p =>
    obtain ⟨hr, hw⟩ := totals_shmWrite (baseOf a) p.toList Config.lineBytes (some j) s.shm
    exact ⟨(outsideLine_handleFlush j a p s).sticky, hr.ge, hw⟩
  | source b j => exact shmGrows_sourceLine b j s
  | shmRead a n r =>
    obtain ⟨hr, hw⟩ := totals_shmRead a n r s.shm
    exact ⟨id, hr, hw.ge⟩
  | shmWrite a l n r =>
    obtain ⟨hr, hw⟩ := totals_shmWrite a l n r s.shm
    exact ⟨id, hr.ge, hw⟩
  | count | touch | record | frame | port | pe | control => exact ⟨id, le_rfl, le_rfl⟩

theorem cacheGrows_count (s : State) (i j : PeId) {f : CacheCounters → CacheCounters}
    (rises : ∀ c, c.rwAccesses ≤ (f c).rwAccesses) : CacheGrows s (s.count i f) j := by
  refine ⟨fun st w h => by simpa using h, by simp, ?_⟩
  rw [State.count_ctr]
  split
  · next e => subst e; exact rises _
  · exact le_rfl

theorem cacheGrows_touch (s : State) (i j : PeId) (st : SetIx) (w : WayIx) : CacheGrows s (s.touch i st w) j :=
  ⟨fun _ _ h => by simpa using h, by simp, by simp⟩

theorem cacheGrows_record (s : State) (i j : PeId) (f t : Mesi) : CacheGrows s (s.record i f t) j := by
  refine ⟨fun _ _ h => by simpa using h, ?_, by simp⟩
  rw [State.record_log]
  split
  · next e => subst e; exact ⟨_, rfl⟩
  · exact ⟨[], List.append_nil _⟩

theorem cacheGrows_modFrame (s : State) (i j : PeId) (e : SetIx) (v : WayIx) {f : Line → Line}
    (valid : ∀ l, l.valid = true → (f l).valid = true) : CacheGrows s (s.modFrame i e v f) j := by
  refine ⟨fun st w h => ?_, by simp, by simp⟩
  rw [State.frame_modFrame]
  split
  · next he => obtain ⟨rfl, rfl, rfl⟩ := he; exact valid _ h
  · exact h

theorem agentGrows_modPort (s : State) (k j : PeId) {f : Port → Port} (loads : ∀ p, p.loads ≤ (f p).loads)
    (stores : ∀ p, p.stores ≤ (f p).stores) : AgentGrows s (s.modPort k f) j := by
  by_cases hj : j = k
  · subst hj
    exact ⟨.refl _, fun _ => rfl, by simpa using loads _, by simpa using stores _, cacheGrows_of_eq rfl⟩
  · exact agentGrows_of_eq rfl (by rw [State.port_modPort, if_neg hj]) rfl

theorem agentGrows_modPe (s : State) (k j : PeId) {f : Pe → Pe} (running : (s.pe k).halted = false)
    (advances : ∀ p : Pe, p.Advances (f p)) : AgentGrows s (s.modPe k f) j := by
  by_cases hj : j = k
  · subst hj
    exact ⟨by simpa using advances _, fun h => by simp [running] at h, le_rfl, le_rfl, cacheGrows_of_eq rfl⟩
  · exact agentGrows_of_eq (State.pe_modPe_ne s hj f) rfl rfl

theorem Effect.agentGrows {k : PeId} {s t : State} (h : Effect k s t) (j : PeId) : AgentGrows s t j := by
  cases h with
  | count i f rises _ => exact agentGrows_of_cache (busOnly_count s i f) (cacheGrows_count s i j rises)
  | touch st w => exact agentGrows_of_cache (busOnly_touch s k st w) (cacheGrows_touch s k j st w)
  | record i f t => exact agentGrows_of_cache (busOnly_record s i f t) (cacheGrows_record s i j f t)
  | frame i st w f valid => exact agentGrows_of_cache (busOnly_modFrame s i st w f) (cacheGrows_modFrame s i j st w valid)
  | source b i =>
    have keeps := busOnly_sourceLine b i s
    exact agentGrows_of_eq (keeps.pe j) (keeps.port j) (by simp)
  | port f loads stores => exact agentGrows_modPort s k j loads stores
  | pe f running advances => exact agentGrows_modPe s k j running advances
  | flush | shmRead | shmWrite | control => exact agentGrows_of_eq rfl rfl rfl

theorem Effects.shmGrows {k : PeId} {s t : State} (h : Effects k s t) : ShmGrows s t := by
  induction h with
  | refl => exact .refl s
  | tail _ e ih => exact ih.trans e.shmGrows

theorem Effects.agentGrows {k : PeId} {s t : State} (h : Effects k s t) (j : PeId) : AgentGrows s t j := by
  induction h with
  | refl => exact .refl s j
  | tail _ e ih => exact ih.trans (e.agentGrows j)

/-! ### The statements -/

/-- Settles O51: a step is a chain of effects, and each effect keeps memory and staging canonical. -/
theorem memoryStaysCanonical : Obligations.MemoryStaysCanonical := by
  intro s t hm hs h
  obtain ⟨k, -, effects⟩ := step_effects h
  obtain ⟨memory, staging⟩ := effects.canonical ⟨hm, hs⟩
  exact ⟨memory, staging⟩

/-- Settles O55: a step is a chain of effects, none of which takes anything back or moves a halted PE. -/
theorem nothingIsUndone : Obligations.NothingIsUndone := by
  intro s t h
  obtain ⟨k, -, effects⟩ := step_effects h
  obtain ⟨sticky, reads, writes⟩ := effects.shmGrows
  refine ⟨sticky, reads, writes, fun j => ?_⟩
  obtain ⟨pe, halted, loads, stores, cache⟩ := effects.agentGrows j
  obtain ⟨l, log⟩ := cache.log
  exact ⟨pe.program, pe.maxSteps, pe.started, halted, pe.steps, pe.written, cache.valid, ⟨l, log.symm⟩, loads, stores,
    cache.accesses⟩

/-- Settles O56: with no record queued the effects of a step are those of the agent that is next, and to every other agent
each of them does what a snoop may do. -/
theorem otherAgentsAreUntouched : Obligations.OtherAgentsAreUntouched := by
  intro s t hc h
  obtain ⟨k, chosen, effects⟩ := step_effects h
  refine ⟨k, chosen hc, fun j hj => ?_⟩
  obtain ⟨pe, port, counters⟩ := effects.bystander hj
  exact ⟨pe, port, counters⟩

end Sys2Proof.Machine
end

section
/-! SUPPORT. What a load or store instruction does with the one cache attempt it makes, said once for its three forms, and the
states that agree in all that the current value of memory depends on. -/

namespace Sys2Proof.Machine

/-! ### States that hold the same lines and bytes -/

/-- `t` has the frames, the shared memory's bytes and the staging slots of `s`. -/
structure SameData (s t : State) : Prop where
  frame : ∀ j st w, t.frame j st w = s.frame j st w
  mem : t.shm.mem = s.shm.mem
  staging : t.staging = s.staging

theorem SameData.refl (s : State) : SameData s s := ⟨fun _ _ _ => rfl, rfl, rfl⟩

theorem sameData_modPe (k : PeId) (f : Pe → Pe) (s : State) : SameData s (s.modPe k f) := ⟨fun _ _ _ => rfl, rfl, rfl⟩

theorem sameData_modPort (k : PeId) (f : Port → Port) (s : State) : SameData s (s.modPort k f) :=
  ⟨fun _ _ _ => rfl, rfl, rfl⟩

theorem sameData_count (k : PeId) (f : CacheCounters → CacheCounters) (s : State) : SameData s (s.count k f) :=
  ⟨fun _ _ _ => by simp, rfl, rfl⟩

theorem sameData_touch (k : PeId) (st : SetIx) (w : WayIx) (s : State) : SameData s (s.touch k st w) :=
  ⟨fun _ _ _ => by simp, rfl, rfl⟩

theorem sameData_touchOnStore (k : PeId) (st : SetIx) (w : WayIx) (s : State) : SameData s (touchOnStore k st w s) := by
  unfold touchOnStore
  split
  · exact sameData_touch k st w s
  · exact .refl s

theorem sameData_respond (r : Option Response) (s : State) : SameData s { s with resp := r } := ⟨fun _ _ _ => rfl, rfl, rfl⟩

theorem sameData_raise (m : FaultMark) (s : State) : SameData s (s.raise m) := ⟨by simp, by simp, by simp⟩

theorem sameData_issueLoad (k : PeId) (a : Word) (s : State) : SameData s (issueLoad k a s) := by
  unfold issueLoad
  split
  · exact sameData_modPort k _ s
  all_goals exact .refl s

theorem sameData_issueStore (k : PeId) (a v : Word) (s : State) : SameData s (issueStore k a v s) := by
  unfold issueStore
  split
  · exact sameData_modPort k _ s
  all_goals exact .refl s

theorem SameData.lookup {s t : State} (h : SameData s t) (k : PeId) (a : Word) : t.lookup k a = s.lookup k a :=
  lookup_congr fun w => h.frame k (setOf a) w

theorem SameData.coherent {s t : State} (h : SameData s t) (hs : Coherent s) : Coherent t := by
  obtain ⟨frame, mem, staging⟩ := h
  obtain ⟨⟨invalidIsI, dirtyIffM, tagOnce⟩, shared, clean, ⟨sorted, keys, unheld, slots⟩⟩ := hs
  unfold SharedOnlyInS at shared
  unfold CleanLinesMatchMemory at clean
  constructor
  · constructor <;> simpa only [frame]
  · simpa only [SharedOnlyInS, frame]
  · simpa only [CleanLinesMatchMemory, frame, mem]
  · constructor <;> simpa only [frame, mem, staging]

/-! ### One attempt (R66, R144, R145) -/

theorem cacheLoad_of_cross {a : Word} (h : 24 < off a) (k : PeId) (s : State) : cacheLoad k a s = .lineCross := by
  rcases cacheLoad_cases k a s with ⟨_, e⟩ | ⟨h', _⟩ | ⟨h', _⟩
  · exact e
  all_goals omega

theorem cacheStore_of_cross {a : Word} (h : 24 < off a) (k : PeId) (v : Word) (s : State) :
    cacheStore k a v s = .lineCross := by
  rcases cacheStore_cases k a v s with ⟨_, e⟩ | ⟨h', _⟩ | ⟨h', _⟩
  · exact e
  all_goals omega

theorem cacheLoad_of_hit {k : PeId} {a : Word} {w : WayIx} {s : State} (ho : off a ≤ 24) (h : s.lookup k a = some w) :
    ∃ t, cacheLoad k a s = .done (lineWord (s.frame k (setOf a) w).data (off a)) t := by
  rcases cacheLoad_cases k a s with ⟨h', _⟩ | ⟨_, u, hu, e⟩ | ⟨_, hn, _⟩
  · omega
  · cases hu.symm.trans h; exact ⟨_, e⟩
  · cases hn.symm.trans h

theorem cacheStore_of_hit {k : PeId} {a : Word} {s : State} (v : Word) (ho : off a ≤ 24) (h : s.lookup k a ≠ none) :
    ∃ t, cacheStore k a v s = .done () t := by
  rcases cacheStore_cases k a v s with ⟨h', _⟩ | ⟨_, w, _, e⟩ | ⟨_, hn, _⟩
  · omega
  · exact ⟨_, e⟩
  · exact absurd hn h

/-! ### One step of a port (R233) -/

theorem portLoad_of_taken {k : PeId} {a : Word} {s : State} (h : (s.port k).servesLoad a) :
    portLoad k a s = portLoadAttempt k a (issueLoad k a s) := by rw [portLoad_eq, if_pos h]

theorem portLoad_of_not_taken {k : PeId} {a : Word} {s : State} (h : ¬(s.port k).servesLoad a) :
    portLoad k a s = .busy := by rw [portLoad_eq, if_neg h]

theorem portStore_of_taken {k : PeId} {a v : Word} {s : State} (h : (s.port k).servesStore a v) :
    portStore k a v s = portStoreAttempt k a v (issueStore k a v s) := by rw [portStore_eq, if_pos h]

theorem portStore_of_not_taken {k : PeId} {a v : Word} {s : State} (h : ¬(s.port k).servesStore a v) :
    portStore k a v s = .busy := by rw [portStore_eq, if_neg h]

/-! ### The instructions that make an attempt -/

/-- What an instruction given in state `s` answers of an attempt at address `a`: the state the attempt ends in, but for PEs,
ports and the response, or LineCross. -/
def Answers {α : Type} (o : Host.Outcome State Fault Refusal) (s : State) (a : Word) : Attempt α → Prop
  | .done _ u | .retry u => ∃ t, o = .next t ∧ SameData u t
  | .lineCross => o = .next (s.raise (.lineCross s.turn a))

/-- A load that reads its operands and is let in makes one attempt of its cache and answers it. -/
theorem exec_load_answers {i : Instr} {s : State} {a : Word} (h : loadAddr i s = some a) (hr : operandsReadable i s)
    (ht : accessTaken i s) : ∃ u, SameData s u ∧ Answers (exec i s) s a (cacheLoad s.turn a u) := by
  cases i with
  | load d r =>
    cases h
    refine ⟨_, sameData_issueLoad s.turn (s.reg s.turn r) s, ?_⟩
    show Answers (execLoad d r s) _ _ _
    unfold execLoad
    rw [withRegs_of_readable (rs := [r]) hr, portLoad_of_taken ht]
    unfold portLoadAttempt
    cases cacheLoad s.turn (s.reg s.turn r) (issueLoad s.turn (s.reg s.turn r) s) with
    | done v u => exact ⟨_, rfl, fun _ _ _ => rfl, rfl, rfl⟩
    | retry u => exact ⟨_, rfl, .refl u⟩
    | lineCross => rfl
  | load64 b =>
    cases h
    refine ⟨_, sameData_issueLoad s.turn a s, ?_⟩
    show Answers (execLoad64 a s) _ _ _
    unfold execLoad64
    rw [portLoad_of_taken ht]
    unfold portLoadAttempt
    cases cacheLoad s.turn a (issueLoad s.turn a s) with
    | done v u => exact ⟨_, rfl, fun _ _ _ => rfl, rfl, rfl⟩
    | retry u => exact ⟨_, rfl, .refl u⟩
    | lineCross => rfl
  | cacheLoad b =>
    cases h
    refine ⟨s, .refl s, ?_⟩
    show Answers (execCacheLoad a s) _ _ _
    unfold execCacheLoad
    cases cacheLoad s.turn a s with
    | done v u => exact ⟨_, rfl, sameData_respond _ u⟩
    | retry u => exact ⟨_, rfl, sameData_respond _ u⟩
    | lineCross => rfl
  | _ => cases h

/-- So does a store. -/
theorem exec_store_answers {i : Instr} {s : State} {a v : Word} (h : storeOf i s = some (a, v)) (hr : operandsReadable i s)
    (ht : accessTaken i s) : ∃ u, SameData s u ∧ Answers (exec i s) s a (cacheStore s.turn a v u) := by
  cases i with
  | store d r =>
    cases h
    refine ⟨_, sameData_issueStore s.turn (s.reg s.turn r) (s.reg s.turn d) s, ?_⟩
    show Answers (execStore d r s) _ _ _
    unfold execStore
    rw [withRegs_of_readable (rs := [r, d]) hr, portStore_of_taken ht]
    unfold portStoreAttempt
    cases cacheStore s.turn (s.reg s.turn r) (s.reg s.turn d) (issueStore s.turn (s.reg s.turn r) (s.reg s.turn d) s) with
    | done _ u => exact ⟨_, rfl, fun _ _ _ => rfl, rfl, rfl⟩
    | retry u => exact ⟨_, rfl, .refl u⟩
    | lineCross => rfl
  | store64 b x =>
    cases h
    refine ⟨_, sameData_issueStore s.turn a v s, ?_⟩
    show Answers (execStore64 a v s) _ _ _
    unfold execStore64
    rw [portStore_of_taken ht]
    unfold portStoreAttempt
    cases cacheStore s.turn a v (issueStore s.turn a v s) with
    | done _ u => exact ⟨_, rfl, fun _ _ _ => rfl, rfl, rfl⟩
    | retry u => exact ⟨_, rfl, .refl u⟩
    | lineCross => rfl
  | cacheStore b x =>
    cases h
    refine ⟨s, .refl s, ?_⟩
    show Answers (execCacheStore a v s) _ _ _
    unfold execCacheStore
    cases cacheStore s.turn a v s with
    | done _ u => exact ⟨_, rfl, sameData_respond _ u⟩
    | retry u => exact ⟨_, rfl, sameData_respond _ u⟩
    | lineCross => rfl
  | _ => cases h

/-- With some source unreadable an instruction raises and does nothing else. -/
theorem withRegs_of_unreadable {k : PeId} {rs : List Reg} {s : State} (h : ¬∀ r ∈ rs, s.readable k r = true)
    (run : Host.Outcome State Fault Refusal) : ∃ m, withRegs k rs s run = .next (s.raise m) := by
  rcases withRegs_cases k rs s run with ⟨hr, _⟩ | ⟨r, _, _, e⟩
  · exact absurd hr h
  · exact ⟨_, e⟩

/-- A load or store that does not read its operands raises; one that is not let in is refused. -/
theorem exec_access_of_not_ready {i : Instr} {s t : State} (hi : (∃ a, loadAddr i s = some a) ∨ ∃ p, storeOf i s = some p)
    (h : ¬(operandsReadable i s ∧ accessTaken i s)) (ht : exec i s = .next t) : ∃ m, t = s.raise m := by
  by_cases hr : operandsReadable i s
  · have hn : ¬accessTaken i s := fun h' => h ⟨hr, h'⟩
    cases i with
    | load d r =>
      change execLoad d r s = .next t at ht
      rw [execLoad, withRegs_of_readable (rs := [r]) hr, portLoad_of_not_taken hn] at ht
      cases ht
    | store d r =>
      change execStore d r s = .next t at ht
      rw [execStore, withRegs_of_readable (rs := [r, d]) hr, portStore_of_not_taken hn] at ht
      cases ht
    | load64 a =>
      change execLoad64 a s = .next t at ht
      rw [execLoad64, portLoad_of_not_taken hn] at ht
      cases ht
    | store64 a v =>
      change execStore64 a v s = .next t at ht
      rw [execStore64, portStore_of_not_taken hn] at ht
      cases ht
    | cacheLoad | cacheStore => exact absurd trivial hn
    | _ => rcases hi with ⟨_, e⟩ | ⟨_, e⟩ <;> cases e
  · have raised : ∀ {rs run}, (¬∀ r ∈ rs, s.readable s.turn r = true) → withRegs s.turn rs s run = .next t →
        ∃ m, t = s.raise m := by
      intro rs run hrs e
      obtain ⟨m, e'⟩ := withRegs_of_unreadable hrs run
      rw [e'] at e
      cases e
      exact ⟨m, rfl⟩
    cases i with
    | load d r => exact raised hr ht
    | store d r => exact raised hr ht
    | load64 | store64 | cacheLoad | cacheStore => exact absurd (fun _ h => nomatch h) hr
    | _ => rcases hi with ⟨_, e⟩ | ⟨_, e⟩ <;> cases e

/-- Settles O34: the attempt every form of access makes ends in LineCross past offset 24, and each form answers that with
its raise. -/
theorem lineCrossIsRaised : Obligations.LineCrossIsRaised := by
  rintro i s a (h | ⟨v, h⟩) hr ht hcross
  · obtain ⟨u, -, answer⟩ := exec_load_answers h hr ht
    rwa [cacheLoad_of_cross hcross] at answer
  · obtain ⟨u, -, answer⟩ := exec_store_answers h hr ht
    rwa [cacheStore_of_cross hcross] at answer

end Sys2Proof.Machine
end

section
/-! SUPPORT. The current value of a byte (spec 20_memory.md R69): the frame that decides it, and what a coherent state says of
the frames that hold a line. -/

namespace Sys2Proof.Machine

/-! ### Owners -/

/-- A frame holds the line with tag `t` in M (R69). -/
def Line.owns (l : Line) (t : Tag) : Bool := l.holds t && l.state == .M

theorem Line.owns_iff (l : Line) (t : Tag) : l.owns t = true ↔ l.holds t = true ∧ l.state = .M := by
  simp [Line.owns]

theorem Line.live_of_holds {l : Line} {t : Tag} (h : l.holds t = true) : l.live = true := by
  obtain ⟨valid, -, state⟩ := (l.holds_iff t).1 h
  exact l.live_iff.2 ⟨valid, state⟩

theorem Line.tag_of_holds {l : Line} {t : Tag} (h : l.holds t = true) : l.tag = t := ((l.holds_iff t).1 h).2.1

/-- Way `w` of cache `j` owns the line of address `x`. -/
abbrev State.Owns (s : State) (x : Word) (j : PeId) (w : WayIx) : Prop := (s.frame j (setOf x) w).owns (tagOf x) = true

theorem owner_eq (s : State) (x : Word) :
    s.owner x = holders.find? fun p => (s.frame p.1 (setOf x) p.2).owns (tagOf x) := rfl

theorem owner_none {s : State} {x : Word} (h : ∀ j w, ¬s.Owns x j w) : s.owner x = none := by
  rw [owner_eq, List.find?_eq_none]
  exact fun p _ => h p.1 p.2

theorem owns_of_owner {s : State} {x : Word} {p : PeId × WayIx} (h : s.owner x = some p) : s.Owns x p.1 p.2 := by
  rw [owner_eq] at h
  have owns := List.find?_some h
  exact owns

theorem owner_of_sole {s : State} {x : Word} {k : PeId} {w : WayIx} (h : s.Owns x k w)
    (sole : ∀ j v, s.Owns x j v → j = k ∧ v = w) : s.owner x = some (k, w) := by
  have listed : ∀ j v, (j, v) ∈ holders := by decide
  cases found : s.owner x with
  | none =>
    rw [owner_eq, List.find?_eq_none] at found
    exact absurd h (found (k, w) (listed k w))
  | some p =>
    obtain ⟨hj, hv⟩ := sole p.1 p.2 (owns_of_owner found)
    rw [← hj, ← hv]

theorem currentByte_of_unowned {s : State} {x : Word} (h : ∀ j w, ¬s.Owns x j w) :
    s.currentByte x = memRead s.shm.mem x.toNat := by
  rw [State.currentByte, owner_none h]

theorem currentByte_of_sole {s : State} {x : Word} {k : PeId} {w : WayIx} (h : s.Owns x k w)
    (sole : ∀ j v, s.Owns x j v → j = k ∧ v = w) :
    s.currentByte x = lineByte (s.frame k (setOf x) w).data (off x) := by
  rw [State.currentByte, owner_of_sole h sole]

/-- What is enough for the current value at `x` to be the same in two states: each frame is the same or owns the line of `x` in
neither, and so is the memory's byte. -/
structure SameByte (x : Word) (s t : State) : Prop where
  frames : ∀ j w, t.frame j (setOf x) w = s.frame j (setOf x) w ∨ (¬t.Owns x j w ∧ ¬s.Owns x j w)
  mem : memRead t.shm.mem x.toNat = memRead s.shm.mem x.toNat

theorem SameByte.owns_iff {x : Word} {s t : State} (h : SameByte x s t) (j : PeId) (w : WayIx) :
    t.Owns x j w ↔ s.Owns x j w := by
  rcases h.frames j w with e | ⟨ht, hs⟩
  · rw [State.Owns, e]
  · exact iff_of_false ht hs

theorem SameByte.currentByte {x : Word} {s t : State} (h : SameByte x s t) : t.currentByte x = s.currentByte x := by
  have same : t.owner x = s.owner x := by
    rw [owner_eq, owner_eq]
    congr 1
    funext p
    exact Bool.eq_iff_iff.2 (h.owns_iff p.1 p.2)
  unfold State.currentByte
  rw [same]
  cases found : s.owner x with
  | none => exact h.mem
  | some p =>
    rcases h.frames p.1 p.2 with e | ⟨-, hs⟩
    · simp only [e]
    · exact absurd (owns_of_owner found) hs

theorem SameData.sameByte {s t : State} (h : SameData s t) (x : Word) : SameByte x s t :=
  ⟨fun j w => .inl (h.frame j _ w), by rw [h.mem]⟩

/-! ### Coherent states (R290 to R293) -/

/-- A cache holds a line in one way. -/
theorem Coherent.way_unique {s : State} (hs : Coherent s) {x : Word} {k : PeId} {w v : WayIx}
    (hw : (s.frame k (setOf x) w).holds (tagOf x) = true) (hv : (s.frame k (setOf x) v).holds (tagOf x) = true) : v = w := by
  have sameTag := (Line.tag_of_holds hw).trans (Line.tag_of_holds hv).symm
  have once := hs.frames.tagOnce k (setOf x)
  rcases wayIx_cases w with rfl | rfl <;> rcases wayIx_cases v with rfl | rfl
  · rfl
  · exact absurd sameTag (once (Line.live_of_holds hw) (Line.live_of_holds hv))
  · exact absurd sameTag.symm (once (Line.live_of_holds hv) (Line.live_of_holds hw))
  · rfl

/-- Of the frames that hold a line one that is not in S is the only one. -/
theorem Coherent.holder_unique {s : State} (hs : Coherent s) {x : Word} {k j : PeId} {w v : WayIx}
    (hk : (s.frame k (setOf x) w).holds (tagOf x) = true) (exclusive : (s.frame k (setOf x) w).state ≠ .S)
    (hj : (s.frame j (setOf x) v).holds (tagOf x) = true) : j = k ∧ v = w := by
  by_cases hjk : j = k
  · subst hjk
    exact ⟨rfl, hs.way_unique hk hj⟩
  · have sameTag := (Line.tag_of_holds hk).trans (Line.tag_of_holds hj).symm
    exact absurd (hs.shared k j _ w v (Ne.symm hjk) (Line.live_of_holds hk) (Line.live_of_holds hj) sameTag) exclusive

theorem Coherent.owner_unique {s : State} (hs : Coherent s) {x : Word} {k j : PeId} {w v : WayIx} (hk : s.Owns x k w)
    (hj : (s.frame j (setOf x) v).holds (tagOf x) = true) : j = k ∧ v = w := by
  obtain ⟨holds, modified⟩ := (Line.owns_iff _ _).1 hk
  exact hs.holder_unique holds (by simp [modified]) hj

/-- Every frame that holds a backed line has its current bytes. -/
theorem Coherent.currentByte_of_holds {s : State} (hs : Coherent s) {x : Word} (hx : backed x) {k : PeId} {w : WayIx}
    (h : (s.frame k (setOf x) w).holds (tagOf x) = true) :
    s.currentByte x = lineByte (s.frame k (setOf x) w).data (off x) := by
  by_cases modified : (s.frame k (setOf x) w).state = .M
  · have owns : s.Owns x k w := (Line.owns_iff _ _).2 ⟨h, modified⟩
    exact currentByte_of_sole owns fun j v hj => hs.owner_unique owns ((Line.owns_iff _ _).1 hj).1
  · have unowned : ∀ j v, ¬s.Owns x j v := by
      intro j v hj
      obtain ⟨rfl, rfl⟩ := hs.owner_unique hj h
      exact modified ((Line.owns_iff _ _).1 hj).2
    have base : lineBase (s.frame k (setOf x) w).tag (setOf x) = baseOf x := by rw [Line.tag_of_holds h]; simp
    have inBase := toNat_eq_base_off x
    have clean := hs.clean k (setOf x) w (Line.live_of_holds h) modified
      (by rw [base]; exact lt_of_le_of_lt (by omega) hx) (off x) (off_lt x)
    rw [currentByte_of_unowned unowned, clean, base, ← inBase]

/-! ### The eight bytes of an access (R66) -/

/-- The bytes of an access that does not run past its line lie in its line. -/
theorem access_sameLine {a : Word} (ho : off a ≤ 24) {i : Nat} (hi : i < 8) :
    setOf (a + BitVec.ofNat 64 i) = setOf a ∧ tagOf (a + BitVec.ofNat 64 i) = tagOf a ∧
      off (a + BitVec.ofNat 64 i) = off a + i ∧ (a + BitVec.ofNat 64 i).toNat = a.toNat + i := by
  have ha := a.isLt
  unfold off at ho ⊢
  have sum : (a + BitVec.ofNat 64 i).toNat = a.toNat + i := by
    rw [BitVec.toNat_add, BitVec.toNat_ofNat]
    omega
  obtain ⟨sets, tags⟩ := (sameLine_iff (a + BitVec.ofNat 64 i) a).2 (by omega)
  exact ⟨sets, tags, by omega, sum⟩

theorem backed_access {a : Word} (ho : off a ≤ 24) (ha : backed a) {i : Nat} (hi : i < 8) :
    backed (a + BitVec.ofNat 64 i) := by
  obtain ⟨-, -, -, sum⟩ := access_sameLine ho hi
  unfold off at ho
  unfold backed Config.shmBytes at ha ⊢
  omega

/-- The word a hit reads has the current bytes. -/
theorem Coherent.bytes64_of_hit {s : State} (hs : Coherent s) {a : Word} (ho : off a ≤ 24) (ha : backed a) {k : PeId}
    {w : WayIx} (h : s.lookup k a = some w) :
    bytes64 (lineWord (s.frame k (setOf a) w).data (off a)) = s.currentBytes a := by
  rw [bytes64_lineWord, State.currentBytes]
  refine List.map_congr_left fun i hi => ?_
  have hi := List.mem_range.1 hi
  obtain ⟨sets, tags, offs, -⟩ := access_sameLine ho hi
  have holds := (lookup_some h).1
  rw [← sets, ← tags] at holds
  rw [hs.currentByte_of_holds (backed_access ho ha hi) holds, sets, offs]

/-- A load that hits at a port completes with the word of the frame. -/
theorem portLoad_of_hit {k : PeId} {a : Word} {w : WayIx} {s : State} (ht : (s.port k).servesLoad a) (ho : off a ≤ 24)
    (h : s.lookup k a = some w) :
    ∃ t, portLoad k a s = .done (lineWord (s.frame k (setOf a) w).data (off a)) t := by
  have same := sameData_issueLoad k a s
  obtain ⟨t, e⟩ := cacheLoad_of_hit ho ((same.lookup k a).trans h)
  rw [same.frame] at e
  exact ⟨_, by rw [portLoad_of_taken ht, portLoadAttempt, e]⟩

theorem execLoad_of_done {d a : Reg} {v : Word} {s t : State} (hr : operandsReadable (.load d a) s)
    (e : portLoad s.turn (s.reg s.turn a) s = .done v t) :
    exec (.load d a) s = .next (t.modPe s.turn fun p => (p.setReg d v).retire (p.pc + 1)) := by
  show execLoad d a s = _
  rw [execLoad, withRegs_of_readable (rs := [a]) hr, e]

theorem execLoad64_of_done {a v : Word} {s t : State} (e : portLoad s.turn a s = .done v t) :
    exec (.load64 a) s = .next { t with resp := some (.port (some v)) } := by
  show execLoad64 a s = _
  rw [execLoad64, e]

/-- Settles O57: a hit reads a frame that holds the line, and such a frame has the current bytes. -/
theorem loadReturnsCurrentValue : Obligations.LoadReturnsCurrentValue := by
  intro s hs
  constructor
  · intro d a hr ht ho ha hit
    obtain ⟨w, hw⟩ := Option.ne_none_iff_exists'.1 hit
    obtain ⟨t, e⟩ := portLoad_of_hit ht ho hw
    refine ⟨_, execLoad_of_done hr e, ?_⟩
    rw [← hs.bytes64_of_hit ho ha hw]
    simp [State.reg]
  · intro a ht ho ha hit
    obtain ⟨w, hw⟩ := Option.ne_none_iff_exists'.1 hit
    obtain ⟨t, e⟩ := portLoad_of_hit ht ho hw
    exact ⟨_, _, execLoad64_of_done e, rfl, hs.bytes64_of_hit ho ha hw⟩

end Sys2Proof.Machine
end

section
/-! SUPPORT. The current value survives every bus operation: a frame leaves M only after its line has been written back, so the
byte it owned is then the shared memory's. No more of coherence is needed than that a line has one owner. -/

namespace Sys2Proof.Machine

/-! ### Keeping the current value of one byte -/

/-- At most one frame owns the line of `x`, and memory is in canonical order. -/
structure OwnedOnce (x : Word) (s : State) : Prop where
  sorted : mapSorted s.shm.mem = true
  sole : ∀ j w k v, s.Owns x j w → s.Owns x k v → j = k ∧ w = v

theorem Coherent.ownedOnce {s : State} (hs : Coherent s) (hm : Memory.wf s.shm.mem = true) (x : Word) : OwnedOnce x s :=
  ⟨memory_wf_sorted hm, fun _ _ _ _ hj hk => hs.owner_unique hk ((Line.owns_iff _ _).1 hj).1⟩

/-- From `s` to `t` the byte at `x` keeps its current value, and no second frame comes to own its line. -/
def KeepsValue (x : Word) (s t : State) : Prop := OwnedOnce x s → OwnedOnce x t ∧ t.currentByte x = s.currentByte x

theorem KeepsValue.refl (x : Word) (s : State) : KeepsValue x s s := fun h => ⟨h, rfl⟩

theorem KeepsValue.trans {x : Word} {s t u : State} (h : KeepsValue x s t) (g : KeepsValue x t u) : KeepsValue x s u := by
  intro once
  obtain ⟨once_t, value_t⟩ := h once
  obtain ⟨once_u, value_u⟩ := g once_t
  exact ⟨once_u, value_u.trans value_t⟩

theorem keepsValue_of_sameByte {x : Word} {s t : State} (h : SameByte x s t)
    (sorted : mapSorted s.shm.mem = true → mapSorted t.shm.mem = true) : KeepsValue x s t :=
  fun once => ⟨⟨sorted once.sorted, fun j w k v hj hk => once.sole j w k v ((h.owns_iff j w).1 hj) ((h.owns_iff k v).1 hk)⟩,
    h.currentByte⟩

theorem SameData.keepsValue {s t : State} (h : SameData s t) (x : Word) : KeepsValue x s t :=
  keepsValue_of_sameByte (h.sameByte x) (by rw [h.mem]; exact id)

/-! ### A frame that leaves M -/

/-- `t` is `s` with way `w` of set `st` of cache `k` no longer in M; what it held in M has been flushed. -/
structure Releases (k : PeId) (st : SetIx) (w : WayIx) (s t : State) : Prop where
  others : ∀ j e v, ¬(j = k ∧ e = st ∧ v = w) → t.frame j e v = s.frame j e v
  released : (t.frame k st w).state ≠ .M
  flushed : (s.frame k st w).valid = true → (s.frame k st w).state = .M →
    t.shm.mem = (handleFlush k (lineBase (s.frame k st w).tag st) (s.frame k st w).data s).shm.mem
  unflushed : ¬((s.frame k st w).valid = true ∧ (s.frame k st w).state = .M) → t.shm.mem = s.shm.mem

section
variable {k : PeId} {st : SetIx} {w : WayIx} {s t : State} {x : Word}

theorem Releases.not_owns (h : Releases k st w s t) {v : WayIx} (e : setOf x = st ∧ v = w) : ¬t.Owns x k v := by
  obtain ⟨rfl, rfl⟩ := e
  exact fun owns => h.released ((Line.owns_iff _ _).1 owns).2

theorem Releases.owns_before (h : Releases k st w s t) {j : PeId} {v : WayIx} (owns : t.Owns x j v) : s.Owns x j v := by
  by_cases here : j = k ∧ setOf x = st ∧ v = w
  · obtain ⟨rfl, e⟩ := here
    exact absurd owns (h.not_owns e)
  · rwa [State.Owns, h.others j _ v here] at owns

theorem Releases.sorted (h : Releases k st w s t) (hs : mapSorted s.shm.mem = true) : mapSorted t.shm.mem = true := by
  by_cases dirty : (s.frame k st w).valid = true ∧ (s.frame k st w).state = .M
  · rw [h.flushed dirty.1 dirty.2]
    exact mapSorted_mem_handleFlush hs _ _ _
  · rwa [h.unflushed dirty]

/-- The owner lets go: its byte is the shared memory's now. -/
theorem Releases.currentByte_of_owner (h : Releases k (setOf x) w s t) (once : OwnedOnce x s) (hx : backed x)
    (owns : s.Owns x k w) : t.currentByte x = s.currentByte x := by
  obtain ⟨holds, modified⟩ := (Line.owns_iff _ _).1 owns
  obtain ⟨valid, tag, -⟩ := (Line.holds_iff _ _).1 holds
  have unowned : ∀ j v, ¬t.Owns x j v := by
    intro j v hj
    obtain ⟨rfl, rfl⟩ := once.sole j v k w (h.owns_before hj) owns
    exact h.not_owns ⟨rfl, rfl⟩ hj
  have flushed := h.flushed valid modified
  rw [tag, lineBase_tagOf_setOf] at flushed
  have split := toNat_eq_base_off x
  have := off_lt x
  unfold backed Config.shmBytes at hx
  rw [currentByte_of_unowned unowned, currentByte_of_sole owns fun j v hj => once.sole j v k w hj owns, flushed,
    memRead_handleFlush once.sorted, baseOf_baseOf, if_pos ⟨by omega, by omega, by omega⟩,
    show x.toNat - (baseOf x).toNat = off x from by omega]

/-- A frame that does not own the line of `x` changes nothing about `x`. -/
theorem Releases.sameByte_of_not_owner (h : Releases k st w s t) (hs : mapSorted s.shm.mem = true)
    (notOwner : ¬(setOf x = st ∧ s.Owns x k w)) : SameByte x s t := by
  refine ⟨fun j v => ?_, ?_⟩
  · by_cases here : j = k ∧ setOf x = st ∧ v = w
    · obtain ⟨rfl, e, rfl⟩ := here
      exact .inr ⟨h.not_owns ⟨e, rfl⟩, fun owns => notOwner ⟨e, owns⟩⟩
    · exact .inl (h.others j _ v here)
  · by_cases dirty : (s.frame k st w).valid = true ∧ (s.frame k st w).state = .M
    · have otherLine : ¬inLine x.toNat (lineBase (s.frame k st w).tag st).toNat := by
        intro inside
        have sameBase : lineBase (s.frame k st w).tag st = baseOf x := by
          have := lineBase_mod (s.frame k st w).tag st
          apply BitVec.eq_of_toNat_eq
          rw [baseOf_toNat]
          omega
        obtain ⟨tag, rfl⟩ := lineBase_eq_baseOf.1 sameBase
        exact notOwner ⟨rfl, (Line.owns_iff _ _).2
          ⟨(Line.holds_iff _ _).2 ⟨dirty.1, tag, by simp [dirty.2]⟩, dirty.2⟩⟩
      rw [h.flushed dirty.1 dirty.2, memRead_handleFlush hs, baseOf_lineBase, if_neg fun inside => otherLine inside.2]
    · rw [h.unflushed dirty]

theorem Releases.keepsValue (h : Releases k st w s t) (hx : backed x) : KeepsValue x s t := by
  intro once
  refine ⟨⟨h.sorted once.sorted, fun j u i v hj hi => once.sole j u i v (h.owns_before hj) (h.owns_before hi)⟩, ?_⟩
  by_cases owner : setOf x = st ∧ s.Owns x k w
  · obtain ⟨rfl, owns⟩ := owner
    exact h.currentByte_of_owner once hx owns
  · exact (h.sameByte_of_not_owner once.sorted owner).currentByte

end

/-! ### The bus operations (R150 to R160, R193 to R202) -/

/-- A snoop of one way does nothing, or its frame lets the line go. -/
theorem snoopWay_releases (j : PeId) (kind : SnoopKind) (a : Word) (w : WayIx) (s : State) :
    snoopWay j kind a w s = s ∨ Releases j (setOf a) w s (snoopWay j kind a w s) := by
  rcases snoopWay_cases j kind a w s with ⟨e, _⟩ | ⟨hit, _, hM, e⟩ | ⟨_, _, hE, e⟩ | ⟨hit, _, hM, e⟩ | ⟨_, _, hES, e⟩
  · exact .inl e
  · rw [e]
    exact .inr
      { others := fun i st v h => by simp [downgradeFrame, cleanFrame, State.frame_modFrame, h]
        released := by simp [downgradeFrame]
        flushed := fun _ _ => by simp [flushFrame_shm_mem]
        unflushed := fun clean => absurd ⟨hit.1, hM⟩ clean }
  · rw [e]
    exact .inr
      { others := fun i st v h => by simp [downgradeFrame, State.frame_modFrame, h]
        released := by simp [downgradeFrame]
        flushed := fun _ hM => by simp [hE] at hM
        unflushed := fun _ => rfl }
  · rw [e]
    exact .inr
      { others := fun i st v h => by simp [invalidateFrame, cleanFrame, State.frame_modFrame, h]
        released := by simp [invalidateFrame]
        flushed := fun _ _ => by simp [flushFrame_shm_mem]
        unflushed := fun clean => absurd ⟨hit.1, hM⟩ clean }
  · rw [e]
    exact .inr
      { others := fun i st v h => by simp [invalidateFrame, State.frame_modFrame, h]
        released := by simp [invalidateFrame]
        flushed := fun _ hM => by simp [hM] at hES
        unflushed := fun _ => rfl }

theorem keepsValue_snoopWay {x : Word} (hx : backed x) (j : PeId) (kind : SnoopKind) (a : Word) (w : WayIx) (s : State) :
    KeepsValue x s (snoopWay j kind a w s) := by
  rcases snoopWay_releases j kind a w s with e | h
  · rw [e]; exact .refl x s
  · exact h.keepsValue hx

theorem keepsValue_broadcast {x : Word} (hx : backed x) (src : PeId) (kind : SnoopKind) (a : Word) (s : State) :
    KeepsValue x s (broadcast src kind a s) :=
  broadcast_induction (KeepsValue x) (.refl x) (fun _ _ _ => .trans)
    (fun j s _ => (keepsValue_snoopWay hx j kind a 0 s).trans (keepsValue_snoopWay hx j kind a 1 _)) s

theorem keepsValue_sourceLine (x : Word) (b : Word) (src : PeId) (s : State) : KeepsValue x s (sourceLine b src s).2 :=
  keepsValue_of_sameByte ⟨fun _ _ => .inl (by simp), by simp⟩ (by simp)

/-- An installation that is not in M lets its victim's line go (R151, R153). -/
theorem installLine_releases (k : PeId) (a : Word) (line : LineData) {new : Mesi} (hn : new ≠ .M) (s : State) :
    Releases k (setOf a) (s.chooseWay k (setOf a)) s (installLine k a line new s) where
  others j st w h := by rw [installLine_frame, if_neg h]
  released := by rw [installLine_frame, if_pos ⟨rfl, rfl, rfl⟩]; exact hn
  flushed valid modified := by rw [(installLine_bus_of_dirty ⟨valid, modified⟩ line new).1]; rfl
  unflushed clean := by rw [(installLine_bus_of_clean clean line new).1]

theorem keepsValue_dataResponse {x : Word} (hx : backed x) (k : PeId) (a : Word) (line : LineData) (shared : Bool) (s : State) :
    KeepsValue x s (dataResponse k a line shared s) :=
  (installLine_releases k a line (by cases shared <;> simp) s).keepsValue hx

theorem keepsValue_emitBusRd {x : Word} (hx : backed x) (k : PeId) (a : Word) (s : State) :
    KeepsValue x s (emitBusRd k a s) :=
  ((keepsValue_broadcast hx k .read a s).trans (keepsValue_sourceLine x _ k _)).trans
    (keepsValue_dataResponse hx k a _ _ _)

theorem keepsValue_emitBusRdX {x : Word} (hx : backed x) (k : PeId) (a : Word) (s : State) :
    KeepsValue x s (emitBusRdX k a s) :=
  ((keepsValue_broadcast hx k .invalidate a s).trans (keepsValue_sourceLine x _ k _)).trans
    (keepsValue_dataResponse hx k a _ _ _)

/-! ### Attempts and instructions -/

/-- Every load attempt keeps the current value, a hit and a miss. -/
theorem keepsValue_cacheLoad {x : Word} (hx : backed x) {k : PeId} {a : Word} {s t : State}
    (h : (cacheLoad k a s).state? = some t) : KeepsValue x s t := by
  have counted := (sameData_count k CacheCounters.load s).keepsValue x
  rcases cacheLoad_cases k a s with ⟨_, e⟩ | ⟨_, w, _, e⟩ | ⟨_, _, e⟩ <;> rw [e] at h <;> cases h
  · exact counted.trans ((sameData_touch k _ w _).keepsValue x)
  · exact (counted.trans ((sameData_count k CacheCounters.missRd _).keepsValue x)).trans (keepsValue_emitBusRd hx k a _)

/-- So does a store attempt that misses. -/
theorem keepsValue_cacheStore_of_miss {x : Word} (hx : backed x) {k : PeId} {a v : Word} {s t : State}
    (miss : s.lookup k a = none) (h : (cacheStore k a v s).state? = some t) : KeepsValue x s t := by
  have counted := (sameData_count k CacheCounters.store s).keepsValue x
  rcases cacheStore_cases k a v s with ⟨_, e⟩ | ⟨_, w, hit, _⟩ | ⟨_, _, e⟩
  · rw [e] at h; cases h
  · cases hit.symm.trans miss
  · rw [e] at h
    cases h
    exact (counted.trans ((sameData_count k CacheCounters.missRdX _).keepsValue x)).trans (keepsValue_emitBusRdX hx k a _)

/-- An instruction that answers an attempt keeps the value if the attempt does. -/
theorem Answers.keepsValue {α : Type} {x : Word} {o : Host.Outcome State Fault Refusal} {s t u : State} {a : Word}
    {attempt : Attempt α} (h : Answers o s a attempt) (ht : o = .next t) (same : SameData s u)
    (keeps : ∀ r, attempt.state? = some r → KeepsValue x u r) : KeepsValue x s t := by
  cases attempt with
  | done v r =>
    obtain ⟨t', e, after⟩ := h
    cases e.symm.trans ht
    exact ((same.keepsValue x).trans (keeps r rfl)).trans (after.keepsValue x)
  | retry r =>
    obtain ⟨t', e, after⟩ := h
    cases e.symm.trans ht
    exact ((same.keepsValue x).trans (keeps r rfl)).trans (after.keepsValue x)
  | lineCross =>
    cases Eq.trans (Eq.symm h) ht
    exact (sameData_raise _ s).keepsValue x

theorem keepsValue_load {x : Word} (hx : backed x) {i : Instr} {s t : State} {a : Word} (hi : loadAddr i s = some a)
    (ht : exec i s = .next t) : KeepsValue x s t := by
  by_cases ready : operandsReadable i s ∧ accessTaken i s
  · obtain ⟨u, same, answer⟩ := exec_load_answers hi ready.1 ready.2
    exact answer.keepsValue ht same fun r => keepsValue_cacheLoad hx
  · obtain ⟨m, rfl⟩ := exec_access_of_not_ready (.inl ⟨a, hi⟩) ready ht
    exact (sameData_raise m s).keepsValue x

theorem keepsValue_store_of_miss {x : Word} (hx : backed x) {i : Instr} {s t : State} {a v : Word}
    (hi : storeOf i s = some (a, v)) (miss : s.lookup s.turn a = none) (ht : exec i s = .next t) : KeepsValue x s t := by
  by_cases ready : operandsReadable i s ∧ accessTaken i s
  · obtain ⟨u, same, answer⟩ := exec_store_answers hi ready.1 ready.2
    exact answer.keepsValue ht same fun r => keepsValue_cacheStore_of_miss hx ((same.lookup _ a).trans miss)
  · obtain ⟨m, rfl⟩ := exec_access_of_not_ready (.inr ⟨(a, v), hi⟩) ready ht
    exact (sameData_raise m s).keepsValue x

/-- A register instruction changes no line, byte or slot. -/
theorem sameData_of_registerOnly {i : Instr} {s t : State} (hi : registerOnly i = true) (h : exec i s = .next t) :
    SameData s t := by
  have reads : ∀ {rs run}, withRegs s.turn rs s run = .next t → (run = .next t → SameData s t) → SameData s t := by
    intro rs run e hrun
    rcases withRegs_cases s.turn rs s run with ⟨-, e'⟩ | ⟨r, -, -, e'⟩ <;> rw [e'] at e
    · exact hrun e
    · cases e; exact sameData_raise _ s
  have finishes : ∀ {d v}, finishReg s.turn d v s = .next t → SameData s t := by
    intro d v e; cases e; exact sameData_modPe _ _ s
  cases i with
  | fmul d a b => exact reads h finishes
  | fadd d a b => exact reads h finishes
  | inc d => exact reads h finishes
  | dec d => exact reads h finishes
  | jnz d imm => exact reads h fun e => by cases e; exact sameData_modPe _ _ s
  | lea d a b imm =>
    refine reads h fun e => ?_
    split at e
    · exact finishes e
    · cases e; exact sameData_raise _ s
  | halt => cases h; exact sameData_modPe _ _ s
  | _ => cases hi

/-- Neither does a direct read of the shared memory (R121). -/
theorem sameData_execShmRead {a : Word} {n : Nat} {r : Option PeId} {s t : State} (h : execShmRead a n r s = .next t) :
    SameData s t := by
  cases h
  exact ⟨fun _ _ _ => rfl, shmRead_mem a n r s.shm, rfl⟩

/-- Settles O58: an attempt that writes no data keeps the value, since a frame leaves M only with its line written back;
a register instruction and a direct read touch no line at all. -/
theorem onlyStoresChangeCurrentValue : Obligations.OnlyStoresChangeCurrentValue := by
  intro i s t hs hm hi h miss x hx
  suffices keeps : KeepsValue x s t from (keeps (hs.ownedOnce hm x)).2
  cases i with
  | load d a => exact keepsValue_load hx rfl h
  | load64 a => exact keepsValue_load hx rfl h
  | cacheLoad a => exact keepsValue_load hx rfl h
  | store d a => exact keepsValue_store_of_miss hx rfl (miss _ _ rfl) h
  | store64 a v => exact keepsValue_store_of_miss hx rfl (miss _ _ rfl) h
  | cacheStore a v => exact keepsValue_store_of_miss hx rfl (miss _ _ rfl) h
  | busUpgr src a => cases h; exact keepsValue_broadcast hx src .invalidate a s
  | inv src a => cases h; exact keepsValue_broadcast hx src .invalidate a s
  | shmRead a n r => exact (sameData_execShmRead h).keepsValue x
  | busRd | busRdX | flush | shmWrite => cases hi
  | fmul | fadd | inc | dec | jnz | lea | halt => exact (sameData_of_registerOnly rfl h).keepsValue x

end Sys2Proof.Machine
end

section
/-! SUPPORT. A completed store: the frame it leaves, that no other frame holds the line, and how the line reaches the next
reader. -/

namespace Sys2Proof.Machine

/-! ### What a store hit does to the frames (R145 to R149) -/

/-- What a store hit makes of its frame before it writes the data (R147 to R149): it is in M. -/
def modifiedLine (l : Line) : Line := { l with state := .M, dirty := if l.state = .M then l.dirty else true }

/-- The frames after the state part of a store hit: the hit frame enters M, and a line held in S has been invalidated
everywhere else. -/
theorem storeHit_frame {k : PeId} {a : Word} {w : WayIx} {s : State} (hI : (s.frame k (setOf a) w).state ≠ .I) (j : PeId)
    (st : SetIx) (v : WayIx) : (storeHit k a w s).frame j st v =
      if j = k then if st = setOf a ∧ v = w then modifiedLine (s.frame k (setOf a) w) else s.frame j st v
      else if (s.frame k (setOf a) w).state = .S then snoopedLine .invalidate a st (s.frame j st v) else s.frame j st v := by
  unfold storeHit
  cases hst : (s.frame k (setOf a) w).state with
  | I => exact absurd hst hI
  | M =>
    have same : modifiedLine (s.frame k (setOf a) w) = s.frame k (setOf a) w := by simp [modifiedLine, ← hst]
    rw [same]
    by_cases hj : j = k
    · subst hj
      by_cases here : st = setOf a ∧ v = w
      · obtain ⟨rfl, rfl⟩ := here
        simp
      · simp [here]
    · simp [hj]
  | E =>
    by_cases hj : j = k
    · subst hj
      simp [makeModified, State.frame_modFrame, modifiedLine, hst]
    · simp [makeModified, State.frame_modFrame, hj]
  | S =>
    by_cases hj : j = k
    · subst hj
      simp [makeModified, State.frame_modFrame, modifiedLine, hst, emitInvalidate, broadcast_frame]
    · simp [makeModified, State.frame_modFrame, hj, emitInvalidate, broadcast_frame]

/-- In a coherent state the peers of a holder have nothing to flush. -/
theorem Coherent.noDirtyHit_of_holds {s : State} (hs : Coherent s) {k : PeId} {a : Word} {w : WayIx}
    (h : (s.frame k (setOf a) w).holds (tagOf a) = true) {j : PeId} (hj : j ≠ k) : noDirtyHit s j a := by
  intro v holds modified
  have owns : s.Owns a j v := (Line.owns_iff _ _).2 ⟨holds, modified⟩
  exact hj (hs.owner_unique owns h).1.symm

/-- A store hit in a coherent state flushes nothing. -/
theorem storeHit_bus {k : PeId} {a : Word} {w : WayIx} {s : State} (hs : Coherent s)
    (h : (s.frame k (setOf a) w).holds (tagOf a) = true) :
    (storeHit k a w s).shm = s.shm ∧ (storeHit k a w s).staging = s.staging := by
  unfold storeHit
  split
  · exact ⟨rfl, rfl⟩
  · exact ⟨rfl, rfl⟩
  · obtain ⟨shm, staging, -⟩ := broadcast_bus_of_clean (src := k) (kind := .invalidate) (a := a)
      (s := s.count k CacheCounters.upgrade) fun j hj v => by
        rw [State.count_frame]
        exact hs.noDirtyHit_of_holds h hj v
    exact ⟨shm, staging⟩
  · exact ⟨rfl, rfl⟩

/-! ### The state after a completed store (R70) -/

/-- From `s` to `t` a store of `v` at `a` has completed in way `w` of cache `k`: the frame owns the line with the stored bytes in
it, no other frame holds the line, and nothing else that decides a current value has changed. -/
structure Stored (k : PeId) (a v : Word) (w : WayIx) (s t : State) : Prop where
  owns : t.Owns a k w
  data : (t.frame k (setOf a) w).data = lineStore (s.frame k (setOf a) w).data (off a) v
  sole : ∀ j u, (t.frame j (setOf a) u).holds (tagOf a) = true → j = k ∧ u = w
  others : ∀ x, ¬(setOf x = setOf a ∧ tagOf x = tagOf a) → SameByte x s t

/-- A frame that an invalidation does not match stays, and one that it matches holds no line afterwards (R158 to R160). -/
theorem snoopedLine_invalidate_cases (a : Word) (st : SetIx) (l : Line) :
    (snoopHit a st l = false ∧ snoopedLine .invalidate a st l = l) ∨
      (snoopHit a st l = true ∧ ∀ t, (snoopedLine .invalidate a st l).holds t = false) := by
  cases hit : snoopHit a st l with
  | false => exact .inl ⟨rfl, by simp [snoopedLine, hit]⟩
  | true => exact .inr ⟨rfl, fun t => by cases hst : l.state <;> simp [snoopedLine, hit, hst, Line.holds]⟩

theorem snoopHit_of_holds {a : Word} {l : Line} (h : l.holds (tagOf a) = true) : snoopHit a (setOf a) l = true := by
  obtain ⟨valid, tag, -⟩ := (Line.holds_iff _ _).1 h
  exact (snoopHit_iff _ _ _).2 ⟨rfl, valid, tag⟩

/-- The frame a completed store leaves. -/
def storedLine (l : Line) (a v : Word) : Line := { modifiedLine l with data := lineStore l.data (off a) v }

theorem owns_storedLine {l : Line} {a : Word} (h : l.holds (tagOf a) = true) (v : Word) :
    (storedLine l a v).owns (tagOf a) = true := by
  obtain ⟨valid, tag, -⟩ := (Line.holds_iff _ _).1 h
  simp [Line.owns, Line.holds, storedLine, modifiedLine, valid, tag]

/-- The cases of a frame after a completed store: the stored line; a frame of another cache that the upgrade has invalidated;
any other frame is as it was. -/
theorem cacheStore_done_frame {k : PeId} {a v : Word} {w : WayIx} {s t : State}
    (h : s.lookup k a = some w) (e : cacheStore k a v s = .done () t) (j : PeId) (st : SetIx) (u : WayIx) :
    t.frame j st u =
      if j = k then if st = setOf a ∧ u = w then storedLine (s.frame k (setOf a) w) a v else s.frame j st u
      else if (s.frame k (setOf a) w).state = .S then snoopedLine .invalidate a st (s.frame j st u) else s.frame j st u := by
  have hI := ((Line.holds_iff _ _).1 (lookup_some h).1).2.2
  rcases cacheStore_cases k a v s with ⟨_, e'⟩ | ⟨_, w', h', e'⟩ | ⟨_, miss, _⟩
  · cases e'.symm.trans e
  · cases h'.symm.trans h
    cases e'.symm.trans e
    rw [(sameData_touchOnStore _ _ _ _).frame, State.frame_modFrame]
    simp only [storeHit_frame (s := s.count k CacheCounters.store) (by simpa using hI), State.count_frame]
    by_cases hj : j = k
    · subst hj
      by_cases here : st = setOf a ∧ u = w
      · obtain ⟨rfl, rfl⟩ := here
        simp [storedLine, modifiedLine]
      · simp [here]
    · simp [hj]
  · cases miss.symm.trans h

theorem cacheStore_done_bus {k : PeId} {a v : Word} {w : WayIx} {s t : State} (hs : Coherent s)
    (h : s.lookup k a = some w) (e : cacheStore k a v s = .done () t) : t.shm = s.shm ∧ t.staging = s.staging := by
  rcases cacheStore_cases k a v s with ⟨_, e'⟩ | ⟨_, w', h', e'⟩ | ⟨_, miss, _⟩
  · cases e'.symm.trans e
  · cases h'.symm.trans h
    cases e'.symm.trans e
    obtain ⟨touch_shm, touch_staging, -⟩ := touchOnStore_bus k (setOf a) w
      ((storeHit k a w (s.count k CacheCounters.store)).modFrame k (setOf a) w
        fun l => { l with data := lineStore l.data (off a) v })
    obtain ⟨shm, staging⟩ := storeHit_bus (w := w) ((sameData_count k CacheCounters.store s).coherent hs)
      (by simpa using (lookup_some h).1)
    exact ⟨touch_shm.trans shm, touch_staging.trans staging⟩
  · cases miss.symm.trans h

/-- In a coherent state no other frame holds the line after a completed store: an exclusive holder was alone, and a shared one
has invalidated its peers. -/
theorem sole_of_cacheStore_done {k : PeId} {a v : Word} {w : WayIx} {s t : State} (hs : Coherent s)
    (h : s.lookup k a = some w) (e : cacheStore k a v s = .done () t) {j : PeId} {u : WayIx}
    (holds : (t.frame j (setOf a) u).holds (tagOf a) = true) : j = k ∧ u = w := by
  have held := (lookup_some h).1
  rw [cacheStore_done_frame h e] at holds
  by_cases hj : j = k
  · subst hj
    by_cases hu : u = w
    · exact ⟨rfl, hu⟩
    · rw [if_pos rfl, if_neg fun here => hu here.2] at holds
      exact ⟨rfl, hs.way_unique held holds⟩
  · rw [if_neg hj] at holds
    by_cases shared : (s.frame k (setOf a) w).state = .S
    · rw [if_pos shared] at holds
      rcases snoopedLine_invalidate_cases a (setOf a) (s.frame j (setOf a) u) with ⟨miss, same⟩ | ⟨_, gone⟩
      · rw [same] at holds
        cases miss.symm.trans (snoopHit_of_holds holds)
      · cases (gone _).symm.trans holds
    · rw [if_neg shared] at holds
      exact hs.holder_unique held shared holds

/-- A completed store leaves every other line's current value alone. -/
theorem sameByte_of_cacheStore_done {k : PeId} {a v : Word} {w : WayIx} {s t : State} (hs : Coherent s)
    (h : s.lookup k a = some w) (e : cacheStore k a v s = .done () t) {x : Word}
    (other : ¬(setOf x = setOf a ∧ tagOf x = tagOf a)) : SameByte x s t := by
  have held := (lookup_some h).1
  have notOwns : ∀ {l : Line}, setOf x = setOf a → l.tag = tagOf a → ¬l.owns (tagOf x) = true := fun hset tag owns =>
    other ⟨hset, (Line.tag_of_holds ((Line.owns_iff _ _).1 owns).1).symm.trans tag⟩
  refine ⟨fun j u => ?_, by rw [(cacheStore_done_bus hs h e).1]⟩
  simp only [State.Owns, cacheStore_done_frame h e]
  by_cases hj : j = k
  · subst hj
    by_cases here : setOf x = setOf a ∧ u = w
    · obtain ⟨hset, rfl⟩ := here
      have tag := Line.tag_of_holds held
      exact .inr ⟨by simpa [hset] using notOwns (l := storedLine _ a v) hset tag,
        by rw [hset]; exact notOwns hset tag⟩
    · exact .inl (by simp [here])
  · by_cases shared : (s.frame k (setOf a) w).state = .S
    · rcases snoopedLine_invalidate_cases a (setOf x) (s.frame j (setOf x) u) with ⟨_, same⟩ | ⟨hit, gone⟩
      · exact .inl (by simp [hj, same])
      · obtain ⟨hset, _, tag⟩ := (snoopHit_iff _ _ _).1 hit
        exact .inr ⟨by simp [hj, shared, Line.owns, gone], notOwns hset tag⟩
    · exact .inl (by simp [hj, shared])

theorem stored_of_done {k : PeId} {a v : Word} {w : WayIx} {s t : State} (hs : Coherent s)
    (h : s.lookup k a = some w) (e : cacheStore k a v s = .done () t) : Stored k a v w s t := by
  have frame : t.frame k (setOf a) w = storedLine (s.frame k (setOf a) w) a v := by
    rw [cacheStore_done_frame h e, if_pos rfl, if_pos ⟨rfl, rfl⟩]
  refine ⟨?_, ?_, fun j u => sole_of_cacheStore_done hs h e, fun x => sameByte_of_cacheStore_done hs h e⟩
  · rw [State.Owns, frame]
    exact owns_storedLine (lookup_some h).1 v
  · rw [frame]; rfl

/-- A store that completes has hit, within its line. -/
theorem hit_of_cacheStore_done {k : PeId} {a v : Word} {s t : State} (e : cacheStore k a v s = .done () t) :
    off a ≤ 24 ∧ ∃ w, s.lookup k a = some w := by
  rcases cacheStore_cases k a v s with ⟨_, e'⟩ | ⟨ho, w, h, _⟩ | ⟨_, _, e'⟩
  · cases e'.symm.trans e
  · exact ⟨ho, w, h⟩
  · cases e'.symm.trans e

/-- The current value after a completed store: the stored bytes at its address, the old ones elsewhere. -/
theorem Stored.currentByte {k : PeId} {a v : Word} {w : WayIx} {s t : State} (h : Stored k a v w s t) (hs : Coherent s)
    (held : (s.frame k (setOf a) w).holds (tagOf a) = true) (ho : off a ≤ 24) {x : Word} (hx : backed x) :
    t.currentByte x = if a.toNat ≤ x.toNat ∧ x.toNat < a.toNat + 8 then (bytes64 v).getD (x.toNat - a.toNat) 0
      else s.currentByte x := by
  have ha := toNat_eq_base_off a
  have hxo := toNat_eq_base_off x
  rw [baseOf_toNat] at ha hxo
  have := off_lt x
  by_cases same : setOf x = setOf a ∧ tagOf x = tagOf a
  · have line := (sameLine_iff x a).1 same
    obtain ⟨sets, tags⟩ := same
    have owns : t.Owns x k w := by rw [State.Owns, sets, tags]; exact h.owns
    have sole : ∀ j u, t.Owns x j u → j = k ∧ u = w := by
      intro j u hj
      rw [State.Owns, sets, tags] at hj
      exact h.sole j u ((Line.owns_iff _ _).1 hj).1
    rw [← sets, ← tags] at held
    rw [currentByte_of_sole owns sole, hs.currentByte_of_holds hx held, sets, h.data, lineByte_lineStore _ _ _ (off_lt x)]
    by_cases inside : off a ≤ off x ∧ off x < off a + 8
    · rw [if_pos inside, if_pos (by omega), show x.toNat - a.toNat = off x - off a from by omega]
    · rw [if_neg inside, if_neg (by omega)]
  · have line := mt (sameLine_iff x a).2 same
    rw [(h.others x same).currentByte, if_neg (by omega)]

/-- Settles O59: the frame that a store hits becomes the line's only holder, in M and with the stored bytes. -/
theorem storeSetsCurrentValue : Obligations.StoreSetsCurrentValue := by
  intro i s a v hs _ hi hr ht ho hit
  obtain ⟨u, same, answer⟩ := exec_store_answers hi hr ht
  obtain ⟨w, hw⟩ := Option.ne_none_iff_exists'.1 hit
  have hu := same.coherent hs
  have hw' := (same.lookup s.turn a).trans hw
  obtain ⟨r, e⟩ := cacheStore_of_hit (k := s.turn) (s := u) v ho (by simp [hw'])
  rw [e] at answer
  obtain ⟨t, next, after⟩ := answer
  have stored := stored_of_done hu hw' e
  refine ⟨t, next, fun x hx => ?_, fun j hj w' => ?_⟩
  · rw [(after.sameByte x).currentByte, stored.currentByte hu (lookup_some hw').1 ho hx, (same.sameByte x).currentByte]
  · rw [after.frame]
    exact Bool.eq_false_iff.2 fun holds => hj (stored.sole j w' holds).1

/-! ### The next load of a stored line (R71, R72, R155, R197) -/

/-- What a broadcast keeps of a line that one peer holds dirty: no second peer comes to hold it so, and its bytes are in that
frame or, after its snoop, in the staging slot. -/
structure LineInFlight (src : PeId) (a : Word) (k : PeId) (w : WayIx) (line : LineData) (s : State) : Prop where
  sole : ∀ j v, dirtyPeer s src a j v → j = k ∧ v = w
  frame : dirtyPeer s src a k w → (s.frame k (setOf a) w).data = line
  slot : ¬dirtyPeer s src a k w → mapFind (baseOf a).toNat s.staging = some line

/-- A frame that is dirty after a snoop is as it was before. -/
theorem frame_of_dirtyPeer_snoopWay {src i j : PeId} {kind : SnoopKind} {a : Word} {v u : WayIx} {s : State}
    (h : dirtyPeer (snoopWay i kind a v s) src a j u) :
    (snoopWay i kind a v s).frame j (setOf a) u = s.frame j (setOf a) u := by
  rcases snoopWay_releases i kind a v s with e | released
  · rw [e]
  · refine released.others j _ u fun here => ?_
    obtain ⟨rfl, -, rfl⟩ := here
    exact released.released h.2.2

theorem lineInFlight_snoopWay {src k i : PeId} {a : Word} {w : WayIx} {line : LineData} (kind : SnoopKind) (v : WayIx)
    (hi : i ≠ src) {s : State} (h : LineInFlight src a k w line s) :
    LineInFlight src a k w line (snoopWay i kind a v s) := by
  have before : ∀ {j u}, dirtyPeer (snoopWay i kind a v s) src a j u → dirtyPeer s src a j u := by
    intro j u dirty
    have same := frame_of_dirtyPeer_snoopWay dirty
    rwa [dirtyPeer, same] at dirty
  refine ⟨fun j u dirty => h.sole j u (before dirty), fun dirty => ?_, fun clean => ?_⟩
  · rw [frame_of_dirtyPeer_snoopWay dirty]
    exact h.frame (before dirty)
  · by_cases snooped : (s.frame i (setOf a) v).holds (tagOf a) = true ∧ (s.frame i (setOf a) v).state = .M
    · obtain ⟨rfl, rfl⟩ := h.sole i v ⟨hi, snooped⟩
      rw [(snoopWay_bus_of_dirty snooped.1 snooped.2).2.1, handleFlush_staging, mapFind_mapInsert, if_pos rfl,
        h.frame ⟨hi, snooped⟩]
    · rw [(snoopWay_bus_of_clean fun holds hM => snooped ⟨holds, hM⟩).2.1]
      refine h.slot fun dirty => clean ?_
      have elsewhere : ¬(k = i ∧ w = v) := fun here => snooped (by rw [← here.1, ← here.2]; exact dirty.2)
      rwa [dirtyPeer, snoopWay_frame, if_neg elsewhere]

theorem lineInFlight_broadcast {src k : PeId} {a : Word} {w : WayIx} {line : LineData} (kind : SnoopKind) {s : State}
    (h : LineInFlight src a k w line s) : LineInFlight src a k w line (broadcast src kind a s) :=
  broadcast_induction (fun s t => LineInFlight src a k w line s → LineInFlight src a k w line t) (fun _ => id)
    (fun _ _ _ h g => g ∘ h)
    (fun _ _ hi h => lineInFlight_snoopWay kind 1 hi (lineInFlight_snoopWay kind 0 hi h)) s h

theorem snoopedLine_not_modified {kind : SnoopKind} {a : Word} {st : SetIx} {l : Line} (h : snoopHit a st l = true) :
    (snoopedLine kind a st l).state ≠ .M := by
  cases kind <;> cases hst : l.state <;> simp [snoopedLine, h, hst]

/-- The line that the one dirty peer of a transaction holds is the line delivered (R194, R195, R202). -/
theorem sourceLine_of_dirtyPeer {src k : PeId} (kind : SnoopKind) {a : Word} {w : WayIx} {s : State}
    (dirty : dirtyPeer s src a k w) (sole : ∀ j v, dirtyPeer s src a j v → j = k ∧ v = w) :
    (sourceLine (baseOf a) src (broadcast src kind a s)).1 = (s.frame k (setOf a) w).data := by
  have start : LineInFlight src a k w (s.frame k (setOf a) w).data s := ⟨sole, fun _ => rfl, fun clean => absurd dirty clean⟩
  refine (sourceLine_of_slot ((lineInFlight_broadcast kind start).slot fun still => ?_) src).1
  obtain ⟨hk, holds, -⟩ := dirty
  have modified := still.2.2
  rw [broadcast_frame, if_neg hk] at modified
  exact snoopedLine_not_modified (snoopHit_of_holds holds) modified

/-- After a BusRd for a line its cache did not hold, a lookup finds the installed frame. -/
theorem lookup_emitBusRd {k : PeId} {a : Word} {s : State} (miss : s.lookup k a = none) :
    (emitBusRd k a s).lookup k a = some (s.chooseWay k (setOf a)) := by
  have installed : ((emitBusRd k a s).frame k (setOf a) (s.chooseWay k (setOf a))).holds (tagOf a) = true := by
    rw [emitBusRd_frame, if_pos rfl, if_pos ⟨rfl, rfl⟩]
    split <;> simp [installedLine, Line.holds]
  cases found : (emitBusRd k a s).lookup k a with
  | none => cases (lookup_none found _).symm.trans installed
  | some w =>
    have holds := (lookup_some found).1
    by_cases chosen : w = s.chooseWay k (setOf a)
    · rw [chosen]
    · rw [emitBusRd_frame, if_pos rfl, if_neg fun here => chosen here.2, lookup_none miss] at holds
      cases holds

/-- The second attempt of a load reads the line that the first has had delivered (R235). -/
theorem cacheLoad_after_miss {k : PeId} {a : Word} {s t : State} (h : cacheLoad k a s = .retry t) :
    ∃ u, SameData s u ∧
      ∃ r, cacheLoad k a t = .done (lineWord (sourceLine (baseOf a) k (broadcast k .read a u)).1 (off a)) r := by
  rcases cacheLoad_cases k a s with ⟨_, e⟩ | ⟨_, w, _, e⟩ | ⟨ho, miss, e⟩ <;> cases e.symm.trans h
  have counted : SameData s ((s.count k CacheCounters.load).count k CacheCounters.missRd) := ⟨by simp, rfl, rfl⟩
  obtain ⟨r, hit⟩ := cacheLoad_of_hit ho (lookup_emitBusRd ((counted.lookup k a).trans miss))
  rw [emitBusRd_frame, if_pos rfl, if_pos ⟨rfl, rfl⟩] at hit
  exact ⟨_, counted, r, hit⟩

/-- Settles O60: after a completed store one frame holds the line, so a hit is on that frame, and a miss has that frame's
line delivered. -/
theorem completedStoreIsSeenByEveryPe : Obligations.CompletedStoreIsSeenByEveryPe := by
  intro k j a v s t hs _ _ e
  obtain ⟨ho, w, hw⟩ := hit_of_cacheStore_done e
  have stored := stored_of_done hs hw e
  have word : lineWord (t.frame k (setOf a) w).data (off a) = v := by rw [stored.data, lineWord_lineStore _ ho]
  rcases cacheLoad_cases j a t with ⟨cross, _⟩ | ⟨_, u, hit, e'⟩ | ⟨_, miss, e'⟩
  · omega
  · obtain ⟨rfl, rfl⟩ := stored.sole j u (lookup_some hit).1
    rw [word] at e'
    exact .inl ⟨_, e'⟩
  · obtain ⟨t', same, r, second⟩ := cacheLoad_after_miss e'
    have owns := (Line.owns_iff _ _).1 stored.owns
    have dirty : dirtyPeer t' j a k w := by
      rw [dirtyPeer, same.frame]
      refine ⟨?_, owns⟩
      rintro rfl
      cases (lookup_none miss w).symm.trans owns.1
    have sole : ∀ i u, dirtyPeer t' j a i u → i = k ∧ u = w := by
      intro i u hi
      rw [dirtyPeer, same.frame] at hi
      exact stored.sole i u hi.2.1
    rw [sourceLine_of_dirtyPeer .read dirty sole, same.frame, word] at second
    exact .inr ⟨_, r, e', second⟩

end Sys2Proof.Machine
end

section
/-! SUPPORT. The fields of a number (spec 00_scope.md R9, R11): the slices of a slice, of a bit vector's number and of the
number that a list of bytes holds. -/

namespace Sys2Proof

/-! ### Slices -/

/-- A field of a field is a field of the whole number. -/
theorem slice_slice (v lo : Nat) {hi hi' lo' : Nat} (h : lo + hi' ≤ hi) :
    slice (slice v hi lo) hi' lo' = slice v (lo + hi') (lo + lo') := by
  apply Nat.eq_of_testBit_eq
  intro i
  simp only [slice, Nat.testBit_mod_two_pow, Nat.testBit_div_two_pow]
  rw [show i + lo' + lo = i + (lo + lo') by omega, show lo + hi' + 1 - (lo + lo') = hi' + 1 - lo' by omega]
  by_cases inside : i < hi' + 1 - lo'
  · simp [inside, show i + lo' < hi + 1 - lo by omega]
  · simp [inside]

/-- Numbers that agree on a field agree on every field inside it. -/
theorem slice_congr {m n hi : Nat} (h : slice m hi 0 = slice n hi 0) {hi' : Nat} (hh : hi' ≤ hi) (lo' : Nat) :
    slice m hi' lo' = slice n hi' lo' := by
  have inside (v : Nat) : slice (slice v hi 0) hi' lo' = slice v hi' lo' := by
    simpa using slice_slice v 0 (lo' := lo') (show 0 + hi' ≤ hi by omega)
  rw [← inside m, h, inside]

theorem slice_toNat {n hi lo len : Nat} (x : BitVec n) (h : hi + 1 - lo = len) :
    slice x.toNat hi lo = (x.extractLsb' lo len).toNat := by
  rw [BitVec.extractLsb'_toNat, slice_eq, h, Nat.shiftRight_eq_div_pow]

theorem ofNat_slice_toNat {n hi lo len : Nat} (x : BitVec n) (h : hi + 1 - lo = len) :
    BitVec.ofNat len (slice x.toNat hi lo) = x.extractLsb' lo len := by
  rw [slice_toNat x h, BitVec.ofNat_toNat, BitVec.setWidth_eq]

/-- A field of one bit. -/
theorem slice_bit (v i : Nat) : slice v i i = (v.testBit i).toNat := by
  rw [Nat.toNat_testBit, slice_eq, Nat.add_sub_cancel_left, pow_one]

/-! ### The bytes of a number -/

theorem getD_bytesLE {n i : Nat} (v : Nat) (h : i < n) :
    (bytesLE n v).getD i 0 = BitVec.ofNat 8 (slice v (8 * i + 7) (8 * i)) := by
  induction n generalizing v i with
  | zero => omega
  | succ n ih =>
    cases i with
    | zero => exact BitVec.eq_of_toNat_eq (by simp [bytesLE, slice])
    | succ i =>
      have shift : v / 2 ^ (8 * (i + 1)) = v / 256 / 2 ^ (8 * i) := by
        rw [Nat.div_div_eq_div_mul, show (256 : Nat) = 2 ^ 8 from rfl, ← pow_add, Nat.mul_succ, Nat.add_comm]
      have width : 8 * (i + 1) + 7 + 1 - 8 * (i + 1) = 8 * i + 7 + 1 - 8 * i := by omega
      rw [slice_eq, shift, width, ← slice_eq, ← ih (v / 256) (by omega)]
      rfl

theorem natLE_append (l m : List Byte) : natLE (l ++ m) = natLE l + 256 ^ l.length * natLE m := by
  induction l with
  | nil => simp [natLE]
  | cons b t ih => simp only [List.cons_append, natLE, ih, List.length_cons, Nat.pow_succ]; ring

/-- The low bits of a list's number are in its first bytes. -/
theorem slice_natLE_take (l : List Byte) {n hi : Nat} (lo : Nat) (hn : n ≤ l.length) (h : hi < 8 * n) :
    slice (natLE (l.take n)) hi lo = slice (natLE l) hi lo := by
  refine slice_congr (hi := hi) ?_ le_rfl lo
  have split := natLE_append (l.take n) (l.drop n)
  rw [List.take_append_drop, List.length_take, Nat.min_eq_left hn] at split
  have whole : 256 ^ n = 2 ^ (hi + 1) * 2 ^ (8 * n - (hi + 1)) := by
    rw [← pow_add, show (256 : Nat) = 2 ^ 8 from rfl, ← pow_mul, Nat.add_sub_of_le h]
  rw [split, whole, Nat.mul_assoc]
  simp [slice]

/-- The line a field of 256 bits holds, byte by byte. -/
theorem Machine.lineByte_slice (v lo : Nat) {hi i : Nat} (h : lo + 255 ≤ hi) (hi' : i < 32) :
    lineByte (lineOfBytes (bytesLE 32 (slice v hi lo))) i =
      BitVec.ofNat 8 (slice v (lo + (8 * i + 7)) (lo + 8 * i)) := by
  rw [lineByte_lineOfBytes _ hi', getD_bytesLE _ hi', slice_slice _ _ (by omega)]

theorem natLE_line_lt (l : LineData) : natLE l.toList < 2 ^ 256 := by
  simpa using natLE_lt l.toList

/-- A line is the one its number holds. -/
theorem lineOfBytes_natLE (l : LineData) : lineOfBytes (bytesLE 32 (natLE l.toList)) = l := by
  have h := bytesLE_natLE l.toList
  rw [Vector.length_toList] at h
  rw [h, lineOfBytes_of_toList]

end Sys2Proof
end

section
/-! SUPPORT. What the decoders answer, an equation for each kind of record, and the fields of the records the encoder writes
(spec 30_encoding.md R94 to R107). -/

namespace Sys2Proof

/-! ### The instruction word, by opcode (R100, R102) -/

section
variable {w : Nat}

theorem decodeI32_load (h : slice w 31 28 = 0) : decodeI32 w = .ok (.load (regField w 25) (regField w 22)) := by
  simp only [decodeI32, h]

theorem decodeI32_store (h : slice w 31 28 = 1) : decodeI32 w = .ok (.store (regField w 25) (regField w 22)) := by
  simp only [decodeI32, h]

theorem decodeI32_fmul (h : slice w 31 28 = 2) :
    decodeI32 w = .ok (.fmul (regField w 25) (regField w 22) (regField w 19)) := by
  simp only [decodeI32, h]

theorem decodeI32_fadd (h : slice w 31 28 = 3) :
    decodeI32 w = .ok (.fadd (regField w 25) (regField w 22) (regField w 19)) := by
  simp only [decodeI32, h]

theorem decodeI32_inc (h : slice w 31 28 = 4) : decodeI32 w = .ok (.inc (regField w 25)) := by
  simp only [decodeI32, h]

theorem decodeI32_dec (h : slice w 31 28 = 5) : decodeI32 w = .ok (.dec (regField w 25)) := by
  simp only [decodeI32, h]

theorem decodeI32_jnz (h : slice w 31 28 = 6) :
    decodeI32 w = .ok (.jnz (regField w 25) (sext16 (slice w 15 0))) := by
  simp only [decodeI32, h]

theorem decodeI32_lea (h : slice w 31 28 = 7) :
    decodeI32 w = .ok (.lea (regField w 25) (regField w 22) (regField w 19) (sext16 (slice w 15 0))) := by
  simp only [decodeI32, h]

theorem decodeI32_halt (h : slice w 31 28 = 8) : decodeI32 w = .ok .halt := by
  simp only [decodeI32, h]

theorem decodeI32_undefined (h : 9 ≤ slice w 31 28) : decodeI32 w = .error (.undefinedOpcode (slice w 31 28)) := by
  unfold decodeI32
  dsimp only
  split
  case h_10 => rfl
  all_goals omega

end

/-! ### The transaction record, by type (R94, R96) -/

section
variable {n : Nat}

theorem decodeTxn_busRd (h : slice n 2 0 = 0) :
    decodeTxn n = .ok (.busRd (Fin.ofNat 4 (slice n 4 3)) (BitVec.ofNat 64 (slice n 68 5))) := by
  simp only [decodeTxn, h]

theorem decodeTxn_busRdX (h : slice n 2 0 = 1) :
    decodeTxn n = .ok (.busRdX (Fin.ofNat 4 (slice n 4 3)) (BitVec.ofNat 64 (slice n 68 5))) := by
  simp only [decodeTxn, h]

theorem decodeTxn_busUpgr (h : slice n 2 0 = 2) :
    decodeTxn n = .ok (.busUpgr (Fin.ofNat 4 (slice n 4 3)) (BitVec.ofNat 64 (slice n 68 5))) := by
  simp only [decodeTxn, h]

theorem decodeTxn_flush (h : slice n 2 0 = 3) :
    decodeTxn n = .ok (.flush (Fin.ofNat 4 (slice n 4 3)) (BitVec.ofNat 64 (slice n 68 5))
      (lineOfBytes (bytesLE 32 (slice n 324 69)))) := by
  simp only [decodeTxn, h]

theorem decodeTxn_inv (h : slice n 2 0 = 4) :
    decodeTxn n = .ok (.inv (Fin.ofNat 4 (slice n 4 3)) (BitVec.ofNat 64 (slice n 68 5))) := by
  simp only [decodeTxn, h]

theorem decodeTxn_reserved (h : 5 ≤ slice n 2 0) : decodeTxn n = .error (.reservedTxnType (slice n 2 0)) := by
  unfold decodeTxn
  dsimp only
  split
  case h_6 => rfl
  all_goals omega

end

/-! ### The fields of a written instruction word (R99, R101) -/

section
variable {op d a b : Nat} (imm : Int)

theorem wordI32_lt (hop : op < 16) (hd : d < 8) (ha : a < 8) (hb : b < 8) : wordI32 op d a b imm < 256 ^ 4 := by
  unfold wordI32; omega

@[simp] theorem opcode_wordI32 (hop : op < 16) (hd : d < 8) (ha : a < 8) (hb : b < 8) :
    slice (wordI32 op d a b imm) 31 28 = op := by
  unfold slice wordI32; omega

@[simp] theorem regField_d_wordI32 (hd : d < 8) (ha : a < 8) (hb : b < 8) :
    regField (wordI32 op d a b imm) 25 = Fin.ofNat 8 d := by
  rw [regField]; congr 1; unfold slice wordI32; omega

@[simp] theorem regField_a_wordI32 (ha : a < 8) (hb : b < 8) : regField (wordI32 op d a b imm) 22 = Fin.ofNat 8 a := by
  rw [regField]; congr 1; unfold slice wordI32; omega

@[simp] theorem regField_b_wordI32 (hb : b < 8) : regField (wordI32 op d a b imm) 19 = Fin.ofNat 8 b := by
  rw [regField]; congr 1; unfold slice wordI32; omega

@[simp] theorem imm_wordI32 : slice (wordI32 op d a b imm) 15 0 = (imm % 65536).toNat := by
  unfold slice wordI32; omega

end

/-- The 16 low bits of an immediate that fits extend to it (R101). -/
theorem sext16_emod {imm : Int} (h : immFits imm = true) : sext16 (imm % 65536).toNat = imm := by
  simp only [immFits, Bool.and_eq_true, decide_eq_true_eq] at h
  simp only [sext16, BitVec.toInt_ofNat', Int.bmod_def]
  omega

theorem immFits_of_shiftAmountOk {imm : Int} (h : shiftAmountOk imm = true) : immFits imm = true := by
  simp only [shiftAmountOk, immFits, Bool.and_eq_true, decide_eq_true_eq] at h ⊢
  omega

/-! ### The fields of a written transaction record (R94) -/

section
variable {type p : Nat} (src : PeId) (addr : Word)

theorem wordTxn_lt (ht : type < 8) (hp : p < 2 ^ 256) : wordTxn type src addr p < 256 ^ 41 := by
  unfold wordTxn; omega

@[simp] theorem type_wordTxn (ht : type < 8) : slice (wordTxn type src addr p) 2 0 = type := by
  unfold slice wordTxn; omega

@[simp] theorem src_wordTxn (ht : type < 8) : slice (wordTxn type src addr p) 4 3 = src.val := by
  unfold slice wordTxn; omega

@[simp] theorem addr_wordTxn (ht : type < 8) : BitVec.ofNat 64 (slice (wordTxn type src addr p) 68 5) = addr := by
  rw [show slice (wordTxn type src addr p) 68 5 = addr.toNat by unfold slice wordTxn; omega, BitVec.ofNat_toNat,
    BitVec.setWidth_eq]

@[simp] theorem payload_wordTxn (ht : type < 8) (hp : p < 2 ^ 256) : slice (wordTxn type src addr p) 324 69 = p := by
  unfold slice wordTxn; omega

end

/-! ### The commands and requests read from their written records (R105 to R107) -/

section
variable {op : Nat} (addr : Word)

theorem wordCmd_lt (hop : op < 2) (wdata : Word) : wordCmd op addr wdata.toNat < 256 ^ 17 := by
  unfold wordCmd; omega

@[simp] theorem op_wordCmd (hop : op < 2) (wdata : Nat) : slice (wordCmd op addr wdata) 0 0 = op := by
  unfold slice wordCmd; omega

@[simp] theorem addr_wordCmd (hop : op < 2) (wdata : Nat) : BitVec.ofNat 64 (slice (wordCmd op addr wdata) 64 1) = addr := by
  rw [show slice (wordCmd op addr wdata) 64 1 = addr.toNat by unfold slice wordCmd; omega, BitVec.ofNat_toNat,
    BitVec.setWidth_eq]

@[simp] theorem wdata_wordCmd (hop : op < 2) (wdata : Word) :
    BitVec.ofNat 64 (slice (wordCmd op addr wdata.toNat) 128 65) = wdata := by
  rw [show slice (wordCmd op addr wdata.toNat) 128 65 = wdata.toNat by unfold slice wordCmd; omega, BitVec.ofNat_toNat,
    BitVec.setWidth_eq]

end

/-- The bits of a shared memory request that name its PE (log 8). -/
def reqBits : Option PeId → Nat
  | none => 0
  | some p => 1 + p.val * 2

theorem reqBits_lt (req : Option PeId) : reqBits req < 8 := by
  cases req with
  | none => decide
  | some p => simp only [reqBits]; omega

/-- The PE that a request names, read back from its bits. -/
theorem readReq_reqBits (req : Option PeId) :
    (if reqBits req % 2 = 0 then none else some (Fin.ofNat 4 (reqBits req / 2))) = req := by
  cases req with
  | none => rfl
  | some p =>
    rw [if_neg (by simp only [reqBits]; omega), show reqBits (some p) / 2 = p.val by simp only [reqBits]; omega,
      Fin.ofNat_val_eq_self]

section
variable {cmd size len : Nat} (addr : Word) (req : Option PeId)

theorem wordShm_eq : wordShm cmd addr size req len =
    cmd + addr.toNat * 2 + size * 2 ^ 65 + reqBits req * 2 ^ 129 + len * 2 ^ 136 := by
  cases req <;> rfl

theorem wordShm_lt (hc : cmd < 2) (hs : size < 2 ^ 64) (hl : len < 2 ^ 64) :
    wordShm cmd addr size req len < 256 ^ 25 := by
  have := reqBits_lt req
  rw [wordShm_eq]; omega

theorem len_wordShm (hc : cmd < 2) (hs : size < 2 ^ 64) (hl : len < 2 ^ 64) :
    slice (wordShm cmd addr size req len) 199 136 = len := by
  have := reqBits_lt req
  rw [wordShm_eq, slice_eq]; omega

theorem decodeShm_wordShm (hc : cmd < 2) (hs : size < 2 ^ 64) (payload : List Byte) :
    decodeShm (wordShm cmd addr size req len) payload =
      if cmd = 0 then .shmRead addr size req else .shmWrite addr payload size req := by
  have hr := reqBits_lt req
  have cmdField : slice (wordShm cmd addr size req len) 0 0 = cmd := by rw [wordShm_eq, slice_eq]; omega
  have addrField : slice (wordShm cmd addr size req len) 64 1 = addr.toNat := by rw [wordShm_eq, slice_eq]; omega
  have sizeField : slice (wordShm cmd addr size req len) 128 65 = size := by rw [wordShm_eq, slice_eq]; omega
  have present : slice (wordShm cmd addr size req len) 129 129 = reqBits req % 2 := by rw [wordShm_eq, slice_eq]; omega
  have peField : slice (wordShm cmd addr size req len) 131 130 = reqBits req / 2 := by rw [wordShm_eq, slice_eq]; omega
  simp only [decodeShm, cmdField, addrField, sizeField, present, peField, readReq_reqBits, BitVec.ofNat_toNat,
    BitVec.setWidth_eq]

end

/-! ### Reading a record's bytes -/

section
variable {v : Nat} (tail : List Byte)

theorem natLE_take_bytesLE {n : Nat} (h : v < 256 ^ n) : natLE ((bytesLE n v ++ tail).take n) = v := by
  rw [List.take_left' (bytesLE_length n v), natLE_bytesLE, Nat.mod_eq_of_lt h]

theorem drop_bytesLE {n : Nat} : (bytesLE n v ++ tail).drop n = tail := List.drop_left' (bytesLE_length n v)

theorem not_truncated (n : Nat) : ¬ (bytesLE n v ++ tail).length < n := by
  rw [List.length_append, bytesLE_length]; omega

theorem decode_i32 (h : v < 256 ^ 4) : decode .i32 (bytesLE 4 v ++ tail) = (decodeI32 v).map (·, tail) := by
  simp only [decode, Format.headerBytes, if_neg (not_truncated tail 4), natLE_take_bytesLE tail h, drop_bytesLE]

theorem decode_txn (h : v < 256 ^ 41) : decode .txn (bytesLE 41 v ++ tail) = (decodeTxn v).map (·, tail) := by
  simp only [decode, Format.headerBytes, if_neg (not_truncated tail 41), natLE_take_bytesLE tail h, drop_bytesLE]

theorem decode_portcmd (h : v < 256 ^ 17) : decode .portcmd (bytesLE 17 v ++ tail) = .ok (decodePort v, tail) := by
  simp only [decode, Format.headerBytes, if_neg (not_truncated tail 17), natLE_take_bytesLE tail h, drop_bytesLE]

theorem decode_cachecmd (h : v < 256 ^ 17) : decode .cachecmd (bytesLE 17 v ++ tail) = .ok (decodeCache v, tail) := by
  simp only [decode, Format.headerBytes, if_neg (not_truncated tail 17), natLE_take_bytesLE tail h, drop_bytesLE]

/-- A request with its payload after it, whose length the header holds. -/
theorem decode_shmcmd (h : v < 256 ^ 25) {payload : List Byte} (hl : slice v 199 136 = payload.length) :
    decode .shmcmd (bytesLE 25 v ++ (payload ++ tail)) = .ok (decodeShm v payload, tail) := by
  have enough : ¬ (payload ++ tail).length < payload.length := by rw [List.length_append]; omega
  simp only [decode, Format.headerBytes, if_neg (not_truncated _ 25), natLE_take_bytesLE _ h, drop_bytesLE, hl,
    if_neg enough, List.take_left, List.drop_left]

end

/-! ### Reading back what the encoder writes -/

theorem encodeNat_lt {i : Instr} (hw : i.wellFormed = true) : encodeNat i < 256 ^ i.format.headerBytes := by
  cases i with
  | load d a | store d a | fmul d a b | fadd d a b | inc d | dec d | jnz d imm | lea d a b imm | halt =>
    apply wordI32_lt <;> omega
  | busRd src addr | busRdX src addr | busUpgr src addr | inv src addr =>
    apply wordTxn_lt <;> omega
  | flush src addr payload => exact wordTxn_lt src addr (by omega) (natLE_line_lt payload)
  | load64 addr | cacheLoad addr => exact wordCmd_lt addr (by omega) 0
  | store64 addr wdata | cacheStore addr wdata => exact wordCmd_lt addr (by omega) wdata
  | shmRead addr size req => exact wordShm_lt addr req (by omega) (of_decide_eq_true hw) (by omega)
  | shmWrite addr bytes size req =>
    obtain ⟨hs, hl⟩ := Bool.and_eq_true_iff.1 hw
    exact wordShm_lt addr req (by omega) (of_decide_eq_true hs) (of_decide_eq_true hl)

theorem decodeI32_encodeNat {i : Instr} (hf : i.format = .i32) (hw : i.wellFormed = true) :
    decodeI32 (encodeNat i) = .ok i := by
  cases i <;> cases hf
  case load d a => simp [encodeNat, decodeI32_load]
  case store d a => simp [encodeNat, decodeI32_store]
  case fmul d a b => simp [encodeNat, decodeI32_fmul]
  case fadd d a b => simp [encodeNat, decodeI32_fadd]
  case inc d => simp [encodeNat, decodeI32_inc]
  case dec d => simp [encodeNat, decodeI32_dec]
  case jnz d imm => simp [encodeNat, decodeI32_jnz, sext16_emod hw]
  case lea d a b imm => simp [encodeNat, decodeI32_lea, sext16_emod (immFits_of_shiftAmountOk hw)]
  case halt => simp [encodeNat, decodeI32_halt]

theorem decodeTxn_encodeNat {i : Instr} (hf : i.format = .txn) : decodeTxn (encodeNat i) = .ok i := by
  cases i <;> cases hf
  case busRd src addr => simp [encodeNat, decodeTxn_busRd]
  case busRdX src addr => simp [encodeNat, decodeTxn_busRdX]
  case busUpgr src addr => simp [encodeNat, decodeTxn_busUpgr]
  case flush src addr payload =>
    simp [encodeNat, decodeTxn_flush, payload_wordTxn src addr _ (natLE_line_lt payload), lineOfBytes_natLE]
  case inv src addr => simp [encodeNat, decodeTxn_inv]

theorem decodePort_encodeNat {i : Instr} (hf : i.format = .portcmd) : decodePort (encodeNat i) = i := by
  cases i <;> cases hf
  case load64 addr => simp [encodeNat, decodePort]
  case store64 addr wdata => simp [encodeNat, decodePort]

theorem decodeCache_encodeNat {i : Instr} (hf : i.format = .cachecmd) : decodeCache (encodeNat i) = i := by
  cases i <;> cases hf
  case cacheLoad addr => simp [encodeNat, decodeCache]
  case cacheStore addr wdata => simp [encodeNat, decodeCache]

/-- Decoding what encode writes, whatever bytes follow. -/
theorem decode_encode {i : Instr} (hw : i.wellFormed = true) (rest : List Byte) :
    decode i.format (encode i ++ rest) = .ok (i, rest) := by
  have hn := encodeNat_lt hw
  unfold encode
  rw [List.append_assoc]
  cases i
  case load | store | fmul | fadd | inc | dec | jnz | lea | halt =>
    exact (decode_i32 rest hn).trans (by rw [decodeI32_encodeNat rfl hw]; rfl)
  case busRd | busRdX | busUpgr | flush | inv =>
    exact (decode_txn rest hn).trans (by rw [decodeTxn_encodeNat rfl]; rfl)
  case load64 | store64 => exact (decode_portcmd rest hn).trans (by rw [decodePort_encodeNat rfl])
  case cacheLoad | cacheStore => exact (decode_cachecmd rest hn).trans (by rw [decodeCache_encodeNat rfl])
  case shmRead addr size req =>
    have hs : size < 2 ^ 64 := of_decide_eq_true hw
    have hl := len_wordShm (cmd := 0) (len := 0) addr req (by omega) hs (by omega)
    exact (decode_shmcmd rest hn (payload := []) hl).trans (by rw [encodeNat, decodeShm_wordShm _ _ (by omega) hs]; rfl)
  case shmWrite addr bytes size req =>
    obtain ⟨hs, hb⟩ := Bool.and_eq_true_iff.1 hw
    have hs := of_decide_eq_true hs
    have hl := len_wordShm (cmd := 1) addr req (by omega) hs (of_decide_eq_true hb)
    exact (decode_shmcmd rest hn hl).trans (by rw [encodeNat, decodeShm_wordShm _ _ (by omega) hs]; rfl)

/-- Settles O1: each format's record is read back, then the payload of a write request. -/
theorem decodeEncodeRoundTrip : Obligations.DecodeEncodeRoundTrip := fun _ hw rest => decode_encode hw rest

end Sys2Proof
end

section
/-! SUPPORT. The encoding statements about instruction words (spec 30_encoding.md R99 to R102). -/

namespace Sys2Proof

/-- The opcode field is what the match mask of R100 keeps. -/
theorem opcode_eq_mask (w : BitVec 32) : slice w.toNat 31 28 = (w &&& 0xF0000000#32).toNat / 2 ^ 28 := by
  have mask : 0xF0000000#32 = BitVec.allOnes 32 <<< 28 := rfl
  have := w.isLt
  rw [mask, ← BitVec.shiftLeft_ushiftRight, slice_eq, BitVec.toNat_shiftLeft, BitVec.toNat_ushiftRight,
    Nat.shiftRight_eq_div_pow, Nat.shiftLeft_eq]
  omega

theorem opcode_of_match {w m : BitVec 32} (h : w &&& 0xF0000000#32 = m) : slice w.toNat 31 28 = m.toNat / 2 ^ 28 := by
  rw [opcode_eq_mask, h]

theorem regField_toNat (w : BitVec 32) (lo : Nat) : regField w.toNat lo = Fin.ofNat 8 (w.extractLsb' lo 3).toNat := by
  rw [regField, slice_toNat w (show lo + 2 + 1 - lo = 3 by omega)]

theorem sext16_toNat (w : BitVec 32) : sext16 (slice w.toNat 15 0) = (w.extractLsb' 0 16).toInt := by
  rw [sext16, ofNat_slice_toNat w (show 15 + 1 - 0 = 16 from rfl)]

/-- Settles O2: the match value fixes the opcode field, and the fields of the word are its bits. -/
theorem instructionWordFields : Obligations.InstructionWordFields := by
  intro w
  simp only [← regField_toNat, ← sext16_toNat, ← slice_toNat w (show 31 + 1 - 28 = 4 from rfl)]
  refine ⟨?load, ?store, ?fmul, ?fadd, ?inc, ?dec, ?jnz, ?lea, ?halt, ?undefined⟩
  case load => exact fun h => decodeI32_load (opcode_of_match h)
  case store => exact fun h => decodeI32_store (opcode_of_match h)
  case fmul => exact fun h => decodeI32_fmul (opcode_of_match h)
  case fadd => exact fun h => decodeI32_fadd (opcode_of_match h)
  case inc => exact fun h => decodeI32_inc (opcode_of_match h)
  case dec => exact fun h => decodeI32_dec (opcode_of_match h)
  case jnz => exact fun h => decodeI32_jnz (opcode_of_match h)
  case lea => exact fun h => decodeI32_lea (opcode_of_match h)
  case halt => exact fun h => decodeI32_halt (opcode_of_match h)
  case undefined =>
    intro h
    have := w.isLt
    exact decodeI32_undefined (by rw [slice_eq]; omega)

/-- Words of one opcode that agree on the fields it uses are one instruction (R102). -/
theorem decodeI32_congr {v w : Nat} (op : slice v 31 28 = slice w 31 28)
    (fields : ∀ f ∈ Machine.usedFields (slice v 31 28), slice v f.1 f.2 = slice w f.1 f.2) :
    decodeI32 v = decodeI32 w := by
  generalize hk : slice v 31 28 = k at op fields
  have reg {lo : Nat} (h : (lo + 2, lo) ∈ Machine.usedFields k) : regField v lo = regField w lo := by
    rw [regField, regField, fields _ h]
  have imm (h : (15, 0) ∈ Machine.usedFields k) : slice v 15 0 = slice w 15 0 := fields _ h
  match k with
  | 0 => rw [decodeI32_load hk, decodeI32_load op.symm, reg (lo := 25) (by decide), reg (lo := 22) (by decide)]
  | 1 => rw [decodeI32_store hk, decodeI32_store op.symm, reg (lo := 25) (by decide), reg (lo := 22) (by decide)]
  | 2 =>
    rw [decodeI32_fmul hk, decodeI32_fmul op.symm, reg (lo := 25) (by decide), reg (lo := 22) (by decide),
      reg (lo := 19) (by decide)]
  | 3 =>
    rw [decodeI32_fadd hk, decodeI32_fadd op.symm, reg (lo := 25) (by decide), reg (lo := 22) (by decide),
      reg (lo := 19) (by decide)]
  | 4 => rw [decodeI32_inc hk, decodeI32_inc op.symm, reg (lo := 25) (by decide)]
  | 5 => rw [decodeI32_dec hk, decodeI32_dec op.symm, reg (lo := 25) (by decide)]
  | 6 => rw [decodeI32_jnz hk, decodeI32_jnz op.symm, reg (lo := 25) (by decide), imm (by decide)]
  | 7 =>
    rw [decodeI32_lea hk, decodeI32_lea op.symm, reg (lo := 25) (by decide), reg (lo := 22) (by decide),
      reg (lo := 19) (by decide), imm (by decide)]
  | 8 => rw [decodeI32_halt hk, decodeI32_halt op.symm]
  | k + 9 => rw [decodeI32_undefined (by omega), decodeI32_undefined (by omega), hk, op]

namespace Machine

/-- A word of the program that is no instruction is fetched as undefined (R241, R253). -/
theorem fetch_eq_undefined {s : State} {k : PeId} {w : BitVec 32} {e : DecodeError} (hpc : 0 ≤ (s.pe k).pc)
    (hw : (s.pe k).program[(s.pe k).pc.toNat]? = some w) (he : decodeI32 w.toNat = .error e) :
    s.fetch k = .undefined := by
  simp only [State.fetch, if_neg (not_lt.2 hpc), hw, he]

theorem agentStep_of_undefined {s : State} {k : PeId} (h : s.fetch k = .undefined) :
    agentStep k s = .next (s.halt k).reschedule := by
  rw [agentStep, h]

end Machine

/-- Settles O3: the decoder reads the used fields only, and an undefined opcode is fetched as no instruction. -/
theorem ignoredBitsAndUndefinedOpcodes : Obligations.IgnoredBitsAndUndefinedOpcodes :=
  ⟨fun _ _ => decodeI32_congr, fun _ _ _ hpc hw op =>
    Machine.agentStep_of_undefined (Machine.fetch_eq_undefined hpc hw (decodeI32_undefined op))⟩

end Sys2Proof
end

section
/-! SUPPORT. The encoding statements about transaction, command and data response records (spec 30_encoding.md R94 to R97,
R105, R106) and the sample words. -/

namespace Sys2Proof

/-! ### Transactions -/

/-- The payload of a transaction record, byte by byte (R94). -/
theorem payload_toNat (n : BitVec 325) :
    lineOfBytes (bytesLE 32 (slice n.toNat 324 69)) =
      Vector.ofFn fun i : Fin 32 => n.extractLsb' (69 + 8 * i.val) 8 := by
  apply Machine.line_ext
  intro i hi
  rw [Machine.lineByte_slice _ _ (by omega) hi, ofNat_slice_toNat n (by omega), Machine.lineByte_of_lt _ hi,
    Vector.getElem_ofFn]

/-- Settles O4: the type bits select the transaction, and its fields are the record's bits. -/
theorem transactionRecordFields : Obligations.TransactionRecordFields := by
  intro n
  have type {t : BitVec 3} (h : n.extractLsb' 0 3 = t) : slice n.toNat 2 0 = t.toNat := by rw [slice_toNat n rfl, h]
  simp only [← slice_toNat n (show 4 + 1 - 3 = 2 from rfl), ← ofNat_slice_toNat n (show 68 + 1 - 5 = 64 from rfl),
    ← payload_toNat]
  exact ⟨fun h => decodeTxn_busRd (type h), fun h => decodeTxn_busRdX (type h), fun h => decodeTxn_busUpgr (type h),
    fun h => decodeTxn_flush (type h), fun h => decodeTxn_inv (type h)⟩

/-- Records that agree below the payload and are no Flush are one transaction, or refused alike (R96). -/
theorem decodeTxn_congr {m n : Nat} (h : slice m 68 0 = slice n 68 0) (notFlush : slice m 2 0 ≠ 3) :
    decodeTxn m = decodeTxn n := by
  have type : slice m 2 0 = slice n 2 0 := slice_congr h (by omega) 0
  have src : slice m 4 3 = slice n 4 3 := slice_congr h (by omega) 3
  have addr : slice m 68 5 = slice n 68 5 := slice_congr h le_rfl 5
  generalize hk : slice m 2 0 = k at type notFlush
  match k with
  | 0 => rw [decodeTxn_busRd hk, decodeTxn_busRd type.symm, src, addr]
  | 1 => rw [decodeTxn_busRdX hk, decodeTxn_busRdX type.symm, src, addr]
  | 2 => rw [decodeTxn_busUpgr hk, decodeTxn_busUpgr type.symm, src, addr]
  | 3 => exact absurd rfl notFlush
  | 4 => rw [decodeTxn_inv hk, decodeTxn_inv type.symm, src, addr]
  | k + 5 => rw [decodeTxn_reserved (by omega), decodeTxn_reserved (by omega), hk, type]

namespace Machine

/-- A queued transaction record of full length is read from its first 41 bytes. -/
theorem hostCmd_instr_txn {c : HostCmd} (hf : c.fmt = .txn) (hl : 41 ≤ c.bytes.length) :
    c.instr = decodeTxn (natLE (c.bytes.take 41)) := by
  have full : ¬ c.bytes.length < Format.txn.headerBytes := not_lt.2 hl
  simp only [HostCmd.instr, hf, decode, if_neg full]
  change _ = decodeTxn (natLE (c.bytes.take Format.txn.headerBytes))
  cases decodeTxn (natLE (c.bytes.take Format.txn.headerBytes)) <;> rfl

/-- A queued record that is no instruction is refused (R96, log 13). -/
theorem step_of_badRecord {s : State} {c : HostCmd} {rest : List HostCmd} {e : DecodeError} (hf : s.fault = none)
    (hc : s.cmds = c :: rest) (he : c.instr = .error e) : step s = .refused (.badRecord e) := by
  simp only [step, hf, hc, hostStep, he]

/-- A Flush is handled with the base of its address (R96, R196). -/
theorem exec_flush_baseOf (src : PeId) (a : Word) (p : LineData) (s : State) :
    exec (.flush src a p) s = exec (.flush src (baseOf a) p) s := by
  simp only [exec, execFlush, handleFlush, baseOf_baseOf]

end Machine

/-- Settles O5: a reserved type decodes to no transaction, a Flush goes through its line base, and no other type reads the
payload. -/
theorem reservedTransactionTypes : Obligations.ReservedTransactionTypes := by
  refine ⟨fun s c rest hf hc fmt hl type => ?_, Machine.exec_flush_baseOf, fun _ _ => decodeTxn_congr⟩
  have low : slice (natLE (c.bytes.take 41)) 2 0 = slice (natLE c.bytes) 2 0 := slice_natLE_take _ 0 hl (by omega)
  rw [← low] at type ⊢
  exact Machine.step_of_badRecord hf hc ((Machine.hostCmd_instr_txn fmt hl).trans (decodeTxn_reserved type))

/-! ### Commands and data responses -/

/-- Settles O6: bit 0 selects the access, and its fields are the record's bits. -/
theorem commandRecordFields : Obligations.CommandRecordFields := by
  intro n
  have op : slice n.toNat 0 0 = (n.getLsbD 0).toNat := slice_bit _ 0
  have addr : BitVec.ofNat 64 (slice n.toNat 64 1) = n.extractLsb' 1 64 := ofNat_slice_toNat n rfl
  have wdata : BitVec.ofNat 64 (slice n.toNat 128 65) = n.extractLsb' 65 64 := ofNat_slice_toNat n rfl
  simp only [decodePort, decodeCache, op, addr, wdata]
  exact ⟨fun h => by rw [h]; exact ⟨rfl, rfl⟩, fun h => by rw [h]; exact ⟨rfl, rfl⟩⟩

/-- The data response as a sum of its fields (R97). -/
theorem rsp_encodeNat_eq (r : Rsp) :
    r.encodeNat = r.addr.toNat + r.shared.toNat * 2 ^ 64 + natLE r.line.toList * 2 ^ 65 := by
  rw [Rsp.encodeNat]; cases r.shared <;> rfl

theorem addr_rsp (r : Rsp) : BitVec.ofNat 64 (slice r.encodeNat 63 0) = r.addr := by
  have field : slice r.encodeNat 63 0 = r.addr.toNat := by rw [rsp_encodeNat_eq, slice_eq]; omega
  rw [field, BitVec.ofNat_toNat, BitVec.setWidth_eq]

theorem shared_rsp (r : Rsp) : slice r.encodeNat 64 64 = r.shared.toNat := by
  have := r.shared.toNat_lt
  rw [rsp_encodeNat_eq, slice_eq]; omega

theorem line_rsp (r : Rsp) : slice r.encodeNat 320 65 = natLE r.line.toList := by
  have := r.shared.toNat_lt
  have := natLE_line_lt r.line
  rw [rsp_encodeNat_eq, slice_eq]; omega

/-- Settles O7: the fields of the sum read back, the line byte by byte. -/
theorem dataResponseRecord : Obligations.DataResponseRecord := by
  intro r
  have line : lineOfBytes (bytesLE 32 (slice r.encodeNat 320 65)) = r.line := by
    rw [line_rsp, lineOfBytes_natLE]
  refine ⟨?width, addr_rsp r, ?shared, ?bytes, ?roundTrip⟩
  case width =>
    have := r.shared.toNat_lt
    have := natLE_line_lt r.line
    rw [rsp_encodeNat_eq]; omega
  case shared => rw [shared_rsp]; cases r.shared <;> rfl
  case bytes =>
    intro i hi
    exact (Machine.lineByte_slice _ 65 (hi := 320) (by omega) hi).symm.trans (by rw [line])
  case roundTrip =>
    have shared : (r.shared.toNat == 1) = r.shared := by cases r.shared <;> rfl
    rw [Rsp.decodeNat, addr_rsp, shared_rsp, shared, line]

/-! ### Sample words -/

/-- Settles O8: each decoder run on the word of the spec. -/
theorem sampleWordsDecode : Obligations.SampleWordsDecode :=
  ⟨rfl, rfl, rfl, rfl, rfl, rfl, rfl, rfl, rfl, rfl⟩

end Sys2Proof
end

section
/-! SUPPORT. The two requests of the shared memory (spec 40_shared_memory.md R121, R122): what a request does to the bytes
and the counters, and what it leaves unchanged. -/

namespace Sys2Proof

/-- The low bit of a SHMCMD record selects the request (R107). -/
theorem slice_zero (n : Nat) : slice n 0 0 = n % 2 := by
  rw [slice_eq, pow_zero, Nat.div_one, Nat.add_sub_cancel_left, pow_one]

theorem decodeShm_of_even {n : Nat} (h : n % 2 = 0) (payload : List Byte) :
    ∃ addr size req, decodeShm n payload = .shmRead addr size req :=
  ⟨_, _, _, if_pos ((slice_zero n).trans h)⟩

theorem decodeShm_of_odd {n : Nat} (h : n % 2 = 1) (payload : List Byte) :
    ∃ addr size req, decodeShm n payload = .shmWrite addr payload size req :=
  ⟨_, _, _, if_neg (by rw [slice_zero, h]; exact one_ne_zero)⟩

namespace Machine

/-! ### Counters (R22) -/

@[simp] theorem Shm.countRead_totalReads (m : Shm) (n : Nat) (r : Option PeId) :
    (m.countRead n r).totalReads = m.totalReads + 1 := by cases r <;> rfl

@[simp] theorem Shm.countRead_totalWrites (m : Shm) (n : Nat) (r : Option PeId) :
    (m.countRead n r).totalWrites = m.totalWrites := by cases r <;> rfl

@[simp] theorem Shm.countWrite_totalReads (m : Shm) (n : Nat) (r : Option PeId) :
    (m.countWrite n r).totalReads = m.totalReads := by cases r <;> rfl

@[simp] theorem Shm.countWrite_totalWrites (m : Shm) (n : Nat) (r : Option PeId) :
    (m.countWrite n r).totalWrites = m.totalWrites + 1 := by cases r <;> rfl

/-- Changing the counters of one PE leaves those of the others. -/
theorem Shm.peCtr_set (m : Shm) (f : ShmPeCounters → ShmPeCounters) (q p : PeId) :
    Shm.peCtr { m with pe := m.pe.set q (f (m.peCtr q)) } p = if some q = some p then f (m.peCtr p) else m.peCtr p := by
  by_cases h : q = p
  · subst h; simp [Shm.peCtr]
  · have ne : q.val ≠ p.val := fun e => h (Fin.ext e)
    simp [Shm.peCtr, h, Vector.getElem_set_ne _ _ ne]

theorem Shm.peCtr_countRead (m : Shm) (n : Nat) (r : Option PeId) (p : PeId) :
    (m.countRead n r).peCtr p =
      if r = some p then
        { m.peCtr p with readOps := (m.peCtr p).readOps + 1, readBytes := (m.peCtr p).readBytes + n }
      else m.peCtr p := by
  cases r with
  | none => rfl
  | some q =>
    exact Shm.peCtr_set { m with totalReads := m.totalReads + 1 }
      (fun c => { c with readOps := c.readOps + 1, readBytes := c.readBytes + n }) q p

theorem Shm.peCtr_countWrite (m : Shm) (n : Nat) (r : Option PeId) (p : PeId) :
    (m.countWrite n r).peCtr p =
      if r = some p then
        { m.peCtr p with writeOps := (m.peCtr p).writeOps + 1, writeBytes := (m.peCtr p).writeBytes + n }
      else m.peCtr p := by
  cases r with
  | none => rfl
  | some q =>
    exact Shm.peCtr_set { m with totalWrites := m.totalWrites + 1 }
      (fun c => { c with writeOps := c.writeOps + 1, writeBytes := c.writeBytes + n }) q p

/-! ### The three outcomes of a write, and its bytes (R122) -/

theorem shmInRange_eq_false {a : Word} {n : Nat} (h : ¬(n ≠ 0 ∧ a.toNat + n ≤ 4096)) : shmInRange a n = false :=
  Bool.eq_false_iff.2 fun inRange => h ((shmInRange_iff a n).1 inRange)

theorem shmWrite_of_outOfRange {a : Word} {n : Nat} (h : shmInRange a n = false) (l : List Byte) (r : Option PeId)
    (m : Shm) : shmWrite a l n r m = (.outOfRange, m) := by
  simp [shmWrite, h]

theorem shmWrite_of_short {a : Word} {n : Nat} (h : shmInRange a n = true) {l : List Byte} (hl : l.length < n)
    (r : Option PeId) (m : Shm) : shmWrite a l n r m = (.shortPayload, m) := by
  simp [shmWrite, h, hl]

theorem shmWrite_of_inRange {a : Word} {n : Nat} (h : shmInRange a n = true) {l : List Byte} (hl : n ≤ l.length)
    (r : Option PeId) (m : Shm) :
    shmWrite a l n r m = (.ok, { m with mem := memWriteBytes m.mem a.toNat (l.take n) }.countWrite n r) := by
  simp [shmWrite, h, Nat.not_lt.2 hl]

/-- The first `n` bytes of a long enough buffer are what lies at `a` after they are written there. -/
theorem memRead_memWriteBytes_take {m : List Host.Cell} (hm : mapSorted m = true) (a : Nat) {l : List Byte} {n : Nat}
    (hl : n ≤ l.length) (x : Nat) :
    memRead (memWriteBytes m a (l.take n)) x = if a ≤ x ∧ x < a + n then l.getD (x - a) 0 else memRead m x := by
  rw [memRead_memWriteBytes hm, List.length_take_of_le hl]
  split
  · next h =>
    have inside : x - a < n := by omega
    simp [List.getD_eq_getElem?_getD, List.getElem?_take_of_lt inside]
  · rfl

/-- Whatever a write answers, a byte outside its range is as before. -/
theorem memRead_shmWrite_of_not_mem {m : Shm} (hm : Memory.wf m.mem = true) {a : Word} {n x : Nat}
    (hx : ¬(a.toNat ≤ x ∧ x < a.toNat + n)) (l : List Byte) (r : Option PeId) :
    memRead (shmWrite a l n r m).2.mem x = memRead m.mem x := by
  rw [shmWrite_mem]
  split
  · next h => rw [memRead_memWriteBytes_take (memory_wf_sorted hm) _ h.2, if_neg hx]
  · rfl

end Machine

open Machine

/-- Settles O36: the range check decides between the two answers of `shmRead`. -/
theorem shmReadResult : Obligations.ShmReadResult := by
  refine ⟨fun n payload h => decodeShm_of_even h payload, fun a n r s =>
    ⟨_, _, _, rfl, rfl, shmRead_mem a n r s.shm, fun range => ?inRange, fun range => ?outOfRange⟩⟩
  case inRange =>
    rw [shmRead_of_inRange ((shmInRange_iff a n).2 range)]
    exact ⟨rfl, memReadBytes_length _ _ _, fun i hi => memReadBytes_getD _ _ _ _ hi, Shm.countRead_totalReads _ _ _,
      Shm.countRead_totalWrites _ _ _, Shm.peCtr_countRead _ _ _⟩
  case outOfRange =>
    rw [shmRead_of_outOfRange (shmInRange_eq_false range)]
    exact ⟨rfl, rfl, rfl⟩

/-- Settles O37: the range check comes first, then the length of the buffer, and only a request that passes both writes. -/
theorem shmWriteResult : Obligations.ShmWriteResult := by
  refine ⟨fun n payload h => decodeShm_of_odd h payload, fun a l n r s hm =>
    ⟨_, _, rfl, rfl, fun range => ?outOfRange, fun range short => ?short, fun range long => ?written⟩⟩
  case outOfRange =>
    rw [shmWrite_of_outOfRange (shmInRange_eq_false range)]
    exact ⟨rfl, rfl⟩
  case short =>
    rw [shmWrite_of_short ((shmInRange_iff a n).2 range) short]
    exact ⟨rfl, rfl⟩
  case written =>
    rw [shmWrite_of_inRange ((shmInRange_iff a n).2 range) long]
    refine ⟨rfl, fun x => ?_, Shm.countWrite_totalWrites _ _ _, Shm.countWrite_totalReads _ _ _,
      Shm.peCtr_countWrite _ _ _⟩
    rw [Shm.countWrite_mem]
    exact memRead_memWriteBytes_take (memory_wf_sorted hm) _ long x

/-- Settles O48: a request answers with the state it found, but for the shared memory and the response. -/
theorem shmRequestFrame : Obligations.ShmRequestFrame := by
  intro a l n r s t h
  have read (h : exec (.shmRead a n r) s = .next t) (x : Nat) : memRead t.shm.mem x = memRead s.shm.mem x := by
    cases h; exact congrArg (memRead · x) (shmRead_mem a n r s.shm)
  rcases h with h | h
  · have mem := read h
    cases h
    exact ⟨rfl, rfl, rfl, rfl, rfl, rfl, rfl, rfl, rfl, rfl, read, fun _ x _ => mem x⟩
  · cases h
    exact ⟨rfl, rfl, rfl, rfl, rfl, rfl, rfl, rfl, rfl, rfl, read,
      fun hm x hx => memRead_shmWrite_of_not_mem hm hx l r⟩

end Sys2Proof
end

section
/-! SUPPORT. What a broadcast leaves of its source, and what a store hit does to its own cache and to the rest (spec
41_cache_controller.md R145 to R149). -/

namespace Sys2Proof.Machine

/-! ### The source of a broadcast (R203) -/

theorem snoopWay_cache_ne {i j : PeId} (h : i ≠ j) (kind : SnoopKind) (a : Word) (w : WayIx) (s : State) :
    (snoopWay j kind a w s).cache i = s.cache i := by
  rcases snoopWay_cases j kind a w s with ⟨e, _⟩ | ⟨_, _, _, e⟩ | ⟨_, _, _, e⟩ | ⟨_, _, _, e⟩ | ⟨_, _, _, e⟩ <;> rw [e] <;>
    simp [downgradeFrame, invalidateFrame, cleanFrame, flushFrame, State.modFrame, State.record, State.count,
      State.cache_modCache_ne _ h]

/-- The source of a broadcast does not snoop it (R203). -/
theorem broadcast_cache_src (src : PeId) (kind : SnoopKind) (a : Word) (s : State) :
    (broadcast src kind a s).cache src = s.cache src :=
  broadcast_induction (fun s t => t.cache src = s.cache src) (fun _ => rfl) (fun _ _ _ h g => g.trans h)
    (fun j s hj => by unfold snoop; rw [snoopWay_cache_ne hj.symm, snoopWay_cache_ne hj.symm]) s

/-! ### A store hit -/

@[simp] theorem makeModified_ctr (k : PeId) (st : SetIx) (w : WayIx) (old : Mesi) (s : State) (j : PeId) :
    ((makeModified k st w old s).cache j).ctr = (s.cache j).ctr := by simp [makeModified]

theorem makeModified_log (k : PeId) (st : SetIx) (w : WayIx) (old : Mesi) (s : State) (j : PeId) :
    ((makeModified k st w old s).cache j).log = if j = k then (s.cache k).log ++ [(old, .M)] else (s.cache j).log := by
  simp [makeModified, State.record_log]

theorem makeModified_transCount (k : PeId) (st : SetIx) (w : WayIx) (old : Mesi) (s : State) (j : PeId) (f t : Mesi) :
    ((makeModified k st w old s).cache j).transCount f t =
      (s.cache j).transCount f t + if j = k ∧ f = old ∧ t = .M then 1 else 0 := by
  simp [makeModified, State.record_transCount]

theorem makeModified_cache_ne {j k : PeId} (h : j ≠ k) (st : SetIx) (w : WayIx) (old : Mesi) (s : State) :
    (makeModified k st w old s).cache j = s.cache j := by
  simp [makeModified, State.modFrame, State.record, State.cache_modCache_ne _ h]

section
variable {k : PeId} {a : Word} {w : WayIx} {s : State}

theorem storeHit_of_M (h : (s.frame k (setOf a) w).state = .M) : storeHit k a w s = s := by rw [storeHit, h]

theorem storeHit_of_E (h : (s.frame k (setOf a) w).state = .E) :
    storeHit k a w s = makeModified k (setOf a) w .E s := by rw [storeHit, h]

theorem storeHit_of_S (h : (s.frame k (setOf a) w).state = .S) :
    storeHit k a w s = makeModified k (setOf a) w .S (emitInvalidate k a (s.count k CacheCounters.upgrade)) := by
  rw [storeHit, h]

/-- What a store hit counts: the upgrade of a shared line (R149). -/
theorem storeHit_ctr (hI : (s.frame k (setOf a) w).state ≠ .I) : ((storeHit k a w s).cache k).ctr =
    { (s.cache k).ctr with
      busUpgr := (s.cache k).ctr.busUpgr + if (s.frame k (setOf a) w).state = .S then 1 else 0 } := by
  cases hst : (s.frame k (setOf a) w).state with
  | I => exact absurd hst hI
  | M => rw [storeHit_of_M hst]; rfl
  | E => rw [storeHit_of_E hst, makeModified_ctr]; rfl
  | S =>
    rw [storeHit_of_S hst, makeModified_ctr, emitInvalidate, broadcast_cache_src, State.count_ctr, if_pos rfl]
    rfl

/-- What a store hit records: that the line enters M, if it was not there (R147 to R149). -/
theorem storeHit_log (hI : (s.frame k (setOf a) w).state ≠ .I) : ((storeHit k a w s).cache k).log = (s.cache k).log ++
    if (s.frame k (setOf a) w).state = .M then [] else [((s.frame k (setOf a) w).state, .M)] := by
  cases hst : (s.frame k (setOf a) w).state with
  | I => exact absurd hst hI
  | M => rw [storeHit_of_M hst, if_pos rfl, List.append_nil]
  | E => rw [storeHit_of_E hst, makeModified_log, if_pos rfl, if_neg nofun]
  | S =>
    rw [storeHit_of_S hst, makeModified_log, if_pos rfl, if_neg nofun, emitInvalidate, broadcast_cache_src,
      State.count_log]

/-- A hit on an exclusive line concerns no peer and no bus (R147, R148). -/
theorem storeHit_of_exclusive (hS : (s.frame k (setOf a) w).state ≠ .S) :
    (∀ j, j ≠ k → (storeHit k a w s).cache j = s.cache j) ∧ (storeHit k a w s).shm = s.shm ∧
      (storeHit k a w s).staging = s.staging := by
  cases hst : (s.frame k (setOf a) w).state with
  | S => exact absurd hst hS
  | M => rw [storeHit_of_M hst]; exact ⟨fun _ _ => rfl, rfl, rfl⟩
  | E => rw [storeHit_of_E hst]; exact ⟨fun j hj => makeModified_cache_ne hj _ w .E s, rfl, rfl⟩
  | I => unfold storeHit; rw [hst]; exact ⟨fun _ _ => rfl, rfl, rfl⟩

end

end Sys2Proof.Machine
end

section
/-! SUPPORT. The books of a cache (spec 41_cache_controller.md R143, R164, R165): what every operation adds to its log, and
that its matrix and its counters rise by what the new entries of the log say. -/

namespace Sys2Proof.Machine

/-! ### What an operation may add to the books -/

/-- Every invalid frame is in I (R290). -/
def InvalidInI (s : State) : Prop := ∀ k st w, (s.frame k st w).valid = false → (s.frame k st w).state = .I

/-- The counters rise from `c` to `d` as the laws of R164 ask while the transitions `l` are recorded. -/
structure Balanced (l : List (Mesi × Mesi)) (c d : CacheCounters) : Prop where
  accesses : d.rwAccesses + (c.loads + c.stores) = c.rwAccesses + (d.loads + d.stores)
  upgrades : d.busUpgr = c.busUpgr + l.count (.S, .M)
  flushes : d.flush = c.flush + (l.count (.M, .E) + l.count (.M, .S) + l.count (.M, .I))
  misses : d.cacheMisses + (c.busRd + c.busRdX) = c.cacheMisses + (d.busRd + d.busRdX)
  invalidations : d.invalidations = c.invalidations + (l.count (.M, .I) + l.count (.E, .I) + l.count (.S, .I))

/-- From `c` to `d` a cache has recorded the loggable transitions `l`, and its matrix has counted them. Its counters have
risen in step if `wf` holds: a Flush tests `valid`, the matrix does not. -/
structure Accounted (wf : Prop) (l : List (Mesi × Mesi)) (c d : Cache) : Prop where
  log : d.log = c.log ++ l
  matrix : ∀ f t, d.transCount f t = c.transCount f t + l.count (f, t)
  pairs : ∀ p ∈ l, loggable p = true
  ctr : wf → Balanced l c.ctr d.ctr

/-- From `s` to `t` invalid frames stay in I, and every cache has kept its books. -/
structure KeepsAccounts (s t : State) : Prop where
  invalid : InvalidInI s → InvalidInI t
  cache : ∀ j, ∃ l, Accounted (InvalidInI s) l (s.cache j) (t.cache j)

theorem Balanced.trans {l m : List (Mesi × Mesi)} {c d e : CacheCounters} (h : Balanced l c d) (g : Balanced m d e) :
    Balanced (l ++ m) c e := by
  obtain ⟨h1, h2, h3, h4, h5⟩ := h
  obtain ⟨g1, g2, g3, g4, g5⟩ := g
  exact ⟨by omega, by simp only [List.count_append]; omega, by simp only [List.count_append]; omega, by omega,
    by simp only [List.count_append]; omega⟩

theorem Accounted.trans {wf wf' : Prop} {l m : List (Mesi × Mesi)} {c d e : Cache} (keeps : wf → wf')
    (h : Accounted wf l c d) (g : Accounted wf' m d e) : Accounted wf (l ++ m) c e where
  log := by rw [g.log, h.log, List.append_assoc]
  matrix f t := by rw [g.matrix, h.matrix, List.count_append, Nat.add_assoc]
  pairs p hp := (List.mem_append.1 hp).elim (h.pairs p) (g.pairs p)
  ctr hw := (h.ctr hw).trans (g.ctr (keeps hw))

/-- A cache that has recorded nothing. -/
theorem accounted_nil {wf : Prop} {c d : Cache} (log : d.log = c.log) (matrix : ∀ f t, d.transCount f t = c.transCount f t)
    (ctr : Balanced [] c.ctr d.ctr) : Accounted wf [] c d :=
  ⟨by rw [log, List.append_nil], fun f t => by rw [matrix]; rfl, nofun, fun _ => ctr⟩

theorem balanced_refl (c : CacheCounters) : Balanced [] c c := ⟨rfl, rfl, rfl, rfl, rfl⟩

theorem accounted_of_eq {wf : Prop} {c d : Cache} (h : d = c) : Accounted wf [] c d := by
  subst h
  exact accounted_nil rfl (fun _ _ => rfl) (balanced_refl _)

theorem KeepsAccounts.trans {s t u : State} (h : KeepsAccounts s t) (g : KeepsAccounts t u) : KeepsAccounts s u := by
  refine ⟨g.invalid ∘ h.invalid, fun j => ?_⟩
  obtain ⟨l, hl⟩ := h.cache j
  obtain ⟨m, hm⟩ := g.cache j
  exact ⟨l ++ m, hl.trans h.invalid hm⟩

theorem keepsAccounts_of_caches {s t : State} (h : t.caches = s.caches) : KeepsAccounts s t := by
  have cache : ∀ j, t.cache j = s.cache j := fun j => by simp only [State.cache, h]
  exact ⟨fun hs k st w => by simpa only [State.frame, cache] using hs k st w, fun j => ⟨[], accounted_of_eq (cache j)⟩⟩

theorem KeepsAccounts.refl (s : State) : KeepsAccounts s s := keepsAccounts_of_caches rfl

/-- An operation that records one transition in cache `j` keeps the books if that cache counts it. -/
theorem keepsAccounts_of_record {s t : State} {j : PeId} {f g : Mesi} (invalid : InvalidInI s → InvalidInI t)
    (log : ∀ i, (t.cache i).log = if i = j then (s.cache j).log ++ [(f, g)] else (s.cache i).log)
    (matrix : ∀ i f' g', (t.cache i).transCount f' g' =
      (s.cache i).transCount f' g' + if i = j ∧ f' = f ∧ g' = g then 1 else 0)
    (pair : loggable (f, g) = true) (others : ∀ i, i ≠ j → (t.cache i).ctr = (s.cache i).ctr)
    (own : InvalidInI s → Balanced [(f, g)] (s.cache j).ctr (t.cache j).ctr) : KeepsAccounts s t := by
  refine ⟨invalid, fun i => ?_⟩
  by_cases hi : i = j
  · subst hi
    refine ⟨[(f, g)], by rw [log, if_pos rfl], fun f' g' => ?_, by simpa using pair, own⟩
    rw [matrix, List.count_singleton]
    simp [eq_comm (a := f), eq_comm (a := g)]
  · refine ⟨[], accounted_nil (by rw [log, if_neg hi]) (fun f' g' => by rw [matrix, if_neg fun h => hi h.1]; rfl) ?_⟩
    rw [others i hi]
    exact balanced_refl _

/-! ### Frames and counters -/

theorem invalidInI_of_frames {s t : State} (h : ∀ k st w, t.frame k st w = s.frame k st w) (hs : InvalidInI s) :
    InvalidInI t := fun k st w => by simpa only [h] using hs k st w

/-- Counting an access or a miss records nothing and keeps the laws among the counters. -/
theorem keepsAccounts_count {f : CacheCounters → CacheCounters} (hf : ∀ c, Balanced [] c (f c)) (k : PeId) (s : State) :
    KeepsAccounts s (s.count k f) := by
  refine ⟨invalidInI_of_frames (by simp), fun j => ⟨[], accounted_nil (by simp) (by simp) ?_⟩⟩
  rw [State.count_ctr]
  split
  · next h => subst h; exact hf _
  · exact balanced_refl _

theorem balanced_load (c : CacheCounters) : Balanced [] c c.load :=
  ⟨by simp only [CacheCounters.load]; omega, rfl, rfl, rfl, rfl⟩

theorem balanced_store (c : CacheCounters) : Balanced [] c c.store :=
  ⟨by simp only [CacheCounters.store]; omega, rfl, rfl, rfl, rfl⟩

theorem balanced_missRd (c : CacheCounters) : Balanced [] c c.missRd :=
  ⟨rfl, rfl, rfl, by simp only [CacheCounters.missRd]; omega, rfl⟩

theorem balanced_missRdX (c : CacheCounters) : Balanced [] c c.missRdX :=
  ⟨rfl, rfl, rfl, by simp only [CacheCounters.missRdX]; omega, rfl⟩

theorem keepsAccounts_touch (k : PeId) (st : SetIx) (w : WayIx) (s : State) : KeepsAccounts s (s.touch k st w) := by
  refine ⟨invalidInI_of_frames (by simp), fun j => ⟨[], accounted_nil (by simp) (by simp) ?_⟩⟩
  rw [State.touch_ctr]
  exact balanced_refl _

theorem keepsAccounts_touchOnStore (k : PeId) (st : SetIx) (w : WayIx) (s : State) :
    KeepsAccounts s (touchOnStore k st w s) := by
  unfold touchOnStore
  split
  · exact keepsAccounts_touch k st w s
  · exact .refl s

/-- Writing a frame's data records nothing. -/
theorem keepsAccounts_writeData (k : PeId) (st : SetIx) (w : WayIx) (f : Line → LineData) (s : State) :
    KeepsAccounts s (s.modFrame k st w fun l => { l with data := f l }) := by
  refine ⟨fun hs j e v => ?_, fun j => ⟨[], accounted_nil (by simp) (by simp) ?_⟩⟩
  · rw [State.frame_modFrame]
    split
    · exact hs k st w
    · exact hs j e v
  · rw [State.modFrame_ctr]
    exact balanced_refl _

/-! ### The interconnect (R151, R154 to R160) -/

/-- A snoop leaves an invalid frame as it is. -/
theorem snoopedLine_of_invalid {l : Line} (h : l.valid = false) (kind : SnoopKind) (a : Word) (st : SetIx) :
    snoopedLine kind a st l = l := by
  simp [snoopedLine, snoopHit, h]

theorem snoopedLine_valid (kind : SnoopKind) (a : Word) (st : SetIx) (l : Line) :
    (snoopedLine kind a st l).valid = l.valid := by
  unfold snoopedLine
  split
  · split <;> rfl
  · rfl

theorem invalidInI_snoopedLine {kind : SnoopKind} {a : Word} {st : SetIx} {l : Line}
    (hl : l.valid = false → l.state = .I) (h : (snoopedLine kind a st l).valid = false) :
    (snoopedLine kind a st l).state = .I := by
  rw [snoopedLine_valid] at h
  rw [snoopedLine_of_invalid h]
  exact hl h

theorem invalidInI_snoopWay (j : PeId) (kind : SnoopKind) (a : Word) (w : WayIx) {s : State} (hs : InvalidInI s) :
    InvalidInI (snoopWay j kind a w s) := by
  intro i st v
  rw [snoopWay_frame]
  split
  · exact invalidInI_snoopedLine (hs i st v)
  · exact hs i st v

theorem keepsAccounts_snoopWay (j : PeId) (kind : SnoopKind) (a : Word) (w : WayIx) (s : State) :
    KeepsAccounts s (snoopWay j kind a w s) := by
  have invalid := invalidInI_snoopWay j kind a w (s := s)
  rcases snoopWay_cases j kind a w s with ⟨e, _⟩ | ⟨_, _, _, e⟩ | ⟨_, _, _, e⟩ | ⟨_, _, _, e⟩ | ⟨_, _, hES, e⟩ <;>
    rw [e] at invalid ⊢
  · exact .refl s
  · refine keepsAccounts_of_record (j := j) (f := .M) (g := .S) invalid (by simp [downgradeFrame_log])
      (by simp [downgradeFrame_transCount]) rfl (fun i hi => by simp [flushFrame_ctr, hi]) fun _ => ?_
    simp only [downgradeFrame_ctr, cleanFrame_ctr, flushFrame_ctr, if_pos]
    exact ⟨rfl, rfl, rfl, rfl, rfl⟩
  · refine keepsAccounts_of_record (j := j) (f := .E) (g := .S) invalid (by simp [downgradeFrame_log])
      (by simp [downgradeFrame_transCount]) rfl (by simp) fun _ => ?_
    rw [downgradeFrame_ctr]
    exact ⟨rfl, rfl, rfl, rfl, rfl⟩
  · refine keepsAccounts_of_record (j := j) (f := .M) (g := .I) invalid (by simp [invalidateFrame_log])
      (by simp [invalidateFrame_transCount]) rfl (fun i hi => by simp [invalidateFrame_ctr, flushFrame_ctr, hi])
      fun _ => ?_
    simp only [invalidateFrame_ctr, cleanFrame_ctr, flushFrame_ctr, if_pos]
    exact ⟨rfl, rfl, rfl, rfl, rfl⟩
  · refine keepsAccounts_of_record invalid (invalidateFrame_log j _ w _ s) (invalidateFrame_transCount j _ w _ s) ?_
      (fun i hi => by simp [invalidateFrame_ctr, hi]) fun _ => ?_
    · rcases hES with h | h <;> rw [h] <;> rfl
    · rw [invalidateFrame_ctr, if_pos rfl]
      rcases hES with h | h <;> rw [h] <;> exact ⟨rfl, rfl, rfl, rfl, rfl⟩

theorem keepsAccounts_broadcast (src : PeId) (kind : SnoopKind) (a : Word) (s : State) :
    KeepsAccounts s (broadcast src kind a s) :=
  broadcast_induction KeepsAccounts .refl (fun _ _ _ => .trans)
    (fun j s _ => (keepsAccounts_snoopWay j kind a 0 s).trans (keepsAccounts_snoopWay j kind a 1 _)) s

/-- With invalid frames in I a frame in M is valid. -/
theorem InvalidInI.valid_and_modified {s : State} (hs : InvalidInI s) (k : PeId) (st : SetIx) (w : WayIx) :
    ((s.frame k st w).valid && (s.frame k st w).state == .M) = ((s.frame k st w).state == .M) := by
  cases hv : (s.frame k st w).valid with
  | true => rfl
  | false => rw [hs k st w hv]; rfl

/-- A response in S or E: the victim is flushed exactly when its state was M, since an invalid frame is in I. -/
theorem keepsAccounts_dataResponse (k : PeId) (a : Word) (line : LineData) (shared : Bool) (s : State) :
    KeepsAccounts s (dataResponse k a line shared s) := by
  unfold dataResponse
  refine keepsAccounts_of_record (fun hs j st w => ?_) (installLine_log k a line _ s) (installLine_transCount k a line _ s)
    ?_ (fun i hi => by rw [installLine_ctr, if_neg fun h => hi h.1]) fun hs => ?_
  · rw [installLine_frame]
    split
    · exact nofun
    · exact hs j st w
  · cases (s.frame k (setOf a) (s.chooseWay k (setOf a))).state <;> cases shared <;> rfl
  · rw [installLine_ctr, hs.valid_and_modified]
    cases (s.frame k (setOf a) (s.chooseWay k (setOf a))).state <;> cases shared <;> simp <;>
      exact ⟨rfl, rfl, rfl, rfl, rfl⟩

theorem keepsAccounts_sourceLine (b : Word) (src : PeId) (s : State) : KeepsAccounts s (sourceLine b src s).2 :=
  keepsAccounts_of_caches (sourceLine_caches b src s)

theorem keepsAccounts_emitBusRd (k : PeId) (a : Word) (s : State) : KeepsAccounts s (emitBusRd k a s) :=
  ((keepsAccounts_broadcast k .read a s).trans (keepsAccounts_sourceLine _ k _)).trans
    (keepsAccounts_dataResponse k a _ _ _)

theorem keepsAccounts_emitBusRdX (k : PeId) (a : Word) (s : State) : KeepsAccounts s (emitBusRdX k a s) :=
  ((keepsAccounts_broadcast k .invalidate a s).trans (keepsAccounts_sourceLine _ k _)).trans
    (keepsAccounts_dataResponse k a _ _ _)

/-! ### A store hit (R147 to R149) -/

/-- A store hit records (E, M) or (S, M), the latter with the upgrade counted, or nothing. -/
theorem keepsAccounts_storeHit {k : PeId} {a : Word} {w : WayIx} {s : State}
    (hit : (s.frame k (setOf a) w).holds (tagOf a) = true) : KeepsAccounts s (storeHit k a w s) := by
  obtain ⟨valid, -, hI⟩ := (Line.holds_iff _ _).1 hit
  have invalid : InvalidInI s → InvalidInI (storeHit k a w s) := by
    intro hs j st v
    rw [storeHit_frame hI]
    split
    · split
      · exact fun h => absurd (valid.symm.trans h) nofun
      · exact hs j st v
    · split
      · exact invalidInI_snoopedLine (hs j st v)
      · exact hs j st v
  cases hst : (s.frame k (setOf a) w).state with
  | M => rw [storeHit_of_M hst]; exact .refl s
  | I => exact absurd hst hI
  | E =>
    rw [storeHit_of_E hst] at invalid ⊢
    refine keepsAccounts_of_record invalid (makeModified_log k _ w .E s) (makeModified_transCount k _ w .E s) rfl
      (by simp) fun _ => ?_
    rw [makeModified_ctr]
    exact ⟨rfl, rfl, rfl, rfl, rfl⟩
  | S =>
    refine ⟨invalid, fun j => ?_⟩
    by_cases hj : j = k
    · subst hj
      refine ⟨[(.S, .M)], by simp [storeHit_log hI, hst], fun f g => ?_, by decide, fun _ => ?_⟩
      · rw [storeHit_of_S hst, makeModified_transCount, emitInvalidate, broadcast_cache_src, State.count_transCount,
          List.count_singleton]
        simp [eq_comm (a := Mesi.S), eq_comm (a := Mesi.M)]
      · rw [storeHit_ctr hI, hst]
        exact ⟨rfl, rfl, rfl, rfl, rfl⟩
    · rw [storeHit_of_S hst, makeModified_cache_ne hj]
      obtain ⟨l, log, matrix, pairs, ctr⟩ :=
        (keepsAccounts_broadcast k .invalidate a (s.count k CacheCounters.upgrade)).cache j
      rw [State.cache_count, if_neg hj] at log matrix ctr
      exact ⟨l, log, matrix, pairs, fun hs => ctr (invalidInI_of_frames (by simp) hs)⟩

/-! ### Attempts (R144, R145) -/

theorem keepsAccounts_cacheLoad {k : PeId} {a : Word} {s t : State} (h : (cacheLoad k a s).state? = some t) :
    KeepsAccounts s t := by
  have counted := keepsAccounts_count balanced_load k s
  rcases cacheLoad_cases k a s with ⟨_, e⟩ | ⟨_, w, _, e⟩ | ⟨_, _, e⟩ <;> rw [e] at h <;> cases h
  · exact counted.trans (keepsAccounts_touch k _ w _)
  · exact (counted.trans (keepsAccounts_count balanced_missRd k _)).trans (keepsAccounts_emitBusRd k a _)

theorem keepsAccounts_cacheStore {k : PeId} {a v : Word} {s t : State} (h : (cacheStore k a v s).state? = some t) :
    KeepsAccounts s t := by
  have counted := keepsAccounts_count balanced_store k s
  rcases cacheStore_cases k a v s with ⟨_, e⟩ | ⟨_, w, hit, e⟩ | ⟨_, _, e⟩ <;> rw [e] at h <;> cases h
  · refine ((counted.trans (keepsAccounts_storeHit ?_)).trans (keepsAccounts_writeData k _ w _ _)).trans
      (keepsAccounts_touchOnStore k _ w _)
    simpa using (lookup_some hit).1
  · exact (counted.trans (keepsAccounts_count balanced_missRdX k _)).trans (keepsAccounts_emitBusRdX k a _)

end Sys2Proof.Machine
end

section
/-! SUPPORT. What an instruction does around the one attempt it makes of its cache: the inversion of a load and of a store,
and of the instructions that touch registers alone. -/

namespace Sys2Proof.Machine

/-! ### What lies around an attempt -/

/-- `t` has the caches, the shared memory, staging and the sticky bit of `s`. -/
structure SameMemory (s t : State) : Prop where
  shm : t.shm = s.shm
  caches : t.caches = s.caches
  staging : t.staging = s.staging
  shmFault : t.shmFault = s.shmFault

/-- What instruction `i` of agent `k` keeps of the rest of the machine: all that is another agent's or the model's own; its
PE but for the destination, pc and step count, and wholly if `i` is no PE instruction; its port's counter `c`; and, if `i` is a
PE instruction, the last response. -/
structure OwnAgent (i : Instr) (c : Port → Nat) (k : PeId) (s t : State) : Prop where
  others : AgentOnly k s t
  pe : i.format ≠ .i32 → t.pe k = s.pe k
  resp : i.format = .i32 → t.resp = s.resp
  regs : ∀ r, destReg i ≠ some r → (t.pe k).reg r = (s.pe k).reg r ∧ (t.pe k).isWritten r = (s.pe k).isWritten r
  program : (t.pe k).program = (s.pe k).program
  maxSteps : (t.pe k).maxSteps = (s.pe k).maxSteps
  halted : (t.pe k).halted = (s.pe k).halted
  started : (t.pe k).started = (s.pe k).started
  counter : c (t.port k) = c (s.port k)

theorem SameMemory.refl (s : State) : SameMemory s s := ⟨rfl, rfl, rfl, rfl⟩

theorem SameMemory.symm {s t : State} (h : SameMemory s t) : SameMemory t s :=
  ⟨h.shm.symm, h.caches.symm, h.staging.symm, h.shmFault.symm⟩

theorem sameMemory_raise (m : FaultMark) (s : State) : SameMemory s (s.raise m) := ⟨by simp, by simp, by simp, by simp⟩

theorem sameMemory_issueLoad (k : PeId) (a : Word) (s : State) : SameMemory s (issueLoad k a s) := by
  unfold issueLoad
  split <;> exact ⟨rfl, rfl, rfl, rfl⟩

theorem sameMemory_issueStore (k : PeId) (a v : Word) (s : State) : SameMemory s (issueStore k a v s) := by
  unfold issueStore
  split <;> exact ⟨rfl, rfl, rfl, rfl⟩

theorem issueLoad_stores (k : PeId) (a : Word) (s : State) : ((issueLoad k a s).port k).stores = (s.port k).stores := by
  unfold issueLoad
  split <;> simp

theorem issueStore_loads (k : PeId) (a v : Word) (s : State) : ((issueStore k a v s).port k).loads = (s.port k).loads := by
  unfold issueStore
  split <;> simp

theorem OwnAgent.trans {i : Instr} {c : Port → Nat} {k : PeId} {s t u : State} (h : OwnAgent i c k s t)
    (g : OwnAgent i c k t u) : OwnAgent i c k s u where
  others := h.others.trans g.others
  pe hi := (g.pe hi).trans (h.pe hi)
  resp hi := (g.resp hi).trans (h.resp hi)
  regs r hr := ⟨(g.regs r hr).1.trans (h.regs r hr).1, (g.regs r hr).2.trans (h.regs r hr).2⟩
  program := g.program.trans h.program
  maxSteps := g.maxSteps.trans h.maxSteps
  halted := g.halted.trans h.halted
  started := g.started.trans h.started
  counter := g.counter.trans h.counter

/-- A change of agent `k`'s port, or of no agent at all. -/
theorem ownAgent_of_memOnly {k : PeId} {s t : State} (h : MemOnly k s t) (i : Instr) {c : Port → Nat}
    (counter : c (t.port k) = c (s.port k)) : OwnAgent i c k s t := by
  have pe : t.pe k = s.pe k := by simp only [State.pe, h.pes]
  exact ⟨agentOnly_of_memOnly h, fun _ => pe, fun _ => h.resp, fun r _ => by rw [pe]; exact ⟨rfl, rfl⟩, by rw [pe],
    by rw [pe], by rw [pe], by rw [pe], counter⟩

theorem ownAgent_raise (i : Instr) (c : Port → Nat) (k : PeId) (m : FaultMark) (s : State) :
    OwnAgent i c k s (s.raise m) :=
  ⟨agentOnly_raise k m s, fun _ => by simp, fun _ => by simp, fun r _ => by simp, by simp, by simp, by simp, by simp,
    by simp⟩

/-- The response of an instruction that is no PE instruction. -/
theorem ownAgent_respond {i : Instr} (hi : i.format ≠ .i32) (c : Port → Nat) (k : PeId) (r : Option Response) (s : State) :
    OwnAgent i c k s { s with resp := r } :=
  ⟨⟨fun _ _ => rfl, fun _ _ => rfl, rfl, rfl, rfl, rfl⟩, fun _ => rfl, fun h => absurd h hi, fun _ _ => ⟨rfl, rfl⟩, rfl, rfl,
    rfl, rfl, rfl⟩

/-- A completed LOAD writes its destination and retires. -/
theorem ownAgent_retireLoad (d a : Reg) (c : Port → Nat) (k : PeId) (v : Word) (s : State) :
    OwnAgent (.load d a) c k s (s.modPe k fun p => (p.setReg d v).retire (p.pc + 1)) := by
  refine ⟨agentOnly_modPe k _ s, fun h => absurd rfl h, fun _ => rfl, fun r hr => ?_, by simp, by simp, by simp, by simp, rfl⟩
  have ne : r ≠ d := fun e => hr (by rw [e]; rfl)
  simp [Pe.reg_setReg, Pe.isWritten_setReg, ne]

/-- A completed STORE retires. -/
theorem ownAgent_retireStore (d a : Reg) (c : Port → Nat) (k : PeId) (s : State) :
    OwnAgent (.store d a) c k s (s.modPe k fun p => p.retire (p.pc + 1)) :=
  ⟨agentOnly_modPe k _ s, fun h => absurd rfl h, fun _ => rfl, fun r _ => by simp, by simp, by simp, by simp, by simp, rfl⟩

/-! ### The attempt itself (R233) -/

/-- A load attempt from `s` that ends in `t`. -/
abbrev LoadAttempt (k : PeId) (a : Word) (s t : State) : Prop := (cacheLoad k a s).state? = some t

/-- A store attempt from `s` that ends in `t`. -/
abbrev StoreAttempt (k : PeId) (a v : Word) (s t : State) : Prop := (cacheStore k a v s).state? = some t

/-- From `s` to `t` instruction `i` of agent `k` makes one attempt, of which `attempt` says where it may end; before and after
it no cache, byte or slot changes, and nothing is raised. -/
structure AttemptStep (i : Instr) (c : Port → Nat) (attempt : State → State → Prop) (k : PeId) (s t : State) : Prop where
  agent : OwnAgent i c k s t
  fault : t.fault = s.fault
  attempt : ∃ u r, SameMemory s u ∧ attempt u r ∧ SameMemory r t

section
variable {i : Instr} {c : Port → Nat} {attempt : State → State → Prop} {k : PeId} {s t : State}

theorem AttemptStep.respond (h : AttemptStep i c attempt k s t) (hi : i.format ≠ .i32) (r : Option Response) :
    AttemptStep i c attempt k s { t with resp := r } := by
  obtain ⟨agent, fault, u, v, before, run, after⟩ := h
  exact ⟨agent.trans (ownAgent_respond hi c k r t), fault, u, v, before, run, after.shm, after.caches, after.staging,
    after.shmFault⟩

theorem AttemptStep.modPe (h : AttemptStep i c attempt k s t) {f : Pe → Pe} (hf : OwnAgent i c k t (t.modPe k f)) :
    AttemptStep i c attempt k s (t.modPe k f) := by
  obtain ⟨agent, fault, u, v, before, run, after⟩ := h
  exact ⟨agent.trans hf, fault, u, v, before, run, after.shm, after.caches, after.staging, after.shmFault⟩

end

/-- An attempt that no port makes (R106). -/
theorem attemptStep_cacheLoad (i : Instr) {k : PeId} {a : Word} {s t : State} (h : LoadAttempt k a s t) :
    AttemptStep i Port.stores (LoadAttempt k a) k s t :=
  have bus := busOnly_cacheLoad h
  ⟨ownAgent_of_memOnly (memOnly_of_busOnly bus k) i (by rw [bus.port]), bus.fault, s, t, .refl s, h, .refl t⟩

theorem attemptStep_cacheStore (i : Instr) {k : PeId} {a v : Word} {s t : State} (h : StoreAttempt k a v s t) :
    AttemptStep i Port.loads (StoreAttempt k a v) k s t :=
  have bus := busOnly_cacheStore h
  ⟨ownAgent_of_memOnly (memOnly_of_busOnly bus k) i (by rw [bus.port]), bus.fault, s, t, .refl s, h, .refl t⟩

theorem attemptStep_portLoad (i : Instr) {k : PeId} {a : Word} {s t : State} (h : (portLoad k a s).state? = some t) :
    AttemptStep i Port.stores (LoadAttempt k a) k s t := by
  have mem := memOnly_portLoad h
  have issued := issueLoad_stores k a s
  have before := sameMemory_issueLoad k a s
  suffices run : ∃ r, LoadAttempt k a (issueLoad k a s) r ∧ SameMemory r t ∧ (t.port k).stores = (r.port k).stores by
    obtain ⟨r, run, after, counter⟩ := run
    exact ⟨ownAgent_of_memOnly mem i (by rw [counter, (busOnly_cacheLoad run).port, issued]), mem.fault, _, r, before, run,
      after⟩
  rw [portLoad_eq] at h
  split at h
  · unfold portLoadAttempt at h
    split at h <;> cases h
    · next v u e => exact ⟨u, by rw [LoadAttempt, e]; rfl, ⟨rfl, rfl, rfl, rfl⟩, by simp⟩
    · next e => exact ⟨t, by rw [LoadAttempt, e]; rfl, .refl t, rfl⟩
  · cases h

theorem attemptStep_portStore (i : Instr) {k : PeId} {a v : Word} {s t : State} (h : (portStore k a v s).state? = some t) :
    AttemptStep i Port.loads (StoreAttempt k a v) k s t := by
  have mem := memOnly_portStore h
  have issued := issueStore_loads k a v s
  have before := sameMemory_issueStore k a v s
  suffices run : ∃ r, StoreAttempt k a v (issueStore k a v s) r ∧ SameMemory r t ∧ (t.port k).loads = (r.port k).loads by
    obtain ⟨r, run, after, counter⟩ := run
    exact ⟨ownAgent_of_memOnly mem i (by rw [counter, (busOnly_cacheStore run).port, issued]), mem.fault, _, r, before, run,
      after⟩
  rw [portStore_eq] at h
  split at h
  · unfold portStoreAttempt at h
    split at h <;> cases h
    · next u e => exact ⟨u, by rw [StoreAttempt, e]; rfl, ⟨rfl, rfl, rfl, rfl⟩, by simp⟩
    · next e => exact ⟨t, by rw [StoreAttempt, e]; rfl, .refl t, rfl⟩
  · cases h

/-! ### The instructions -/

/-- What an access of the agent in turn that answers the next state `t` has done: raised and nothing else, or made its
attempt. -/
def AccessStep (i : Instr) (c : Port → Nat) (attempt : State → State → Prop) (s t : State) : Prop :=
  (∃ m, t = s.raise m) ∨ AttemptStep i c attempt s.turn s t

theorem exec_load_step {i : Instr} {s t : State} {a : Word} (hi : loadAddr i s = some a) (h : exec i s = .next t) :
    AccessStep i Port.stores (LoadAttempt s.turn a) s t := by
  cases i with
  | load d r =>
    cases hi
    rcases withRegs_cases s.turn [r] s _ with ⟨-, e⟩ | ⟨r', -, -, e⟩ <;> replace h := e.symm.trans h
    · split at h <;> cases h
      · next v u e => exact .inr ((attemptStep_portLoad _ (by rw [e]; rfl)).modPe (ownAgent_retireLoad d r _ _ v u))
      · next e => exact .inr (attemptStep_portLoad _ (by rw [e]; rfl))
      · exact .inl ⟨_, rfl⟩
    · cases h; exact .inl ⟨_, rfl⟩
  | load64 b =>
    cases hi
    change execLoad64 a s = .next t at h
    unfold execLoad64 at h
    split at h <;> cases h
    · next e => exact .inr ((attemptStep_portLoad (.load64 a) (by rw [e]; rfl)).respond nofun _)
    · next e => exact .inr (attemptStep_portLoad _ (by rw [e]; rfl))
    · exact .inl ⟨_, rfl⟩
  | cacheLoad b =>
    cases hi
    change execCacheLoad a s = .next t at h
    unfold execCacheLoad at h
    split at h <;> cases h
    · next e => exact .inr ((attemptStep_cacheLoad (.cacheLoad a) (by rw [LoadAttempt, e]; rfl)).respond nofun _)
    · next e => exact .inr ((attemptStep_cacheLoad (.cacheLoad a) (by rw [LoadAttempt, e]; rfl)).respond nofun _)
    · exact .inl ⟨_, rfl⟩
  | _ => cases hi

theorem exec_store_step {i : Instr} {s t : State} {a v : Word} (hi : storeOf i s = some (a, v))
    (h : exec i s = .next t) : AccessStep i Port.loads (StoreAttempt s.turn a v) s t := by
  cases i with
  | store d r =>
    cases hi
    rcases withRegs_cases s.turn [r, d] s _ with ⟨-, e⟩ | ⟨r', -, -, e⟩ <;> replace h := e.symm.trans h
    · split at h <;> cases h
      · next v u e => exact .inr ((attemptStep_portStore _ (by rw [e]; rfl)).modPe (ownAgent_retireStore d r _ _ u))
      · next e => exact .inr (attemptStep_portStore _ (by rw [e]; rfl))
      · exact .inl ⟨_, rfl⟩
    · cases h; exact .inl ⟨_, rfl⟩
  | store64 b x =>
    cases hi
    change execStore64 a v s = .next t at h
    unfold execStore64 at h
    split at h <;> cases h
    · next e => exact .inr ((attemptStep_portStore (.store64 a v) (by rw [e]; rfl)).respond nofun _)
    · next e => exact .inr (attemptStep_portStore _ (by rw [e]; rfl))
    · exact .inl ⟨_, rfl⟩
  | cacheStore b x =>
    cases hi
    change execCacheStore a v s = .next t at h
    unfold execCacheStore at h
    split at h <;> cases h
    · next e => exact .inr ((attemptStep_cacheStore (.cacheStore a v) (by rw [StoreAttempt, e]; rfl)).respond nofun _)
    · next e => exact .inr ((attemptStep_cacheStore (.cacheStore a v) (by rw [StoreAttempt, e]; rfl)).respond nofun _)
    · exact .inl ⟨_, rfl⟩
  | _ => cases hi

/-- A register instruction changes its PE, or raises; nothing else. -/
theorem exec_registerOnly_cases {i : Instr} {s t : State} (hi : registerOnly i = true) (h : exec i s = .next t) :
    (∃ f, t = s.modPe s.turn f) ∨ ∃ m, t = s.raise m := by
  have reads : ∀ {rs run}, withRegs s.turn rs s run = .next t →
      (run = .next t → (∃ f, t = s.modPe s.turn f) ∨ ∃ m, t = s.raise m) →
      (∃ f, t = s.modPe s.turn f) ∨ ∃ m, t = s.raise m := by
    intro rs run e hrun
    rcases withRegs_cases s.turn rs s run with ⟨-, e'⟩ | ⟨r, -, -, e'⟩ <;> rw [e'] at e
    · exact hrun e
    · cases e; exact .inr ⟨_, rfl⟩
  have finishes : ∀ {d v}, finishReg s.turn d v s = .next t →
      (∃ f, t = s.modPe s.turn f) ∨ ∃ m, t = s.raise m := by
    intro d v e; cases e; exact .inl ⟨_, rfl⟩
  cases i with
  | fmul d a b => exact reads h finishes
  | fadd d a b => exact reads h finishes
  | inc d => exact reads h finishes
  | dec d => exact reads h finishes
  | jnz d imm => exact reads h fun e => by cases e; exact .inl ⟨_, rfl⟩
  | lea d a b imm =>
    refine reads h fun e => ?_
    split at e
    · exact finishes e
    · cases e; exact .inr ⟨_, rfl⟩
  | halt => cases h; exact .inl ⟨_, rfl⟩
  | _ => cases hi

end Sys2Proof.Machine
end

section
/-! SUPPORT. Every step of the machine keeps the books of every cache (R164, R165). -/

namespace Sys2Proof.Machine

theorem keepsAccounts_access {i : Instr} {c : Port → Nat} {attempt : State → State → Prop} {s t : State}
    (keeps : ∀ {u r}, attempt u r → KeepsAccounts u r) (h : AccessStep i c attempt s t) : KeepsAccounts s t := by
  rcases h with ⟨m, rfl⟩ | ⟨-, -, u, r, before, run, after⟩
  · exact keepsAccounts_of_caches (by simp)
  · exact ((keepsAccounts_of_caches before.caches).trans (keeps run)).trans (keepsAccounts_of_caches after.caches)

theorem keepsAccounts_registerOnly {i : Instr} {s t : State} (hi : registerOnly i = true) (h : exec i s = .next t) :
    KeepsAccounts s t := by
  rcases exec_registerOnly_cases hi h with ⟨f, rfl⟩ | ⟨m, rfl⟩
  · exact keepsAccounts_of_caches rfl
  · exact keepsAccounts_of_caches (by simp)

theorem keepsAccounts_exec {i : Instr} {s t : State} (h : exec i s = .next t) : KeepsAccounts s t := by
  cases i with
  | load d a => exact keepsAccounts_access keepsAccounts_cacheLoad (exec_load_step rfl h)
  | load64 a => exact keepsAccounts_access keepsAccounts_cacheLoad (exec_load_step rfl h)
  | cacheLoad a => exact keepsAccounts_access keepsAccounts_cacheLoad (exec_load_step rfl h)
  | store d a => exact keepsAccounts_access keepsAccounts_cacheStore (exec_store_step rfl h)
  | store64 a v => exact keepsAccounts_access keepsAccounts_cacheStore (exec_store_step rfl h)
  | cacheStore a v => exact keepsAccounts_access keepsAccounts_cacheStore (exec_store_step rfl h)
  | busRd src a => cases h; exact keepsAccounts_emitBusRd src a s
  | busRdX src a => cases h; exact keepsAccounts_emitBusRdX src a s
  | busUpgr src a => cases h; exact keepsAccounts_broadcast src .invalidate a s
  | inv src a => cases h; exact keepsAccounts_broadcast src .invalidate a s
  | flush | shmRead | shmWrite => cases h; exact keepsAccounts_of_caches rfl
  | fmul | fadd | inc | dec | jnz | lea | halt => exact keepsAccounts_registerOnly rfl h

theorem keepsAccounts_step {s t : State} (h : step s = .next t) : KeepsAccounts s t := by
  have turned : ∀ k, KeepsAccounts s { s with turn := k } := fun _ => keepsAccounts_of_caches rfl
  obtain ⟨-, ⟨c, rest, i, u, -, -, -, hu, rfl⟩ | ⟨k, -, -, -, -, rfl⟩ | ⟨k, i, u, -, -, -, -, hu, rfl⟩⟩ := step_cases h
  · exact ((turned c.port).trans (keepsAccounts_exec hu)).trans (keepsAccounts_of_caches (t := afterCmd s c rest u) rfl)
  · exact keepsAccounts_of_caches rfl
  · exact ((turned k).trans (keepsAccounts_exec hu)).trans (keepsAccounts_of_caches (t := u.reschedule) rfl)

theorem Accounted.counterLaws {wf : Prop} {l : List (Mesi × Mesi)} {c d : Cache} (h : Accounted wf l c d) (hw : wf)
    (hc : CounterLaws c) : CounterLaws d := by
  obtain ⟨accesses, upgrades, flushes, misses, invalidations⟩ := hc
  obtain ⟨accesses', upgrades', flushes', misses', invalidations'⟩ := h.ctr hw
  exact ⟨by omega, by rw [h.matrix]; omega, by simp only [h.matrix]; omega, by omega, by simp only [h.matrix]; omega⟩

theorem Accounted.logLaws {wf : Prop} {l : List (Mesi × Mesi)} {c d : Cache} (h : Accounted wf l c d) (hc : LogLaws c) :
    LogLaws d where
  counts f t := by rw [h.matrix, h.log, hc.counts, List.count_append]
  pairs p hp := by
    rw [h.log] at hp
    exact (List.mem_append.1 hp).elim (hc.pairs p) (h.pairs p)

/-- Settles O52: whatever a step does, each cache's log grows by loggable pairs, its matrix counts them, and its counters rise
by what R164 says of them. -/
theorem counterAndLogLawsAreKept : Obligations.CounterAndLogLawsAreKept := by
  refine ⟨fun s t invalid laws h => ⟨(keepsAccounts_step h).invalid invalid, fun k => ?_⟩, fun s t laws h k => ?_⟩
  · obtain ⟨l, accounted⟩ := (keepsAccounts_step h).cache k
    exact accounted.counterLaws invalid (laws k)
  · obtain ⟨l, accounted⟩ := (keepsAccounts_step h).cache k
    exact accounted.logLaws (laws k)

end Sys2Proof.Machine
end

section
/-! SUPPORT. The snoop table and the installation of a line, row by row (spec 41_cache_controller.md R151 to R160). -/

namespace Sys2Proof.Machine

/-! ### What a Flush leaves behind (R196) -/

theorem mapFind_handleFlush (k : PeId) (a : Word) (p : LineData) (s : State) :
    mapFind (baseOf a).toNat (handleFlush k a p s).staging = some p := by
  rw [handleFlush_staging, mapFind_mapInsert, if_pos rfl]

theorem memRead_handleFlush_of_backed {s : State} (hm : Memory.wf s.shm.mem = true) {a : Word} (hb : backed (baseOf a))
    (k : PeId) (p : LineData) (x : Nat) : memRead (handleFlush k a p s).shm.mem x =
      if inLine x (baseOf a).toNat then lineByte p (x - (baseOf a).toNat) else memRead s.shm.mem x := by
  rw [memRead_handleFlush (memory_wf_sorted hm)]
  exact if_congr (and_iff_right hb) rfl rfl

/-! ### The rows of the table (R154 to R160) -/

section
variable {j : PeId} {a : Word} {w : WayIx} {s : State}

theorem snoopWay_of_no_match (h : ¬((s.frame j (setOf a) w).valid = true ∧ (s.frame j (setOf a) w).tag = tagOf a))
    (kind : SnoopKind) : snoopWay j kind a w s = s := by
  unfold snoopWay
  exact if_neg (by simpa using h)

variable (valid : (s.frame j (setOf a) w).valid = true) (tag : (s.frame j (setOf a) w).tag = tagOf a)
include valid tag

/-- A frame that matches gets its row of the table. -/
theorem snoopWay_of_match (kind : SnoopKind) :
    snoopWay j kind a w s = snoopRow j kind (setOf a) w (s.frame j (setOf a) w) s := by
  unfold snoopWay
  exact if_pos (by simp [valid, tag])

/-- The Flush of a row for M: the line is in its slot, and in the shared memory if that backs it. -/
theorem flushed_of_match (modified : (s.frame j (setOf a) w).state = .M) (kind : SnoopKind) :
    ((snoopWay j kind a w s).cache j).ctr.flush = (s.cache j).ctr.flush + 1 ∧
      mapFind (baseOf a).toNat (snoopWay j kind a w s).staging = some (s.frame j (setOf a) w).data ∧
      (Memory.wf s.shm.mem = true → backed (baseOf a) → ∀ i < 32,
        memRead (snoopWay j kind a w s).shm.mem ((baseOf a).toNat + i) = lineByte (s.frame j (setOf a) w).data i) := by
  have holds := (Line.holds_iff (s.frame j (setOf a) w) (tagOf a)).2 ⟨valid, tag, by simp [modified]⟩
  obtain ⟨shm, staging, -⟩ := snoopWay_bus_of_dirty (kind := kind) holds modified
  refine ⟨?_, by rw [staging, mapFind_handleFlush], fun hm hb i hi => ?_⟩
  · rw [snoopWay_of_match valid tag]
    cases kind <;> simp [snoopRow, modified, flushFrame_ctr, invalidateFrame_ctr]
  · rw [shm, memRead_handleFlush_of_backed hm hb, if_pos ⟨by omega, by omega⟩, Nat.add_sub_cancel_left]

end

/-- Settles O42: a frame that matches gets its row of the table, and each row says what it flushes, records and counts. -/
theorem snoopTableRows : Obligations.SnoopTableRows := by
  intro j a w s
  refine ⟨snoopWay_of_no_match, fun valid tag => ?_⟩
  have row := snoopWay_of_match valid tag
  have flushed := flushed_of_match valid tag
  have hit : snoopHit a (setOf a) (s.frame j (setOf a) w) = true := (snoopHit_iff _ _ _).2 ⟨rfl, valid, tag⟩
  refine ⟨fun hI kind => ?inI, fun hS => ?readS, fun hE => ?readE, fun hM => ?readM, fun hES => ?invalidateES,
    fun hM => ?invalidateM⟩
  case inI => rw [row]; cases kind <;> simp [snoopRow, hI]
  case readS => rw [row]; simp [snoopRow, hS]
  case readE =>
    refine ⟨by simp [snoopWay_frame, snoopedLine, hit, hE], ?_⟩
    rw [row]
    simp [snoopRow, hE, downgradeFrame_log]
  case readM =>
    refine ⟨by simp [snoopWay_frame, snoopedLine, hit, hM], ?_, ?_, flushed hM .read⟩ <;> rw [row] <;>
      simp [snoopRow, hM, downgradeFrame_log, flushFrame_ctr]
  case invalidateES =>
    rcases hES with h | h <;> refine ⟨by simp [snoopWay_frame, snoopedLine, hit, h], ?_⟩ <;> rw [row] <;>
      simp [snoopRow, h, invalidateFrame_log, invalidateFrame_ctr]
  case invalidateM =>
    refine ⟨by simp [snoopWay_frame, snoopedLine, hit, hM], ?_, ?_, flushed hM .invalidate⟩ <;> rw [row] <;>
      simp [snoopRow, hM, invalidateFrame_log, invalidateFrame_ctr, flushFrame_ctr]

/-! ### Installing a line (R151 to R153) -/

theorem Line.free_iff (l : Line) : l.free = true ↔ l.valid = false ∨ l.state = .I := by simp [Line.free]

theorem Line.not_free_of_live {l : Line} (h : l.live = true) : ¬l.free = true := by
  obtain ⟨valid, state⟩ := l.live_iff.1 h
  simp [Line.free_iff, valid, state]

/-- Settles O43: what an installation writes, records and counts, and that it flushes a dirty victim to the victim's own base. -/
theorem installLineChoosesAndEvicts : Obligations.InstallLineChoosesAndEvicts := by
  intro k a line new s
  refine ⟨fun h0 => if_pos ((Line.free_iff _).2 h0),
    fun h0 h1 => (if_neg (Line.not_free_of_live h0)).trans (if_pos ((Line.free_iff _).2 h1)),
    fun h0 h1 => (if_neg (Line.not_free_of_live h0)).trans (if_neg (Line.not_free_of_live h1)),
    by rw [installLine_frame, if_pos ⟨rfl, rfl, rfl⟩]; rfl, fun j r v h => by rw [installLine_frame, if_neg h],
    by rw [installLine_lru, if_pos ⟨rfl, rfl⟩], by rw [installLine_log, if_pos rfl],
    fun f g => by simp [installLine_transCount], ?_, fun clean => ?_, fun valid modified => ?_⟩
  · rw [installLine_ctr]
    split <;> rfl
  · obtain ⟨shm, staging, -⟩ := installLine_bus_of_clean clean line new
    refine ⟨shm, staging, ?_⟩
    rw [installLine_ctr, if_neg (by simpa using clean)]
  · obtain ⟨shm, staging, -⟩ := installLine_bus_of_dirty ⟨valid, modified⟩ line new
    have own : baseOf (victimBase s k a) = victimBase s k a := by simp [victimBase]
    refine ⟨by simp [installLine_ctr, valid, modified], ?_, fun hm hb x => ?_⟩
    · rw [staging, mapFind_mapInsert]
      exact if_pos rfl
    · rw [shm, memRead_handleFlush_of_backed hm (by rwa [own]), own]
      rfl

end Sys2Proof.Machine
end

section
/-! SUPPORT. One attempt of a cache as the cache commands make it (spec 41_cache_controller.md R144 to R149). -/

namespace Sys2Proof.Machine

/-! ### Hit and miss -/

section
variable {k : PeId} {a : Word} {w : WayIx} {s : State} (ho : off a ≤ 24)
include ho

theorem cacheLoad_eq_of_hit (h : s.lookup k a = some w) : cacheLoad k a s =
    .done (lineWord (s.frame k (setOf a) w).data (off a)) ((s.count k CacheCounters.load).touch k (setOf a) w) := by
  rcases cacheLoad_cases k a s with ⟨cross, _⟩ | ⟨_, u, hu, e⟩ | ⟨_, miss, _⟩
  · omega
  · cases hu.symm.trans h; exact e
  · cases miss.symm.trans h

theorem cacheLoad_eq_of_miss (h : s.lookup k a = none) : cacheLoad k a s =
    .retry (emitBusRd k a ((s.count k CacheCounters.load).count k CacheCounters.missRd)) := by
  rcases cacheLoad_cases k a s with ⟨cross, _⟩ | ⟨_, u, hu, _⟩ | ⟨_, _, e⟩
  · omega
  · cases hu.symm.trans h
  · exact e

theorem cacheStore_eq_of_miss (v : Word) (h : s.lookup k a = none) : cacheStore k a v s =
    .retry (emitBusRdX k a ((s.count k CacheCounters.store).count k CacheCounters.missRdX)) := by
  rcases cacheStore_cases k a v s with ⟨cross, _⟩ | ⟨_, u, hu, _⟩ | ⟨_, _, e⟩
  · omega
  · cases hu.symm.trans h
  · exact e

theorem cacheStore_eq_of_hit (v : Word) (h : s.lookup k a = some w) : cacheStore k a v s =
    .done () (touchOnStore k (setOf a) w ((storeHit k a w (s.count k CacheCounters.store)).modFrame k (setOf a) w
      fun l => { l with data := lineStore l.data (off a) v })) := by
  rcases cacheStore_cases k a v s with ⟨cross, _⟩ | ⟨_, u, hu, e⟩ | ⟨_, miss, _⟩
  · omega
  · cases hu.symm.trans h; exact e
  · cases miss.symm.trans h

end

/-- Two counts of one cache are one. -/
theorem State.count_count (s : State) (k : PeId) (f g : CacheCounters → CacheCounters) :
    (s.count k f).count k g = s.count k fun c => g (f c) := by
  simp [State.count, State.modCache, State.cache]

theorem exec_cacheLoad_of_done {a v : Word} {s t : State} (e : cacheLoad s.turn a s = .done v t) :
    exec (.cacheLoad a) s = .next { t with resp := some (.cache true (some v)) } := by
  show execCacheLoad a s = _
  rw [execCacheLoad, e]

theorem exec_cacheLoad_of_retry {a : Word} {s t : State} (e : cacheLoad s.turn a s = .retry t) :
    exec (.cacheLoad a) s = .next { t with resp := some (.cache false none) } := by
  show execCacheLoad a s = _
  rw [execCacheLoad, e]

theorem exec_cacheStore_of_done {a v : Word} {s t : State} (e : cacheStore s.turn a v s = .done () t) :
    exec (.cacheStore a v) s = .next { t with resp := some (.cache true none) } := by
  show execCacheStore a v s = _
  rw [execCacheStore, e]

theorem exec_cacheStore_of_retry {a v : Word} {s t : State} (e : cacheStore s.turn a v s = .retry t) :
    exec (.cacheStore a v) s = .next { t with resp := some (.cache false none) } := by
  show execCacheStore a v s = _
  rw [execCacheStore, e]

/-- Settles O32: the three ways a load attempt ends. -/
theorem cacheLoadAttempt : Obligations.CacheLoadAttempt := by
  intro a s
  refine ⟨fun cross => ?_, fun w ho hit => ?_, fun ho miss => ?_⟩
  · exact lineCrossIsRaised _ _ _ (.inl rfl) nofun trivial cross
  · refine ⟨_, _, exec_cacheLoad_of_done (cacheLoad_eq_of_hit ho hit), rfl, bytes64_lineWord _ _,
      ?_, ?_, fun j st v => ?_, fun j hj => ?_, rfl, rfl⟩
    · show (((s.count s.turn CacheCounters.load).touch s.turn (setOf a) w).cache s.turn).ctr = _
      rw [State.touch_ctr, State.count_ctr, if_pos rfl]
      rfl
    · show ((((s.count s.turn CacheCounters.load).touch s.turn (setOf a) w).cache s.turn).cset (setOf a)).lru = _
      rw [State.lru_touch, if_pos ⟨rfl, rfl⟩]
    · show ((s.count s.turn CacheCounters.load).touch s.turn (setOf a) w).frame j st v = _
      rw [State.touch_frame, State.count_frame]
    · show ((s.count s.turn CacheCounters.load).touch s.turn (setOf a) w).cache j = _
      rw [State.touch, State.cache_modCache_ne _ hj, State.cache_count, if_neg hj]
  · refine ⟨_, _, exec_cacheLoad_of_retry (cacheLoad_eq_of_miss ho miss), rfl, ?_⟩
    rw [State.count_count]
    rfl

/-! ### A store hit (R145 to R149) -/

section
variable {k : PeId} {a : Word} {w : WayIx} {s : State}

/-- What a completed store does to the cache and the bus (R145, R142). -/
theorem cacheStore_done_cache {v : Word} {t : State} (h : s.lookup k a = some w) (e : cacheStore k a v s = .done () t) :
    ((t.cache k).cset (setOf a)).lru = 1 - w ∧
    (t.cache k).ctr =
      { (s.cache k).ctr with
        stores := (s.cache k).ctr.stores + 1, rwAccesses := (s.cache k).ctr.rwAccesses + 1,
        busUpgr := (s.cache k).ctr.busUpgr + if (s.frame k (setOf a) w).state = .S then 1 else 0 } ∧
    (t.cache k).log = (s.cache k).log ++
      (if (s.frame k (setOf a) w).state = .M then [] else [((s.frame k (setOf a) w).state, .M)]) ∧
    ((s.frame k (setOf a) w).state ≠ .S →
      (∀ j, j ≠ k → t.cache j = s.cache j) ∧ t.shm = s.shm ∧ t.staging = s.staging) := by
  have hI := ((Line.holds_iff _ _).1 (lookup_some h).1).2.2
  obtain ⟨ho, -⟩ := hit_of_cacheStore_done e
  cases (cacheStore_eq_of_hit ho v h).symm.trans e
  have hI' : ((s.count k CacheCounters.store).frame k (setOf a) w).state ≠ .I := by simpa using hI
  simp only [touchOnStore, Config.storeHitTouchesLru, if_true]
  refine ⟨by rw [State.lru_touch, if_pos ⟨rfl, rfl⟩], ?_, ?_, fun hS => ?_⟩
  · rw [State.touch_ctr, State.modFrame_ctr, storeHit_ctr hI', State.count_ctr, if_pos rfl, State.count_frame]
    rfl
  · rw [State.touch_log, State.modFrame_log, storeHit_log hI', State.count_log, State.count_frame]
  · obtain ⟨caches, shm, staging⟩ := storeHit_of_exclusive (w := w) (s := s.count k CacheCounters.store) (by simpa using hS)
    refine ⟨fun j hj => ?_, shm, staging⟩
    rw [State.touch, State.cache_modCache_ne _ hj, State.modFrame, State.cache_modCache_ne _ hj, caches j hj,
      State.cache_count, if_neg hj]

end

/-- Settles O33: the three ways a store attempt ends; a hit leaves the stored line in its frame. -/
theorem cacheStoreAttempt : Obligations.CacheStoreAttempt := by
  intro a v s
  refine ⟨fun cross => ?_, fun w ho hit => ?_, fun ho miss => ?_⟩
  · exact lineCrossIsRaised _ _ _ (.inr ⟨v, rfl⟩) nofun trivial cross
  · obtain ⟨valid, tag, -⟩ := (Line.holds_iff _ _).1 (lookup_some hit).1
    obtain ⟨t, e⟩ := cacheStore_of_hit (k := s.turn) v ho (by rw [hit]; nofun)
    obtain ⟨lru, ctr, log, exclusive⟩ := cacheStore_done_cache hit e
    have answered := (sameData_respond (some (.cache true none)) t).frame
    have frame := fun j st u => (answered j st u).trans (cacheStore_done_frame hit e j st u)
    have own : State.frame { t with resp := some (.cache true none) } s.turn (setOf a) w =
        storedLine (s.frame s.turn (setOf a) w) a v := by rw [frame, if_pos rfl, if_pos ⟨rfl, rfl⟩]
    refine ⟨_, exec_cacheStore_of_done e, rfl, by rw [own]; rfl, by rw [own]; exact valid, by rw [own]; rfl,
      by rw [own]; rfl, fun i hi => ?_, fun st u other => ?_, lru, ctr, log, fun j hj st u => ?_, exclusive⟩
    · rw [own]; exact lineByte_lineStore _ _ _ hi
    · rw [frame, if_pos rfl, if_neg other]
    · rw [frame, if_neg hj]
  · refine ⟨_, _, exec_cacheStore_of_retry (cacheStore_eq_of_miss ho v miss), rfl, ?_⟩
    rw [State.count_count]
    rfl

end Sys2Proof.Machine
end

section
/-! SUPPORT. The frame of one attempt of a cache, and so of a load or store instruction (spec 41_cache_controller.md R144, R145,
R155 to R159): the frames, bytes and slots it leaves alone. -/

namespace Sys2Proof.Machine

/-! ### Bytes that no Flush of a bus read writes (R153, R155, R158) -/

theorem memRead_broadcast {src : PeId} {kind : SnoopKind} {a : Word} {s : State} {x : Nat}
    (sorted : mapSorted s.shm.mem = true) (h : ¬flushedByInvalidate s src a x) :
    memRead (broadcast src kind a s).shm.mem x = memRead s.shm.mem x := by
  by_cases inside : inLine x (baseOf a).toNat
  · have clean : ∀ j, j ≠ src → noDirtyHit s j a := fun j hj w holds modified =>
      h ⟨inside, j, w, hj, holds, modified⟩
    rw [(broadcast_bus_of_clean clean).1]
  · exact (outsideLine_broadcast src kind a s).mem sorted x inside

theorem memRead_installLine {k : PeId} {a : Word} {line : LineData} {new : Mesi} {s : State} {x : Nat}
    (sorted : mapSorted s.shm.mem = true) (h : ¬(inLine x (victimBase s k a).toNat ∧ evictsDirty s k a)) :
    memRead (installLine k a line new s).shm.mem x = memRead s.shm.mem x := by
  by_cases dirty : evictsDirty s k a
  · exact (outsideLine_installLine k a line new s).mem sorted x fun inside => h ⟨inside, dirty⟩
  · rw [(installLine_bus_of_clean dirty line new).1]

theorem evictsDirty_beforeInstall (src : PeId) (kind : SnoopKind) (a b : Word) (s : State) :
    evictsDirty (sourceLine b src (broadcast src kind a s)).2 src a ↔ evictsDirty s src a := by
  rw [evictsDirty, chooseWay_beforeInstall, sourceLine_frame, broadcast_frame, if_pos rfl]

/-- The bytes after a line has been snooped for, sourced and installed. -/
theorem memRead_fill {src : PeId} {kind : SnoopKind} {a : Word} {line : LineData} {new : Mesi} {s : State} {x : Nat}
    (sorted : mapSorted s.shm.mem = true) (h : ¬flushedByRead s src a x) :
    memRead (installLine src a line new (sourceLine (baseOf a) src (broadcast src kind a s)).2).shm.mem x =
      memRead s.shm.mem x := by
  obtain ⟨unsnooped, unevicted⟩ := not_or.1 h
  have snooped := (outsideLine_broadcast src kind a s).memSorted sorted
  rw [memRead_installLine (by rwa [sourceLine_mem]), sourceLine_mem, memRead_broadcast sorted unsnooped]
  rwa [victimBase_beforeInstall, evictsDirty_beforeInstall]

theorem flushedByInvalidate_count (s : State) (k j : PeId) (f : CacheCounters → CacheCounters) (a : Word) (x : Nat) :
    flushedByInvalidate (s.count k f) j a x ↔ flushedByInvalidate s j a x := by
  simp only [flushedByInvalidate, dirtyPeer, State.count_frame]

theorem flushedByRead_count (s : State) (k j : PeId) (f : CacheCounters → CacheCounters) (a : Word) (x : Nat) :
    flushedByRead (s.count k f) j a x ↔ flushedByRead s j a x := by
  simp only [flushedByRead, dirtyPeer, evictsDirty, State.count_frame, chooseWay_count, victimBase_count]

theorem memRead_cacheLoad {k : PeId} {a : Word} {s t : State} {x : Nat} (h : LoadAttempt k a s t)
    (sorted : mapSorted s.shm.mem = true) (unflushed : ¬flushedByRead s k a x) :
    memRead t.shm.mem x = memRead s.shm.mem x := by
  unfold LoadAttempt at h
  rcases cacheLoad_cases k a s with ⟨_, e⟩ | ⟨_, w, _, e⟩ | ⟨_, _, e⟩ <;> rw [e] at h <;> cases h
  · rfl
  · exact memRead_fill sorted (by rwa [flushedByRead_count, flushedByRead_count])

theorem memRead_storeHit {k : PeId} {a : Word} {w : WayIx} {s : State} {x : Nat} (sorted : mapSorted s.shm.mem = true)
    (unflushed : ¬flushedByInvalidate s k a x) : memRead (storeHit k a w s).shm.mem x = memRead s.shm.mem x := by
  by_cases shared : (s.frame k (setOf a) w).state = .S
  · rw [storeHit_of_S shared]
    exact memRead_broadcast (s := s.count k CacheCounters.upgrade) sorted (by rwa [flushedByInvalidate_count])
  · rw [(storeHit_of_exclusive shared).2.1]

theorem memRead_cacheStore {k : PeId} {a v : Word} {s t : State} {x : Nat} (h : StoreAttempt k a v s t)
    (sorted : mapSorted s.shm.mem = true) (unsnooped : ¬flushedByInvalidate s k a x)
    (unflushed : s.lookup k a = none → ¬flushedByRead s k a x) : memRead t.shm.mem x = memRead s.shm.mem x := by
  unfold StoreAttempt at h
  rcases cacheStore_cases k a v s with ⟨_, e⟩ | ⟨_, w, _, e⟩ | ⟨_, miss, e⟩ <;> rw [e] at h <;> cases h
  · rw [(touchOnStore_bus _ _ _ _).1]
    exact memRead_storeHit (s := s.count k CacheCounters.store) sorted (by rwa [flushedByInvalidate_count])
  · exact memRead_fill sorted (by rw [flushedByRead_count, flushedByRead_count]; exact unflushed miss)

/-! ### The frame of an attempt -/

/-- What an attempt of cache `k` at address `a` leaves alone: of the peers what their snoop keeps; of its own frames all but
the one it hits or fills; every byte and every slot of a line that is not flushed. -/
structure AttemptFrame (kind : SnoopKind) (k : PeId) (a : Word) (s t : State) : Prop where
  counters : ∀ j, j ≠ k → SnoopedCounters s t j
  peers : ∀ j, j ≠ k → ∀ st w,
    t.frame j st w = s.frame j st w ∨ t.frame j st w = snoopedLine kind a st (s.frame j st w)
  own : ∀ st w, t.frame k st w ≠ s.frame k st w →
    st = setOf a ∧ (s.lookup k a = some w ∨ s.lookup k a = none ∧ w = s.chooseWay k st)
  mem : Memory.wf s.shm.mem = true → ∀ x, ¬flushedByRead s k a x → memRead t.shm.mem x = memRead s.shm.mem x
  slots : mapSorted s.staging = true → ∀ x, x ≠ (baseOf a).toNat → x ≠ (victimBase s k a).toNat →
    mapFind x t.staging = mapFind x s.staging

/-- The frame of a load attempt: a hit changes no line, byte or slot. -/
structure LoadAttemptFrame (k : PeId) (a : Word) (s t : State) : Prop extends AttemptFrame .read k a s t where
  hit : s.lookup k a ≠ none → t.shm = s.shm ∧ t.staging = s.staging ∧ t.shmFault = s.shmFault ∧
    ∀ j st w, t.frame j st w = s.frame j st w

/-- The frame of a store attempt: a hit keeps the other bytes of its line, and writes no byte of memory itself. -/
structure StoreAttemptFrame (k : PeId) (a : Word) (s t : State) : Prop extends AttemptFrame .invalidate k a s t where
  hitData : ∀ w, s.lookup k a = some w → ∀ i < 32, ¬(off a ≤ i ∧ i < off a + 8) →
    lineByte (t.frame k (setOf a) w).data i = lineByte (s.frame k (setOf a) w).data i
  hitMem : Memory.wf s.shm.mem = true → s.lookup k a ≠ none → ∀ x, ¬flushedByInvalidate s k a x →
    memRead t.shm.mem x = memRead s.shm.mem x

theorem AttemptFrame.refl (kind : SnoopKind) (k : PeId) (a : Word) (s : State) : AttemptFrame kind k a s s where
  counters j _ := .refl s j
  peers _ _ _ _ := .inl rfl
  own _ _ h := absurd rfl h
  mem _ _ _ := rfl
  slots _ _ _ _ := rfl

theorem LoadAttemptFrame.refl (k : PeId) (a : Word) (s : State) : LoadAttemptFrame k a s s :=
  ⟨.refl _ k a s, fun _ => ⟨rfl, rfl, rfl, fun _ _ _ => rfl⟩⟩

theorem StoreAttemptFrame.refl (k : PeId) (a : Word) (s : State) : StoreAttemptFrame k a s s :=
  ⟨.refl _ k a s, fun _ _ _ _ _ => rfl, fun _ _ _ _ => rfl⟩

section
variable {k : PeId} {a : Word} {s s' t t' : State} (hs : SameMemory s s') (ht : SameMemory t t')
include hs ht

/-- The frame of an attempt speaks of caches, shared memory and staging alone. -/
theorem AttemptFrame.congr {kind : SnoopKind} (h : AttemptFrame kind k a s t) : AttemptFrame kind k a s' t' := by
  cases s; cases s'; cases t; cases t'
  obtain ⟨rfl, rfl, rfl, rfl⟩ := hs
  obtain ⟨rfl, rfl, rfl, rfl⟩ := ht
  obtain ⟨counters, peers, own, mem, slots⟩ := h
  exact ⟨fun j hj => ⟨(counters j hj).ctr, (counters j hj).lru⟩, peers, own, mem, slots⟩

theorem LoadAttemptFrame.congr (h : LoadAttemptFrame k a s t) : LoadAttemptFrame k a s' t' := by
  have frame := h.toAttemptFrame.congr hs ht
  cases s; cases s'; cases t; cases t'
  obtain ⟨rfl, rfl, rfl, rfl⟩ := hs
  obtain ⟨rfl, rfl, rfl, rfl⟩ := ht
  exact ⟨frame, h.hit⟩

theorem StoreAttemptFrame.congr (h : StoreAttemptFrame k a s t) : StoreAttemptFrame k a s' t' := by
  have frame := h.toAttemptFrame.congr hs ht
  cases s; cases s'; cases t; cases t'
  obtain ⟨rfl, rfl, rfl, rfl⟩ := hs
  obtain ⟨rfl, rfl, rfl, rfl⟩ := ht
  exact ⟨frame, h.hitData, h.hitMem⟩

end

theorem OutsideTwo.slots {k : PeId} {a : Word} {s t : State} (h : OutsideTwo s k a t)
    (sorted : mapSorted s.staging = true) {x : Nat} (base : x ≠ (baseOf a).toNat) (victim : x ≠ (victimBase s k a).toNat) :
    mapFind x t.staging = mapFind x s.staging := by
  obtain ⟨u, snooped, installed⟩ := h
  exact (installed.slots x victim (snooped.stagingSorted sorted)).trans (snooped.slots x base sorted)

theorem loadAttemptFrame_of_attempt {k : PeId} {a : Word} {s t : State} (h : LoadAttempt k a s t) :
    LoadAttemptFrame k a s t := by
  have counters := fun j (hj : j ≠ k) => ((effects_cacheLoad h).bystander hj).counters
  have mem := fun wf x => memRead_cacheLoad (x := x) h (memory_wf_sorted wf)
  have slots := fun sorted x => (outsideTwo_cacheLoad h).slots sorted (x := x)
  unfold LoadAttempt at h
  rcases cacheLoad_cases k a s with ⟨_, e⟩ | ⟨_, w, hit, e⟩ | ⟨_, miss, e⟩ <;> rw [e] at h <;> cases h
  · have same : ∀ j st v, ((s.count k CacheCounters.load).touch k (setOf a) w).frame j st v = s.frame j st v := by simp
    exact ⟨⟨counters, fun j _ st v => .inl (same j st v), fun st v h => absurd (same k st v) h, mem, slots⟩,
      fun _ => ⟨rfl, rfl, rfl, same⟩⟩
  · have frame := emitBusRd_frame k a ((s.count k CacheCounters.load).count k CacheCounters.missRd)
    simp only [State.count_frame, chooseWay_count] at frame
    refine ⟨⟨counters, fun j hj st w => .inr (by rw [frame, if_neg hj]), fun st w changed => ?_, mem, slots⟩,
      fun hit => absurd miss hit⟩
    rw [frame, if_pos rfl] at changed
    obtain ⟨⟨rfl, chosen⟩, -⟩ := ite_ne_right_iff.1 changed
    exact ⟨rfl, .inr ⟨miss, chosen⟩⟩

theorem storeAttemptFrame_of_attempt {k : PeId} {a v : Word} {s t : State} (h : StoreAttempt k a v s t) :
    StoreAttemptFrame k a s t := by
  have counters := fun j (hj : j ≠ k) => ((effects_cacheStore h).bystander hj).counters
  have mem := fun wf x (unflushed : ¬flushedByRead s k a x) =>
    memRead_cacheStore (x := x) h (memory_wf_sorted wf) (fun snooped => unflushed (.inl snooped)) fun _ => unflushed
  have hitMem := fun wf (hit : s.lookup k a ≠ none) x unsnooped =>
    memRead_cacheStore (x := x) h (memory_wf_sorted wf) unsnooped fun miss => absurd miss hit
  have slots := fun sorted x => (outsideTwo_cacheStore h).slots sorted (x := x)
  unfold StoreAttempt at h
  cases e : cacheStore k a v s with
  | lineCross => rw [e] at h; cases h
  | done _ u =>
    rw [e] at h; cases h
    obtain ⟨-, w, hit⟩ := hit_of_cacheStore_done e
    have frame := cacheStore_done_frame hit e
    refine ⟨⟨counters, fun j hj st u => ?_, fun st u changed => ?_, mem, slots⟩, fun u hu i hi outside => ?_, hitMem⟩
    · rw [frame, if_neg hj]
      split
      · exact .inr rfl
      · exact .inl rfl
    · rw [frame, if_pos rfl] at changed
      obtain ⟨⟨rfl, rfl⟩, -⟩ := ite_ne_right_iff.1 changed
      exact ⟨rfl, .inl hit⟩
    · cases hu.symm.trans hit
      rw [frame, if_pos rfl, if_pos ⟨rfl, rfl⟩, storedLine, lineByte_lineStore _ _ _ hi, if_neg outside]
  | retry u =>
    rw [e] at h; cases h
    rcases cacheStore_cases k a v s with ⟨_, e'⟩ | ⟨_, _, _, e'⟩ | ⟨_, miss, e'⟩ <;> cases e'.symm.trans e
    have frame := emitBusRdX_frame k a ((s.count k CacheCounters.store).count k CacheCounters.missRdX)
    simp only [State.count_frame, chooseWay_count] at frame
    refine ⟨⟨counters, fun j hj st w => .inr (by rw [frame, if_neg hj]), fun st w changed => ?_, mem, slots⟩,
      fun w hit => absurd (hit.symm.trans miss) nofun, hitMem⟩
    rw [frame, if_pos rfl] at changed
    obtain ⟨⟨rfl, chosen⟩, -⟩ := ite_ne_right_iff.1 changed
    exact ⟨rfl, .inr ⟨miss, chosen⟩⟩

/-! ### The instructions -/

theorem AccessStep.agent {i : Instr} {c : Port → Nat} {attempt : State → State → Prop} {s t : State}
    (h : AccessStep i c attempt s t) : OwnAgent i c s.turn s t := by
  rcases h with ⟨m, rfl⟩ | h
  · exact ownAgent_raise i c _ m s
  · exact h.agent

/-- A relation of caches, shared memory and staging that an attempt has, an access has. -/
theorem AccessStep.memory {i : Instr} {c : Port → Nat} {attempt P : State → State → Prop} {s t : State}
    (h : AccessStep i c attempt s t) (refl : ∀ s, P s s) (run : ∀ {u r}, attempt u r → P u r)
    (congr : ∀ {s s' t t'}, SameMemory s s' → SameMemory t t' → P s t → P s' t') : P s t := by
  rcases h with ⟨m, rfl⟩ | ⟨-, -, u, r, before, attempted, after⟩
  · exact congr (.refl s) (sameMemory_raise m s) (refl s)
  · exact congr before.symm after (run attempted)

/-- An access that sets the fault mark does nothing else (R316). -/
theorem AccessStep.fault {i : Instr} {c : Port → Nat} {attempt : State → State → Prop} {s t : State}
    (h : AccessStep i c attempt s t) (marked : t.fault ≠ s.fault) :
    t.pes = s.pes ∧ t.shm = s.shm ∧ t.caches = s.caches ∧ t.ports = s.ports ∧ s.fault = none := by
  rcases h with ⟨m, rfl⟩ | h
  · refine ⟨by simp, by simp, by simp, by simp, ?_⟩
    rw [State.raise_fault] at marked
    cases hf : s.fault with
    | none => rfl
    | some f => rw [hf] at marked; exact absurd rfl marked
  · exact absurd h.fault marked

theorem destReg_eq_none_iff_of_load {i : Instr} {s : State} {a : Word} (hi : loadAddr i s = some a) :
    destReg i = none ↔ i.format ≠ .i32 := by
  cases i <;> cases hi <;> simp [destReg, Instr.format]

theorem destReg_of_store {i : Instr} {s : State} {p : Word × Word} (hi : storeOf i s = some p) : destReg i = none := by
  cases i <;> cases hi <;> rfl

/-- Settles O45: around its attempt a load touches its own PE and port alone, and the attempt has its frame. -/
theorem loadFrame : Obligations.LoadFrame := by
  intro i s t a hi h
  have access := exec_load_step hi h
  have dest := destReg_eq_none_iff_of_load hi
  obtain ⟨others, pe, resp, regs, program, maxSteps, halted, started, counter⟩ := access.agent
  obtain ⟨⟨counters, peers, own, mem, slots⟩, hit⟩ :=
    access.memory (LoadAttemptFrame.refl _ a) loadAttemptFrame_of_attempt .congr
  refine ⟨fun j hj => ⟨others.pes j hj, others.ports j hj, counters j hj⟩, fun none => pe (dest.1 none),
    fun some => resp (not_not.1 (mt dest.2 some)), regs, program, maxSteps, halted, started, counter, others.regPolicy,
    others.turn, others.tick, others.cmds, peers, fun st w outside => ?_, mem, slots, hit, access.fault⟩
  by_contra changed
  obtain ⟨set, found | ⟨-, chosen⟩⟩ := own st w changed
  · exact changed ((hit (by rw [found]; nofun)).2.2.2 _ st w)
  · exact outside ⟨set, chosen⟩

/-- Settles O46: so does a store, which writes no register. -/
theorem storeFrame : Obligations.StoreFrame := by
  intro i s t a v hi h
  have access := exec_store_step hi h
  have dest := destReg_of_store hi
  obtain ⟨others, -, -, regs, program, maxSteps, halted, started, counter⟩ := access.agent
  obtain ⟨⟨counters, peers, own, mem, slots⟩, hitData, hitMem⟩ :=
    access.memory (StoreAttemptFrame.refl _ a) storeAttemptFrame_of_attempt .congr
  exact ⟨fun j hj => ⟨others.pes j hj, others.ports j hj, counters j hj⟩, fun r => regs r (by rw [dest]; nofun), program,
    maxSteps, halted, started, counter, others.regPolicy, others.turn, others.tick, others.cmds, peers, own, hitData, mem,
    hitMem, slots, access.fault⟩

end Sys2Proof.Machine
end

section
/-! SUPPORT. The Flush, BusUpgr and Inv transactions (spec 42_interconnect.md R196, R199, R200). -/

namespace Sys2Proof.Machine

/-! ### Flush (R196) -/

theorem handleFlush_shmFault_of_backed {a : Word} (h : backed (baseOf a)) (k : PeId) (p : LineData) (s : State) :
    (handleFlush k a p s).shmFault = s.shmFault := by
  rw [handleFlush_shmFault, decide_eq_false (p := 4096 ≤ _) (Nat.not_le.2 h), Bool.or_false]

theorem handleFlush_shmFault_of_unbacked {a : Word} (h : ¬backed (baseOf a)) (k : PeId) (p : LineData) (s : State) :
    (handleFlush k a p s).shmFault = true := by
  rw [handleFlush_shmFault, decide_eq_true (p := 4096 ≤ _) (Nat.not_lt.1 h), Bool.or_true]

/-- Settles O38: a Flush is one slot and one request, which the shared memory serves exactly when it backs the line. -/
theorem flushResult : Obligations.FlushResult := by
  intro src a p s hm
  refine ⟨handleFlush src a p s, rfl, rfl, fun x => mapFind_mapInsert _ x p s.staging, fun hb => ?backed, fun hb => ?unbacked⟩
  case backed =>
    refine ⟨handleFlush_shmFault_of_backed hb src p s, ?_, ?_, fun q => ?_, memRead_handleFlush_of_backed hm hb src p⟩
    all_goals rw [handleFlush_shm_of_backed hb]
    · exact Shm.countWrite_totalWrites _ _ _
    · exact Shm.countWrite_totalReads _ _ _
    · rw [Shm.peCtr_countWrite]
      exact if_congr (by rw [Option.some_inj, eq_comm]) rfl rfl
  case unbacked => exact ⟨handleFlush_shmFault_of_unbacked hb src p s, handleFlush_shm_of_unbacked hb src p s⟩

/-! ### BusUpgr and Inv (R199, R200) -/

theorem holds_snoopedLine_invalidate (a : Word) (l : Line) :
    (snoopedLine .invalidate a (setOf a) l).holds (tagOf a) = false := by
  rcases snoopedLine_invalidate_cases a (setOf a) l with ⟨hit, e⟩ | ⟨-, h⟩
  · rw [e]
    exact Bool.eq_false_iff.2 fun holds => by simp [snoopHit_of_holds holds] at hit
  · exact h _

/-- After an invalidation no peer holds the line (R158 to R160). -/
theorem holds_broadcast_invalidate {src j : PeId} (hj : j ≠ src) (a : Word) (s : State) (w : WayIx) :
    ((broadcast src .invalidate a s).frame j (setOf a) w).holds (tagOf a) = false := by
  rw [broadcast_frame, if_neg hj]
  exact holds_snoopedLine_invalidate a _

/-- Settles O41: both are the broadcast of an invalidation and nothing more. -/
theorem busUpgrAndInvResult : Obligations.BusUpgrAndInvResult := by
  intro src a s
  exact ⟨broadcast src .invalidate a s, rfl, rfl, broadcast_cache_src src .invalidate a s,
    fun j hj st w => by rw [broadcast_frame, if_neg hj], fun j hj => holds_broadcast_invalidate hj a s,
    fun clean => broadcast_bus_of_clean fun j hj w holds modified => clean j w ⟨hj, holds, modified⟩⟩

end Sys2Proof.Machine
end

section
/-! SUPPORT. What a bus read counts in the shared memory, where its line comes from, and what becomes of the staging slots (spec
42_interconnect.md R194 to R202). -/

namespace Sys2Proof.Machine

/-! ### Counting lines read and written (R22, R124) -/

/-- From `s` to `t` the shared memory counts `r j` lines read and `w j` lines written for each cache `j`, and nothing else. -/
structure LineCounts (r w : PeId → Nat) (s t : State) : Prop where
  totalReads : t.shm.totalReads = s.shm.totalReads + ∑ j, r j
  totalWrites : t.shm.totalWrites = s.shm.totalWrites + ∑ j, w j
  peCtr : ∀ j, t.shm.peCtr j =
    { readOps := (s.shm.peCtr j).readOps + r j
      readBytes := (s.shm.peCtr j).readBytes + 32 * r j
      writeOps := (s.shm.peCtr j).writeOps + w j
      writeBytes := (s.shm.peCtr j).writeBytes + 32 * w j }

theorem LineCounts.trans {r w r' w' : PeId → Nat} {s t u : State} (h : LineCounts r w s t) (g : LineCounts r' w' t u) :
    LineCounts (r + r') (w + w') s u where
  totalReads := by simp only [g.totalReads, h.totalReads, Pi.add_apply, Finset.sum_add_distrib, Nat.add_assoc]
  totalWrites := by simp only [g.totalWrites, h.totalWrites, Pi.add_apply, Finset.sum_add_distrib, Nat.add_assoc]
  peCtr j := by simp only [g.peCtr, h.peCtr, Pi.add_apply, Nat.mul_add, Nat.add_assoc]

theorem lineCounts_of_shm {s t : State} (h : t.shm = s.shm) : LineCounts 0 0 s t :=
  ⟨by simp [h], by simp [h], fun j => by simp [h]⟩

theorem lineCounts_read {s t : State} {k : PeId} (h : t.shm = s.shm.countRead 32 (some k)) :
    LineCounts (Pi.single k 1) 0 s t := by
  refine ⟨by simp [h], by simp [h], fun j => ?_⟩
  rw [h, Shm.peCtr_countRead]
  by_cases hj : j = k
  · subst hj; simp
  · simp [hj, Ne.symm hj]

/-- A Flush counts one line written for its source if the line is backed (R124, R196). -/
theorem lineCounts_handleFlush (k : PeId) (a : Word) (p : LineData) (s : State) :
    LineCounts 0 (Pi.single k (if backed (baseOf a) then 1 else 0)) s (handleFlush k a p s) := by
  by_cases hb : backed (baseOf a)
  · rw [if_pos hb]
    have written := handleFlush_shm_of_backed hb k p s
    refine ⟨by simp [written], by simp [written], fun j => ?_⟩
    rw [written, Shm.peCtr_countWrite]
    by_cases hj : j = k
    · subst hj; simp [Shm.peCtr]
    · simp [hj, Ne.symm hj, Shm.peCtr]
  · rw [if_neg hb, Pi.single_zero]
    exact lineCounts_of_shm (handleFlush_shm_of_unbacked hb k p s)

/-- The counts are the shared memory's alone. -/
theorem LineCounts.congr {r w : PeId → Nat} {s t u : State} (h : LineCounts r w s t) (e : u.shm = t.shm) :
    LineCounts r w s u := by simpa using h.trans (lineCounts_of_shm e)

/-! ### The dirty peers of a transaction (R155, R158) -/

theorem snoopedLine_not_dirty (kind : SnoopKind) (a : Word) (l : Line) :
    ¬((snoopedLine kind a (setOf a) l).holds (tagOf a) = true ∧ (snoopedLine kind a (setOf a) l).state = .M) := by
  rintro ⟨holds, modified⟩
  by_cases hit : snoopHit a (setOf a) l = true
  · exact snoopedLine_not_modified hit modified
  · have same : snoopedLine kind a (setOf a) l = l := if_neg hit
    rw [same] at holds
    exact hit (snoopHit_of_holds holds)

theorem not_dirtyPeer_broadcast (src : PeId) (kind : SnoopKind) (a : Word) (s : State) (j : PeId) (w : WayIx) :
    ¬dirtyPeer (broadcast src kind a s) src a j w := by
  rintro ⟨hj, dirty⟩
  rw [broadcast_frame, if_neg hj] at dirty
  exact snoopedLine_not_dirty kind a _ dirty

/-- The snoop of a way leaves the dirty peers but for that way. -/
theorem dirtyPeer_snoopWay (src i : PeId) (kind : SnoopKind) (a : Word) (v : WayIx) (s : State) (j : PeId) (w : WayIx) :
    dirtyPeer (snoopWay i kind a v s) src a j w ↔ dirtyPeer s src a j w ∧ ¬(j = i ∧ w = v) := by
  rw [dirtyPeer, snoopWay_frame]
  by_cases here : j = i ∧ w = v
  · rw [if_pos here]
    exact iff_of_false (fun dirty => snoopedLine_not_dirty kind a _ dirty.2) fun dirty => dirty.2 here
  · rw [if_neg here]
    exact (and_iff_left here).symm

/-- What cache `i` has yet to flush falls by the line that the snoop of one of its ways flushes. -/
theorem peerFlushes_snoopWay (src i : PeId) (kind : SnoopKind) (a : Word) (v : WayIx) (s : State) (j : PeId) :
    peerFlushes s src a j =
      Pi.single (M := fun _ => Nat) i (if dirtyPeer s src a i v ∧ backed (baseOf a) then 1 else 0) j +
        peerFlushes (snoopWay i kind a v s) src a j := by
  unfold peerFlushes
  simp only [dirtyPeer_snoopWay, Pi.single_apply]
  by_cases hb : backed (baseOf a)
  · by_cases hj : j = i
    · subst hj
      rcases wayIx_cases v with rfl | rfl <;> simp [hb, Nat.add_comm]
    · simp [hb, hj]
  · simp [hb]

theorem lineCounts_snoopWay {src i : PeId} (hi : i ≠ src) (kind : SnoopKind) (a : Word) (v : WayIx) (s : State) :
    LineCounts 0 (Pi.single i (if dirtyPeer s src a i v ∧ backed (baseOf a) then 1 else 0)) s (snoopWay i kind a v s) := by
  by_cases dirty : (s.frame i (setOf a) v).holds (tagOf a) = true ∧ (s.frame i (setOf a) v).state = .M
  · rw [if_congr (and_iff_right ⟨hi, dirty⟩) rfl rfl]
    exact (lineCounts_handleFlush i a _ s).congr (snoopWay_bus_of_dirty dirty.1 dirty.2).1
  · rw [if_neg fun h => dirty h.1.2, Pi.single_zero]
    exact lineCounts_of_shm (snoopWay_bus_of_clean fun holds modified => dirty ⟨holds, modified⟩).1

/-- From `s` to `t` the shared memory has counted the lines that the peers have flushed and no longer have to. -/
def FlushesCounted (src : PeId) (a : Word) (s t : State) : Prop :=
  ∃ w, LineCounts 0 w s t ∧ peerFlushes s src a = w + peerFlushes t src a

theorem FlushesCounted.trans {src : PeId} {a : Word} {s t u : State} (h : FlushesCounted src a s t)
    (g : FlushesCounted src a t u) : FlushesCounted src a s u := by
  obtain ⟨w, counts, pending⟩ := h
  obtain ⟨w', counts', pending'⟩ := g
  exact ⟨w + w', counts.trans counts', by rw [pending, pending', add_assoc]⟩

theorem flushesCounted_snoopWay {src i : PeId} (hi : i ≠ src) (kind : SnoopKind) (a : Word) (v : WayIx) (s : State) :
    FlushesCounted src a s (snoopWay i kind a v s) :=
  ⟨_, lineCounts_snoopWay hi kind a v s, funext (peerFlushes_snoopWay src i kind a v s)⟩

/-- A broadcast counts one line written for each backed line that a peer flushes (R155, R158). -/
theorem lineCounts_broadcast (src : PeId) (kind : SnoopKind) (a : Word) (s : State) :
    LineCounts 0 (peerFlushes s src a) s (broadcast src kind a s) := by
  obtain ⟨w, counts, pending⟩ : FlushesCounted src a s (broadcast src kind a s) :=
    broadcast_induction (FlushesCounted src a) (fun s => ⟨0, lineCounts_of_shm rfl, (zero_add _).symm⟩)
      (fun _ _ _ => .trans)
      (fun _ s hi => (flushesCounted_snoopWay hi kind a 0 s).trans (flushesCounted_snoopWay hi kind a 1 _)) s
  have spent : peerFlushes (broadcast src kind a s) src a = 0 := by
    funext j
    simp [peerFlushes, not_dirtyPeer_broadcast]
  rw [spent, add_zero] at pending
  rwa [pending]

/-! ### The slot of the addressed line (R196, R197, R202) -/

/-- A slot or a dirty peer has the line of address `a`. -/
def SlotOrPeer (src : PeId) (a : Word) (s : State) : Prop :=
  (∃ j w, dirtyPeer s src a j w) ∨ mapFind (baseOf a).toNat s.staging ≠ none

theorem slotOrPeer_snoopWay {src i : PeId} (hi : i ≠ src) (kind : SnoopKind) {a : Word} (v : WayIx) {s : State}
    (h : SlotOrPeer src a s) : SlotOrPeer src a (snoopWay i kind a v s) := by
  by_cases dirty : (s.frame i (setOf a) v).holds (tagOf a) = true ∧ (s.frame i (setOf a) v).state = .M
  · right
    rw [(snoopWay_bus_of_dirty dirty.1 dirty.2).2.1, mapFind_handleFlush]
    exact nofun
  · rcases h with ⟨j, w, peer⟩ | slot
    · refine .inl ⟨j, w, (dirtyPeer_snoopWay src i kind a v s j w).2 ⟨peer, ?_⟩⟩
      rintro ⟨rfl, rfl⟩
      exact dirty peer.2
    · right
      rwa [(snoopWay_bus_of_clean fun holds modified => dirty ⟨holds, modified⟩).2.1]

/-- After a broadcast the line has a slot exactly when it had one or a peer has flushed it. -/
theorem slot_broadcast_iff (src : PeId) (kind : SnoopKind) (a : Word) (s : State) :
    mapFind (baseOf a).toNat (broadcast src kind a s).staging ≠ none ↔ SlotOrPeer src a s := by
  constructor
  · intro slot
    by_cases clean : ∃ j w, dirtyPeer s src a j w
    · exact .inl clean
    · right
      rwa [(broadcast_bus_of_clean fun j hj w holds modified => clean ⟨j, w, hj, holds, modified⟩).2.1] at slot
  · intro h
    have after : SlotOrPeer src a (broadcast src kind a s) :=
      broadcast_induction (fun s t => SlotOrPeer src a s → SlotOrPeer src a t) (fun _ => id) (fun _ _ _ h g => g ∘ h)
        (fun _ _ hi h => slotOrPeer_snoopWay hi kind 1 (slotOrPeer_snoopWay hi kind 0 h)) s h
    exact after.resolve_left fun ⟨j, w, dirty⟩ => not_dirtyPeer_broadcast src kind a s j w dirty

/-- A bus read reads the shared memory exactly when no slot is there after the snoops and the line is backed (R202). -/
theorem sourceReads_eq (src : PeId) (kind : SnoopKind) (a : Word) (s : State) :
    sourceReads s src a =
      if mapFind (baseOf a).toNat (broadcast src kind a s).staging = none ∧ backed (baseOf a) then 1 else 0 := by
  rw [sourceReads, ← ite_not]
  refine if_congr ?_ rfl rfl
  rw [← or_assoc, not_or, not_not]
  exact and_congr_left' ((not_congr (slot_broadcast_iff src kind a s).symm).trans not_not)

theorem lineCounts_sourceLine (src : PeId) (a : Word) (s : State) :
    LineCounts (Pi.single src (if mapFind (baseOf a).toNat s.staging = none ∧ backed (baseOf a) then 1 else 0)) 0 s
      (sourceLine (baseOf a) src s).2 := by
  cases slot : mapFind (baseOf a).toNat s.staging with
  | some line =>
    rw [if_neg (by simp), Pi.single_zero]
    exact lineCounts_of_shm (sourceLine_of_slot slot src).2.1
  | none =>
    by_cases hb : backed (baseOf a)
    · rw [if_pos ⟨rfl, hb⟩]
      exact lineCounts_read (sourceLine_of_backed slot (baseOf_mod a) hb src).2.1
    · rw [if_neg fun h => hb h.2, Pi.single_zero]
      exact lineCounts_of_shm (sourceLine_of_unbacked slot (baseOf_mod a) (Nat.not_lt.1 hb) src).2.1

/-- The slot of a base is gone once its line has been sourced (R197). -/
theorem mapFind_sourceLine {b : Word} {s : State} (sorted : mapSorted s.staging = true) (src : PeId) :
    mapFind b.toNat (sourceLine b src s).2.staging = none := by
  rw [sourceLine_staging]
  split
  · rw [mapFind_mapErase _ _ sorted, if_pos rfl]
  · assumption

/-! ### The installation that ends a bus read (R151, R153) -/

theorem baseOf_victimBase (s : State) (k : PeId) (a : Word) : baseOf (victimBase s k a) = victimBase s k a :=
  baseOf_lineBase _ _

theorem lineCounts_installLine (k : PeId) (a : Word) (line : LineData) (new : Mesi) (s : State) :
    LineCounts 0 (Pi.single k (victimFlushes s k a)) s (installLine k a line new s) := by
  by_cases dirty : evictsDirty s k a
  · have counts := (lineCounts_handleFlush k (victimBase s k a) (s.frame k (setOf a) (s.chooseWay k (setOf a))).data s).congr
      (installLine_bus_of_dirty dirty line new).1
    rwa [baseOf_victimBase, ← if_congr (and_iff_right dirty) rfl rfl] at counts
  · rw [victimFlushes, if_neg fun h => dirty h.1, Pi.single_zero]
    exact lineCounts_of_shm (installLine_bus_of_clean dirty line new).1

/-- An installation writes no slot but that of a dirty victim's base. -/
theorem mapFind_installLine {k : PeId} {a : Word} {line : LineData} {new : Mesi} {s : State} {x : Nat}
    (h : ¬(evictsDirty s k a ∧ x = (victimBase s k a).toNat)) :
    mapFind x (installLine k a line new s).staging = mapFind x s.staging := by
  by_cases dirty : evictsDirty s k a
  · rw [(installLine_bus_of_dirty dirty line new).2.1, mapFind_mapInsert, if_neg fun e => h ⟨dirty, e⟩]
  · rw [(installLine_bus_of_clean dirty line new).2.1]

/-! ### A whole bus read: snoops, sourcing, installation (R193 to R195) -/

/-- The line a bus read by cache `src` at address `a` has delivered. -/
def deliveredLine (src : PeId) (kind : SnoopKind) (a : Word) (s : State) : LineData :=
  (sourceLine (baseOf a) src (broadcast src kind a s)).1

/-- A bus read with its snoops of kind `kind`, whose line is installed in state `new`. -/
def fill (src : PeId) (kind : SnoopKind) (a : Word) (new : Mesi) (s : State) : State :=
  installLine src a (deliveredLine src kind a s) new (sourceLine (baseOf a) src (broadcast src kind a s)).2

theorem emitBusRd_eq_fill (src : PeId) (a : Word) (s : State) : emitBusRd src a s =
    fill src .read a (if (broadcast src .read a s).peerHolds src a then .S else .E) s := rfl

theorem emitBusRdX_eq_fill (src : PeId) (a : Word) (s : State) : emitBusRdX src a s = fill src .invalidate a .E s := rfl

section
variable (src : PeId) (kind : SnoopKind) (a : Word) (new : Mesi) (s : State)

theorem fill_frame (j : PeId) (st : SetIx) (w : WayIx) : (fill src kind a new s).frame j st w =
    if j = src then
      if st = setOf a ∧ w = s.chooseWay src (setOf a) then installedLine a (deliveredLine src kind a s) new
      else s.frame j st w
    else snoopedLine kind a st (s.frame j st w) := by
  rw [fill, installLine_frame, chooseWay_beforeInstall, sourceLine_frame, broadcast_frame]
  by_cases h : j = src <;> simp [h]

theorem victimFlushes_beforeInstall :
    victimFlushes (sourceLine (baseOf a) src (broadcast src kind a s)).2 src a = victimFlushes s src a := by
  unfold victimFlushes
  rw [victimBase_beforeInstall]
  exact if_congr (and_congr_left' (evictsDirty_beforeInstall src kind a _ s)) rfl rfl

theorem lineCounts_fill : LineCounts (Pi.single src (sourceReads s src a))
    (peerFlushes s src a + Pi.single src (victimFlushes s src a)) s (fill src kind a new s) := by
  have sourced := lineCounts_sourceLine src a (broadcast src kind a s)
  have installed := lineCounts_installLine src a (deliveredLine src kind a s) new
    (sourceLine (baseOf a) src (broadcast src kind a s)).2
  rw [← sourceReads_eq] at sourced
  rw [victimFlushes_beforeInstall] at installed
  simpa [fill] using ((lineCounts_broadcast src kind a s).trans sourced).trans installed

theorem busReadCounts_fill : BusReadCounts src a s (fill src kind a new s) := by
  obtain ⟨totalReads, totalWrites, peCtr⟩ := lineCounts_fill src kind a new s
  have own : peerFlushes s src a src = 0 := by simp [peerFlushes]
  refine ⟨by simpa using totalReads, ?_, by simpa [own] using peCtr src, fun j hj => by simpa [hj] using peCtr j⟩
  simpa [Finset.sum_add_distrib, Fin.sum_univ_four, Nat.add_assoc] using totalWrites

theorem sourcedLine_fill : SourcedLine src a s (fill src kind a new s) (deliveredLine src kind a s) := by
  have quiet : (∀ j w, ¬dirtyPeer s src a j w) → (broadcast src kind a s).shm = s.shm ∧
      (broadcast src kind a s).staging = s.staging := fun clean => by
    obtain ⟨shm, staging, -⟩ :=
      broadcast_bus_of_clean (kind := kind) fun j hj w holds modified => clean j w ⟨hj, holds, modified⟩
    exact ⟨shm, staging⟩
  refine ⟨fun j w dirty sole => sourceLine_of_dirtyPeer kind dirty sole, fun clean l slot => ?slot,
    fun clean slot hb => ?memory, fun clean slot hb => ?unbacked⟩ <;> obtain ⟨shm, staging⟩ := quiet clean <;>
    rw [← staging] at slot
  case slot => exact (sourceLine_of_slot slot src).1
  case memory =>
    rw [← shm]
    exact (sourceLine_of_backed slot (baseOf_mod a) hb src).1
  case unbacked =>
    obtain ⟨zero, -, failed⟩ := sourceLine_of_unbacked slot (baseOf_mod a) (Nat.not_lt.1 hb) src
    exact ⟨zero, (outsideLine_installLine _ _ _ _ _).sticky failed⟩

variable {s}

/-- The slot of the addressed line is gone, unless the installation flushes that very line. -/
theorem mapFind_base_fill (sorted : mapSorted s.staging = true)
    (h : ¬(evictsDirty s src a ∧ victimBase s src a = baseOf a)) :
    mapFind (baseOf a).toNat (fill src kind a new s).staging = none := by
  rw [fill, mapFind_installLine]
  · exact mapFind_sourceLine ((outsideLine_broadcast src kind a s).stagingSorted sorted) src
  · rw [evictsDirty_beforeInstall, victimBase_beforeInstall]
    exact fun e => h ⟨e.1, (BitVec.eq_of_toNat_eq e.2).symm⟩

end

/-! ### Who holds the line after the snoops (R201) -/

theorem holds_snoopedLine_read (a : Word) (st : SetIx) (l : Line) (t : Tag) :
    (snoopedLine .read a st l).holds t = l.holds t := by
  unfold snoopedLine
  split
  · cases hst : l.state <;> simp only [Line.holds, hst] <;> rfl
  · rfl

/-- The snoops of a BusRd leave the line with every peer that held it. -/
theorem peerHolds_broadcast_read (src : PeId) (a : Word) (s : State) :
    (broadcast src .read a s).peerHolds src a = true ↔
      ∃ j w, j ≠ src ∧ (s.frame j (setOf a) w).holds (tagOf a) = true := by
  have ids : ∀ j : PeId, j ∈ [(0 : PeId), 1, 2, 3] := by decide
  have peer : ∀ j, j ≠ src → ∀ w, ((broadcast src .read a s).frame j (setOf a) w).holds (tagOf a) =
      (s.frame j (setOf a) w).holds (tagOf a) := fun j hj w => by
    rw [broadcast_frame, if_neg hj, holds_snoopedLine_read]
  simp only [State.peerHolds, State.cacheHolds, List.any_eq_true, Bool.and_eq_true, Bool.or_eq_true, decide_eq_true_eq]
  refine exists_congr fun j => ?_
  constructor
  · rintro ⟨-, hj, h | h⟩ <;> rw [peer j hj] at h
    · exact ⟨0, hj, h⟩
    · exact ⟨1, hj, h⟩
  · rintro ⟨w, hj, h⟩
    rw [← peer j hj] at h
    refine ⟨ids j, hj, ?_⟩
    rcases wayIx_cases w with rfl | rfl
    · exact .inl h
    · exact .inr h

/-! ### The statements -/

/-- Settles O39: the parts of a bus read, with the state of the installed line read off the peers. -/
theorem busRdResult : Obligations.BusRdResult := by
  intro src a s _ sorted
  have new : (if (broadcast src .read a s).peerHolds src a then Mesi.S else .E) =
      if ∃ j w, j ≠ src ∧ (s.frame j (setOf a) w).holds (tagOf a) = true then .S else .E :=
    if_congr (peerHolds_broadcast_read src a s) rfl rfl
  have frame := fill_frame src .read a (if (broadcast src .read a s).peerHolds src a then .S else .E) s
  refine ⟨emitBusRd src a s, deliveredLine src .read a s, rfl, sourcedLine_fill _ _ _ _ _, ?_, fun j hj st w => ?_,
    fun st w other => ?_, mapFind_base_fill _ _ _ _ sorted, busReadCounts_fill _ _ _ _ _⟩ <;> rw [emitBusRd_eq_fill, frame]
  · rw [if_pos rfl, if_pos ⟨rfl, rfl⟩, ← new]
    cases (broadcast src .read a s).peerHolds src a <;> rfl
  · rw [if_neg hj]
  · rw [if_pos rfl, if_neg other]

/-- Settles O40: the same parts, with snoops that invalidate. -/
theorem busRdXResult : Obligations.BusRdXResult := by
  intro src a s _ sorted
  have frame := fill_frame src .invalidate a .E s
  refine ⟨emitBusRdX src a s, deliveredLine src .invalidate a s, rfl, sourcedLine_fill _ _ _ _ _, ?_, fun j hj st w => ?_,
    fun j hj w => ?_, fun st w other => ?_, mapFind_base_fill _ _ _ _ sorted, busReadCounts_fill _ _ _ _ _⟩ <;>
    rw [emitBusRdX_eq_fill, frame]
  · rw [if_pos rfl, if_pos ⟨rfl, rfl⟩]
    rfl
  · rw [if_neg hj]
  · rw [if_neg hj, holds_snoopedLine_invalidate]
  · rw [if_pos rfl, if_neg other]

end Sys2Proof.Machine
end

section
/-! SUPPORT. The frame of the five bus transactions (spec 42_interconnect.md R193 to R200). -/

namespace Sys2Proof.Machine

/-- What a transaction of cache `src` at address `a` leaves alone: all that is not caches, shared memory or staging; of the peers
what their snoops keep, of its own counters all but `flush`; every frame of another set; every byte not in `flushed` and every
slot not in `written`. -/
structure TransactionFrame (src : PeId) (a : Word) (flushed written : Nat → Prop) (s t : State) : Prop where
  bus : BusOnly s t
  peers : ∀ j, j ≠ src → SnoopedCounters s t j
  own : ∃ n, (t.cache src).ctr = { (s.cache src).ctr with flush := n }
  frames : ∀ j st w, st ≠ setOf a → t.frame j st w = s.frame j st w
  mem : Memory.wf s.shm.mem = true → ∀ x, ¬flushed x → memRead t.shm.mem x = memRead s.shm.mem x
  slots : mapSorted s.staging = true → ∀ x, ¬written x → mapFind x t.staging = mapFind x s.staging

/-- No counter of the processor's side rises, neither in a peer nor in the source. -/
theorem TransactionFrame.processorSide {src : PeId} {a : Word} {flushed written : Nat → Prop} {s t : State}
    (h : TransactionFrame src a flushed written s t) (j : PeId) :
    (t.cache j).ctr.loads = (s.cache j).ctr.loads ∧ (t.cache j).ctr.stores = (s.cache j).ctr.stores ∧
      (t.cache j).ctr.rwAccesses = (s.cache j).ctr.rwAccesses ∧
      (t.cache j).ctr.cacheMisses = (s.cache j).ctr.cacheMisses := by
  by_cases hj : j = src
  · subst hj
    obtain ⟨n, own⟩ := h.own
    rw [own]
    exact ⟨rfl, rfl, rfl, rfl⟩
  · rw [(h.peers j hj).ctr]
    exact ⟨rfl, rfl, rfl, rfl⟩

theorem snoopedLine_of_other_set {st : SetIx} {a : Word} (h : st ≠ setOf a) (kind : SnoopKind) (l : Line) :
    snoopedLine kind a st l = l :=
  if_neg fun hit => h ((snoopHit_iff a st l).1 hit).1

theorem transactionFrame_broadcast (src : PeId) (kind : SnoopKind) (a : Word) (s : State) :
    TransactionFrame src a (flushedByInvalidate s src a) (· = (baseOf a).toNat) s (broadcast src kind a s) where
  bus := busOnly_broadcast src kind a s
  peers _ hj := ((effects_broadcast src src kind a s).bystander hj).counters
  own := ⟨_, by rw [broadcast_cache_src]⟩
  frames j st w other := by rw [broadcast_frame, snoopedLine_of_other_set other, ite_self]
  mem wf _ := memRead_broadcast (memory_wf_sorted wf)
  slots sorted x other := (outsideLine_broadcast src kind a s).slots x other sorted

theorem transactionFrame_flush (src : PeId) (a : Word) (p : LineData) (s : State) :
    TransactionFrame src a (inLine · (baseOf a).toNat) (· = (baseOf a).toNat) s (handleFlush src a p s) where
  bus := busOnly_handleFlush src a p s
  peers _ _ := snoopedCounters_of_eq rfl
  own := ⟨_, rfl⟩
  frames _ _ _ _ := rfl
  mem wf x := (outsideLine_handleFlush src a p s).mem (memory_wf_sorted wf) x
  slots sorted x other := (outsideLine_handleFlush src a p s).slots x other sorted

theorem effects_fill (src : PeId) (kind : SnoopKind) (a : Word) (new : Mesi) (s : State) :
    Effects src s (fill src kind a new s) :=
  ((effects_broadcast src src kind a s).tail (.source (baseOf a) src)).trans (effects_installLine src a _ new _)

theorem transactionFrame_fill (src : PeId) (kind : SnoopKind) (a : Word) (new : Mesi) (s : State) :
    TransactionFrame src a (flushedByRead s src a)
      (fun x => x = (baseOf a).toNat ∨ evictsDirty s src a ∧ x = (victimBase s src a).toNat) s
      (fill src kind a new s) where
  bus := ((busOnly_broadcast src kind a s).trans (busOnly_sourceLine _ _ _)).trans (busOnly_installLine _ _ _ _ _)
  peers _ hj := ((effects_fill src kind a new s).bystander hj).counters
  own := by
    rw [fill, installLine_ctr, sourceLine_cache, broadcast_cache_src]
    split <;> exact ⟨_, rfl⟩
  frames j st w other := by
    rw [fill_frame, if_neg (c := st = setOf a ∧ _) fun here => other here.1, snoopedLine_of_other_set other, ite_self]
  mem wf _ := memRead_fill (memory_wf_sorted wf)
  slots sorted x outside := by
    obtain ⟨base, victim⟩ := not_or.1 outside
    have snooped := outsideLine_broadcast src kind a s
    have sourced := outsideLine_sourceLine (baseOf a) src (broadcast src kind a s)
    rw [fill, mapFind_installLine, sourced.slots x base (snooped.stagingSorted sorted), snooped.slots x base sorted]
    rwa [evictsDirty_beforeInstall, victimBase_beforeInstall]

/-- Settles O47: a BusRd or BusRdX is a fill, a BusUpgr or Inv a broadcast, and each of these and a Flush has its frame. -/
theorem busTransactionFrame : Obligations.BusTransactionFrame := by
  intro src a p i s t hi h
  obtain ⟨flushed, written, frame, bytes, slots⟩ : ∃ flushed written, TransactionFrame src a flushed written s t ∧
      (∀ x, (i = .busRd src a ∨ i = .busRdX src a → ¬flushedByRead s src a x) →
        (i = .busUpgr src a ∨ i = .inv src a → ¬flushedByInvalidate s src a x) →
        (i = .flush src a p → ¬inLine x (baseOf a).toNat) → ¬flushed x) ∧
      ∀ x, x ≠ (baseOf a).toNat →
        (i = .busRd src a ∨ i = .busRdX src a → ¬(evictsDirty s src a ∧ x = (victimBase s src a).toNat)) → ¬written x := by
    simp only [List.mem_cons, List.not_mem_nil, or_false] at hi
    rcases hi with rfl | rfl | rfl | rfl | rfl <;> cases h
    · exact ⟨_, _, transactionFrame_fill src .read a _ s, fun x read _ _ => read (.inl rfl),
        fun x base victim => not_or.2 ⟨base, victim (.inl rfl)⟩⟩
    · exact ⟨_, _, transactionFrame_fill src .invalidate a .E s, fun x read _ _ => read (.inr rfl),
        fun x base victim => not_or.2 ⟨base, victim (.inr rfl)⟩⟩
    · exact ⟨_, _, transactionFrame_broadcast src .invalidate a s, fun x _ snooped _ => snooped (.inl rfl),
        fun x base _ => base⟩
    · exact ⟨_, _, transactionFrame_flush src a p s, fun x _ _ flush => flush rfl, fun x base _ => base⟩
    · exact ⟨_, _, transactionFrame_broadcast src .invalidate a s, fun x _ snooped _ => snooped (.inr rfl),
        fun x base _ => base⟩
  obtain ⟨ports, pes, fault, regPolicy, turn, tick, cmds, resp⟩ := frame.bus
  exact ⟨pes, ports, fault, regPolicy, turn, tick, cmds, resp, frame.peers, frame.processorSide, frame.frames,
    fun wf x read snooped flush => frame.mem wf x (bytes x read snooped flush),
    fun sorted x base victim => frame.slots sorted x (slots x base victim)⟩

end Sys2Proof.Machine
end

section
/-! SUPPORT. Every Flush of a step of an agent is one write of the shared memory (spec 42_interconnect.md R205, 45_system_step.md
R295). -/

namespace Sys2Proof.Machine

/-! ### The sum of the flush counters (R26) -/

/-- The Flushes that the four caches have counted. -/
abbrev State.flushes (s : State) : Nat := s.sumCaches (·.flush)

theorem flushes_of_ctr {s t : State} (h : ∀ j, (t.cache j).ctr.flush = (s.cache j).ctr.flush) : t.flushes = s.flushes := by
  simp only [State.flushes, State.sumCaches, h]

theorem flushes_flushFrame (k : PeId) (st : SetIx) (l : Line) (s : State) :
    (flushFrame k st l s).flushes = s.flushes + 1 := by
  simp only [State.flushes, State.sumCaches, flushFrame_ctr]
  rcases peId_cases k with rfl | rfl | rfl | rfl <;> simp <;> omega

/-! ### The account of an operation -/

/-- If no request has failed by `t`, the shared memory has counted from `s` to `t` as many writes as the caches Flushes. -/
structure FlushesWritten (s t : State) : Prop where
  sticky : s.shmFault = true → t.shmFault = true
  writes : t.shmFault = false → t.shm.totalWrites + s.flushes = s.shm.totalWrites + t.flushes

theorem FlushesWritten.trans {s t u : State} (h : FlushesWritten s t) (g : FlushesWritten t u) : FlushesWritten s u := by
  refine ⟨g.sticky ∘ h.sticky, fun ok => ?_⟩
  have before := h.writes (Bool.eq_false_iff.2 fun failed => by simp [g.sticky failed] at ok)
  have after := g.writes ok
  omega

/-- An operation of the caches alone, in which none counts a Flush. -/
theorem flushesWritten_of_quiet {s t : State} (shm : t.shm = s.shm) (fault : t.shmFault = s.shmFault)
    (ctr : ∀ j, (t.cache j).ctr.flush = (s.cache j).ctr.flush) : FlushesWritten s t :=
  ⟨by rw [fault]; exact id, fun _ => by rw [shm, flushes_of_ctr ctr]⟩

theorem FlushesWritten.refl (s : State) : FlushesWritten s s := flushesWritten_of_quiet rfl rfl fun _ => rfl

theorem SameMemory.flushesWritten {s t : State} (h : SameMemory s t) : FlushesWritten s t :=
  flushesWritten_of_quiet h.shm h.shmFault fun j => by simp only [State.cache, h.caches]

/-- A Flush that does not fail is of a backed line, and so is one write (R124, R196). -/
theorem flushesWritten_flushFrame (k : PeId) (st : SetIx) (l : Line) (s : State) : FlushesWritten s (flushFrame k st l s) := by
  refine ⟨(outsideLine_handleFlush k (lineBase l.tag st) l.data (s.count k _)).sticky, fun ok => ?_⟩
  have hb : backed (baseOf (lineBase l.tag st)) := by
    by_contra hb
    cases ok.symm.trans (handleFlush_shmFault_of_unbacked hb k l.data (s.count k _))
  have written : (flushFrame k st l s).shm.totalWrites = s.shm.totalWrites + 1 := by
    rw [flushFrame, handleFlush_shm_of_backed hb, Shm.countWrite_totalWrites]
    rfl
  rw [flushes_flushFrame, written]
  omega

theorem flushesWritten_record (k : PeId) (f t : Mesi) (s : State) : FlushesWritten s (s.record k f t) :=
  flushesWritten_of_quiet rfl rfl fun _ => by simp

theorem flushesWritten_touch (k : PeId) (st : SetIx) (w : WayIx) (s : State) : FlushesWritten s (s.touch k st w) :=
  flushesWritten_of_quiet rfl rfl fun _ => by simp

theorem flushesWritten_modFrame (k : PeId) (st : SetIx) (w : WayIx) (f : Line → Line) (s : State) :
    FlushesWritten s (s.modFrame k st w f) :=
  flushesWritten_of_quiet rfl rfl fun _ => by simp

theorem flushesWritten_count (f : CacheCounters → CacheCounters) (hf : ∀ c, (f c).flush = c.flush) (k : PeId) (s : State) :
    FlushesWritten s (s.count k f) := by
  refine flushesWritten_of_quiet rfl rfl fun j => ?_
  rw [State.count_ctr]
  split
  · next h => rw [hf, h]
  · rfl

theorem flushesWritten_downgradeFrame (j : PeId) (st : SetIx) (w : WayIx) (o : Mesi) (s : State) :
    FlushesWritten s (downgradeFrame j st w o s) :=
  (flushesWritten_record j o .S s).trans (flushesWritten_modFrame j st w _ _)

theorem flushesWritten_invalidateFrame (j : PeId) (st : SetIx) (w : WayIx) (o : Mesi) (s : State) :
    FlushesWritten s (invalidateFrame j st w o s) :=
  ((flushesWritten_record j o .I s).trans (flushesWritten_modFrame j st w _ _)).trans
    (flushesWritten_count (fun c => { c with invalidations := c.invalidations + 1 }) (fun _ => rfl) j _)

/-! ### The interconnect (R151, R154 to R160, R193 to R202) -/

theorem flushesWritten_snoopWay (j : PeId) (kind : SnoopKind) (a : Word) (w : WayIx) (s : State) :
    FlushesWritten s (snoopWay j kind a w s) := by
  have cleaned := (flushesWritten_flushFrame j (setOf a) (s.frame j (setOf a) w) s).trans
    (flushesWritten_modFrame j (setOf a) w (fun l => { l with dirty := false }) _)
  rcases snoopWay_cases j kind a w s with ⟨e, _⟩ | ⟨_, _, _, e⟩ | ⟨_, _, _, e⟩ | ⟨_, _, _, e⟩ | ⟨_, _, _, e⟩ <;> rw [e]
  · exact .refl s
  · exact cleaned.trans (flushesWritten_downgradeFrame j _ w _ _)
  · exact flushesWritten_downgradeFrame j _ w _ s
  · exact cleaned.trans (flushesWritten_invalidateFrame j _ w _ _)
  · exact flushesWritten_invalidateFrame j _ w _ s

theorem flushesWritten_broadcast (src : PeId) (kind : SnoopKind) (a : Word) (s : State) :
    FlushesWritten s (broadcast src kind a s) :=
  broadcast_induction FlushesWritten .refl (fun _ _ _ => .trans)
    (fun j s _ => (flushesWritten_snoopWay j kind a 0 s).trans (flushesWritten_snoopWay j kind a 1 _)) s

theorem flushesWritten_sourceLine (src : PeId) (a : Word) (s : State) :
    FlushesWritten s (sourceLine (baseOf a) src s).2 := by
  refine ⟨(outsideLine_sourceLine _ src s).sticky, fun _ => ?_⟩
  have same : (sourceLine (baseOf a) src s).2.flushes = s.flushes := flushes_of_ctr fun j => by rw [sourceLine_cache]
  rw [(lineCounts_sourceLine src a s).totalWrites, same]
  simp

theorem flushesWritten_installLine (k : PeId) (a : Word) (line : LineData) (new : Mesi) (s : State) :
    FlushesWritten s (installLine k a line new s) := by
  unfold installLine
  dsimp only
  refine .trans (.trans (.trans ?_ (flushesWritten_modFrame k _ _ _ _)) (flushesWritten_touch k _ _ _))
    (flushesWritten_record k _ new _)
  split
  · exact flushesWritten_flushFrame k _ _ s
  · exact .refl s

theorem flushesWritten_fill (src : PeId) (kind : SnoopKind) (a : Word) (new : Mesi) (s : State) :
    FlushesWritten s (fill src kind a new s) :=
  ((flushesWritten_broadcast src kind a s).trans (flushesWritten_sourceLine src a _)).trans
    (flushesWritten_installLine src a _ new _)

/-! ### Attempts (R144, R145) -/

theorem flushesWritten_makeModified (k : PeId) (st : SetIx) (w : WayIx) (old : Mesi) (s : State) :
    FlushesWritten s (makeModified k st w old s) :=
  (flushesWritten_record k old .M s).trans (flushesWritten_modFrame k st w _ _)

theorem flushesWritten_storeHit (k : PeId) (a : Word) (w : WayIx) (s : State) : FlushesWritten s (storeHit k a w s) := by
  unfold storeHit
  split
  · exact .refl s
  · exact flushesWritten_makeModified k _ w .E s
  · exact ((flushesWritten_count CacheCounters.upgrade (fun _ => rfl) k s).trans
      (flushesWritten_broadcast k .invalidate a _)).trans
      (flushesWritten_makeModified k _ w .S _)
  · exact .refl s

theorem flushesWritten_touchOnStore (k : PeId) (st : SetIx) (w : WayIx) (s : State) :
    FlushesWritten s (touchOnStore k st w s) := by
  unfold touchOnStore
  split
  · exact flushesWritten_touch k st w s
  · exact .refl s

theorem flushesWritten_cacheLoad {k : PeId} {a : Word} {s t : State} (h : LoadAttempt k a s t) : FlushesWritten s t := by
  have counted := flushesWritten_count CacheCounters.load (fun _ => rfl) k s
  unfold LoadAttempt at h
  rcases cacheLoad_cases k a s with ⟨_, e⟩ | ⟨_, w, _, e⟩ | ⟨_, _, e⟩ <;> rw [e] at h <;> cases h
  · exact counted.trans (flushesWritten_touch k _ w _)
  · exact (counted.trans (flushesWritten_count CacheCounters.missRd (fun _ => rfl) k _)).trans
      (flushesWritten_fill k .read a _ _)

theorem flushesWritten_cacheStore {k : PeId} {a v : Word} {s t : State} (h : StoreAttempt k a v s t) :
    FlushesWritten s t := by
  have counted := flushesWritten_count CacheCounters.store (fun _ => rfl) k s
  unfold StoreAttempt at h
  rcases cacheStore_cases k a v s with ⟨_, e⟩ | ⟨_, w, _, e⟩ | ⟨_, _, e⟩ <;> rw [e] at h <;> cases h
  · exact ((counted.trans (flushesWritten_storeHit k a w _)).trans (flushesWritten_modFrame k _ w _ _)).trans
      (flushesWritten_touchOnStore k _ w _)
  · exact (counted.trans (flushesWritten_count CacheCounters.missRdX (fun _ => rfl) k _)).trans
      (flushesWritten_fill k .invalidate a .E _)

/-! ### The step -/

theorem AccessStep.flushesWritten {i : Instr} {c : Port → Nat} {attempt : State → State → Prop} {s t : State}
    (h : AccessStep i c attempt s t) (run : ∀ {u r}, attempt u r → FlushesWritten u r) : FlushesWritten s t :=
  h.memory .refl run fun before after kept => (before.symm.flushesWritten.trans kept).trans after.flushesWritten

/-- Of the PE instructions only LOAD and STORE reach a cache (R241). -/
theorem flushesWritten_exec {i : Instr} (hi : i.format = .i32) {s t : State} (h : exec i s = .next t) :
    FlushesWritten s t := by
  have registers : registerOnly i = true → FlushesWritten s t := fun only => by
    rcases exec_registerOnly_cases only h with ⟨f, rfl⟩ | ⟨m, rfl⟩
    · exact flushesWritten_of_quiet rfl rfl fun _ => rfl
    · exact (sameMemory_raise m s).flushesWritten
  cases i with
  | load d a => exact (exec_load_step rfl h).flushesWritten flushesWritten_cacheLoad
  | store d a => exact (exec_store_step rfl h).flushesWritten flushesWritten_cacheStore
  | fmul | fadd | inc | dec | jnz | lea | halt => exact registers rfl
  | _ => cases hi

/-- Settles O54: an agent halts or executes a PE instruction, and either keeps the account of Flushes and writes. -/
theorem everyFlushIsOneWrite : Obligations.EveryFlushIsOneWrite := by
  intro s t noRecord h ok
  suffices kept : FlushesWritten s t from kept.writes ok
  have turned : ∀ k, FlushesWritten s { s with turn := k } := fun _ => flushesWritten_of_quiet rfl rfl fun _ => rfl
  obtain ⟨-, ⟨c, rest, _, _, queued, -⟩ | ⟨k, -, -, -, -, rfl⟩ | ⟨k, i, u, -, -, -, fetched, hu, rfl⟩⟩ := step_cases h
  · cases noRecord.symm.trans queued
  · exact flushesWritten_of_quiet rfl rfl fun _ => rfl
  · exact ((turned k).trans (flushesWritten_exec (format_of_fetch fetched) hu)).trans
      (flushesWritten_of_quiet (t := u.reschedule) rfl rfl fun _ => rfl)

end Sys2Proof.Machine
end

section
/-! SUPPORT. One step of a port access (spec 43_memory_port.md R231 to R235): the state the port makes its attempt in, how the
attempt ends, and what the port holds afterwards. -/

namespace Sys2Proof.Machine

/-! ### The issue (R233, R234) -/

section
variable {k : PeId} {a v : Word} {s t : State}

/-- In the attempt the port serves the access, and the issue has been counted once (R234). -/
theorem issueLoad_port (serves : (s.port k).servesLoad a) : (issueLoad k a s).port k =
    { s.port k with loads := (s.port k).loads + (s.port k).issues, fsm := .busyLoad a } := by
  rcases serves with idle | busy
  · simp [issueLoad, Port.issues, idle]
  · have same : issueLoad k a s = s := by rw [issueLoad, busy]
    have counted : (s.port k).issues = 0 := by simp [Port.issues, busy]
    rw [same, counted, ← busy]
    rfl

theorem issueStore_port (serves : (s.port k).servesStore a v) : (issueStore k a v s).port k =
    { s.port k with stores := (s.port k).stores + (s.port k).issues, fsm := .busyStore a v } := by
  rcases serves with idle | busy
  · simp [issueStore, Port.issues, idle]
  · have same : issueStore k a v s = s := by rw [issueStore, busy]
    have counted : (s.port k).issues = 0 := by simp [Port.issues, busy]
    rw [same, counted, ← busy]
    rfl

/-! ### The attempt behind an answer -/

/-- A load that completes at a port was let in and has hit. -/
theorem portLoad_eq_done (h : portLoad k a s = .done v t) : (s.port k).servesLoad a ∧
    ∃ u, cacheLoad k a (issueLoad k a s) = .done v u ∧ t = u.modPort k fun p => { p with fsm := .idle } := by
  rw [portLoad_eq] at h
  split at h
  · next serves =>
    refine ⟨serves, ?_⟩
    unfold portLoadAttempt at h
    split at h <;> cases h
    next e => exact ⟨_, e, rfl⟩
  · cases h

/-- A load that waits at a port was let in and has missed. -/
theorem portLoad_eq_waiting (h : portLoad k a s = .waiting t) :
    (s.port k).servesLoad a ∧ cacheLoad k a (issueLoad k a s) = .retry t := by
  rw [portLoad_eq] at h
  split at h
  · next serves =>
    refine ⟨serves, ?_⟩
    unfold portLoadAttempt at h
    split at h <;> cases h
    next e => exact e
  · cases h

theorem portStore_eq_done (h : portStore k a v s = .done () t) : (s.port k).servesStore a v ∧
    ∃ u, cacheStore k a v (issueStore k a v s) = .done () u ∧ t = u.modPort k fun p => { p with fsm := .idle } := by
  rw [portStore_eq] at h
  split at h
  · next serves =>
    refine ⟨serves, ?_⟩
    unfold portStoreAttempt at h
    split at h <;> cases h
    next e => exact ⟨_, e, rfl⟩
  · cases h

theorem portStore_eq_waiting (h : portStore k a v s = .waiting t) :
    (s.port k).servesStore a v ∧ cacheStore k a v (issueStore k a v s) = .retry t := by
  rw [portStore_eq] at h
  split at h
  · next serves =>
    refine ⟨serves, ?_⟩
    unfold portStoreAttempt at h
    split at h <;> cases h
    next e => exact e
  · cases h

/-! ### The port after the step (R233, R234) -/

theorem portLoad_done_port (h : portLoad k a s = .done v t) : t.port k =
    { s.port k with loads := (s.port k).loads + (s.port k).issues, fsm := .idle } := by
  obtain ⟨serves, u, attempt, rfl⟩ := portLoad_eq_done h
  rw [State.port_modPort_self, (busOnly_cacheLoad (by rw [attempt]; rfl)).port, issueLoad_port serves]

theorem portLoad_waiting_port (h : portLoad k a s = .waiting t) : t.port k =
    { s.port k with loads := (s.port k).loads + (s.port k).issues, fsm := .busyLoad a } := by
  obtain ⟨serves, attempt⟩ := portLoad_eq_waiting h
  rw [(busOnly_cacheLoad (by rw [attempt]; rfl)).port, issueLoad_port serves]

theorem portStore_done_port (h : portStore k a v s = .done () t) : t.port k =
    { s.port k with stores := (s.port k).stores + (s.port k).issues, fsm := .idle } := by
  obtain ⟨serves, u, attempt, rfl⟩ := portStore_eq_done h
  rw [State.port_modPort_self, (busOnly_cacheStore (by rw [attempt]; rfl)).port, issueStore_port serves]

theorem portStore_waiting_port (h : portStore k a v s = .waiting t) : t.port k =
    { s.port k with stores := (s.port k).stores + (s.port k).issues, fsm := .busyStore a v } := by
  obtain ⟨serves, attempt⟩ := portStore_eq_waiting h
  rw [(busOnly_cacheStore (by rw [attempt]; rfl)).port, issueStore_port serves]

/-! ### Everything else that is no cache or memory (R241) -/

theorem portLoad_done_memOnly (h : portLoad k a s = .done v t) : MemOnly k s t := memOnly_portLoad (by rw [h]; rfl)

theorem portLoad_waiting_memOnly (h : portLoad k a s = .waiting t) : MemOnly k s t := memOnly_portLoad (by rw [h]; rfl)

theorem portStore_done_memOnly (h : portStore k a v s = .done () t) : MemOnly k s t := memOnly_portStore (by rw [h]; rfl)

theorem portStore_waiting_memOnly (h : portStore k a v s = .waiting t) : MemOnly k s t :=
  memOnly_portStore (by rw [h]; rfl)

@[simp] theorem State.respond_port (s : State) (r : Option Response) (j : PeId) :
    State.port { s with resp := r } j = s.port j := rfl

@[simp] theorem State.respond_frame (s : State) (r : Option Response) (j : PeId) (st : SetIx) (w : WayIx) :
    State.frame { s with resp := r } j st w = s.frame j st w := rfl

theorem MemOnly.pe (h : MemOnly k s t) (j : PeId) : t.pe j = s.pe j := by simp only [State.pe, h.pes]

end

end Sys2Proof.Machine
end

section
/-! SUPPORT. LOAD, STORE, load64 and store64 by the answer of their port (spec 43_memory_port.md R233, 44_pe_isa.md R244, R245):
what each instruction answers, and what a next state of it can be. -/

namespace Sys2Proof.Machine

section
variable {d a : Reg} {b x v : Word} {s t : State}

/-! ### From the port's answer to the instruction's -/

theorem execLoad_of_waiting (hr : operandsReadable (.load d a) s) (e : portLoad s.turn (s.reg s.turn a) s = .waiting t) :
    exec (.load d a) s = .next t := by
  show execLoad d a s = _
  rw [execLoad, withRegs_of_readable (rs := [a]) hr, e]

theorem execLoad64_of_waiting (e : portLoad s.turn b s = .waiting t) : exec (.load64 b) s = .next t := by
  show execLoad64 b s = _
  rw [execLoad64, e]

theorem execStore_of_done (hr : operandsReadable (.store d a) s)
    (e : portStore s.turn (s.reg s.turn a) (s.reg s.turn d) s = .done () t) :
    exec (.store d a) s = .next (t.modPe s.turn fun p => p.retire (p.pc + 1)) := by
  show execStore d a s = _
  rw [execStore, withRegs_of_readable (rs := [a, d]) hr, e]

theorem execStore_of_waiting (hr : operandsReadable (.store d a) s)
    (e : portStore s.turn (s.reg s.turn a) (s.reg s.turn d) s = .waiting t) : exec (.store d a) s = .next t := by
  show execStore d a s = _
  rw [execStore, withRegs_of_readable (rs := [a, d]) hr, e]

theorem execStore64_of_done (e : portStore s.turn b x s = .done () t) :
    exec (.store64 b x) s = .next { t with resp := some (.port none) } := by
  show execStore64 b x s = _
  rw [execStore64, e]

theorem execStore64_of_waiting (e : portStore s.turn b x s = .waiting t) : exec (.store64 b x) s = .next t := by
  show execStore64 b x s = _
  rw [execStore64, e]

theorem operandsReadable_load (ha : s.readable s.turn a = true) : operandsReadable (.load d a) s := by
  simpa [operandsReadable, sourceRegs] using ha

theorem operandsReadable_store (ha : s.readable s.turn a = true) (hd : s.readable s.turn d = true) :
    operandsReadable (.store d a) s := by
  simpa [operandsReadable, sourceRegs] using ⟨ha, hd⟩

/-! ### From the instruction's next state to the port's answer -/

theorem execLoad_cases (h : exec (.load d a) s = .next t) :
    (∃ m, t = s.raise m) ∨
    (∃ v u, portLoad s.turn (s.reg s.turn a) s = .done v u ∧
      t = u.modPe s.turn fun p => (p.setReg d v).retire (p.pc + 1)) ∨
    portLoad s.turn (s.reg s.turn a) s = .waiting t := by
  rcases withRegs_cases s.turn [a] s _ with ⟨-, e⟩ | ⟨r, -, -, e⟩ <;> replace h := e.symm.trans h
  · split at h <;> cases h
    · next e => exact .inr (.inl ⟨_, _, e, rfl⟩)
    · next e => exact .inr (.inr e)
    · exact .inl ⟨_, rfl⟩
  · cases h; exact .inl ⟨_, rfl⟩

theorem execStore_cases (h : exec (.store d a) s = .next t) :
    (∃ m, t = s.raise m) ∨
    (∃ u, portStore s.turn (s.reg s.turn a) (s.reg s.turn d) s = .done () u ∧
      t = u.modPe s.turn fun p => p.retire (p.pc + 1)) ∨
    portStore s.turn (s.reg s.turn a) (s.reg s.turn d) s = .waiting t := by
  rcases withRegs_cases s.turn [a, d] s _ with ⟨-, e⟩ | ⟨r, -, -, e⟩ <;> replace h := e.symm.trans h
  · split at h <;> cases h
    · next e => exact .inr (.inl ⟨_, e, rfl⟩)
    · next e => exact .inr (.inr e)
    · exact .inl ⟨_, rfl⟩
  · cases h; exact .inl ⟨_, rfl⟩

theorem execLoad64_cases (h : exec (.load64 b) s = .next t) :
    (∃ m, t = s.raise m) ∨
    (∃ v u, portLoad s.turn b s = .done v u ∧ t = { u with resp := some (.port (some v)) }) ∨
    portLoad s.turn b s = .waiting t := by
  change execLoad64 b s = .next t at h
  unfold execLoad64 at h
  split at h <;> cases h
  · next e => exact .inr (.inl ⟨_, _, e, rfl⟩)
  · next e => exact .inr (.inr e)
  · exact .inl ⟨_, rfl⟩

theorem execStore64_cases (h : exec (.store64 b x) s = .next t) :
    (∃ m, t = s.raise m) ∨
    (∃ u, portStore s.turn b x s = .done () u ∧ t = { u with resp := some (.port none) }) ∨
    portStore s.turn b x s = .waiting t := by
  change execStore64 b x s = .next t at h
  unfold execStore64 at h
  split at h <;> cases h
  · next e => exact .inr (.inl ⟨_, e, rfl⟩)
  · next e => exact .inr (.inr e)
  · exact .inl ⟨_, rfl⟩

end

/-- Settles O15: a port that serves another access answers busy, and each of the four forms refuses on that. -/
theorem busyPortServesOneAccess : Obligations.BusyPortServesOneAccess := by
  refine ⟨fun a s other => ?load64, fun a v s other => ?store64, fun d a s ha other => ?load, fun d a s ha hd other => ?store⟩
  case load64 =>
    show execLoad64 a s = _
    rw [execLoad64, portLoad_of_not_taken other]
  case store64 =>
    show execStore64 a v s = _
    rw [execStore64, portStore_of_not_taken other]
  case load =>
    show execLoad d a s = _
    rw [execLoad, withRegs_of_readable (rs := [a]) (operandsReadable_load (d := d) ha), portLoad_of_not_taken other]
  case store =>
    show execStore d a s = _
    rw [execStore, withRegs_of_readable (rs := [a, d]) (operandsReadable_store ha hd), portStore_of_not_taken other]

end Sys2Proof.Machine
end

section
/-! SUPPORT. Hit and miss of a load or store at a port, and of the instructions that make it (spec 43_memory_port.md R231 to
R235, 44_pe_isa.md R244, R245). -/

namespace Sys2Proof.Machine

section
variable {k : PeId} {a v : Word} {w : WayIx} {s t : State}

/-! ### The attempt after a miss (R235) -/

/-- After a BusRdX for a line its cache did not hold, a lookup finds the installed frame, which is in E. -/
theorem lookup_emitBusRdX (miss : s.lookup k a = none) :
    ∃ w, (emitBusRdX k a s).lookup k a = some w ∧ ((emitBusRdX k a s).frame k (setOf a) w).state = .E := by
  have installed : (emitBusRdX k a s).frame k (setOf a) (s.chooseWay k (setOf a)) =
      installedLine a (deliveredLine k .invalidate a s) .E := by
    rw [emitBusRdX_eq_fill, fill_frame, if_pos rfl, if_pos ⟨rfl, rfl⟩]
  cases found : (emitBusRdX k a s).lookup k a with
  | none =>
    have empty := lookup_none found (s.chooseWay k (setOf a))
    rw [installed] at empty
    simp [installedLine, Line.holds] at empty
  | some w =>
    by_cases chosen : w = s.chooseWay k (setOf a)
    · exact ⟨w, rfl, by rw [chosen, installed]; rfl⟩
    · have holds := (lookup_some found).1
      rw [emitBusRdX_frame, if_pos rfl, if_neg fun here => chosen here.2, lookup_none miss] at holds
      cases holds

theorem lookup_cacheLoad_retry (h : cacheLoad k a s = .retry t) : off a ≤ 24 ∧ (t.lookup k a).isSome = true := by
  rcases cacheLoad_cases k a s with ⟨_, e⟩ | ⟨_, w, _, e⟩ | ⟨ho, miss, e⟩ <;> cases e.symm.trans h
  exact ⟨ho, by rw [lookup_emitBusRd (by simpa using miss)]; rfl⟩

theorem lookup_cacheStore_retry (h : cacheStore k a v s = .retry t) :
    off a ≤ 24 ∧ ∃ w, t.lookup k a = some w ∧ (t.frame k (setOf a) w).state = .E := by
  rcases cacheStore_cases k a v s with ⟨_, e⟩ | ⟨_, w, _, e⟩ | ⟨ho, miss, e⟩ <;> cases e.symm.trans h
  exact ⟨ho, lookup_emitBusRdX (by simpa using miss)⟩

/-! ### Hit and miss at a port -/

/-- A load that misses at a port waits, and the line is in the cache. -/
theorem portLoad_of_miss (serves : (s.port k).servesLoad a) (ho : off a ≤ 24) (miss : s.lookup k a = none) :
    ∃ t, portLoad k a s = .waiting t ∧ (t.lookup k a).isSome = true := by
  have attempt := cacheLoad_eq_of_miss ho (((sameData_issueLoad k a s).lookup k a).trans miss)
  exact ⟨_, by rw [portLoad_of_taken serves, portLoadAttempt, attempt], (lookup_cacheLoad_retry attempt).2⟩

/-- A store that hits at a port completes, and leaves the stored line in the frame it hit. -/
theorem portStore_of_hit (serves : (s.port k).servesStore a v) (ho : off a ≤ 24) (hit : s.lookup k a = some w) :
    ∃ t, portStore k a v s = .done () t ∧ t.frame k (setOf a) w = storedLine (s.frame k (setOf a) w) a v := by
  have same := sameData_issueStore k a v s
  have hit := (same.lookup k a).trans hit
  obtain ⟨t, attempt⟩ := cacheStore_of_hit v ho (by rw [hit]; nofun)
  refine ⟨_, by rw [portStore_of_taken serves, portStoreAttempt, attempt], ?_⟩
  rw [State.modPort_frame, cacheStore_done_frame hit attempt, if_pos rfl, if_pos ⟨rfl, rfl⟩, same.frame]

/-- A store that misses at a port waits, and the line is in the cache, in E. -/
theorem portStore_of_miss (serves : (s.port k).servesStore a v) (ho : off a ≤ 24) (miss : s.lookup k a = none) :
    ∃ t, portStore k a v s = .waiting t ∧ ∃ w, t.lookup k a = some w ∧ (t.frame k (setOf a) w).state = .E := by
  have attempt := cacheStore_eq_of_miss ho v (((sameData_issueStore k a v s).lookup k a).trans miss)
  exact ⟨_, by rw [portStore_of_taken serves, portStoreAttempt, attempt], (lookup_cacheStore_retry attempt).2⟩

end

/-! ### The statements -/

/-- Settles O35: a miss has the line installed, so the next lookup finds it. -/
theorem secondAttemptHits : Obligations.SecondAttemptHits := by
  refine ⟨fun k a s t retry => ?_, fun k a v s t retry => ?_⟩
  · obtain ⟨ho, found⟩ := lookup_cacheLoad_retry retry
    obtain ⟨w, hit⟩ := Option.isSome_iff_exists.1 found
    obtain ⟨u, done⟩ := cacheLoad_of_hit ho hit
    exact ⟨_, u, done⟩
  · obtain ⟨ho, w, hit, -⟩ := lookup_cacheStore_retry retry
    exact cacheStore_of_hit v ho (by rw [hit]; nofun)

/-- Settles O28: the port completes a hit with the word of the frame, and waits after a miss. -/
theorem loadResult : Obligations.LoadResult := by
  intro d a s k addr ha ho serves
  refine ⟨fun w hit => ?_, fun miss => ?_⟩
  · obtain ⟨t, done⟩ := portLoad_of_hit serves ho hit
    have pe := (portLoad_done_memOnly done).pe k
    have port := portLoad_done_port done
    refine ⟨_, execLoad_of_done (operandsReadable_load ha) done, ?_, ?_, ?_, ?_, ?_, ?_⟩
    · rw [State.reg, State.pe_modPe_self, Pe.retire_reg, Pe.reg_setReg_self, bytes64_lineWord, hitBytes]
    · rw [State.pe_modPe_self, Pe.retire_isWritten, Pe.isWritten_setReg, if_pos rfl]
    · rw [State.pe_modPe_self, pe]; rfl
    · rw [State.pe_modPe_self, pe]; rfl
    · rw [State.modPe_port, port]
    · rw [State.modPe_port, port]
  · obtain ⟨t, waiting, found⟩ := portLoad_of_miss serves ho miss
    have port := portLoad_waiting_port waiting
    exact ⟨t, execLoad_of_waiting (operandsReadable_load ha) waiting, (portLoad_waiting_memOnly waiting).pe k,
      by rw [port], by rw [port], found⟩

/-- Settles O29: the port completes a hit with the stored line in the frame, and waits after a miss. -/
theorem storeResult : Obligations.StoreResult := by
  intro d a s k addr v ha hd ho serves
  refine ⟨fun w hit => ?_, fun miss => ?_⟩
  · obtain ⟨t, done, frame⟩ := portStore_of_hit serves ho hit
    have pe := (portStore_done_memOnly done).pe k
    have port := portStore_done_port done
    have holds := ((Line.owns_iff _ _).1 (owns_storedLine (lookup_some hit).1 v)).1
    refine ⟨_, execStore_of_done (operandsReadable_store ha hd) done, ?_, ?_, fun i hi => ?_, ?_, ?_, ?_⟩
    · rw [State.modPe_frame, frame]; rfl
    · rw [State.modPe_frame, frame, holds]
    · rw [State.modPe_frame, frame]; exact lineByte_lineStore _ _ _ hi
    · rw [State.pe_modPe_self, pe]; rfl
    · rw [State.modPe_port, port]
    · rw [State.modPe_port, port]
  · obtain ⟨t, waiting, installed⟩ := portStore_of_miss serves ho miss
    have port := portStore_waiting_port waiting
    exact ⟨t, execStore_of_waiting (operandsReadable_store ha hd) waiting, (portStore_waiting_memOnly waiting).pe k,
      by rw [port], by rw [port], installed⟩

/-- Settles O30: as LOAD, with the response in place of the register. -/
theorem load64Result : Obligations.Load64Result := by
  intro a s k ho serves
  refine ⟨fun w hit => ?_, fun miss => ?_⟩
  · obtain ⟨t, done⟩ := portLoad_of_hit serves ho hit
    have port := portLoad_done_port done
    exact ⟨_, _, execLoad64_of_done done, rfl, bytes64_lineWord _ _, by rw [State.respond_port, port],
      by rw [State.respond_port, port]⟩
  · obtain ⟨t, waiting, found⟩ := portLoad_of_miss serves ho miss
    have port := portLoad_waiting_port waiting
    exact ⟨t, execLoad64_of_waiting waiting, (portLoad_waiting_memOnly waiting).resp, by rw [port], by rw [port], found⟩

/-- Settles O31: as STORE, with the response in place of the PE. -/
theorem store64Result : Obligations.Store64Result := by
  intro a v s k ho serves
  refine ⟨fun w hit => ?_, fun miss => ?_⟩
  · obtain ⟨t, done, frame⟩ := portStore_of_hit serves ho hit
    have port := portStore_done_port done
    refine ⟨_, execStore64_of_done done, rfl, by rw [State.respond_frame, frame]; rfl, fun i hi => ?_,
      by rw [State.respond_port, port], by rw [State.respond_port, port]⟩
    rw [State.respond_frame, frame, storedLine, lineByte_lineStore _ _ _ (by omega), if_pos (by omega),
      Nat.add_sub_cancel_left]
  · obtain ⟨t, waiting, w, found, -⟩ := portStore_of_miss serves ho miss
    have port := portStore_waiting_port waiting
    exact ⟨t, execStore64_of_waiting waiting, (portStore_waiting_memOnly waiting).resp, by rw [port], by rw [port],
      by rw [found]; rfl⟩

end Sys2Proof.Machine
end

section
/-! SUPPORT. A busy port serves the LOAD or STORE its PE stands at (spec 43_memory_port.md R233, 45_system_step.md R282): what
every PE instruction keeps of that. -/

namespace Sys2Proof.Machine

/-! ### What the correspondence depends on -/

section
variable {k : PeId} {s t : State}

/-- A fetch depends on the PE alone (R241). -/
theorem fetch_congr (pe : t.pe k = s.pe k) : t.fetch k = s.fetch k := by simp only [State.fetch, pe]

/-- The correspondence of a port and its PE depends on the two alone. -/
theorem PortMatchesPe.congr (h : PortMatchesPe s k) (pe : t.pe k = s.pe k) (port : t.port k = s.port k) :
    PortMatchesPe t k := by
  obtain ⟨load, store⟩ := h
  constructor <;> simpa only [fetch_congr pe, State.reg, pe, port]

theorem portMatchesPe_of_idle (idle : (t.port k).fsm = .idle) : PortMatchesPe t k :=
  ⟨fun _ busy => (nomatch idle.symm.trans busy), fun _ _ busy => (nomatch idle.symm.trans busy)⟩

theorem portMatchesPe_of_busyLoad {d a : Reg} (fetched : t.fetch k = .instr (.load d a))
    (busy : (t.port k).fsm = .busyLoad (t.reg k a)) : PortMatchesPe t k := by
  refine ⟨fun b serves => ?_, fun _ _ serves => (nomatch busy.symm.trans serves)⟩
  cases busy.symm.trans serves
  exact ⟨d, a, fetched, rfl⟩

theorem portMatchesPe_of_busyStore {d a : Reg} (fetched : t.fetch k = .instr (.store d a))
    (busy : (t.port k).fsm = .busyStore (t.reg k a) (t.reg k d)) : PortMatchesPe t k := by
  refine ⟨fun _ serves => (nomatch busy.symm.trans serves), fun b v serves => ?_⟩
  cases busy.symm.trans serves
  exact ⟨d, a, fetched, rfl, rfl⟩

/-- The port of a PE that stands at no LOAD or STORE is idle. -/
theorem PortMatchesPe.idle (h : PortMatchesPe s k) (noLoad : ∀ d a, s.fetch k ≠ .instr (.load d a))
    (noStore : ∀ d a, s.fetch k ≠ .instr (.store d a)) : (s.port k).fsm = .idle := by
  cases busy : (s.port k).fsm with
  | idle => rfl
  | busyLoad b =>
    obtain ⟨d, a, fetched, -⟩ := h.load b busy
    exact absurd fetched (noLoad d a)
  | busyStore b v =>
    obtain ⟨d, a, fetched, -⟩ := h.store b v busy
    exact absurd fetched (noStore d a)

end

/-! ### The PE instructions -/

/-- A PE instruction touches no other PE or port and queues no record (R241). -/
theorem agentOnly_exec {i : Instr} {s t : State} (hi : i.format = .i32) (h : exec i s = .next t) :
    AgentOnly s.turn s t := by
  have registers : registerOnly i = true → AgentOnly s.turn s t := fun only => by
    rcases exec_registerOnly_cases only h with ⟨f, rfl⟩ | ⟨m, rfl⟩
    · exact agentOnly_modPe _ f s
    · exact agentOnly_raise _ m s
  cases i with
  | load d a => exact (exec_load_step rfl h).agent.others
  | store d a => exact (exec_store_step rfl h).agent.others
  | fmul | fadd | inc | dec | jnz | lea | halt => exact registers rfl
  | _ => cases hi

/-- Raising the mark moves neither PE nor port (R316). -/
theorem PortMatchesPe.raise {k : PeId} {s : State} (h : PortMatchesPe s k) (m : FaultMark) : PortMatchesPe (s.raise m) k :=
  h.congr (by simp) (by simp)

/-- A LOAD frees its port when it completes, and waits at the same pc with the same address. -/
theorem portMatchesPe_execLoad {d a : Reg} {s t : State} (fetched : s.fetch s.turn = .instr (.load d a))
    (own : PortMatchesPe s s.turn) (h : exec (.load d a) s = .next t) : PortMatchesPe t s.turn := by
  rcases execLoad_cases h with ⟨m, rfl⟩ | ⟨v, u, done, rfl⟩ | waiting
  · exact own.raise m
  · exact portMatchesPe_of_idle (by rw [State.modPe_port, portLoad_done_port done])
  · have pe := (portLoad_waiting_memOnly waiting).pe s.turn
    exact portMatchesPe_of_busyLoad ((fetch_congr pe).trans fetched)
      (by rw [portLoad_waiting_port waiting, State.reg, State.reg, pe])

theorem portMatchesPe_execStore {d a : Reg} {s t : State} (fetched : s.fetch s.turn = .instr (.store d a))
    (own : PortMatchesPe s s.turn) (h : exec (.store d a) s = .next t) : PortMatchesPe t s.turn := by
  rcases execStore_cases h with ⟨m, rfl⟩ | ⟨u, done, rfl⟩ | waiting
  · exact own.raise m
  · exact portMatchesPe_of_idle (by rw [State.modPe_port, portStore_done_port done])
  · have pe := (portStore_waiting_memOnly waiting).pe s.turn
    exact portMatchesPe_of_busyStore ((fetch_congr pe).trans fetched)
      (by rw [portStore_waiting_port waiting, State.reg, State.reg, State.reg, State.reg, pe])

/-- The port of a PE that executes a register instruction is idle, and stays so. -/
theorem portMatchesPe_registerOnly {i : Instr} {s t : State} (hi : registerOnly i = true)
    (fetched : s.fetch s.turn = .instr i) (own : PortMatchesPe s s.turn) (h : exec i s = .next t) :
    PortMatchesPe t s.turn := by
  have other : ∀ j, s.fetch s.turn = .instr j → registerOnly j = true := fun j hj => by
    cases fetched.symm.trans hj; exact hi
  have idle := own.idle (fun d a hj => nomatch other _ hj) (fun d a hj => nomatch other _ hj)
  rcases exec_registerOnly_cases hi h with ⟨f, rfl⟩ | ⟨m, rfl⟩
  · exact portMatchesPe_of_idle idle
  · exact own.raise m

theorem portMatchesPe_exec {i : Instr} {s t : State} (fetched : s.fetch s.turn = .instr i)
    (own : PortMatchesPe s s.turn) (h : exec i s = .next t) : PortMatchesPe t s.turn := by
  have format := format_of_fetch fetched
  cases i with
  | load d a => exact portMatchesPe_execLoad fetched own h
  | store d a => exact portMatchesPe_execStore fetched own h
  | fmul | fadd | inc | dec | jnz | lea | halt => exact portMatchesPe_registerOnly rfl fetched own h
  | _ => cases format

/-- Settles O14: a step moves one agent, whose port is idle after it or waits for the access its PE still stands at. -/
theorem busyPortsServeTheirPe : Obligations.BusyPortsServeTheirPe := by
  intro s t noRecord matching h
  obtain ⟨-, ⟨c, rest, _, _, queued, -⟩ | ⟨k, -, -, -, nothing, rfl⟩ | ⟨k, i, u, -, -, -, fetched, hu, rfl⟩⟩ := step_cases h
  · cases noRecord.symm.trans queued
  · refine ⟨noRecord, fun j => ?_⟩
    by_cases hj : j = k
    · subst hj
      have idle := (matching j).idle (fun d a => nothing _) (fun d a => nothing _)
      exact portMatchesPe_of_idle idle
    · have halted : PortMatchesPe (s.halt k) j := (matching j).congr (State.pe_modPe_ne s hj _) rfl
      exact halted.congr rfl rfl
  · have agent := agentOnly_exec (format_of_fetch fetched) hu
    refine ⟨agent.cmds.trans noRecord, fun j => ?_⟩
    have turned : PortMatchesPe { s with turn := k } j := (matching j).congr rfl rfl
    by_cases hj : j = k
    · subst hj
      exact (portMatchesPe_exec (s := { s with turn := j }) fetched turned hu).congr rfl rfl
    · exact turned.congr (t := u.reschedule) (agent.pes j hj) (agent.ports j hj)

end Sys2Proof.Machine
end

section
/-! SUPPORT. The laws between a port's counters and its cache's (spec 43_memory_port.md R234, 45_system_step.md R295): what a step
of an access adds on both sides, and that nothing else adds to either. -/

namespace Sys2Proof.Machine

/-! ### One port and its cache -/

section
variable {p : Port} {c e : Cache} {a v : Word} {n : Nat}

/-- A port that takes a load holds it already or counts it now, and holds no store (R233, R234). -/
theorem Port.issues_of_servesLoad (serves : p.servesLoad a) : p.busyLoads + p.issues = 1 ∧ p.busyStores = 0 := by
  rcases serves with fsm | fsm <;> simp [Port.busyLoads, Port.busyStores, Port.issues, fsm]

theorem Port.issues_of_servesStore (serves : p.servesStore a v) : p.busyStores + p.issues = 1 ∧ p.busyLoads = 0 := by
  rcases serves with fsm | fsm <;> simp [Port.busyLoads, Port.busyStores, Port.issues, fsm]

/-- A load completes: one attempt that is no miss, and no access left unfinished. -/
theorem PortLaws.loadDone (h : PortLaws p c) (serves : p.servesLoad a) (ctr : e.ctr = c.ctr.load) :
    PortLaws { p with loads := p.loads + p.issues, fsm := .idle } e := by
  obtain ⟨issued, noStore⟩ := Port.issues_of_servesLoad serves
  obtain ⟨loads, stores, missedLoad, missedStore⟩ := h
  constructor <;> rw [ctr] <;> simp only [CacheCounters.load, Port.busyLoads, Port.busyStores] <;> omega

/-- A load waits: one attempt that is a miss, and one access unfinished. -/
theorem PortLaws.loadWaiting (h : PortLaws p c) (serves : p.servesLoad a)
    (ctr : e.ctr = { c.ctr.load.missRd with flush := n }) :
    PortLaws { p with loads := p.loads + p.issues, fsm := .busyLoad a } e := by
  obtain ⟨issued, noStore⟩ := Port.issues_of_servesLoad serves
  obtain ⟨loads, stores, missedLoad, missedStore⟩ := h
  constructor <;> rw [ctr] <;>
    simp only [CacheCounters.load, CacheCounters.missRd, Port.busyLoads, Port.busyStores] <;> omega

theorem PortLaws.storeDone (h : PortLaws p c) (serves : p.servesStore a v)
    (ctr : e.ctr = { c.ctr.store with busUpgr := n }) :
    PortLaws { p with stores := p.stores + p.issues, fsm := .idle } e := by
  obtain ⟨issued, noLoad⟩ := Port.issues_of_servesStore serves
  obtain ⟨loads, stores, missedLoad, missedStore⟩ := h
  constructor <;> rw [ctr] <;> simp only [CacheCounters.store, Port.busyLoads, Port.busyStores] <;> omega

theorem PortLaws.storeWaiting (h : PortLaws p c) (serves : p.servesStore a v)
    (ctr : e.ctr = { c.ctr.store.missRdX with flush := n }) :
    PortLaws { p with stores := p.stores + p.issues, fsm := .busyStore a v } e := by
  obtain ⟨issued, noLoad⟩ := Port.issues_of_servesStore serves
  obtain ⟨loads, stores, missedLoad, missedStore⟩ := h
  constructor <;> rw [ctr] <;>
    simp only [CacheCounters.store, CacheCounters.missRdX, Port.busyLoads, Port.busyStores] <;> omega

/-- What R295 says of a port and its cache follows from the laws, since misses are BusRd and BusRdX alone (R164). -/
theorem PortLaws.bounds (h : PortLaws p c) (counters : CounterLaws c) : p.loads ≤ c.ctr.loads ∧
    p.stores ≤ c.ctr.stores ∧ (p.fsm = .idle → c.ctr.loads + c.ctr.stores = p.loads + p.stores + c.ctr.cacheMisses) := by
  obtain ⟨loads, stores, missedLoad, missedStore⟩ := h
  have misses := counters.misses
  refine ⟨by omega, by omega, fun idle => ?_⟩
  simp only [Port.busyLoads, Port.busyStores, idle] at loads stores
  omega

end

/-! ### What an attempt counts in its own cache (R144 to R149) -/

section
variable {k : PeId} {a v : Word} {s t : State}

theorem cacheLoad_done_ctr (h : cacheLoad k a s = .done v t) : (t.cache k).ctr = (s.cache k).ctr.load := by
  rcases cacheLoad_cases k a s with ⟨_, e⟩ | ⟨_, w, _, e⟩ | ⟨_, _, e⟩
  · cases e.symm.trans h
  · obtain ⟨-, rfl⟩ := Attempt.done.inj (e.symm.trans h)
    rw [State.touch_ctr, State.count_ctr, if_pos rfl]
  · cases e.symm.trans h

theorem cacheLoad_retry_ctr (h : cacheLoad k a s = .retry t) :
    ∃ n, (t.cache k).ctr = { (s.cache k).ctr.load.missRd with flush := n } := by
  rcases cacheLoad_cases k a s with ⟨_, e⟩ | ⟨_, w, _, e⟩ | ⟨_, _, e⟩ <;> cases e.symm.trans h
  obtain ⟨n, own⟩ := (transactionFrame_fill k .read a _ _).own
  exact ⟨n, own.trans (by rw [State.count_ctr, if_pos rfl, State.count_ctr, if_pos rfl])⟩

theorem cacheStore_done_ctr (h : cacheStore k a v s = .done () t) :
    ∃ n, (t.cache k).ctr = { (s.cache k).ctr.store with busUpgr := n } := by
  obtain ⟨-, w, hit⟩ := hit_of_cacheStore_done h
  obtain ⟨-, ctr, -⟩ := cacheStore_done_cache hit h
  exact ⟨_, ctr⟩

theorem cacheStore_retry_ctr (h : cacheStore k a v s = .retry t) :
    ∃ n, (t.cache k).ctr = { (s.cache k).ctr.store.missRdX with flush := n } := by
  rcases cacheStore_cases k a v s with ⟨_, e⟩ | ⟨_, w, _, e⟩ | ⟨_, _, e⟩ <;> cases e.symm.trans h
  obtain ⟨n, own⟩ := (transactionFrame_fill k .invalidate a .E _).own
  exact ⟨n, own.trans (by rw [State.count_ctr, if_pos rfl, State.count_ctr, if_pos rfl])⟩

end

/-! ### Operations that keep the laws of every port -/

/-- If a port and its cache obey the laws in `s`, they do in `t`. -/
def KeepsPortLaws (s t : State) : Prop := ∀ j, PortLaws (s.port j) (s.cache j) → PortLaws (t.port j) (t.cache j)

section
variable {k : PeId} {a v : Word} {s t u : State}

theorem KeepsPortLaws.trans (h : KeepsPortLaws s t) (g : KeepsPortLaws t u) : KeepsPortLaws s u :=
  fun j laws => g j (h j laws)

/-- A port and a cache that a step of another agent may only have snooped (R155 to R160). -/
theorem portLaws_of_snooped {j : PeId} (port : t.port j = s.port j) (counters : SnoopedCounters s t j)
    (laws : PortLaws (s.port j) (s.cache j)) : PortLaws (t.port j) (t.cache j) := by
  obtain ⟨loads, stores, missedLoad, missedStore⟩ := laws
  constructor <;> rw [counters.ctr, port] <;> assumption

theorem keepsPortLaws_of_eq (ports : t.ports = s.ports) (caches : t.caches = s.caches) : KeepsPortLaws s t :=
  fun j => portLaws_of_snooped (by simp only [State.port, ports]) (snoopedCounters_of_eq (by simp only [State.cache, caches]))

theorem keepsPortLaws_raise (m : FaultMark) (s : State) : KeepsPortLaws s (s.raise m) :=
  keepsPortLaws_of_eq (by simp) (by simp)

/-- A broadcast only snoops, and spares its source (R203). -/
theorem keepsPortLaws_broadcast (src : PeId) (kind : SnoopKind) (a : Word) (s : State) :
    KeepsPortLaws s (broadcast src kind a s) := by
  have frame := transactionFrame_broadcast src kind a s
  intro j
  refine portLaws_of_snooped (frame.bus.port j) ?_
  by_cases hj : j = src
  · subst hj
    exact snoopedCounters_of_eq (broadcast_cache_src j kind a s)
  · exact frame.peers j hj

/-- An agent's effects keep the laws of the other ports; its own are left to show. -/
theorem keepsPortLaws_of_effects (h : Effects k s t)
    (own : PortLaws (s.port k) (s.cache k) → PortLaws (t.port k) (t.cache k)) : KeepsPortLaws s t := by
  intro j
  by_cases hj : j = k
  · subst hj
    exact own
  · obtain ⟨-, port, counters⟩ := h.bystander hj
    exact portLaws_of_snooped port counters

/-! ### The ports -/

theorem issueLoad_cache (k : PeId) (a : Word) (s : State) (j : PeId) : (issueLoad k a s).cache j = s.cache j := by
  simp only [State.cache, (sameMemory_issueLoad k a s).caches]

theorem issueStore_cache (k : PeId) (a v : Word) (s : State) (j : PeId) : (issueStore k a v s).cache j = s.cache j := by
  simp only [State.cache, (sameMemory_issueStore k a v s).caches]

theorem keepsPortLaws_portLoad_done (h : portLoad k a s = .done v t) : KeepsPortLaws s t := by
  refine keepsPortLaws_of_effects (effects_portLoad (by rw [h]; rfl)) fun laws => ?_
  rw [portLoad_done_port h]
  obtain ⟨serves, u, attempt, rfl⟩ := portLoad_eq_done h
  have ctr := cacheLoad_done_ctr attempt
  rw [issueLoad_cache] at ctr
  exact laws.loadDone serves ctr

theorem keepsPortLaws_portLoad_waiting (h : portLoad k a s = .waiting t) : KeepsPortLaws s t := by
  refine keepsPortLaws_of_effects (effects_portLoad (by rw [h]; rfl)) fun laws => ?_
  rw [portLoad_waiting_port h]
  obtain ⟨serves, attempt⟩ := portLoad_eq_waiting h
  obtain ⟨n, ctr⟩ := cacheLoad_retry_ctr attempt
  rw [issueLoad_cache] at ctr
  exact laws.loadWaiting serves ctr

theorem keepsPortLaws_portStore_done (h : portStore k a v s = .done () t) : KeepsPortLaws s t := by
  refine keepsPortLaws_of_effects (effects_portStore (by rw [h]; rfl)) fun laws => ?_
  rw [portStore_done_port h]
  obtain ⟨serves, u, attempt, rfl⟩ := portStore_eq_done h
  obtain ⟨n, ctr⟩ := cacheStore_done_ctr attempt
  rw [issueStore_cache] at ctr
  exact laws.storeDone serves ctr

theorem keepsPortLaws_portStore_waiting (h : portStore k a v s = .waiting t) : KeepsPortLaws s t := by
  refine keepsPortLaws_of_effects (effects_portStore (by rw [h]; rfl)) fun laws => ?_
  rw [portStore_waiting_port h]
  obtain ⟨serves, attempt⟩ := portStore_eq_waiting h
  obtain ⟨n, ctr⟩ := cacheStore_retry_ctr attempt
  rw [issueStore_cache] at ctr
  exact laws.storeWaiting serves ctr

/-! ### The instructions -/

theorem keepsPortLaws_execLoad {d r : Reg} (h : exec (.load d r) s = .next t) : KeepsPortLaws s t := by
  rcases execLoad_cases h with ⟨m, rfl⟩ | ⟨v, u, done, rfl⟩ | waiting
  · exact keepsPortLaws_raise m s
  · exact (keepsPortLaws_portLoad_done done).trans (keepsPortLaws_of_eq rfl rfl)
  · exact keepsPortLaws_portLoad_waiting waiting

theorem keepsPortLaws_execStore {d r : Reg} (h : exec (.store d r) s = .next t) : KeepsPortLaws s t := by
  rcases execStore_cases h with ⟨m, rfl⟩ | ⟨u, done, rfl⟩ | waiting
  · exact keepsPortLaws_raise m s
  · exact (keepsPortLaws_portStore_done done).trans (keepsPortLaws_of_eq rfl rfl)
  · exact keepsPortLaws_portStore_waiting waiting

theorem keepsPortLaws_execLoad64 (h : exec (.load64 a) s = .next t) : KeepsPortLaws s t := by
  rcases execLoad64_cases h with ⟨m, rfl⟩ | ⟨v, u, done, rfl⟩ | waiting
  · exact keepsPortLaws_raise m s
  · exact (keepsPortLaws_portLoad_done done).trans (keepsPortLaws_of_eq rfl rfl)
  · exact keepsPortLaws_portLoad_waiting waiting

theorem keepsPortLaws_execStore64 (h : exec (.store64 a v) s = .next t) : KeepsPortLaws s t := by
  rcases execStore64_cases h with ⟨m, rfl⟩ | ⟨u, done, rfl⟩ | waiting
  · exact keepsPortLaws_raise m s
  · exact (keepsPortLaws_portStore_done done).trans (keepsPortLaws_of_eq rfl rfl)
  · exact keepsPortLaws_portStore_waiting waiting

theorem keepsPortLaws_registerOnly {i : Instr} (hi : registerOnly i = true) (h : exec i s = .next t) :
    KeepsPortLaws s t := by
  rcases exec_registerOnly_cases hi h with ⟨f, rfl⟩ | ⟨m, rfl⟩
  · exact keepsPortLaws_of_eq rfl rfl
  · exact keepsPortLaws_raise m s

/-- Every PE instruction and every command a host may queue keeps the laws: a cache is reached through its port alone. -/
theorem keepsPortLaws_exec {i : Instr} (allowed : i.format = .i32 ∨ hostAllowed i = true) (h : exec i s = .next t) :
    KeepsPortLaws s t := by
  cases i with
  | load d r => exact keepsPortLaws_execLoad h
  | store d r => exact keepsPortLaws_execStore h
  | load64 b => exact keepsPortLaws_execLoad64 h
  | store64 b x => exact keepsPortLaws_execStore64 h
  | inv src b => cases h; exact keepsPortLaws_broadcast src .invalidate b s
  | shmRead | shmWrite => cases h; exact keepsPortLaws_of_eq rfl rfl
  | fmul | fadd | inc | dec | jnz | lea | halt => exact keepsPortLaws_registerOnly rfl h
  | _ => rcases allowed with format | host <;> contradiction

end

/-! ### The step -/

theorem HostDuties.mono {s t : State} (h : HostDuties s) (sub : t.cmds ⊆ s.cmds) : HostDuties t :=
  fun c hc => h c (sub hc)

theorem afterCmd_cmds_subset {s u : State} {c : HostCmd} {rest : List HostCmd} (queued : s.cmds = c :: rest) :
    (afterCmd s c rest u).cmds ⊆ s.cmds := by
  show (if cmdFinished c u then rest else s.cmds) ⊆ s.cmds
  split
  · rw [queued]; exact List.subset_cons_self c rest
  · exact List.Subset.refl _

/-- Settles O53: a step executes one instruction at one agent, and each that a PE fetches or a host may queue keeps the laws. -/
theorem portCounterLaws : Obligations.PortCounterLaws := by
  refine ⟨fun s t duties laws h => ?_, fun p c laws counters => laws.bounds counters⟩
  suffices kept : t.cmds ⊆ s.cmds ∧ KeepsPortLaws s t from ⟨duties.mono kept.1, fun j => kept.2 j (laws j)⟩
  have turned : ∀ k, KeepsPortLaws s { s with turn := k } := fun _ => keepsPortLaws_of_eq rfl rfl
  obtain ⟨-, ⟨c, rest, i, u, queued, hi, -, hu, rfl⟩ | ⟨k, -, -, -, -, rfl⟩ | ⟨k, i, u, -, -, -, fetched, hu, rfl⟩⟩ :=
    step_cases h
  · have allowed := duties c (by rw [queued]; exact List.mem_cons_self) i hi
    exact ⟨afterCmd_cmds_subset queued, ((turned c.port).trans (keepsPortLaws_exec (.inr allowed) hu)).trans
      (keepsPortLaws_of_eq (t := afterCmd s c rest u) rfl rfl)⟩
  · exact ⟨List.Subset.refl _, keepsPortLaws_of_eq rfl rfl⟩
  · have format := format_of_fetch fetched
    have cmds : u.reschedule.cmds = s.cmds := (agentOnly_exec format hu).cmds
    exact ⟨cmds ▸ List.Subset.refl _, ((turned k).trans (keepsPortLaws_exec (.inl format) hu)).trans
      (keepsPortLaws_of_eq (t := u.reschedule) rfl rfl)⟩

end Sys2Proof.Machine
end

section
/-! SUPPORT. The register instructions FMUL, FADD, INC, DEC, LEA, JNZ and HALT (spec 44_pe_isa.md R242, R246 to R252): what each
answers, by whether its sources are readable, and what a next state of it can be. -/

namespace Sys2Proof.Machine

/-! ### Source registers (R242, R313, R318) -/

section
variable {s : State} {i : Instr}

/-- With every source before it readable, an unreadable one is raised. -/
theorem withRegs_of_first_unreadable {k : PeId} {before : List Reg} {r : Reg}
    (readable : ∀ q ∈ before, s.readable k q = true) (unreadable : s.readable k r = false) (after : List Reg)
    (run : Host.Outcome State Fault Refusal) :
    withRegs k (before ++ r :: after) s run = .next (s.raise (.unwrittenRegister k r)) := by
  have skipped : before.find? (fun q => !s.readable k q) = none :=
    List.find?_eq_none.2 fun q hq => by simp [readable q hq]
  have found : (before ++ r :: after).find? (fun q => !s.readable k q) = some r := by
    rw [List.find?_append, skipped, Option.none_or, List.find?_cons_of_pos (by simp [unreadable])]
  rw [withRegs, found]

/-- Every instruction reads its source registers before it does anything else. -/
theorem exec_eq_withRegs (i : Instr) (s : State) : ∃ run, exec i s = withRegs s.turn (sourceRegs i) s run := by
  cases i <;> exact ⟨_, rfl⟩

theorem exec_of_first_unreadable {before after : List Reg} {r : Reg} (sources : sourceRegs i = before ++ r :: after)
    (readable : ∀ q ∈ before, s.readable s.turn q = true) (unreadable : s.readable s.turn r = false) :
    exec i s = .next (s.raise (.unwrittenRegister s.turn r)) := by
  obtain ⟨run, e⟩ := exec_eq_withRegs i s
  rw [e, sources, withRegs_of_first_unreadable readable unreadable]

theorem exec_of_source_unreadable {d : Reg} {after : List Reg} (sources : sourceRegs i = d :: after)
    (hd : s.readable s.turn d = false) : exec i s = .next (s.raise (.unwrittenRegister s.turn d)) :=
  exec_of_first_unreadable (before := []) sources (by simp) hd

theorem exec_of_second_unreadable {a b : Reg} (sources : sourceRegs i = [a, b]) (ha : s.readable s.turn a = true)
    (hb : s.readable s.turn b = false) : exec i s = .next (s.raise (.unwrittenRegister s.turn b)) :=
  exec_of_first_unreadable (before := [a]) sources (by simpa using ha) hb

theorem operandsReadable_of_one {d : Reg} (sources : sourceRegs i = [d]) (hd : s.readable s.turn d = true) :
    operandsReadable i s := by
  simpa [operandsReadable, sources] using hd

theorem operandsReadable_of_two {a b : Reg} (sources : sourceRegs i = [a, b]) (ha : s.readable s.turn a = true)
    (hb : s.readable s.turn b = true) : operandsReadable i s := by
  simpa [operandsReadable, sources] using ⟨ha, hb⟩

/-- Under the fault policy the readable registers are the written ones. -/
theorem readable_of_faultUnwritten (h : s.regPolicy = .faultUnwritten) (k : PeId) (r : Reg) :
    s.readable k r = (s.pe k).isWritten r := by
  simp [State.readable, h]

end

/-- Settles O27: under the fault policy an unwritten register is an unreadable one. -/
theorem unwrittenRegisterIsRaised : Obligations.UnwrittenRegisterIsRaised := by
  intro i s before after r sources policy written unwritten
  have readable := readable_of_faultUnwritten policy s.turn
  exact exec_of_first_unreadable sources (fun q hq => (readable q).trans (written q hq)) ((readable r).trans unwritten)

/-! ### The answer with readable sources -/

section
variable {d a b : Reg} {imm : Int} {s : State}

theorem exec_inc (h : operandsReadable (.inc d) s) :
    exec (.inc d) s = finishReg s.turn d (incWord (s.reg s.turn d)) s := withRegs_of_readable h _

theorem exec_dec (h : operandsReadable (.dec d) s) :
    exec (.dec d) s = finishReg s.turn d (decWord (s.reg s.turn d)) s := withRegs_of_readable h _

theorem exec_fmul (h : operandsReadable (.fmul d a b) s) :
    exec (.fmul d a b) s = finishReg s.turn d (fpMul (s.reg s.turn a) (s.reg s.turn b)) s := withRegs_of_readable h _

theorem exec_fadd (h : operandsReadable (.fadd d a b) s) :
    exec (.fadd d a b) s = finishReg s.turn d (fpAdd (s.reg s.turn a) (s.reg s.turn b)) s := withRegs_of_readable h _

theorem exec_lea (h : operandsReadable (.lea d a b imm) s) (shift : shiftAmountOk imm = true) :
    exec (.lea d a b imm) s = finishReg s.turn d (leaWord (s.reg s.turn a) (s.reg s.turn b) imm) s :=
  (withRegs_of_readable h _).trans (if_pos shift)

theorem exec_lea_illFormed (h : operandsReadable (.lea d a b imm) s) (shift : shiftAmountOk imm = false) :
    exec (.lea d a b imm) s = .next (s.raise (.illFormedInstruction s.turn (s.pe s.turn).pc)) :=
  (withRegs_of_readable h _).trans (if_neg (by simp [shift]))

theorem exec_jnz (h : operandsReadable (.jnz d imm) s) :
    exec (.jnz d imm) s = .next (s.modPe s.turn fun p => p.retire (jnzTarget (s.reg s.turn d) p.pc imm)) :=
  withRegs_of_readable h _

theorem exec_halt (s : State) : exec .halt s = .next (s.halt s.turn) := rfl

/-- What the end of a register instruction leaves in its PE. -/
theorem finishReg_result (k : PeId) (d : Reg) (v : Word) (s : State) :
    ∃ t, finishReg k d v s = .next t ∧ t.reg k d = v ∧ (t.pe k).pc = (s.pe k).pc + 1 ∧
      (t.pe k).steps = (s.pe k).steps + 1 :=
  ⟨_, rfl, by simp [State.reg], by simp, by simp⟩

theorem finishReg_result_toNat (k : PeId) (d : Reg) {v : Word} {n : Nat} (hv : v.toNat = n) (s : State) :
    ∃ t, finishReg k d v s = .next t ∧ (t.reg k d).toNat = n ∧ (t.pe k).pc = (s.pe k).pc + 1 ∧
      (t.pe k).steps = (s.pe k).steps + 1 := by
  obtain ⟨t, next, value, moved⟩ := finishReg_result k d v s
  exact ⟨t, next, by rw [value, hv], moved⟩

end

/-! ### The values (R243, R248 to R251) -/

theorem toNat_incWord (v : Word) : (incWord v).toNat = (v.toNat + 1) % 2 ^ 64 := by
  rw [incWord, BitVec.toNat_add]; rfl

theorem toNat_decWord (v : Word) : (decWord v).toNat = (v.toNat + (2 ^ 64 - 1)) % 2 ^ 64 := by
  rw [decWord, BitVec.toNat_sub, Nat.add_comm]; rfl

theorem toNat_leaWord (a b : Word) (imm : Int) :
    (leaWord a b imm).toNat = (a.toNat + b.toNat * 2 ^ imm.toNat % 2 ^ 64) % 2 ^ 64 := by
  rw [leaWord, BitVec.toNat_add, BitVec.toNat_shiftLeft, Nat.shiftLeft_eq]

theorem jnzTarget_of_ne_zero {v : Word} (h : v ≠ 0) (pc imm : Int) : jnzTarget v pc imm = pc + imm := if_neg h

theorem jnzTarget_of_eq_zero {v : Word} (h : v = 0) (pc imm : Int) : jnzTarget v pc imm = pc + 1 := if_pos h

theorem shiftAmountOk_iff {imm : Int} : shiftAmountOk imm = true ↔ 0 ≤ imm ∧ imm ≤ 63 := by
  simp [shiftAmountOk]

/-! ### The instructions -/

/-- Settles O20: with its register readable each writes its value, else it raises. -/
theorem incAndDecResult : Obligations.IncAndDecResult := by
  refine ⟨fun w => decodeI32_inc, fun w => decodeI32_dec, fun d s => ⟨fun hd => ?_, fun hd => ?_⟩⟩
  · rw [exec_inc (operandsReadable_of_one rfl hd), exec_dec (operandsReadable_of_one rfl hd)]
    exact ⟨finishReg_result_toNat _ d (toNat_incWord _) s, finishReg_result_toNat _ d (toNat_decWord _) s⟩
  · exact ⟨exec_of_source_unreadable rfl hd, exec_of_source_unreadable rfl hd⟩

/-- Settles O21: with both sources readable each writes its value, else it raises the first that is not. -/
theorem fmulAndFaddResult : Obligations.FmulAndFaddResult := by
  refine ⟨fun w => decodeI32_fmul, fun w => decodeI32_fadd, fun d a b s => ⟨fun ha hb => ?_, fun ha => ?_, fun ha hb => ?_⟩⟩
  · rw [exec_fmul (operandsReadable_of_two rfl ha hb), exec_fadd (operandsReadable_of_two rfl ha hb)]
    exact ⟨finishReg_result _ _ _ s, finishReg_result _ _ _ s⟩
  · exact ⟨exec_of_source_unreadable rfl ha, exec_of_source_unreadable rfl ha⟩
  · exact ⟨exec_of_second_unreadable rfl ha hb, exec_of_second_unreadable rfl ha hb⟩

/-- Settles O24: the operand test comes first, then the test of the shift amount. -/
theorem leaResult : Obligations.LeaResult := by
  refine ⟨fun w => decodeI32_lea, fun d a b imm s => ⟨fun ha hb low high => ?_, fun ha hb outside => ?_,
    exec_of_source_unreadable rfl, exec_of_second_unreadable rfl⟩⟩
  · rw [exec_lea (operandsReadable_of_two rfl ha hb) (shiftAmountOk_iff.2 ⟨low, high⟩)]
    exact finishReg_result_toNat _ d (toNat_leaWord _ _ _) s
  · refine exec_lea_illFormed (operandsReadable_of_two rfl ha hb) (Bool.eq_false_iff.2 fun shift => ?_)
    have := shiftAmountOk_iff.1 shift
    omega

/-- Settles O25: a readable register decides where the PE goes, an unreadable one is raised. -/
theorem jnzResult : Obligations.JnzResult := by
  refine ⟨fun w => decodeI32_jnz, fun d imm s => ⟨fun hd => ?_, exec_of_source_unreadable rfl⟩⟩
  refine ⟨_, exec_jnz (operandsReadable_of_one rfl hd), fun i => ?regs, fun taken => ?taken, fun zero => ?notTaken, ?steps⟩
  case regs => simp [State.reg]
  case taken => rw [State.pe_modPe_self, Pe.retire_pc, jnzTarget_of_ne_zero taken]
  case notTaken => rw [State.pe_modPe_self, Pe.retire_pc, jnzTarget_of_eq_zero zero]
  case steps => simp

/-- Settles O26: HALT sets one bit of its own PE, and a halted PE is not enabled. -/
theorem haltResult : Obligations.HaltResult := by
  refine ⟨fun w => decodeI32_halt, fun s => ⟨_, exec_halt s, ?pe, ?stopped, rfl, rfl, rfl, rfl⟩⟩
  case pe => simp [State.halt]
  case stopped => simp [State.enabled, State.halt]

/-! ### What a register instruction leaves unchanged (R241) -/

/-- What a register instruction keeps of its PE: every register but its destination, the program, the budget and the start, and
`halted` unless it is HALT. -/
structure RegisterChange (i : Instr) (p q : Pe) : Prop where
  reg : ∀ r, destReg i ≠ some r → q.reg r = p.reg r ∧ q.isWritten r = p.isWritten r
  program : q.program = p.program
  maxSteps : q.maxSteps = p.maxSteps
  halted : i ≠ .halt → q.halted = p.halted
  started : q.started = p.started

theorem registerChange_retire (i : Instr) (p : Pe) (pc : Int) : RegisterChange i p (p.retire pc) :=
  ⟨fun _ _ => ⟨rfl, rfl⟩, rfl, rfl, fun _ => rfl, rfl⟩

theorem registerChange_setReg {i : Instr} {d : Reg} (hd : destReg i = some d) (p : Pe) (v : Word) (pc : Int) :
    RegisterChange i p ((p.setReg d v).retire pc) where
  reg r hr := by
    have other : r ≠ d := fun e => hr (e ▸ hd)
    simp [Pe.reg_setReg, Pe.isWritten_setReg, other]
  program := rfl
  maxSteps := rfl
  halted _ := rfl
  started := rfl

theorem registerChange_halt (p : Pe) : RegisterChange .halt p { p with halted := true } :=
  ⟨fun _ _ => ⟨rfl, rfl⟩, rfl, rfl, fun h => absurd rfl h, rfl⟩

section
variable {i : Instr} {s t : State}

/-- A next state after reading source registers is the run's, or a raise. -/
theorem withRegs_eq_next {k : PeId} {rs : List Reg} {run : Host.Outcome State Fault Refusal}
    (h : withRegs k rs s run = .next t) : run = .next t ∨ ∃ m, t = s.raise m := by
  rcases withRegs_cases k rs s run with ⟨-, e⟩ | ⟨r, -, -, e⟩ <;> rw [e] at h
  · exact .inl h
  · cases h; exact .inr ⟨_, rfl⟩

/-- What a register instruction that answers the next state `t` has done: changed its own PE as it may, or raised. -/
def RegisterStep (i : Instr) (s t : State) : Prop :=
  (∃ f, RegisterChange i (s.pe s.turn) (f (s.pe s.turn)) ∧ t = s.modPe s.turn f) ∨ ∃ m, t = s.raise m

theorem registerStep_of_reads {rs : List Reg} {run : Host.Outcome State Fault Refusal}
    (h : withRegs s.turn rs s run = .next t) (hrun : run = .next t → RegisterStep i s t) : RegisterStep i s t :=
  (withRegs_eq_next h).elim hrun .inr

theorem registerStep_of_finishReg {d : Reg} (hd : destReg i = some d) {v : Word} (h : finishReg s.turn d v s = .next t) :
    RegisterStep i s t := by
  cases h
  exact .inl ⟨_, registerChange_setReg hd _ v _, rfl⟩

theorem registerStep_of_exec (hi : registerOnly i = true) (h : exec i s = .next t) : RegisterStep i s t := by
  cases i with
  | fmul | fadd | inc | dec => exact registerStep_of_reads h (registerStep_of_finishReg rfl)
  | jnz d imm =>
    refine registerStep_of_reads h fun next => ?_
    cases next
    exact .inl ⟨_, registerChange_retire _ _ _, rfl⟩
  | lea d a b imm =>
    refine registerStep_of_reads h fun next => ?_
    split at next
    · exact registerStep_of_finishReg rfl next
    · cases next; exact .inr ⟨_, rfl⟩
  | halt => cases h; exact .inl ⟨_, registerChange_halt _, rfl⟩
  | _ => cases hi

end

/-- A raise that changes the mark found it empty (R316). -/
theorem fault_eq_none_of_raise_ne {s : State} {m : FaultMark} (h : (s.raise m).fault ≠ s.fault) : s.fault = none := by
  rw [State.raise_fault] at h
  cases hf : s.fault with
  | none => rfl
  | some g => simp [hf] at h

/-- Settles O44: a register instruction changes its own PE as `RegisterChange` says, or raises. -/
theorem registerInstructionFrame : Obligations.RegisterInstructionFrame := by
  intro i s t hi h
  obtain ⟨f, ⟨reg, program, maxSteps, halted, started⟩, rfl⟩ | ⟨m, rfl⟩ := registerStep_of_exec hi h
  · dsimp only
    simp only [State.reg, State.pe_modPe_self]
    exact ⟨fun j hj => s.pe_modPe_ne hj f, reg, program, maxSteps, halted, started, rfl, rfl, rfl, rfl, rfl, rfl, rfl, rfl,
      rfl, rfl, fun _ => rfl, fun changed => absurd rfl changed⟩
  · have mark := fault_eq_none_of_raise_ne (s := s) (m := m)
    simpa [State.reg] using mark

end Sys2Proof.Machine
end

section
/-! SUPPORT. What a PE fetches, who steps, and what set_segment writes (spec 44_pe_isa.md R241, R253 to R256, 45_system_step.md
R282, R288, 70_reset_and_hazards.md R340). -/

namespace Sys2Proof.Machine

/-! ### The fetch (R241, R253, R254) -/

section
variable {s : State} {k : PeId}

theorem fetch_eq_instr {w : BitVec 32} {i : Instr} (hpc : 0 ≤ (s.pe k).pc)
    (hw : (s.pe k).program[(s.pe k).pc.toNat]? = some w) (hi : decodeI32 w.toNat = .ok i) : s.fetch k = .instr i := by
  simp only [State.fetch, if_neg (not_lt.2 hpc), hw, hi]

theorem fetch_eq_outside (h : (s.pe k).pc < 0 ∨ ((s.pe k).program.length : Int) ≤ (s.pe k).pc) :
    s.fetch k = .outside := by
  by_cases below : (s.pe k).pc < 0
  · simp only [State.fetch, if_pos below]
  · have past : (s.pe k).program[(s.pe k).pc.toNat]? = none := List.getElem?_eq_none (by omega)
    simp only [State.fetch, if_neg below, past]

theorem agentStep_of_outside (h : s.fetch k = .outside) : agentStep k s = .next (s.halt k).reschedule := by
  rw [agentStep, h]

theorem agentStep_of_instr {i : Instr} (h : s.fetch k = .instr i) :
    agentStep k s = onNext (exec i { s with turn := k }) State.reschedule := by
  rw [agentStep, h]

end

/-- The instruction the decoder reads from the four bytes of a word is the word's. -/
theorem decodeI32_of_decode {w : BitVec 32} {i : Instr} {rest : List Byte}
    (h : decode .i32 (bytesLE 4 w.toNat) = .ok (i, rest)) : decodeI32 w.toNat = .ok i := by
  rw [← List.append_nil (bytesLE 4 w.toNat), decode_i32 [] w.isLt] at h
  obtain ⟨j, hj, e⟩ := except_map_eq_ok h
  cases e
  exact hj

theorem hostCmd_instr_eq {c : HostCmd} {i : Instr} {more : List Byte} (hf : c.fmt ≠ .i32)
    (h : decode c.fmt c.bytes = .ok (i, more)) : c.instr = .ok i := by
  unfold HostCmd.instr
  split
  · contradiction
  · rw [h]; rfl

/-! ### Which step is taken (R282, R340) -/

section
variable {s : State}

theorem step_of_fault {f : FaultMark} (h : s.fault = some f) : step s = .fault (.marked f) := by
  rw [step, h]

theorem step_of_cmd {c : HostCmd} {rest : List HostCmd} (hf : s.fault = none) (hc : s.cmds = c :: rest) :
    step s = hostStep c rest s := by
  rw [step, hf, hc]

theorem step_of_noCmd (hf : s.fault = none) (hc : s.cmds = []) : step s = agentsStep s := by
  rw [step, hf, hc]

theorem step_of_nextAgent {k : PeId} (hf : s.fault = none) (hc : s.cmds = []) (hk : s.nextAgent = some k) :
    step s = agentStep k s := by
  rw [step_of_noCmd hf hc, agentsStep_of_nextAgent hk]

theorem hostStep_of_instr {c : HostCmd} {rest : List HostCmd} {i : Instr} (h : c.instr = .ok i) :
    hostStep c rest s = if writesHeldLine i s then .refused .heldLine
      else onNext (exec i { s with turn := c.port }) (afterCmd s c rest) := by
  rw [hostStep, h]

/-- Agent `k` has a step (R282, R340). -/
theorem enabled_iff {k : PeId} : s.enabled k = true ↔
    s.fault = none ∧ (s.pe k).started = true ∧ (s.pe k).halted = false ∧
      ∀ n, (s.pe k).maxSteps = some n → (s.pe k).steps < n := by
  have budget : (s.pe k).inBudget = true ↔ ∀ n, (s.pe k).maxSteps = some n → (s.pe k).steps < n := by
    unfold Pe.inBudget
    cases (s.pe k).maxSteps <;> simp
  simp [State.enabled, budget, and_assoc]

theorem runOver_iff : s.runOver = true ↔ (∃ k, (s.pe k).started = true) ∧ ∀ k, s.enabled k = false := by
  rw [State.runOver, Bool.and_eq_true, anyStarted_iff, Option.isNone_iff_eq_none, nextAgent_none]

end

/-! ### No instruction answers a fault (R316) -/

/-- The outcome is a next state or a refusal. -/
def NoFault (o : Host.Outcome State Fault Refusal) : Prop := ∀ f, o ≠ .fault f

theorem noFault_next (t : State) : NoFault (.next t) := nofun

theorem noFault_refused (r : Refusal) : NoFault (.refused r) := nofun

theorem noFault_withRegs (k : PeId) (rs : List Reg) (s : State) {run : Host.Outcome State Fault Refusal}
    (h : NoFault run) : NoFault (withRegs k rs s run) := by
  rcases withRegs_cases k rs s run with ⟨-, e⟩ | ⟨r, -, -, e⟩ <;> rw [e]
  · exact h
  · exact noFault_next _

theorem noFault_execLea (d a b : Reg) (imm : Int) (s : State) : NoFault (execLea d a b imm s) := by
  refine noFault_withRegs _ _ s ?_
  split <;> exact noFault_next _

theorem noFault_execLoad (d a : Reg) (s : State) : NoFault (execLoad d a s) := by
  refine noFault_withRegs _ _ s ?_
  cases portLoad s.turn (s.reg s.turn a) s with
  | done | waiting | lineCross => exact noFault_next _
  | busy => exact noFault_refused _

theorem noFault_execStore (d a : Reg) (s : State) : NoFault (execStore d a s) := by
  refine noFault_withRegs _ _ s ?_
  cases portStore s.turn (s.reg s.turn a) (s.reg s.turn d) s with
  | done | waiting | lineCross => exact noFault_next _
  | busy => exact noFault_refused _

/-- A PE instruction raises its faults in a next state. -/
theorem noFault_exec {i : Instr} (hi : i.format = .i32) (s : State) : NoFault (exec i s) := by
  cases i with
  | load d a => exact noFault_execLoad d a s
  | store d a => exact noFault_execStore d a s
  | lea d a b imm => exact noFault_execLea d a b imm s
  | fmul | fadd | inc | dec | jnz => exact noFault_withRegs _ _ s (noFault_next _)
  | halt => exact noFault_next _
  | _ => cases hi

theorem noFault_onNext {o : Host.Outcome State Fault Refusal} (h : NoFault o) (g : State → State) :
    NoFault (onNext o g) := by
  cases o with
  | next t => exact noFault_next _
  | fault f => exact absurd rfl (h f)
  | refused r => exact noFault_refused r

theorem noFault_agentStep (k : PeId) (s : State) : NoFault (agentStep k s) := by
  cases hk : s.fetch k with
  | instr i => rw [agentStep_of_instr hk]; exact noFault_onNext (noFault_exec (format_of_fetch hk) _) _
  | undefined => rw [agentStep_of_undefined hk]; exact noFault_next _
  | outside => rw [agentStep_of_outside hk]; exact noFault_next _

/-- With no record queued a step is a fault exactly when no agent has one (R282, R288, R316). -/
theorem step_fault_iff {s : State} (hc : s.cmds = []) : (∃ f, step s = .fault f) ↔ ∀ k, s.enabled k = false := by
  cases hf : s.fault with
  | some m =>
    have none_enabled (k : PeId) : s.enabled k = false := by simp [State.enabled, hf]
    exact ⟨fun _ => none_enabled, fun _ => ⟨_, step_of_fault hf⟩⟩
  | none =>
    rw [← nextAgent_none]
    cases hk : s.nextAgent with
    | none => simp [step_of_noCmd hf hc, agentsStep_of_none hk]
    | some k => simp [step_of_nextAgent hf hc hk, noFault_agentStep k s _]

/-! ### The statements -/

/-- Settles O9: the word at the pc is what the agent fetches, and the record at the front of the queue what the host runs. -/
theorem stepRunsTheDecodedInstruction : Obligations.StepRunsTheDecodedInstruction := by
  refine ⟨fun s k w i hf hc hk hpc hw hi => ?_, fun s c rest i more hf hc hfmt hi => ?_⟩
  · rw [step_of_nextAgent hf hc hk, agentStep_of_instr (fetch_eq_instr hpc hw (decodeI32_of_decode hi))]
  · rw [step_of_cmd hf hc, hostStep_of_instr (hostCmd_instr_eq hfmt hi)]

/-- Settles O10: such a PE fetches no instruction, and its step sets `halted` and moves the schedule on. -/
theorem peHaltsSilently : Obligations.PeHaltsSilently := by
  intro s k hf hc hk nothing
  have halts : agentStep k s = .next (s.halt k).reschedule := by
    rcases nothing with below | past | ⟨w, hw, undefined⟩
    · exact agentStep_of_outside (fetch_eq_outside (.inl below))
    · exact agentStep_of_outside (fetch_eq_outside (.inr past))
    · rcases lt_or_ge (s.pe k).pc 0 with below | hpc
      · exact agentStep_of_outside (fetch_eq_outside (.inl below))
      · exact agentStep_of_undefined (fetch_eq_undefined hpc hw (decodeI32_undefined undefined))
  have pe (j : PeId) : (s.halt k).reschedule.pe j = if j = k then { s.pe k with halted := true } else s.pe j :=
    s.pe_modPe k j fun p => { p with halted := true }
  exact ⟨_, (step_of_nextAgent hf hc hk).trans halts, (pe k).trans (if_pos rfl), fun j hj => (pe j).trans (if_neg hj), rfl,
    rfl, rfl, rfl, rfl, hf, hc, rfl, rfl⟩

/-- Settles O11: an agent's step is never a fault, so a fault means that none has one. -/
theorem runIsOverWhenNoAgentHasAStep : Obligations.RunIsOverWhenNoAgentHasAStep := by
  refine ⟨fun s k => enabled_iff, fun s hc => ⟨step_fault_iff hc, runOver_iff⟩, fun s hc hf ended => ?_,
    fun s hc hf unstarted => ?_⟩
  · obtain ⟨started, disabled⟩ := runOver_iff.1 ended
    rw [step_of_noCmd hf hc, agentsStep_of_none (nextAgent_none.2 disabled), if_pos (anyStarted_iff.2 started)]
  · have disabled (k : PeId) : s.enabled k = false := by simp [State.enabled, unstarted k]
    have notStarted : ¬s.anyStarted = true := by simp [anyStarted_iff, unstarted]
    rw [step_of_noCmd hf hc, agentsStep_of_none (nextAgent_none.2 disabled), if_neg notStarted]

/-- set_segment writes every register but R4 and R6 (R256). -/
theorem exists_mem_segmentRegs {baseA baseB partialOut len : Word} {i : Reg} :
    (∃ v, (i, v) ∈ segmentRegs baseA baseB partialOut len) ↔ i ≠ 4 ∧ i ≠ 6 := by
  simp only [segmentRegs, List.mem_cons, Prod.mk.injEq, List.not_mem_nil, or_false, exists_or, exists_eq_right]
  revert i
  decide

/-- Settles O19: six registers are written, none of them R4 or R6, and nothing but the PE's register file changes. -/
theorem setSegmentWritesSixRegisters : Obligations.SetSegmentWritesSixRegisters := by
  intro k baseA baseB partialOut len s
  have pe : (setSegment k baseA baseB partialOut len s).pe k =
      (s.pe k).setRegs (segmentRegs baseA baseB partialOut len) := s.pe_modPe_self k _
  have reg (i : Reg) : (setSegment k baseA baseB partialOut len s).reg k i = if i = 7 then len else
      if i = 5 then partialOut else if i = 3 then 0 else if i = 2 then baseB else if i = 1 then baseA else
      if i = 0 then 0 else s.reg k i := by
    simp only [State.reg, pe, segmentRegs, Pe.setRegs, List.foldl_cons, List.foldl_nil, Pe.reg_setReg]
  have written (i : Reg) : ((setSegment k baseA baseB partialOut len s).pe k).isWritten i = true ↔
      (s.pe k).isWritten i = true ∨ i ≠ 4 ∧ i ≠ 6 := by
    rw [pe, Pe.isWritten_setRegs, exists_mem_segmentRegs]
  dsimp only
  refine ⟨reg 0, reg 1, reg 2, reg 3, reg 5, reg 7, fun i hi => ?_, fun i h4 h6 => ?_, ?_,
    fun j hj => s.pe_modPe_ne hj _, rfl⟩
  · have kept : i = 4 ∨ i = 6 → ¬(i ≠ 4 ∧ i ≠ 6) := by tauto
    refine ⟨by rcases hi with rfl | rfl <;> exact reg _, Bool.eq_iff_iff.2 ?_⟩
    rw [written, or_iff_left (kept hi)]
  · exact (written i).2 (.inr ⟨h4, h6⟩)
  · rw [pe]; exact Pe.setRegs_eq _ _

end Sys2Proof.Machine
end

section
/-! SUPPORT. Rounding of a magnitude to binary64 (spec 44_pe_isa.md R257; IEEE-754): the values of the patterns, and that
`fpRound` takes the nearest one, ties to even. -/

namespace Sys2Proof.Machine

/-! ### The values of the magnitude bits -/

/-- A significand at an exponent's place: a carry out of the significand moves to the next exponent. -/
theorem magUnits_significand {e r : Nat} (normal : e = 0 ∨ 2 ^ 52 ≤ r) (h : r ≤ 2 ^ 53) :
    magUnits (e * 2 ^ 52 + r) = r * 2 ^ e := by
  unfold magUnits
  rcases Nat.lt_or_ge r (2 ^ 52) with small | big
  · obtain rfl : e = 0 := by omega
    rw [if_pos (by omega), show (0 * 2 ^ 52 + r) % 2 ^ 52 = r by omega, pow_zero, mul_one]
  rw [if_neg (by omega)]
  rcases Nat.lt_or_eq_of_le h with inside | rfl
  · rw [show (e * 2 ^ 52 + r) / 2 ^ 52 - 1 = e by omega, show 2 ^ 52 + (e * 2 ^ 52 + r) % 2 ^ 52 = r by omega]
  · rw [show (e * 2 ^ 52 + 2 ^ 53) / 2 ^ 52 - 1 = e + 1 by omega,
      show 2 ^ 52 + (e * 2 ^ 52 + 2 ^ 53) % 2 ^ 52 = 2 ^ 52 by omega, pow_succ 2 e]
    ring

/-- Every pattern is a significand at an exponent's place. -/
theorem exists_significand (b : Nat) : ∃ e r, b = e * 2 ^ 52 + r ∧ (e = 0 ∨ 2 ^ 52 ≤ r) ∧ r < 2 ^ 53 :=
  ⟨b / 2 ^ 52 - 1, b - (b / 2 ^ 52 - 1) * 2 ^ 52, by omega, by omega, by omega⟩

theorem magUnits_strictMono : StrictMono magUnits := by
  refine strictMono_nat_of_lt_succ fun b => ?_
  obtain ⟨e, r, rfl, normal, h⟩ := exists_significand b
  rw [Nat.add_assoc, magUnits_significand normal (by omega), magUnits_significand (by omega) (by omega)]
  exact Nat.mul_lt_mul_of_pos_right (Nat.lt_succ_self r) (Nat.two_pow_pos e)

/-- From an exponent on all values are multiples of that exponent's unit. -/
theorem two_pow_dvd_magUnits {b e : Nat} (h : 2 ^ 52 * 2 ^ e ≤ magUnits b) : 2 ^ e ∣ magUnits b := by
  obtain ⟨e', r, rfl, normal, hr⟩ := exists_significand b
  rw [magUnits_significand normal (by omega)] at h ⊢
  have large : 2 ^ (52 + e) < 2 ^ (53 + e') := by
    rw [pow_add, pow_add]
    exact lt_of_le_of_lt h (Nat.mul_lt_mul_of_pos_right hr (Nat.two_pow_pos e'))
  have le : e ≤ e' := by have := (Nat.pow_lt_pow_iff_right (by omega)).1 large; omega
  exact Dvd.dvd.mul_left (pow_dvd_pow 2 le) r

/-- The value of infinity's pattern, in units of 2^2044: the first that is not finite. -/
theorem magUnits_fpInfBits : magUnits fpInfBits = 2 ^ 54 * 2 ^ 2044 := by
  rw [show fpInfBits = 2045 * 2 ^ 52 + 2 ^ 53 from rfl, magUnits_significand (by omega) le_rfl, pow_succ 2 2044]
  omega

/-- The greatest finite value. -/
theorem magUnits_pred_fpInfBits : magUnits (fpInfBits - 1) = (2 ^ 54 - 2) * 2 ^ 2044 := by
  rw [show fpInfBits - 1 = 2045 * 2 ^ 52 + (2 ^ 53 - 1) from rfl, magUnits_significand (by omega) (by omega), pow_succ 2 2044]
  omega

/-! ### Rounding to a multiple of a power of two -/

/-- The multiple at or below a number, the next one, and which of them is taken. -/
theorem divRoundEven_cases (m k : Nat) : ∃ low, low = m / 2 ^ k * 2 ^ k ∧ low ≤ m ∧ m < low + 2 ^ k ∧
    (2 * (m - low) = 2 ^ k → divRoundEven m k % 2 = 0) ∧
    (divRoundEven m k = m / 2 ^ k ∧ 2 * (m - low) ≤ 2 ^ k ∨
      divRoundEven m k = m / 2 ^ k + 1 ∧ 2 ^ k ≤ 2 * (m - low)) := by
  have whole := Nat.div_add_mod' m (2 ^ k)
  have remainder := Nat.mod_lt m (Nat.two_pow_pos k)
  refine ⟨_, rfl, by omega, by omega, ?_⟩
  generalize m / 2 ^ k * 2 ^ k = low at *
  unfold divRoundEven
  dsimp only
  split <;> omega

theorem divRoundEven_bounds (m k : Nat) : m / 2 ^ k ≤ divRoundEven m k ∧ divRoundEven m k ≤ m / 2 ^ k + 1 := by
  obtain ⟨-, -, -, -, -, ⟨down, -⟩ | ⟨up, -⟩⟩ := divRoundEven_cases m k <;> omega

/-! ### Nearest values -/

/-- The value of `b` in units of `2^-(1074+g)`. -/
def scaledMag (g b : Nat) : Nat := magUnits b * 2 ^ g

theorem scaledMag_strictMono (g : Nat) : StrictMono (scaledMag g) :=
  fun _ _ h => Nat.mul_lt_mul_of_pos_right (magUnits_strictMono h) (Nat.two_pow_pos g)

/-- `b` is nearest to `m` among all patterns, those above infinity's included; of two as near it is the even one. -/
def NearestPattern (m g b : Nat) : Prop :=
  ∀ c, natDist m (scaledMag g b) ≤ natDist m (scaledMag g c) ∧
    (natDist m (scaledMag g b) = natDist m (scaledMag g c) → c ≠ b → b % 2 = 0)

/-- The pattern of a rounded quotient is nearest if no value lies strictly between the two multiples around the number. -/
theorem nearestPattern_of_gap {m g k b : Nat} (value : scaledMag g b = divRoundEven m k * 2 ^ k)
    (parity : b % 2 = divRoundEven m k % 2)
    (gap : ∀ c, scaledMag g c ≤ m / 2 ^ k * 2 ^ k ∨ m / 2 ^ k * 2 ^ k + 2 ^ k ≤ scaledMag g c) : NearestPattern m g b := by
  intro c
  have injective : scaledMag g b = scaledMag g c → c = b := fun e => ((scaledMag_strictMono g).injective e).symm
  obtain ⟨low, hlow, below, above, tie, rounded⟩ := divRoundEven_cases m k
  specialize gap c
  rw [← hlow] at gap
  unfold natDist
  rcases rounded with ⟨down, near⟩ | ⟨up, near⟩
  · have low_value : scaledMag g b = low := by rw [value, down, hlow]
    omega
  · have next_value : scaledMag g b = low + 2 ^ k := by rw [value, up, Nat.succ_mul, hlow]
    omega

/-! ### The rounding of `fpRound` -/

/-- The exponent of the last place `fpRound` keeps, in units of `2^-(1074+g)`. -/
def roundPlace (m g : Nat) : Nat := max (Nat.log2 m - 52) g

/-- `fpRound` before the overflow to infinity. -/
def roundUnbounded (m g : Nat) : Nat := (roundPlace m g - g) * 2 ^ 52 + divRoundEven m (roundPlace m g)

theorem fpRound_eq (m g : Nat) : fpRound m g = min (roundUnbounded m g) fpInfBits := rfl

theorem le_roundPlace (m g : Nat) : g ≤ roundPlace m g := Nat.le_max_right ..

theorem quotient_lt (m g : Nat) : m / 2 ^ roundPlace m g < 2 ^ 53 := by
  rw [Nat.div_lt_iff_lt_mul (Nat.two_pow_pos _), ← pow_add]
  exact lt_of_lt_of_le Nat.lt_log2_self (Nat.pow_le_pow_right (by omega) (by unfold roundPlace; omega))

/-- Where low bits are dropped above the smallest place, the significand is normal. -/
theorem le_of_lt_roundPlace {m g : Nat} (h : g < roundPlace m g) : 2 ^ 52 * 2 ^ roundPlace m g ≤ m := by
  have place : roundPlace m g = Nat.log2 m - 52 := by unfold roundPlace at h ⊢; omega
  have nonzero : m ≠ 0 := by rintro rfl; simp [roundPlace] at h
  rw [← pow_add]
  exact le_trans (Nat.pow_le_pow_right (by omega) (by omega)) (Nat.log2_self_le nonzero)

theorem two_pow_roundPlace (m g : Nat) : 2 ^ (roundPlace m g - g) * 2 ^ g = 2 ^ roundPlace m g := by
  rw [← pow_add, Nat.sub_add_cancel (le_roundPlace m g)]

theorem scaledMag_roundUnbounded (m g : Nat) :
    scaledMag g (roundUnbounded m g) = divRoundEven m (roundPlace m g) * 2 ^ roundPlace m g := by
  have bounds := divRoundEven_bounds m (roundPlace m g)
  have upper := quotient_lt m g
  have normal : roundPlace m g - g = 0 ∨ 2 ^ 52 ≤ divRoundEven m (roundPlace m g) := by
    refine (Nat.eq_zero_or_pos _).imp_right fun dropped => le_trans ?_ bounds.1
    exact (Nat.le_div_iff_mul_le (Nat.two_pow_pos _)).2 (le_of_lt_roundPlace (by omega))
  rw [scaledMag, roundUnbounded, magUnits_significand normal (by omega), Nat.mul_assoc, two_pow_roundPlace]

/-- Above the multiple below a number every value is a multiple of the place the number is rounded at. -/
theorem two_pow_roundPlace_dvd {m g c : Nat} (h : m / 2 ^ roundPlace m g * 2 ^ roundPlace m g < scaledMag g c) :
    2 ^ roundPlace m g ∣ scaledMag g c := by
  rw [scaledMag, ← two_pow_roundPlace]
  refine Nat.mul_dvd_mul_right ?_ _
  rcases Nat.eq_or_lt_of_le (le_roundPlace m g) with same | dropped
  · simp [← same]
  · refine two_pow_dvd_magUnits (Nat.le_of_mul_le_mul_right ?_ (Nat.two_pow_pos g))
    rw [Nat.mul_assoc, two_pow_roundPlace]
    refine le_of_lt (lt_of_le_of_lt (Nat.mul_le_mul_right _ ?_) h)
    exact (Nat.le_div_iff_mul_le (Nat.two_pow_pos _)).2 (le_of_lt_roundPlace dropped)

theorem nearestPattern_roundUnbounded (m g : Nat) : NearestPattern m g (roundUnbounded m g) := by
  refine nearestPattern_of_gap (scaledMag_roundUnbounded m g) (by unfold roundUnbounded; omega) fun c => ?_
  refine (Nat.lt_or_ge _ _).symm.imp_right fun above => ?_
  obtain ⟨j, value⟩ := two_pow_roundPlace_dvd above
  rw [value, Nat.mul_comm] at above ⊢
  rw [← Nat.mul_succ]
  exact Nat.mul_le_mul_left _ (Nat.lt_of_mul_lt_mul_left above)

/-- A nearest pattern is finite exactly below the midpoint of the greatest finite value and infinity's. -/
theorem fpInfBits_le_iff {m g b : Nat} (near : NearestPattern m g b) :
    fpInfBits ≤ b ↔ (2 ^ 54 - 1) * 2 ^ (2044 + g) ≤ m := by
  have unit : 0 < 2 ^ (2044 + g) := Nat.two_pow_pos _
  have inf : scaledMag g fpInfBits = 2 ^ 54 * 2 ^ (2044 + g) := by
    rw [scaledMag, magUnits_fpInfBits, Nat.mul_assoc, ← pow_add]
  have pred : scaledMag g (fpInfBits - 1) = (2 ^ 54 - 2) * 2 ^ (2044 + g) := by
    rw [scaledMag, magUnits_pred_fpInfBits, Nat.mul_assoc, ← pow_add]
  generalize 2 ^ (2044 + g) = u at *
  refine ⟨fun above => ?_, fun large => ?_⟩
  · have mono := (scaledMag_strictMono g).monotone above
    have closest := (near (fpInfBits - 1)).1
    unfold natDist at closest
    omega
  · by_contra below
    obtain ⟨closest, tie⟩ := near fpInfBits
    have mono := (scaledMag_strictMono g).monotone (show b ≤ fpInfBits - 1 by omega)
    unfold natDist at closest tie
    have greatest : b = fpInfBits - 1 := (scaledMag_strictMono g).injective (by omega)
    have even := tie (by omega) (by omega)
    rw [greatest] at even
    cases even

/-- `fpRound` rounds once, to nearest, ties to even, and overflows to infinity (R257). -/
theorem nearestEven_fpRound (m g : Nat) : nearestEven m g (fpRound m g) := by
  have near := nearestPattern_roundUnbounded m g
  have overflow := fpInfBits_le_iff near
  unfold nearestEven
  rw [fpRound_eq]
  split
  · next large => exact Nat.min_eq_right (overflow.2 large)
  · next small =>
    have finite : roundUnbounded m g < fpInfBits := Nat.lt_of_not_le fun h => small (overflow.1 h)
    rw [Nat.min_eq_left finite.le]
    exact ⟨finite, fun c _ => near c⟩

end Sys2Proof.Machine
end

section
/-! SUPPORT. The product and the sum of binary64 patterns (spec 44_pe_isa.md R257; IEEE-754), by the classes of the operands. -/

namespace Sys2Proof.Machine

/-! ### The fields of a pattern -/

section
variable {sign mag : Nat}

theorem toNat_fpPack (hs : sign < 2) (hm : mag < 2 ^ 63) : (fpPack sign mag).toNat = sign * 2 ^ 63 + mag := by
  rw [fpPack, BitVec.toNat_ofNat, Nat.mod_eq_of_lt (by omega)]

theorem fpExp_fpPack (hs : sign < 2) (hm : mag < 2 ^ 63) : fpExp (fpPack sign mag) = mag / 2 ^ 52 := by
  rw [fpExp, toNat_fpPack hs hm, slice_eq]; omega

theorem fpFrac_fpPack (hs : sign < 2) (hm : mag < 2 ^ 63) : fpFrac (fpPack sign mag) = mag % 2 ^ 52 := by
  rw [fpFrac, toNat_fpPack hs hm, slice_eq]; omega

end

theorem fpSign_lt (p : Word) : fpSign p < 2 := Nat.mod_lt _ (by omega)

/-- A pattern is determined by its fields. -/
theorem fp_ext {p q : Word} (sign : fpSign p = fpSign q) (exp : fpExp p = fpExp q) (frac : fpFrac p = fpFrac q) : p = q := by
  apply BitVec.eq_of_toNat_eq
  simp only [fpSign, fpExp, fpFrac, slice_eq] at sign exp frac
  omega

theorem fpIsNaN_fpNaN (raw : BitVec 53) : fpIsNaN (fpNaN raw) = true := by
  have sign : slice raw.toNat 52 52 < 2 := Nat.mod_lt _ (by omega)
  have frac : slice raw.toNat 51 0 < 2 ^ 52 := Nat.mod_lt _ (by omega)
  unfold fpNaN
  generalize slice raw.toNat 51 0 = f at *
  have payload : 0 < (if f = 0 then 2 ^ 51 else f) ∧ (if f = 0 then 2 ^ 51 else f) < 2 ^ 52 := by split <;> omega
  dsimp only
  generalize (if f = 0 then 2 ^ 51 else f) = n at *
  have inf : fpInfBits = 2047 * 2 ^ 52 := rfl
  simp only [fpIsNaN, fpExp_fpPack sign (show fpInfBits + n < 2 ^ 63 by omega),
    fpFrac_fpPack sign (show fpInfBits + n < 2 ^ 63 by omega), Bool.and_eq_true, beq_iff_eq, bne_iff_ne]
  omega

/-! ### The classes of patterns -/

section
variable {p q : Word}

theorem fpIsInf_iff : fpIsInf p = true ↔ fpExp p = 2047 ∧ fpFrac p = 0 := by simp [fpIsInf]

theorem fpIsNaN_of_isInf (h : fpIsInf p = true) : fpIsNaN p = false := by simp [fpIsNaN, fpIsInf_iff.1 h]

theorem fpIsZero_of_isInf (h : fpIsInf p = true) : fpIsZero p = false := by simp [fpIsZero, fpIsInf_iff.1 h]

theorem fpIsNaN_of_isZero (h : fpIsZero p = true) : fpIsNaN p = false := by
  simp only [fpIsZero, Bool.and_eq_true, beq_iff_eq] at h
  simp [fpIsNaN, h]

theorem fpIsNaN_of_finite (h : fpFinite p = true) : fpIsNaN p = false := by
  simp only [fpFinite, bne_iff_ne] at h; simp [fpIsNaN, h]

theorem fpIsInf_of_finite (h : fpFinite p = true) : fpIsInf p = false := by
  simp only [fpFinite, bne_iff_ne] at h; simp [fpIsInf, h]

/-- The infinity of a sign is one pattern. -/
theorem eq_of_isInf (hp : fpIsInf p = true) (hq : fpIsInf q = true) (sign : fpSign p = fpSign q) : p = q := by
  obtain ⟨expP, fracP⟩ := fpIsInf_iff.1 hp
  obtain ⟨expQ, fracQ⟩ := fpIsInf_iff.1 hq
  exact fp_ext sign (expP.trans expQ.symm) (fracP.trans fracQ.symm)

/-! ### The product -/

theorem fpMul_of_nan (h : fpIsNaN p = true ∨ fpIsNaN q = true) : fpIsNaN (fpMul p q) = true := by
  have nan : (fpIsNaN p || fpIsNaN q) = true := Bool.or_eq_true_iff.2 h
  simp only [fpMul, nan, if_true, fpIsNaN_fpNaN]

theorem fpMul_of_inf_zero (hp : fpIsNaN p = false) (hq : fpIsNaN q = false) (inf : (fpIsInf p || fpIsInf q) = true)
    (zero : (fpIsZero p || fpIsZero q) = true) : fpIsNaN (fpMul p q) = true := by
  simp [fpMul, hp, hq, inf, zero, fpIsNaN_fpNaN]

theorem fpMul_of_inf (hp : fpIsNaN p = false) (hq : fpIsNaN q = false) (inf : (fpIsInf p || fpIsInf q) = true)
    (nonzero : (fpIsZero p || fpIsZero q) = false) : fpMul p q = fpPack ((fpSign p + fpSign q) % 2) fpInfBits := by
  simp [fpMul, hp, hq, inf, nonzero]

theorem fpMul_of_finite (hp : fpFinite p = true) (hq : fpFinite q = true) :
    fpMul p q = fpPack ((fpSign p + fpSign q) % 2) (fpRound (fpMag p * fpMag q) 1074) := by
  simp [fpMul, fpIsNaN_of_finite, fpIsInf_of_finite, hp, hq]

/-! ### The sum -/

theorem fpAdd_of_nan (h : fpIsNaN p = true ∨ fpIsNaN q = true) : fpIsNaN (fpAdd p q) = true := by
  have nan : (fpIsNaN p || fpIsNaN q) = true := Bool.or_eq_true_iff.2 h
  simp only [fpAdd, nan, if_true, fpIsNaN_fpNaN]

theorem fpAdd_of_opposite_infs (hp : fpIsInf p = true) (hq : fpIsInf q = true) (sign : fpSign p ≠ fpSign q) :
    fpIsNaN (fpAdd p q) = true := by
  simp [fpAdd, fpIsNaN_of_isInf, hp, hq, sign, fpIsNaN_fpNaN]

theorem fpAdd_of_left_inf (hp : fpIsInf p = true) (hq : fpIsNaN q = false)
    (sign : fpIsInf q = true → fpSign p = fpSign q) : fpAdd p q = p := by
  simp +contextual [fpAdd, fpIsNaN_of_isInf, hp, hq, sign]

theorem fpAdd_of_right_inf (hp : fpIsNaN p = false) (finite : fpIsInf p = false) (hq : fpIsInf q = true) :
    fpAdd p q = q := by
  simp [fpAdd, fpIsNaN_of_isInf, hp, hq, finite]

theorem fpAdd_of_finite (hp : fpFinite p = true) (hq : fpFinite q = true) : fpAdd p q =
    fpPack (if fpInt p + fpInt q = 0 then fpSign p * fpSign q else if fpInt p + fpInt q < 0 then 1 else 0)
      (fpRound (fpInt p + fpInt q).natAbs 0) := by
  simp [fpAdd, fpIsNaN_of_finite, fpIsInf_of_finite, hp, hq]

end

theorem fpRound_zero : fpRound 0 0 = 0 := by decide

/-- The exact zero sum has the sign bit only when both operands have it. -/
theorem fpSign_mul (p q : Word) : fpSign p * fpSign q = if fpSign p = 1 ∧ fpSign q = 1 then 1 else 0 := by
  have signs : ∀ x < 2, ∀ y < 2, x * y = if x = 1 ∧ y = 1 then 1 else 0 := by decide
  exact signs _ (fpSign_lt p) _ (fpSign_lt q)

/-! ### The statements -/

/-- A pattern made by `fpRound` has the nearest magnitude. -/
theorem fpPack_fpRound (sign m g : Nat) : ∃ b, fpPack sign (fpRound m g) = fpPack sign b ∧ nearestEven m g b :=
  ⟨_, rfl, nearestEven_fpRound m g⟩

/-- Settles O22: both round an exact value once, and `fpRound` is nearest with ties to even. -/
theorem floatingPointIsCorrectlyRounded : Obligations.FloatingPointIsCorrectlyRounded := by
  intro p q hp hq
  rw [fpMul_of_finite hp hq, fpAdd_of_finite hp hq]
  refine ⟨fpPack_fpRound _ _ _, fun zero => ?_, fun nonzero => ?_⟩
  · rw [if_pos zero, zero, Int.natAbs_zero, fpRound_zero, fpSign_mul]
  · rw [if_neg nonzero]; exact fpPack_fpRound _ _ _

/-- Settles O23: one lemma of the product or the sum for each class of operands. -/
theorem floatingPointSpecialValues : Obligations.FloatingPointSpecialValues := by
  refine fun p q => ⟨fun nan => ⟨fpMul_of_nan nan, fpAdd_of_nan nan⟩, fun inf zero => ?_, fun inf hq nonzero => ?_,
    fpAdd_of_opposite_infs, fun inf hq sign => ⟨fpAdd_of_left_inf inf hq fun h => (sign h).symm, ?_⟩⟩
  · have hp := fpIsNaN_of_isInf inf
    have hq := fpIsNaN_of_isZero zero
    exact ⟨fpMul_of_inf_zero hp hq (by simp [inf]) (by simp [zero]), fpMul_of_inf_zero hq hp (by simp [inf]) (by simp [zero])⟩
  · have hp := fpIsNaN_of_isInf inf
    have nonzeroP := fpIsZero_of_isInf inf
    rw [fpMul_of_inf hp hq (by simp [inf]) (by simp [nonzeroP, nonzero]),
      fpMul_of_inf hq hp (by simp [inf]) (by simp [nonzeroP, nonzero]), Nat.add_comm (fpSign q)]
    exact ⟨rfl, rfl⟩
  · cases infQ : fpIsInf q with
    | true => rw [eq_of_isInf infQ inf (sign infQ)]; exact fpAdd_of_left_inf inf (fpIsNaN_of_isInf inf) fun _ => rfl
    | false => exact fpAdd_of_right_inf hq infQ inf

end Sys2Proof.Machine
end

section
/-! SUPPORT. Coherence read one line at a time (spec 45_system_step.md R290 to R294): what the frames, the slot and the
bytes of one line owe each other, and the two changes that keep it. -/

namespace Sys2Proof.Machine

/-! ### One line -/

/-- The local part of R290: an invalid frame is in I, and a frame is dirty exactly when it is in M. -/
def Line.Wf (l : Line) : Prop := (l.valid = false → l.state = .I) ∧ (l.dirty = true ↔ l.state = .M)

/-- Way `w` of cache `j` holds the line with tag `t` of set `e`. -/
abbrev State.Holds (s : State) (e : SetIx) (t : Tag) (j : PeId) (w : WayIx) : Prop := (s.frame j e w).holds t = true

/-- `l` is what memory `m` has at line base `b`, if it backs the line. -/
def InMemory (m : List Host.Cell) (b : Word) (l : LineData) : Prop :=
  backed b → ∀ i < 32, lineByte l i = memRead m (b.toNat + i)

/-- The line with tag `t` of set `e` is coherent, but that its slot may be held: one frame holds it, or several caches in S;
a clean copy and the slot are what the memory has. -/
structure LineAgrees (e : SetIx) (t : Tag) (s : State) : Prop where
  shared : ∀ {j w k v}, s.Holds e t j w → s.Holds e t k v → k = j ∧ v = w ∨ k ≠ j ∧ (s.frame j e w).state = .S
  clean : ∀ {j w}, s.Holds e t j w → (s.frame j e w).state ≠ .M → InMemory s.shm.mem (lineBase t e) (s.frame j e w).data
  slot : ∀ {l}, mapFind (lineBase t e).toNat s.staging = some l → InMemory s.shm.mem (lineBase t e) l

/-- The line with tag `t` of set `e` is coherent: a slot of it is held by no cache (R294). -/
structure LineCoherent (e : SetIx) (t : Tag) (s : State) : Prop extends LineAgrees e t s where
  unheld : ∀ {l j w}, mapFind (lineBase t e).toNat s.staging = some l → ¬s.Holds e t j w

/-- Every line is coherent. -/
abbrev LinesCoherent (s : State) : Prop := ∀ e t, LineCoherent e t s

/-- The keys of the staging map are line bases (R29). -/
def StagingKeys (s : State) : Prop := ∀ p ∈ s.staging, p.1 % 32 = 0 ∧ p.1 < 2 ^ 64

theorem Line.holds_own_tag {l : Line} (h : l.live = true) : l.holds l.tag = true := by
  obtain ⟨valid, state⟩ := l.live_iff.1 h
  exact (l.holds_iff _).2 ⟨valid, rfl, state⟩

/-- Every line base below 2^64 is the base of some set and tag. -/
theorem exists_lineBase {n : Nat} (aligned : n % 32 = 0) (small : n < 2 ^ 64) : ∃ e t, (lineBase t e).toNat = n := by
  refine ⟨setOf (BitVec.ofNat 64 n), tagOf (BitVec.ofNat 64 n), ?_⟩
  rw [lineBase_tagOf_setOf, baseOf_toNat, BitVec.toNat_ofNat, Nat.mod_eq_of_lt small]
  omega

/-- A byte lies in one line. -/
theorem lineBase_eq_of_inLine {e e' : SetIx} {t t' : Tag} {x : Nat} (h : inLine x (lineBase t e).toNat)
    (h' : inLine x (lineBase t' e').toNat) : e = e' ∧ t = t' := by
  have := lineBase_mod t e
  have := lineBase_mod t' e'
  exact (lineBase_inj (by omega)).symm

/-- A coherent state is one whose every line is coherent … -/
theorem Coherent.lines {s : State} (hs : Coherent s) : LinesCoherent s := by
  refine fun e t => ⟨⟨fun {j w k v} hj hk => ?_, fun {j w} held clean => ?_, fun slot hb => ?_⟩, fun {l j w} slot held => ?_⟩
  · by_cases cache : k = j
    · subst cache
      exact .inl ⟨rfl, hs.way_unique (x := lineBase t e) (by simpa using hj) (by simpa using hk)⟩
    · exact .inr ⟨cache, hs.shared j k e w v (Ne.symm cache) (Line.live_of_holds hj) (Line.live_of_holds hk)
        ((Line.tag_of_holds hj).trans (Line.tag_of_holds hk).symm)⟩
  · have memory := hs.clean j e w (Line.live_of_holds held) clean
    rwa [Line.tag_of_holds held] at memory
  · exact hs.staging.match_memory _ (mapFind_some_mem slot) hb
  · exact hs.staging.unheld _ (mapFind_some_mem slot) j e w (Line.live_of_holds held) (by rw [Line.tag_of_holds held])

/-- … whose frames are well formed, and whose staging map is canonical. -/
theorem coherent_of_lines {s : State} (wf : ∀ j e w, (s.frame j e w).Wf) (sorted : mapSorted s.staging = true)
    (keys : StagingKeys s) (lines : LinesCoherent s) : Coherent s where
  frames :=
    { invalidIsI := fun j e w => (wf j e w).1
      dirtyIffM := fun j e w => (wf j e w).2
      tagOnce := fun j e live0 live1 sameTag => by
        rcases (lines e _).shared (Line.holds_own_tag live0) (sameTag ▸ Line.holds_own_tag live1) with ⟨-, way⟩ | ⟨ne, -⟩
        · cases way
        · exact ne rfl }
  shared := fun j k e w v ne live live' sameTag =>
    (((lines e _).shared (Line.holds_own_tag live) (sameTag ▸ Line.holds_own_tag live')).resolve_left
      fun same => ne same.1.symm).2
  clean := fun j e w live clean => (lines e _).clean (Line.holds_own_tag live) clean
  staging :=
    { sorted := sorted
      keys := keys
      unheld := fun p hp j e w live base =>
        (lines e _).unheld (base ▸ mapFind_of_mem sorted hp) (Line.holds_own_tag live)
      match_memory := fun p hp hb => by
        obtain ⟨e, t, base⟩ := exists_lineBase (keys p hp).1 (keys p hp).2
        have memory := (lines e t).slot (base ▸ mapFind_of_mem sorted hp)
        rw [InMemory, backed, base] at memory
        exact memory hb }

/-! ### The changes that keep a line coherent -/

/-- The frame `m` that replaces `l` has of the line with tag `t` what `l` had, in the same state or in S from a clean one,
or does not hold it. -/
def Line.Relaxes (t : Tag) (l m : Line) : Prop :=
  m.holds t = true → l.holds t = true ∧ m.data = l.data ∧ (m.state = l.state ∨ m.state = .S ∧ l.state ≠ .M)

theorem Line.Relaxes.refl (t : Tag) (l : Line) : l.Relaxes t l := fun h => ⟨h, rfl, .inl rfl⟩

/-- From `s` to `u` the line keeps its slot, if it has one still, and its bytes. -/
structure SameStore (e : SetIx) (t : Tag) (s u : State) : Prop where
  slot : ∀ {l}, mapFind (lineBase t e).toNat u.staging = some l → mapFind (lineBase t e).toNat s.staging = some l
  bytes : ∀ i < 32, memRead u.shm.mem ((lineBase t e).toNat + i) = memRead s.shm.mem ((lineBase t e).toNat + i)

/-- From `s` to `u` no frame comes to hold the line, and its slot and bytes stay. -/
structure LineShrinks (e : SetIx) (t : Tag) (s u : State) : Prop extends SameStore e t s u where
  frames : ∀ j w, (s.frame j e w).Relaxes t (u.frame j e w)

/-- From `s` to `u` the one frame that holds the line, in M, has written it to its slot and to the memory. -/
structure LineFlushed (e : SetIx) (t : Tag) (j : PeId) (w : WayIx) (s u : State) : Prop where
  frames : ∀ {k v}, u.Holds e t k v → s.Holds e t k v ∧ (u.frame k e v).data = (s.frame k e v).data
  slot : mapFind (lineBase t e).toNat u.staging = some (s.frame j e w).data
  memory : InMemory u.shm.mem (lineBase t e) (s.frame j e w).data

section
variable {e : SetIx} {t : Tag} {s u : State} {j : PeId} {w : WayIx} {l : LineData}

theorem SameStore.refl (e : SetIx) (t : Tag) (s : State) : SameStore e t s s := ⟨id, fun _ _ => rfl⟩

theorem SameStore.inMemory (h : SameStore e t s u) (memory : InMemory s.shm.mem (lineBase t e) l) :
    InMemory u.shm.mem (lineBase t e) l := fun hb i hi => by rw [h.bytes i hi, memory hb i hi]

theorem LineAgrees.shrink (h : LineAgrees e t s) (step : LineShrinks e t s u) : LineAgrees e t u where
  shared := fun {j w k v} hj hk => by
    obtain ⟨held, -, state⟩ := step.frames j w hj
    refine (h.shared held (step.frames k v hk).1).imp_right (And.imp_right fun shared => ?_)
    rw [shared] at state
    exact state.elim id And.left
  clean := fun {j w} hj clean => by
    obtain ⟨held, data, state⟩ := step.frames j w hj
    rw [data]
    exact step.inMemory (h.clean held (state.elim (fun same => same ▸ clean) And.right))
  slot := fun slot => step.inMemory (h.slot (step.slot slot))

theorem LineCoherent.shrink (h : LineCoherent e t s) (step : LineShrinks e t s u) : LineCoherent e t u where
  toLineAgrees := h.toLineAgrees.shrink step
  unheld slot held := h.unheld (step.slot slot) (step.frames _ _ held).1

/-- The holder of a line in M is its only holder. -/
theorem LineAgrees.sole (h : LineAgrees e t s) (held : s.Holds e t j w) (modified : (s.frame j e w).state = .M) {k : PeId}
    {v : WayIx} (hk : s.Holds e t k v) : k = j ∧ v = w :=
  (h.shared held hk).resolve_right fun shared => by simp [modified] at shared

theorem LineAgrees.flush (h : LineAgrees e t s) (held : s.Holds e t j w) (modified : (s.frame j e w).state = .M)
    (step : LineFlushed e t j w s u) : LineAgrees e t u where
  shared := fun hj hk => by
    obtain ⟨rfl, rfl⟩ := h.sole held modified (step.frames hj).1
    exact .inl (h.sole held modified (step.frames hk).1)
  clean := fun hj _ => by
    obtain ⟨before, data⟩ := step.frames hj
    obtain ⟨rfl, rfl⟩ := h.sole held modified before
    rw [data]
    exact step.memory
  slot := fun slot => by
    cases step.slot.symm.trans slot
    exact step.memory

end

/-- A backed Flush puts its line into the memory (R196). -/
theorem inMemory_handleFlush {s : State} (hs : Canonical s) (k : PeId) (a : Word) (p : LineData) :
    InMemory (handleFlush k a p s).shm.mem (baseOf a) p := fun hb i hi => by
  rw [memRead_handleFlush_of_backed hs.memory hb, if_pos ⟨by omega, by omega⟩, Nat.add_sub_cancel_left]

/-- What is done outside the line of `a` keeps the slot and the bytes of every other line. -/
theorem OutsideLine.sameStore {a : Word} {e : SetIx} {t : Tag} {s u : State} (h : OutsideLine (baseOf a).toNat s u)
    (hs : Canonical s) (other : ¬(e = setOf a ∧ t = tagOf a)) : SameStore e t s u where
  slot := fun slot => by
    rwa [h.slots _ (fun base => ?_) hs.staging] at slot
    rw [← lineBase_tagOf_setOf] at base
    exact other (lineBase_inj base).symm
  bytes := fun i hi => h.mem (memory_wf_sorted hs.memory) _ fun inside => by
    rw [← lineBase_tagOf_setOf] at inside
    exact other (lineBase_eq_of_inLine ⟨by omega, by omega⟩ inside)

/-! ### Keys of the staging map, and states that keep coherence -/

theorem Effect.stagingKeys {k : PeId} {s t : State} (h : Effect k s t) (hs : StagingKeys s) : StagingKeys t := by
  cases h with
  | flush j a p =>
    intro q hq
    rw [handleFlush_staging] at hq
    rcases mem_mapInsert hq with rfl | old
    · exact ⟨baseOf_mod a, (baseOf a).isLt⟩
    · exact hs q old
  | source b j =>
    intro q hq
    rw [sourceLine_staging] at hq
    split at hq
    · exact hs q (mem_mapErase hq)
    · exact hs q hq
  | count | touch | record | frame | port | pe | control | shmRead | shmWrite => exact hs

theorem Effects.stagingKeys {k : PeId} {s t : State} (h : Effects k s t) (hs : StagingKeys s) : StagingKeys t := by
  induction h with
  | refl => exact hs
  | tail _ e ih => exact e.stagingKeys ih

/-- From `s` to `t` coherence is kept, and the canonical form of memory. -/
def KeepsCoherence (s t : State) : Prop :=
  Coherent s → Memory.wf s.shm.mem = true → Coherent t ∧ Memory.wf t.shm.mem = true

theorem KeepsCoherence.trans {s t u : State} (h : KeepsCoherence s t) (g : KeepsCoherence t u) : KeepsCoherence s u :=
  fun coherent memory => (h coherent memory).elim g

theorem SameData.keepsCoherence {s t : State} (h : SameData s t) : KeepsCoherence s t :=
  fun coherent memory => ⟨h.coherent coherent, h.mem ▸ memory⟩

/-- A chain of effects keeps coherence if it keeps each frame well formed and each line coherent. -/
theorem Effects.keepsCoherence {k : PeId} {s t : State} (effects : Effects k s t)
    (frames : Coherent s → (∀ j e w, (s.frame j e w).Wf) → ∀ j e w, (t.frame j e w).Wf)
    (lines : Coherent s → Canonical s → LinesCoherent t) : KeepsCoherence s t := fun coherent memory => by
  have before : Canonical s := ⟨memory, coherent.staging.sorted⟩
  have after := effects.canonical before
  have wf := frames coherent fun j e w => ⟨coherent.frames.invalidIsI j e w, coherent.frames.dirtyIffM j e w⟩
  exact ⟨coherent_of_lines wf after.staging (effects.stagingKeys coherent.staging.keys) (lines coherent before), after.memory⟩

end Sys2Proof.Machine
end

section
/-! SUPPORT. The bus operations and the cache attempts keep coherence (spec 41_cache_controller.md R144 to R160,
42_interconnect.md R193 to R202, 45_system_step.md R290 to R294). -/

namespace Sys2Proof.Machine

/-! ### Frames -/

theorem wf_installedLine (a : Word) (line : LineData) (new : Mesi) : (installedLine a line new).Wf := by
  simp [Line.Wf, installedLine]

theorem wf_snoopedLine {l : Line} (h : l.Wf) (kind : SnoopKind) (a : Word) (e : SetIx) : (snoopedLine kind a e l).Wf := by
  obtain ⟨invalid, dirty⟩ := h
  refine ⟨invalidInI_snoopedLine invalid, ?_⟩
  unfold snoopedLine
  split
  · cases kind <;> cases state : l.state <;> simp [state, dirty]
  · exact dirty

theorem wf_storedLine {l : Line} {t : Tag} (h : l.Wf) (held : l.holds t = true) (a v : Word) : (storedLine l a v).Wf := by
  obtain ⟨valid, -, -⟩ := (l.holds_iff t).1 held
  by_cases modified : l.state = .M
  · simp [Line.Wf, storedLine, modifiedLine, valid, modified, h.2]
  · simp [Line.Wf, storedLine, modifiedLine, valid, modified]

/-- A frame that holds a line after a snoop held it before, with the same data, and in the same state or, if it is the addressed
line, in S. -/
theorem snoopedLine_of_holds {kind : SnoopKind} {a : Word} {e : SetIx} {l : Line} {t : Tag}
    (h : (snoopedLine kind a e l).holds t = true) : l.holds t = true ∧ (snoopedLine kind a e l).data = l.data ∧
      ((snoopedLine kind a e l).state = l.state ∨ (snoopedLine kind a e l).state = .S ∧ e = setOf a ∧ t = tagOf a) := by
  by_cases hit : snoopHit a e l = true
  · obtain ⟨set, -, tag⟩ := (snoopHit_iff _ _ _).1 hit
    unfold snoopedLine at h ⊢
    rw [if_pos hit] at h ⊢
    cases kind <;> cases state : l.state <;> simp_all [Line.holds]
  · have same : snoopedLine kind a e l = l := if_neg hit
    rw [same] at h ⊢
    exact ⟨h, rfl, .inl rfl⟩

/-- A snoop of a frame relaxes it, unless it flushes it. -/
theorem relaxes_snoopedLine {kind : SnoopKind} {a : Word} {e : SetIx} {l : Line} {t : Tag}
    (clean : e = setOf a → t = tagOf a → l.holds t = true → l.state ≠ .M) : l.Relaxes t (snoopedLine kind a e l) := by
  intro held
  obtain ⟨before, data, same | ⟨shared, set, tag⟩⟩ := snoopedLine_of_holds held
  · exact ⟨before, data, .inl same⟩
  · exact ⟨before, data, .inr ⟨shared, clean set tag before⟩⟩

/-! ### Snoops (R154 to R160, R203) -/

/-- The snoop of one way keeps the addressed line coherent, but that the slot it writes may be held: a clean frame is relaxed, a
dirty one flushed. -/
theorem lineAgrees_snoopWay {s : State} {a : Word} (hs : Canonical s) (h : LineAgrees (setOf a) (tagOf a) s) (i : PeId)
    (kind : SnoopKind) (v : WayIx) : LineAgrees (setOf a) (tagOf a) (snoopWay i kind a v s) := by
  by_cases dirty : s.Holds (setOf a) (tagOf a) i v ∧ (s.frame i (setOf a) v).state = .M
  · obtain ⟨shm, staging, -⟩ := snoopWay_bus_of_dirty (kind := kind) dirty.1 dirty.2
    refine h.flush dirty.1 dirty.2 ⟨fun {k w} held => ?_, ?_, ?_⟩
    · rw [snoopWay_frame]
      rw [State.Holds, snoopWay_frame] at held
      split at held
      · next here => rw [if_pos here]; exact (snoopedLine_of_holds held).imp_right And.left
      · next other => rw [if_neg other]; exact ⟨held, rfl⟩
    · rw [staging, lineBase_tagOf_setOf, mapFind_handleFlush]
    · rw [shm, lineBase_tagOf_setOf]
      exact inMemory_handleFlush hs _ a _
  · obtain ⟨shm, staging, -⟩ := snoopWay_bus_of_clean (kind := kind) fun held modified => dirty ⟨held, modified⟩
    refine h.shrink ⟨⟨by rw [staging]; exact id, by rw [shm]; exact fun _ _ => rfl⟩, fun j w => ?_⟩
    rw [snoopWay_frame]
    split
    · next here =>
      obtain ⟨rfl, rfl⟩ := here
      exact relaxes_snoopedLine fun _ _ held modified => dirty ⟨held, modified⟩
    · exact .refl _ _

theorem lineAgrees_broadcast {s : State} {a : Word} (hs : Canonical s) (h : LineAgrees (setOf a) (tagOf a) s) (src : PeId)
    (kind : SnoopKind) : LineAgrees (setOf a) (tagOf a) (broadcast src kind a s) := by
  have way : ∀ i v s, Canonical s ∧ LineAgrees (setOf a) (tagOf a) s →
      Canonical (snoopWay i kind a v s) ∧ LineAgrees (setOf a) (tagOf a) (snoopWay i kind a v s) :=
    fun i v s h => ⟨(outsideLine_snoopWay i kind a v s).canonical h.1, lineAgrees_snoopWay h.1 h.2 i kind v⟩
  exact (broadcast_induction
    (fun s t => Canonical s ∧ LineAgrees (setOf a) (tagOf a) s → Canonical t ∧ LineAgrees (setOf a) (tagOf a) t)
    (fun _ => id) (fun _ _ _ h g => g ∘ h) (fun j s _ => way j 1 _ ∘ way j 0 s) s ⟨hs, h⟩).2

/-- A broadcast takes no other line's slot or bytes, and only relaxes its frames. -/
theorem lineShrinks_broadcast {s : State} {a : Word} {e : SetIx} {t : Tag} (hs : Canonical s)
    (other : ¬(e = setOf a ∧ t = tagOf a)) (src : PeId) (kind : SnoopKind) : LineShrinks e t s (broadcast src kind a s) where
  toSameStore := (outsideLine_broadcast src kind a s).sameStore hs other
  frames j w := by
    rw [broadcast_frame]
    split
    · exact .refl _ _
    · exact relaxes_snoopedLine fun set tag => absurd ⟨set, tag⟩ other

theorem wf_broadcast {s : State} (h : ∀ j e w, (s.frame j e w).Wf) (src : PeId) (kind : SnoopKind) (a : Word) (j : PeId)
    (e : SetIx) (w : WayIx) : ((broadcast src kind a s).frame j e w).Wf := by
  rw [broadcast_frame]
  split
  · exact h j e w
  · exact wf_snoopedLine (h j e w) kind a e

/-- An invalidation leaves no slot of a held line: it spares its source alone, and when that holds the line no peer has anything
to flush. -/
theorem lineCoherent_emitInvalidate {s : State} (hs : Coherent s) (canonical : Canonical s) (src : PeId) (a : Word) :
    LineCoherent (setOf a) (tagOf a) (emitInvalidate src a s) := by
  refine ⟨lineAgrees_broadcast canonical (hs.lines _ _).toLineAgrees src .invalidate, fun {l j w} slot held => ?_⟩
  by_cases own : j = src
  · subst own
    rw [State.Holds, emitInvalidate, broadcast_frame, if_pos rfl] at held
    rw [emitInvalidate, (broadcast_bus_of_clean fun i hi => hs.noDirtyHit_of_holds held hi).2.1] at slot
    exact (hs.lines _ _).unheld slot held
  · cases (holds_broadcast_invalidate own a s w).symm.trans held

theorem keepsCoherence_emitInvalidate (src : PeId) (a : Word) (s : State) : KeepsCoherence s (emitInvalidate src a s) := by
  refine (effects_broadcast src src .invalidate a s).keepsCoherence (fun _ wf => wf_broadcast wf src .invalidate a)
    fun hs canonical e t => ?_
  by_cases addressed : e = setOf a ∧ t = tagOf a
  · obtain ⟨rfl, rfl⟩ := addressed
    exact lineCoherent_emitInvalidate hs canonical src a
  · exact (hs.lines e t).shrink (lineShrinks_broadcast canonical addressed src .invalidate)

/-! ### Installing a line (R151 to R153) -/

/-- The state in which cache `k` installs the line `line` at address `a` in state `new`: every line is coherent, the addressed
one is in the memory as delivered and has no slot, and of the caches only others hold it, in S, and only if `new` is S. -/
structure ReadyToInstall (k : PeId) (a : Word) (line : LineData) (new : Mesi) (s : State) : Prop where
  canonical : Canonical s
  lines : LinesCoherent s
  delivered : InMemory s.shm.mem (baseOf a) line
  noSlot : mapFind (baseOf a).toNat s.staging = none
  peers : ∀ {j w}, s.Holds (setOf a) (tagOf a) j w → j ≠ k ∧ (s.frame j (setOf a) w).state = .S ∧ new = .S

section
variable {k : PeId} {a : Word} {line : LineData} {new : Mesi} {s : State} {e : SetIx} {t : Tag}

/-- The frame an installation overwrites (R151, R152). -/
abbrev victimFrame (s : State) (k : PeId) (a : Word) : Line := s.frame k (setOf a) (s.chooseWay k (setOf a))

/-- The line with tag `t` of set `e` is the one an installation flushes. -/
abbrev VictimLine (s : State) (k : PeId) (a : Word) (e : SetIx) (t : Tag) : Prop :=
  evictsDirty s k a ∧ e = setOf a ∧ t = (victimFrame s k a).tag

theorem VictimLine.held (h : VictimLine s k a e t) : s.Holds e t k (s.chooseWay k (setOf a)) := by
  obtain ⟨⟨valid, modified⟩, rfl, rfl⟩ := h
  exact (Line.holds_iff _ _).2 ⟨valid, rfl, by rw [modified]; exact nofun⟩

/-- An installation takes the slot and the bytes of no line but its victim's. -/
theorem sameStore_installLine (hs : Canonical s) (h : ¬VictimLine s k a e t) :
    SameStore e t s (installLine k a line new s) where
  slot := fun slot => by
    rwa [mapFind_installLine] at slot
    rintro ⟨dirty, base⟩
    exact h ⟨dirty, (lineBase_inj base).symm⟩
  bytes := fun i hi => memRead_installLine (memory_wf_sorted hs.memory) fun ⟨inside, dirty⟩ =>
    h ⟨dirty, lineBase_eq_of_inLine ⟨by omega, by omega⟩ inside⟩

/-- A frame that holds another line than the addressed one after an installation is not the frame installed. -/
theorem not_installed_of_holds (other : ¬(e = setOf a ∧ t = tagOf a)) {j : PeId} {w : WayIx}
    (held : (installLine k a line new s).Holds e t j w) : ¬(j = k ∧ e = setOf a ∧ w = s.chooseWay k (setOf a)) := by
  rintro ⟨rfl, rfl, rfl⟩
  rw [State.Holds, installLine_frame, if_pos ⟨rfl, rfl, rfl⟩] at held
  exact other ⟨rfl, (Line.tag_of_holds held).symm⟩

/-- The victim's line is left to its slot and the memory. -/
theorem lineCoherent_victim (hs : Canonical s) (h : LineAgrees e t s) (dirty : VictimLine s k a e t)
    (other : ¬(e = setOf a ∧ t = tagOf a)) : LineCoherent e t (installLine k a line new s) := by
  have held := dirty.held
  obtain ⟨evicts, rfl, rfl⟩ := dirty
  obtain ⟨shm, staging, -⟩ := installLine_bus_of_dirty evicts line new
  have before : ∀ {j w}, (installLine k a line new s).Holds (setOf a) (victimFrame s k a).tag j w →
      s.Holds (setOf a) (victimFrame s k a).tag j w ∧ ¬(j = k ∧ w = s.chooseWay k (setOf a)) := fun holds => by
    have elsewhere := not_installed_of_holds other holds
    rw [State.Holds, installLine_frame, if_neg elsewhere] at holds
    exact ⟨holds, fun here => elsewhere ⟨here.1, rfl, here.2⟩⟩
  refine ⟨h.flush held evicts.2 ⟨fun {j w} holds => ⟨(before holds).1, ?_⟩, ?_, ?_⟩, fun _ holds => ?_⟩
  · rw [installLine_frame, if_neg (not_installed_of_holds other holds)]
  · rw [staging, mapFind_mapInsert, victimBase, if_pos rfl]
  · rw [shm]
    have flushed := inMemory_handleFlush hs k (victimBase s k a) (victimFrame s k a).data
    rwa [baseOf_victimBase] at flushed
  · exact (before holds).2 (h.sole held evicts.2 (before holds).1)

/-- Who holds the addressed line after its installation: the chosen way, or a peer that shares it. -/
theorem holds_installLine (h : ReadyToInstall k a line new s) {j : PeId} {w : WayIx}
    (held : (installLine k a line new s).Holds (setOf a) (tagOf a) j w) :
    (j = k ∧ w = s.chooseWay k (setOf a) ∧
      (installLine k a line new s).frame j (setOf a) w = installedLine a line new) ∨
    (j ≠ k ∧ new = .S ∧ s.Holds (setOf a) (tagOf a) j w ∧ (s.frame j (setOf a) w).state = .S ∧
      (installLine k a line new s).frame j (setOf a) w = s.frame j (setOf a) w) := by
  rw [State.Holds, installLine_frame] at held
  rw [installLine_frame]
  split at held
  · next here => exact .inl ⟨here.1, here.2.2, if_pos here⟩
  · next elsewhere =>
    obtain ⟨peer, shared, installedShared⟩ := h.peers held
    exact .inr ⟨peer, installedShared, held, shared, if_neg elsewhere⟩

/-- The installed line is in the memory, and shared only if it is in S. -/
theorem lineCoherent_installed (h : ReadyToInstall k a line new s) :
    LineCoherent (setOf a) (tagOf a) (installLine k a line new s) := by
  have store := sameStore_installLine (line := line) (new := new) h.canonical
    fun dirty : VictimLine s k a (setOf a) (tagOf a) => (h.peers dirty.held).1 rfl
  have noSlot : ∀ {l}, mapFind (lineBase (tagOf a) (setOf a)).toNat (installLine k a line new s).staging ≠ some l :=
    fun slot => by
      have before := store.slot slot
      rw [lineBase_tagOf_setOf, h.noSlot] at before
      cases before
  refine ⟨⟨fun hj hk => ?_, fun held _ => ?_, fun slot => absurd slot noSlot⟩, fun slot => absurd slot noSlot⟩
  · rcases holds_installLine h hj with ⟨rfl, rfl, frame⟩ | ⟨peer, rfl, before, shared, frame⟩ <;>
      rcases holds_installLine h hk with ⟨rfl, rfl, -⟩ | ⟨peer', installedShared, before', -⟩
    · exact .inl ⟨rfl, rfl⟩
    · exact .inr ⟨peer', by rw [frame]; exact installedShared⟩
    · exact .inr ⟨peer.symm, by rw [frame, shared]⟩
    · rw [frame]
      exact (h.lines _ _).shared before before'
  · rcases holds_installLine h held with ⟨-, -, frame⟩ | ⟨-, -, before, shared, frame⟩ <;> rw [frame]
    · exact store.inMemory (by rw [lineBase_tagOf_setOf]; exact h.delivered)
    · exact store.inMemory ((h.lines _ _).clean before (by rw [shared]; exact nofun))

theorem linesCoherent_installLine (h : ReadyToInstall k a line new s) : LinesCoherent (installLine k a line new s) := by
  intro e t
  by_cases addressed : e = setOf a ∧ t = tagOf a
  · obtain ⟨rfl, rfl⟩ := addressed
    exact lineCoherent_installed h
  · by_cases dirty : VictimLine s k a e t
    · exact lineCoherent_victim h.canonical (h.lines e t).toLineAgrees dirty addressed
    · refine (h.lines e t).shrink ⟨sameStore_installLine h.canonical dirty, fun j w held => ?_⟩
      have same : (installLine k a line new s).frame j e w = s.frame j e w := by
        rw [installLine_frame, if_neg (not_installed_of_holds addressed held)]
      rw [same] at held ⊢
      exact Line.Relaxes.refl t _ held

end

/-! ### A bus read of a line its cache missed (R194, R195, R202) -/

theorem lineShrinks_sourceLine {s : State} (hs : Canonical s) (b : Word) (src : PeId) (e : SetIx) (t : Tag) :
    LineShrinks e t s (sourceLine b src s).2 where
  slot {l} slot := by
    rw [sourceLine_staging] at slot
    split at slot
    · rw [mapFind_mapErase _ _ hs.staging] at slot
      split at slot
      · cases slot
      · exact slot
    · exact slot
  bytes _ _ := by rw [sourceLine_mem]
  frames _ _ := by rw [sourceLine_frame]; exact .refl t _

/-- The line sourced is what the memory has: the slot agrees with the memory, and without a slot the memory is read. -/
theorem inMemory_sourceLine {s : State} {a : Word} (h : LineAgrees (setOf a) (tagOf a) s) (src : PeId) :
    InMemory s.shm.mem (baseOf a) (sourceLine (baseOf a) src s).1 := by
  have agrees := @h.slot
  rw [lineBase_tagOf_setOf] at agrees
  cases slot : mapFind (baseOf a).toNat s.staging with
  | some l => rw [(sourceLine_of_slot slot src).1]; exact agrees slot
  | none => exact fun hb => (sourceLine_of_backed slot (baseOf_mod a) hb src).1

/-- Cache `k` may install the line of address `a` in state `new` after snoops of kind `kind`: the peers that hold it by then have
it in S, and if there are any `new` is S too. -/
def PeersAllow (k : PeId) (kind : SnoopKind) (a : Word) (new : Mesi) (s : State) : Prop :=
  ∀ j w, j ≠ k → (snoopedLine kind a (setOf a) (s.frame j (setOf a) w)).holds (tagOf a) = true →
    (snoopedLine kind a (setOf a) (s.frame j (setOf a) w)).state = .S ∧ new = .S

section
variable {k : PeId} {kind : SnoopKind} {a : Word} {new : Mesi} {s : State}

/-- After its snoops and its sourcing a bus read is ready to install its line. -/
theorem readyToInstall_sourceLine (hs : Coherent s) (canonical : Canonical s) (miss : s.lookup k a = none)
    (peers : PeersAllow k kind a new s) :
    ReadyToInstall k a (deliveredLine k kind a s) new (sourceLine (baseOf a) k (broadcast k kind a s)).2 := by
  have snooped := (outsideLine_broadcast k kind a s).canonical canonical
  have sourced := lineShrinks_sourceLine snooped (baseOf a) k
  have agrees := lineAgrees_broadcast canonical (hs.lines (setOf a) (tagOf a)).toLineAgrees k kind
  have noSlot := mapFind_sourceLine (b := baseOf a) snooped.staging k
  refine ⟨(outsideLine_sourceLine _ k _).canonical snooped, fun e t => ?lines, ?delivered, noSlot, fun {j w} held => ?peers⟩
  case lines =>
    by_cases addressed : e = setOf a ∧ t = tagOf a
    · obtain ⟨rfl, rfl⟩ := addressed
      refine ⟨agrees.shrink (sourced _ _), fun slot => ?_⟩
      rw [lineBase_tagOf_setOf, noSlot] at slot
      cases slot
    · exact ((hs.lines e t).shrink (lineShrinks_broadcast canonical addressed k kind)).shrink (sourced e t)
  case delivered =>
    rw [sourceLine_mem]
    exact inMemory_sourceLine agrees k
  case peers =>
    rw [State.Holds, sourceLine_frame, broadcast_frame] at held
    rw [sourceLine_frame, broadcast_frame]
    by_cases own : j = k
    · subst own
      rw [if_pos rfl, lookup_none miss] at held
      cases held
    · rw [if_neg own] at held ⊢
      exact ⟨own, peers j w own held⟩

theorem keepsCoherence_fill (miss : s.lookup k a = none)
    (peers : PeersAllow k kind a new s) :
    KeepsCoherence s (fill k kind a new s) := by
  refine (effects_fill k kind a new s).keepsCoherence (fun _ wf j e w => ?_) fun hs canonical =>
    linesCoherent_installLine (readyToInstall_sourceLine hs canonical miss peers)
  rw [fill_frame]
  split
  · split
    · exact wf_installedLine a _ new
    · exact wf j e w
  · exact wf_snoopedLine (wf j e w) kind a e

/-- A peer that holds the line after the snoop of a BusRd has it in S (R155 to R157). -/
theorem state_snoopedLine_read {l : Line} (h : (snoopedLine .read a (setOf a) l).holds (tagOf a) = true) :
    (snoopedLine .read a (setOf a) l).state = .S := by
  have before := (snoopedLine_of_holds h).1
  have state := ((Line.holds_iff _ _).1 before).2.2
  unfold snoopedLine
  rw [if_pos (snoopHit_of_holds before)]
  cases found : l.state with
  | I => exact absurd found state
  | S => exact found
  | E | M => rfl

theorem keepsCoherence_emitBusRd (miss : s.lookup k a = none) : KeepsCoherence s (emitBusRd k a s) :=
  keepsCoherence_fill miss fun j w own held =>
    ⟨state_snoopedLine_read held,
      if_pos ((peerHolds_broadcast_read k a s).2 ⟨j, w, own, (snoopedLine_of_holds held).1⟩)⟩

theorem keepsCoherence_emitBusRdX (miss : s.lookup k a = none) : KeepsCoherence s (emitBusRdX k a s) :=
  keepsCoherence_fill miss fun _ _ _ held => nomatch (holds_snoopedLine_invalidate a _).symm.trans held

/-! ### Cache attempts (R144, R145) -/

theorem keepsCoherence_cacheLoad {t : State} (h : LoadAttempt k a s t) : KeepsCoherence s t := by
  rcases cacheLoad_cases k a s with ⟨_, e⟩ | ⟨_, w, _, e⟩ | ⟨_, miss, e⟩ <;> rw [LoadAttempt, e] at h <;> cases h
  · exact (sameData_count k _ s).keepsCoherence.trans (sameData_touch k _ w _).keepsCoherence
  · exact ((sameData_count k _ s).keepsCoherence.trans (sameData_count k _ _).keepsCoherence).trans
      (keepsCoherence_emitBusRd (by simpa using miss))

/-- A line whose one holder owns it and is not staged is coherent. -/
theorem lineCoherent_stored {v : Word} {w : WayIx} {t : State} (hs : Coherent s) (hit : s.lookup k a = some w)
    (e : cacheStore k a v s = .done () t) : LineCoherent (setOf a) (tagOf a) t := by
  have stored := stored_of_done hs hit e
  obtain ⟨shm, staging⟩ := cacheStore_done_bus hs hit e
  have noSlot : ∀ {l}, mapFind (lineBase (tagOf a) (setOf a)).toNat t.staging ≠ some l := fun slot =>
    (hs.lines _ _).unheld (staging ▸ slot) (lookup_some hit).1
  refine ⟨⟨fun hj hk => ?_, fun {j u} held clean => ?_, fun slot => absurd slot noSlot⟩, fun slot => absurd slot noSlot⟩
  · obtain ⟨rfl, rfl⟩ := stored.sole _ _ hj
    exact .inl (stored.sole _ _ hk)
  · obtain ⟨rfl, rfl⟩ := stored.sole j u held
    exact absurd ((Line.owns_iff _ _).1 stored.owns).2 clean

/-- A store hit keeps coherence: it changes no other line, and leaves its own with one owner. -/
theorem keepsCoherence_cacheStore_hit {v : Word} {w : WayIx} {t : State} (hit : s.lookup k a = some w)
    (e : cacheStore k a v s = .done () t) : KeepsCoherence s t := by
  have held := (lookup_some hit).1
  refine (effects_cacheStore (t := t) (by rw [e]; rfl)).keepsCoherence (fun _ wf j st u => ?frame)
    fun hs canonical st tag => ?line
  case frame =>
    rw [cacheStore_done_frame hit e]
    split
    · split
      · exact wf_storedLine (wf k _ w) held a v
      · exact wf j st u
    · split
      · exact wf_snoopedLine (wf j st u) .invalidate a st
      · exact wf j st u
  case line =>
    by_cases addressed : st = setOf a ∧ tag = tagOf a
    · obtain ⟨rfl, rfl⟩ := addressed
      exact lineCoherent_stored hs hit e
    · obtain ⟨shm, staging⟩ := cacheStore_done_bus hs hit e
      refine (hs.lines st tag).shrink ⟨⟨fun slot => staging ▸ slot, fun _ _ => by rw [shm]⟩, fun j u => ?_⟩
      rw [cacheStore_done_frame hit e]
      split
      · split
        · next here =>
          have tag_eq := Line.tag_of_holds ((Line.owns_iff _ _).1 (owns_storedLine held v)).1
          exact fun holds => absurd ⟨here.1, (Line.tag_of_holds holds).symm.trans tag_eq⟩ addressed
        · exact .refl tag _
      · split
        · exact relaxes_snoopedLine fun set tag => absurd ⟨set, tag⟩ addressed
        · exact .refl tag _

theorem keepsCoherence_cacheStore {v : Word} {t : State} (h : StoreAttempt k a v s t) : KeepsCoherence s t := by
  rcases cacheStore_cases k a v s with ⟨_, e⟩ | ⟨_, w, hit, e⟩ | ⟨_, miss, e⟩ <;> rw [StoreAttempt, e] at h <;> cases h
  · exact keepsCoherence_cacheStore_hit hit e
  · exact ((sameData_count k _ s).keepsCoherence.trans (sameData_count k _ _).keepsCoherence).trans
      (keepsCoherence_emitBusRdX (by simpa using miss))

end

end Sys2Proof.Machine
end

section
/-! SUPPORT. Every step of a machine whose host keeps its duties keeps coherence (spec 45_system_step.md R290 to R294,
70_reset_and_hazards.md R348). -/

namespace Sys2Proof.Machine

theorem SameMemory.sameData {s t : State} (h : SameMemory s t) : SameData s t :=
  ⟨fun _ _ _ => by simp only [State.frame, State.cache, h.caches], by rw [h.shm], h.staging⟩

theorem AccessStep.keepsCoherence {i : Instr} {c : Port → Nat} {attempt : State → State → Prop} {s t : State}
    (h : AccessStep i c attempt s t) (keeps : ∀ {u r}, attempt u r → KeepsCoherence u r) : KeepsCoherence s t := by
  rcases h with ⟨m, rfl⟩ | ⟨-, -, u, r, before, run, after⟩
  · exact (sameData_raise m s).keepsCoherence
  · exact (before.sameData.keepsCoherence.trans (keeps run)).trans after.sameData.keepsCoherence

/-- A direct write that runs, and is not refused, meets no held line (R348). -/
theorem holdsAnyOf_of_not_writesHeldLine {a : Word} {l : List Byte} {n : Nat} {r : Option PeId} {s : State}
    (h : writesHeldLine (.shmWrite a l n r) s = false) :
    shmInRange a n = true ∧ n ≤ l.length → s.holdsAnyOf a.toNat n = false := by
  rintro ⟨range, length⟩
  simpa [writesHeldLine, range, length] using h

/-- A direct write leaves the bytes of a line it does not meet. -/
theorem memRead_shmWrite_of_apart {a : Word} {l : List Byte} {n : Nat} {r : Option PeId} {s : State}
    (memory : Memory.wf s.shm.mem = true) {b i : Nat} (hi : i < 32)
    (apart : shmInRange a n = true ∧ n ≤ l.length → overlapsLine a.toNat n b = false) :
    memRead (shmWrite a l n r s.shm).2.mem (b + i) = memRead s.shm.mem (b + i) := by
  by_cases runs : shmInRange a n = true ∧ n ≤ l.length
  · have disjoint := apart runs
    rw [overlapsLine, decide_eq_false_iff_not] at disjoint
    exact memRead_shmWrite_of_not_mem memory (by omega) l r
  · rw [shmWrite_mem, if_neg runs]

theorem keepsCoherence_execShmWrite {a : Word} {l : List Byte} {n : Nat} {r : Option PeId} {s t : State}
    (unheld : writesHeldLine (.shmWrite a l n r) s = false) (h : exec (.shmWrite a l n r) s = .next t) :
    KeepsCoherence s t := by
  intro hs memory
  cases h
  refine ⟨⟨⟨hs.frames.invalidIsI, hs.frames.dirtyIffM, hs.frames.tagOnce⟩, hs.shared, fun k st w live clean hb i hi => ?_, hs.staging.sorted,
    hs.staging.keys, hs.staging.unheld, fun p hp hb i hi => ?_⟩, memory_wf_shmWrite memory a l n r⟩
  · refine (hs.clean k st w live clean hb i hi).trans (memRead_shmWrite_of_apart memory hi fun runs => ?_).symm
    exact (holdsAnyOf_eq_false.1 (holdsAnyOf_of_not_writesHeldLine unheld runs)).2 k st w live
  · refine (hs.staging.match_memory p hp hb i hi).trans (memRead_shmWrite_of_apart memory hi fun runs => ?_).symm
    exact (holdsAnyOf_eq_false.1 (holdsAnyOf_of_not_writesHeldLine unheld runs)).1 p hp

/-- Every PE instruction and every command a host may queue keeps coherence. -/
theorem keepsCoherence_exec {i : Instr} {s t : State}
    (allowed : i.format = .i32 ∨ hostAllowed i = true ∧ writesHeldLine i s = false) (h : exec i s = .next t) :
    KeepsCoherence s t := by
  cases i with
  | load | load64 => exact (exec_load_step rfl h).keepsCoherence keepsCoherence_cacheLoad
  | store | store64 => exact (exec_store_step rfl h).keepsCoherence keepsCoherence_cacheStore
  | inv src a => cases h; exact keepsCoherence_emitInvalidate src a s
  | shmRead => exact (sameData_execShmRead h).keepsCoherence
  | shmWrite => exact keepsCoherence_execShmWrite (allowed.resolve_left nofun).2 h
  | fmul | fadd | inc | dec | jnz | lea | halt => exact (sameData_of_registerOnly rfl h).keepsCoherence
  | _ => rcases allowed with format | ⟨host, -⟩ <;> contradiction

theorem keepsCoherence_step {s t : State} (duties : HostDuties s) (h : step s = .next t) : KeepsCoherence s t := by
  have turned : ∀ k, KeepsCoherence s { s with turn := k } := fun _ =>
    SameData.keepsCoherence ⟨fun _ _ _ => rfl, rfl, rfl⟩
  obtain ⟨-, ⟨c, rest, i, u, queued, hi, unheld, hu, rfl⟩ | ⟨k, -, -, -, -, rfl⟩ |
    ⟨k, i, u, -, -, -, fetched, hu, rfl⟩⟩ := step_cases h
  · have allowed := duties c (by rw [queued]; exact List.mem_cons_self) i hi
    have same : writesHeldLine i { s with turn := c.port } = writesHeldLine i s := by cases i <;> rfl
    have after : SameData u (afterCmd s c rest u) := ⟨fun _ _ _ => rfl, rfl, rfl⟩
    exact ((turned c.port).trans (keepsCoherence_exec (.inr ⟨allowed, same.trans unheld⟩) hu)).trans after.keepsCoherence
  · exact SameData.keepsCoherence ⟨fun _ _ _ => rfl, rfl, rfl⟩
  · have after : SameData u u.reschedule := ⟨fun _ _ _ => rfl, rfl, rfl⟩
    exact ((turned k).trans (keepsCoherence_exec (.inl (format_of_fetch fetched)) hu)).trans after.keepsCoherence

/-- A step queues no record. -/
theorem step_cmds_subset {s t : State} (h : step s = .next t) : t.cmds ⊆ s.cmds := by
  obtain ⟨-, ⟨c, rest, i, u, queued, -, -, -, rfl⟩ | ⟨k, -, -, -, -, rfl⟩ | ⟨k, i, u, -, -, -, fetched, hu, rfl⟩⟩ :=
    step_cases h
  · exact afterCmd_cmds_subset queued
  · exact List.Subset.refl _
  · have cmds : u.reschedule.cmds = s.cmds := (agentOnly_exec (format_of_fetch fetched) hu).cmds
    exact cmds ▸ List.Subset.refl _

/-- Settles O49: a step executes one instruction, and each keeps every line coherent: it relaxes the frames of a line, has its
one dirty holder flush it, installs it, or leaves it with one owner. A direct write meets no held line. -/
theorem coherenceIsKept : Obligations.CoherenceIsKept := by
  refine ⟨fun s t inv h => ?step, fun a l n r s free hs memory => ?free,
    fun a l n r s t hs memory unheld h => (keepsCoherence_execShmWrite unheld h hs memory).1⟩
  case step =>
    obtain ⟨coherent, memory⟩ := keepsCoherence_step inv.duties h inv.coherent inv.memory
    exact ⟨coherent, memory, inv.duties.mono (step_cmds_subset h)⟩
  case free =>
    have unheld := writesHeldLine_of_hostShmFree free (.shmWrite a l n r)
    exact ⟨unheld, _, rfl, (keepsCoherence_execShmWrite unheld rfl hs memory).1, free⟩

end Sys2Proof.Machine
end

section
/-! SUPPORT. Who steps, and that whoever may step can (spec 43_memory_port.md R233, 45_system_step.md R282, R284). -/

namespace Sys2Proof.Machine

/-! ### An enabled agent stays enabled until it steps (R284) -/

/-- A step of an agent leaves every other PE alone (R241). -/
theorem agentStep_pe_ne {j k : PeId} {s t : State} (h : agentStep k s = .next t) (hj : j ≠ k) : t.pe j = s.pe j := by
  rcases agentStep_cases h with ⟨-, rfl⟩ | ⟨i, u, fetched, hu, rfl⟩
  · show (s.halt k).pe j = s.pe j
    exact State.pe_modPe_ne s hj _
  · exact (agentOnly_exec (format_of_fetch fetched) hu).pes j hj

theorem enabled_congr {j : PeId} {s t : State} (fault : t.fault = s.fault) (pe : t.pe j = s.pe j) :
    t.enabled j = s.enabled j := by
  rw [State.enabled, State.enabled, fault, pe]

/-- In a run without a fault mark an agent that never steps stays enabled. -/
theorem Run.enabled_of_waiting {order : Nat → PeId} {run : Nat → State} {k : PeId} (h : Run order run)
    (unmarked : ∀ n, (run n).fault = none) (waiting : ∀ n, ¬AgentSteps k (run n) (run (n + 1)))
    (start : (run 0).enabled k = true) (n : Nat) : (run n).enabled k = true := by
  induction n with
  | zero => exact start
  | succ n ih =>
    rcases h n with steps | ⟨done, -⟩
    · have other : k ≠ order n := fun e => waiting n (e ▸ steps)
      rwa [enabled_congr ((unmarked _).trans (unmarked n).symm) (agentStep_pe_ne steps.2 other)]
    · cases (done k).symm.trans ih

/-- Settles O12: the agent chosen is found among the enabled ones, the preferred one first; and an agent that waits stays
enabled, so that weak fairness names a step of its own. -/
theorem anyEnabledAgentMayStep : Obligations.AnyEnabledAgentMayStep := by
  refine ⟨fun s k => nextAgent_enabled, fun s k enabled => List.find?_cons_of_pos enabled,
    fun order run k h fair start => ?_⟩
  by_contra never
  push Not at never
  have enabled := h.enabled_of_waiting (fun n => (never n).2) (fun n => (never n).1) start
  obtain ⟨n, -, rfl⟩ := fair k 0 fun m _ => enabled m
  rcases h n with steps | ⟨done, -⟩
  · exact (never n).1 steps
  · cases (done _).symm.trans (enabled n)

/-! ### No instruction of an agent is refused (R233, R235) -/

/-- The outcome is a next state. -/
def Proceeds (o : Host.Outcome State Fault Refusal) : Prop := ∃ t, o = .next t

theorem proceeds_next (t : State) : Proceeds (.next t) := ⟨t, rfl⟩

/-- An instruction proceeds if it does with its source registers readable: else it raises. -/
theorem proceeds_of_readable {i : Instr} {s : State} (h : operandsReadable i s → Proceeds (exec i s)) :
    Proceeds (exec i s) := by
  obtain ⟨run, e⟩ := exec_eq_withRegs i s
  rcases withRegs_cases s.turn (sourceRegs i) s run with ⟨readable, -⟩ | ⟨r, -, -, raised⟩
  · exact h readable
  · exact ⟨_, e.trans raised⟩

theorem Answers.proceeds {α : Type} {o : Host.Outcome State Fault Refusal} {s : State} {a : Word} {attempt : Attempt α}
    (h : Answers o s a attempt) : Proceeds o := by
  cases attempt with
  | done v u | retry u => exact h.imp fun _ => And.left
  | lineCross => exact ⟨_, h⟩

/-- A PE instruction whose access its port takes proceeds (R235). -/
theorem proceeds_exec {i : Instr} {s : State} (hi : i.format = .i32) (taken : accessTaken i s) : Proceeds (exec i s) := by
  refine proceeds_of_readable fun readable => ?_
  cases i with
  | load d a =>
    obtain ⟨u, -, answers⟩ := exec_load_answers rfl readable taken
    exact answers.proceeds
  | store d a =>
    obtain ⟨u, -, answers⟩ := exec_store_answers rfl readable taken
    exact answers.proceeds
  | inc d => exact ⟨_, exec_inc readable⟩
  | dec d => exact ⟨_, exec_dec readable⟩
  | fmul d a b => exact ⟨_, exec_fmul readable⟩
  | fadd d a b => exact ⟨_, exec_fadd readable⟩
  | jnz d imm => exact ⟨_, exec_jnz readable⟩
  | lea d a b imm =>
    cases shift : shiftAmountOk imm with
    | true => exact ⟨_, exec_lea readable shift⟩
    | false => exact ⟨_, exec_lea_illFormed readable shift⟩
  | halt => exact ⟨_, exec_halt s⟩
  | _ => cases hi

/-- The port of a PE takes the access the PE stands at: it is idle, or serves that very access (R233). -/
theorem PortMatchesPe.accessTaken {i : Instr} {s : State} (h : PortMatchesPe s s.turn) (hi : i.format = .i32)
    (fetched : s.fetch s.turn = .instr i) : accessTaken i s := by
  cases i with
  | load d a =>
    cases busy : (s.port s.turn).fsm with
    | idle => exact .inl busy
    | busyLoad b =>
      obtain ⟨d', a', fetched', rfl⟩ := h.load b busy
      cases fetched.symm.trans fetched'
      exact .inr busy
    | busyStore b v =>
      obtain ⟨d', a', fetched', -⟩ := h.store b v busy
      cases fetched.symm.trans fetched'
  | store d a =>
    cases busy : (s.port s.turn).fsm with
    | idle => exact .inl busy
    | busyLoad b =>
      obtain ⟨d', a', fetched', -⟩ := h.load b busy
      cases fetched.symm.trans fetched'
    | busyStore b v =>
      obtain ⟨d', a', fetched', rfl, rfl⟩ := h.store b v busy
      cases fetched.symm.trans fetched'
      exact .inr busy
  | fmul | fadd | inc | dec | jnz | lea | halt => exact trivial
  | _ => cases hi

theorem proceeds_agentStep {k : PeId} {s : State} (h : PortMatchesPe s k) : Proceeds (agentStep k s) := by
  cases fetched : s.fetch k with
  | outside => exact ⟨_, agentStep_of_outside fetched⟩
  | undefined => exact ⟨_, agentStep_of_undefined fetched⟩
  | instr i =>
    have turned : PortMatchesPe { s with turn := k } k := h.congr rfl rfl
    have format := format_of_fetch fetched
    obtain ⟨u, hu⟩ := proceeds_exec (s := { s with turn := k }) format (turned.accessTaken format fetched)
    exact ⟨_, by rw [agentStep_of_instr fetched, hu]; rfl⟩

/-- Settles O13: an enabled agent is chosen, and its port takes the access its PE stands at. -/
theorem enabledAgentsNeverWait : Obligations.EnabledAgentsNeverWait := by
  rintro s unmarked noRecord matching ⟨j, enabled⟩
  cases chosen : s.nextAgent with
  | none => cases (nextAgent_none.1 chosen j).symm.trans enabled
  | some k =>
    rw [step_of_nextAgent unmarked noRecord chosen]
    exact proceeds_agentStep (matching k)

end Sys2Proof.Machine
end

section
/-! PROOFS. The fault mark (spec 60_exceptions.md R316): a raise writes it once, and a state that holds it is stuck. -/

namespace Sys2Proof.Machine

/-- The first fault is kept: a raise on a set mark changes nothing (R316). -/
theorem raise_of_some {s : State} {g : FaultMark} (h : s.fault = some g) (f : FaultMark) : s.raise f = s := by
  rw [State.raise, h]

/-- An enabled agent needs an empty mark (R282). -/
theorem enabled_of_fault {s : State} {f : FaultMark} (h : s.fault = some f) (k : PeId) : s.enabled k = false := by
  rw [Bool.eq_false_iff, ne_eq, enabled_iff]
  rintro ⟨unmarked, -⟩
  cases h.symm.trans unmarked

/-- A run that ended by a fault has no final state (R288). -/
theorem isFinal_of_fault {s : State} {f : FaultMark} (h : s.fault = some f) : s.isFinal = false := by
  simp [State.isFinal, h]

/-- Settles O16: a raise looks at the mark first, and so do the step, enabledness and finality. -/
theorem faultMarkIsWrittenOnce : Obligations.FaultMarkIsWrittenOnce :=
  ⟨fun _ f unmarked => raise_of_none unmarked f, fun _ f _ marked => raise_of_some marked f,
    fun _ _ marked => ⟨step_of_fault marked, enabled_of_fault marked, isFinal_of_fault marked⟩⟩

end Sys2Proof.Machine
end

section
/-! SUPPORT. What the components of the state are at reset and after a launch (spec 70_reset_and_hazards.md R341, R344 to
R347). -/

namespace Sys2Proof.Machine

/-! ### The components at reset (R341) -/

@[simp] theorem reset_pe (k : PeId) : State.reset.pe k = Pe.reset := by simp [State.pe, State.reset]
@[simp] theorem reset_port (k : PeId) : State.reset.port k = Port.reset := by simp [State.port, State.reset]
@[simp] theorem reset_cache (k : PeId) : State.reset.cache k = Cache.reset := by simp [State.cache, State.reset]

@[simp] theorem Cache.cset_reset (st : SetIx) : Cache.reset.cset st = CacheSet.reset := by
  simp [Cache.cset, Cache.reset]
@[simp] theorem CacheSet.way_reset (w : WayIx) : CacheSet.reset.way w = Line.reset := by
  simp [CacheSet.way, CacheSet.reset]

@[simp] theorem reset_frame (k : PeId) (st : SetIx) (w : WayIx) : State.reset.frame k st w = Line.reset := by
  rw [State.frame, reset_cache, Cache.cset_reset, CacheSet.way_reset]

@[simp] theorem Cache.transCount_reset (f t : Mesi) : Cache.reset.transCount f t = 0 := by
  simp [Cache.transCount, Cache.reset]
@[simp] theorem Shm.peCtr_reset (p : PeId) : Shm.reset.peCtr p = ShmPeCounters.reset := by simp [Shm.peCtr, Shm.reset]
@[simp] theorem Pe.isWritten_reset (i : Reg) : Pe.reset.isWritten i = false := by simp [Pe.isWritten, Pe.reset]

/-! ### The laws of a cache and its port at reset (R164, R165, R295) -/

theorem counterLaws_reset : CounterLaws Cache.reset := ⟨rfl, rfl, rfl, rfl, rfl⟩

theorem logLaws_reset : LogLaws Cache.reset :=
  ⟨fun f t => (Cache.transCount_reset f t).trans List.count_nil.symm, fun _ logged => (nomatch logged)⟩

theorem portLaws_reset : PortLaws Port.reset Cache.reset := ⟨rfl, rfl, le_rfl, le_rfl⟩

/-! ### Registers the host writes (R347) -/

section
variable (p : Pe) (regs : List (Reg × Word))

@[simp] theorem Pe.setRegs_pc : (p.setRegs regs).pc = p.pc := by rw [Pe.setRegs_eq]
@[simp] theorem Pe.setRegs_halted : (p.setRegs regs).halted = p.halted := by rw [Pe.setRegs_eq]
@[simp] theorem Pe.setRegs_steps : (p.setRegs regs).steps = p.steps := by rw [Pe.setRegs_eq]

variable {regs} in
/-- A register the host does not write keeps its value. -/
theorem Pe.reg_setRegs_of_not_mem {i : Reg} (h : ∀ u, (i, u) ∉ regs) : (p.setRegs regs).reg i = p.reg i := by
  induction regs generalizing p with
  | nil => rfl
  | cons r rest ih =>
    have other : i ≠ r.1 := by rintro rfl; exact h r.2 List.mem_cons_self
    calc (p.setRegs (r :: rest)).reg i
        = (p.setReg r.1 r.2).reg i := ih _ fun u later => h u (List.mem_cons_of_mem r later)
      _ = p.reg i := by rw [Pe.reg_setReg, if_neg other]

/-- A register holds the last value the host writes to it. -/
theorem Pe.reg_setRegs_of_last (before : List (Reg × Word)) {after : List (Reg × Word)} {i : Reg} (v : Word)
    (h : ∀ u, (i, u) ∉ after) : (p.setRegs (before ++ (i, v) :: after)).reg i = v := by
  have writes : p.setRegs (before ++ (i, v) :: after) = ((p.setRegs before).setReg i v).setRegs after :=
    List.foldl_append
  rw [writes, Pe.reg_setRegs_of_not_mem _ h, Pe.reg_setReg_self]

end

/-! ### A PE the host starts (R346 steps 3 to 5) -/

section
variable (p : Pe) (l : PeLaunch)

@[simp] theorem Pe.launch_program : (p.launch l).program = l.program := rfl
@[simp] theorem Pe.launch_started : (p.launch l).started = true := rfl
@[simp] theorem Pe.launch_pc : (p.launch l).pc = p.pc := p.setRegs_pc l.regs
@[simp] theorem Pe.launch_halted : (p.launch l).halted = p.halted := p.setRegs_halted l.regs
@[simp] theorem Pe.launch_steps : (p.launch l).steps = p.steps := p.setRegs_steps l.regs
@[simp] theorem Pe.launch_reg (i : Reg) : (p.launch l).reg i = (p.setRegs l.regs).reg i := rfl
@[simp] theorem Pe.launch_isWritten (i : Reg) : (p.launch l).isWritten i = (p.setRegs l.regs).isWritten i := rfl

/-- The budget is counted from the steps taken, of which a PE at reset has none (R255). -/
@[simp] theorem Pe.launch_reset_maxSteps : (Pe.reset.launch l).maxSteps = l.maxSteps := by
  simp [Pe.launch, Pe.reset]

theorem Pe.isWritten_launch_reset (i : Reg) : (Pe.reset.launch l).isWritten i = true ↔ ∃ v, (i, v) ∈ l.regs := by
  simp [Pe.isWritten_setRegs]

end

/-! ### The launched state (R346) -/

section
variable (l : Launch)

@[simp] theorem launch_pe (k : PeId) : (State.launch l).pe k = Pe.reset.launch l.pes[k] := by
  simp [State.pe, State.launch]

@[simp] theorem launch_port (k : PeId) : (State.launch l).port k = Port.reset := reset_port k
@[simp] theorem launch_cache (k : PeId) : (State.launch l).cache k = Cache.reset := reset_cache k
@[simp] theorem launch_frame (k : PeId) (st : SetIx) (w : WayIx) : (State.launch l).frame k st w = Line.reset :=
  reset_frame k st w

variable {l} in
/-- A full image is what the memory holds. -/
theorem memRead_launch (full : l.shmInit.length = 4096) {x : Nat} (hx : x < 4096) :
    memRead (State.launch l).shm.mem x = l.shmInit.getD x 0 := by
  have written := memRead_memWriteBytes_take (m := []) rfl 0 (n := 4096) full.ge x
  rwa [if_pos (by omega)] at written

theorem memory_wf_launch : Memory.wf (State.launch l).shm.mem = true := by
  have inside := List.length_take_le Config.shmBytes l.shmInit
  exact memory_wf_memWriteBytes (m := []) rfl (by omega)

end

/-- With no line held and no slot there is nothing that could disagree (R290 to R294). -/
theorem coherent_of_empty {s : State} (frames : ∀ k st w, s.frame k st w = Line.reset) (staging : s.staging = []) :
    Coherent s := by
  have dead (k st w) : (s.frame k st w).live ≠ true := by simp [frames, Line.live, Line.reset]
  have noSlot (p) : p ∉ s.staging := by simp [staging]
  exact
    { frames :=
        { invalidIsI := fun k st w _ => by rw [frames]; rfl
          dirtyIffM := fun k st w => by simp [frames, Line.reset]
          tagOnce := fun k st live => absurd live (dead k st 0) }
      shared := fun j _ st w _ _ live => absurd live (dead j st w)
      clean := fun k st w live => absurd live (dead k st w)
      staging :=
        { sorted := by rw [staging]; rfl
          keys := fun p slot => absurd slot (noSlot p)
          unheld := fun p slot => absurd slot (noSlot p)
          match_memory := fun p slot => absurd slot (noSlot p) } }

theorem inv_launch (l : Launch) : Inv (State.launch l) where
  coherent := coherent_of_empty (launch_frame l) rfl
  memory := memory_wf_launch l
  duties := fun _ queued => (nomatch queued)

end Sys2Proof.Machine
end

section
/-! PROOFS. Reset, the launch, and the invariants at the launch (spec 70_reset_and_hazards.md R340 to R347). -/

namespace Sys2Proof.Machine

/-- Settles O18: the launch changes the memory and the PEs of the reset state, and writes the registers in their order. -/
theorem launchState : Obligations.LaunchState := by
  intro l full
  refine ⟨fun _ => memRead_launch full, rfl, rfl, Shm.peCtr_reset, rfl, rfl, rfl, rfl, rfl, fun k => ?_, fun k i => ?_,
    fun k i v before after regs last => ?_⟩
  · rw [launch_pe]
    exact ⟨Pe.launch_program _ _, Pe.launch_reset_maxSteps _, Pe.launch_pc _ _, Pe.launch_halted _ _,
      Pe.launch_started _ _, Pe.launch_steps _ _⟩
  · rw [launch_pe]
    exact Pe.isWritten_launch_reset _ i
  · rw [State.reg, launch_pe, Pe.launch_reg, regs]
    exact Pe.reg_setRegs_of_last _ before v last

/-- Settles O50: a launched state holds no line and no slot, its counters and logs are empty and its ports idle. -/
theorem invariantsHoldAtLaunch : Obligations.InvariantsHoldAtLaunch := by
  refine fun l => ⟨inv_launch l, fun k => ?_⟩
  rw [launch_cache, launch_port]
  exact ⟨counterLaws_reset, logLaws_reset, portLaws_reset, portMatchesPe_of_idle (congrArg Port.fsm (launch_port l k))⟩

/-- Settles O17: each component has its reset value, and an agent needs a start to have a step. -/
theorem resetState : Obligations.ResetState := by
  have notStarted (k : PeId) : (State.reset.pe k).started ≠ true := by simp [reset_pe, Pe.reset]
  refine ⟨rfl, rfl, Shm.peCtr_reset, fun k st w => ?_, fun k st => ?_, fun k => ?_, fun k f t => ?_, fun k => ?_, rfl, rfl,
    fun k => ?_, fun k i => ?_, fun k => ?_, rfl, fun k => ?_⟩
  · rw [reset_frame]; exact ⟨rfl, rfl, rfl, rfl, rfl⟩
  · rw [reset_cache, Cache.cset_reset]; rfl
  · rw [reset_cache]; rfl
  · rw [reset_cache, Cache.transCount_reset]
  · rw [reset_cache]; rfl
  · rw [reset_port]; exact ⟨rfl, rfl, rfl⟩
  · rw [reset_pe, Pe.isWritten_reset]
  · rw [reset_pe]; exact ⟨rfl, rfl, rfl⟩
  · exact ⟨Bool.eq_false_iff.2 (notStarted k), Bool.eq_false_iff.2 fun enabled => notStarted k (started_of_enabled enabled)⟩

end Sys2Proof.Machine
end
